-- ==== Sys2Proof/Word.lean ====
section
/-! DEFINITION. The byte and the two-byte field of the control link's messages (R164). -/

namespace Sys2Proof

/-- One byte of the control link (R163). -/
abbrev Byte := BitVec 8

/-- A two-byte message field, most significant byte first on the line (R164). -/
abbrev Half := BitVec 16

end Sys2Proof
end

