-- ==== Sys2Proof/Config.lean ====
section
/-! DEFINITION. What the manual leaves open: the free values. -/

namespace Sys2Proof

/-- What the last interval of a source reads after a measured interval of more than 4,294,967,295
ticks. Section 3.1 gives the field the values 0..4,294,967,295 and no rule says what a longer
interval leaves there. A FREE VALUE, applied to the measured interval (log entry 22). -/
opaque Config.longInterval : Nat → BitVec 32

end Sys2Proof
end

