-- ==== Sys2Proof/Syntax.lean ====
section
/-! DEFINITION. The commands of the card: one constructor of `Instr` for each row of the table of
operations and events, with the row's operands. Requests carry the fields of their message as they
stand in the payload (Chapter 10); events carry what the card measures or receives. -/

namespace Sys2Proof

/-- A programme channel, 0 to 3 (00_scope 5.5). -/
inductive Chan where
  | c0 | c1 | c2 | c3
deriving DecidableEq, Repr

/-- A source port, S0 to S5 (00_scope 5.5). -/
inductive Port where
  | s0 | s1 | s2 | s3 | s4 | s5
deriving DecidableEq, Repr

/-- The channels in number order. -/
def Chan.all : List Chan := [.c0, .c1, .c2, .c3]

/-- The ports in index order. -/
def Port.all : List Port := [.s0, .s1, .s2, .s3, .s4, .s5]

/-- One value for each channel. -/
structure PerChan (α : Type) where
  v0 : α
  v1 : α
  v2 : α
  v3 : α
deriving DecidableEq, Repr

/-- One value for each source port. -/
structure PerPort (α : Type) where
  p0 : α
  p1 : α
  p2 : α
  p3 : α
  p4 : α
  p5 : α
deriving DecidableEq, Repr

def PerChan.get {α : Type} (v : PerChan α) : Chan → α
  | .c0 => v.v0
  | .c1 => v.v1
  | .c2 => v.v2
  | .c3 => v.v3

def PerChan.set {α : Type} (v : PerChan α) (c : Chan) (a : α) : PerChan α :=
  match c with
  | .c0 => { v with v0 := a }
  | .c1 => { v with v1 := a }
  | .c2 => { v with v2 := a }
  | .c3 => { v with v3 := a }

def PerChan.fill {α : Type} (a : α) : PerChan α := ⟨a, a, a, a⟩

def PerChan.map {α β : Type} (f : α → β) (v : PerChan α) : PerChan β :=
  ⟨f v.v0, f v.v1, f v.v2, f v.v3⟩

def PerPort.get {α : Type} (v : PerPort α) : Port → α
  | .s0 => v.p0
  | .s1 => v.p1
  | .s2 => v.p2
  | .s3 => v.p3
  | .s4 => v.p4
  | .s5 => v.p5

def PerPort.set {α : Type} (v : PerPort α) (p : Port) (a : α) : PerPort α :=
  match p with
  | .s0 => { v with p0 := a }
  | .s1 => { v with p1 := a }
  | .s2 => { v with p2 := a }
  | .s3 => { v with p3 := a }
  | .s4 => { v with p4 := a }
  | .s5 => { v with p5 := a }

def PerPort.fill {α : Type} (a : α) : PerPort α := ⟨a, a, a, a, a, a⟩

def PerPort.map {α β : Type} (f : α → β) (v : PerPort α) : PerPort β :=
  ⟨f v.p0, f v.p1, f v.p2, f v.p3, f v.p4, f v.p5⟩

/-- Two pixels of a line and the chroma they share: 10-bit Y'CbCr 4:2:2 (R4). -/
structure Pair where
  y0 : BitVec 10
  y1 : BitVec 10
  cb : BitVec 10
  cr : BitVec 10
deriving DecidableEq, Repr

/-- A frame's picture: its active width and lines, and its lines of pixel pairs. A pair that the
lists do not hold is black (log entry 7: a short form for pictures, every picture can be written). -/
structure Picture where
  w : Nat
  h : Nat
  rows : List (List Pair)
deriving DecidableEq, Repr

/-- The timecode word of a programme frame (R20). -/
structure TcWord where
  h : Byte
  m : Byte
  s : Byte
  ff : Byte
  pair : Bool
  drop : Bool
deriving DecidableEq, Repr

/-- A label as the host gives it: six bytes (R176). -/
structure HostLabel where
  h : Byte
  m : Byte
  s : Byte
  ff : Byte
  pair : Byte
  next : Byte
deriving DecidableEq, Repr

/-- A notice set as it is carried: one byte for the card, two for each channel (R176). -/
structure NoticeBits where
  card : BitVec 8
  chan : PerChan (BitVec 16)
deriving DecidableEq, Repr

/-- The fields of SRC_SET (R180). -/
structure SrcMsg where
  src : Byte
  cropKind : Byte
  x : Half
  y : Half
  w : Half
  h : Half
  keyOn : Byte
  kb : Half
  kr : Half
  tlo : Half
  wk : Half
deriving DecidableEq, Repr

/-- The fields of ZONE_DEFINE but its operation (R186). -/
structure ZoneMsg where
  ch : Byte
  zone : Byte
  x : Half
  y : Half
  w : Half
  h : Half
  cls : Byte
  activity : Byte
  expPresent : Byte
  expiry : HostLabel
deriving DecidableEq, Repr

/-- A cue record of CUE_LOAD: tag, label and the 20 bytes of the action part (R175). -/
structure CueRec where
  tag : Half
  label : HostLabel
  part : List Byte
deriving DecidableEq, Repr

/-- A request as it stands in a receive slot: the payload, read by its kind (R171). -/
inductive Request where
  | ident
  | house (code : Byte)
  | reset
  | noticeEnable (set : NoticeBits)
  | noticeRead
  | noticeAck (set : NoticeBits)
  | linkCounts
  | srcRead (src : Byte)
  | srcSet (m : SrcMsg)
  | chMode (ch mode : Byte)
  | chDelay (ch target : Byte)
  | chSetup (ch glide hold standby : Byte)
  | chRead (ch : Byte)
  | chClear (ch : Byte)
  | chTake (ch : Byte) (part : List Byte)
  | zoneDefine (op : Byte) (m : ZoneMsg)
  | zoneRead (ch : Byte)
  | cueLoad (ch : Byte) (recs : List CueRec)
  | cueRemove (ch form : Byte) (tag : Half) (lo hi : HostLabel)
  | cueRead (ch pos count : Byte)
  | faultRead (ch : Byte)
  | faultClear (ch : Byte)
  | unknownKind (payload : List Byte)
  | badLength (payload : List Byte)
deriving DecidableEq, Repr

/-- The commands: the rows of the table of operations and events. -/
inductive Instr where
  -- requests
  | ident
  | house (code : Byte)
  | reset
  | noticeEnable (set : NoticeBits)
  | noticeRead
  | noticeAck (set : NoticeBits)
  | linkCounts
  | srcRead (src : Byte)
  | srcSet (m : SrcMsg)
  | chMode (ch mode : Byte)
  | chDelay (ch target : Byte)
  | chSetup (ch glide hold standby : Byte)
  | chRead (ch : Byte)
  | chClear (ch : Byte)
  | chTake (ch : Byte) (part : List Byte)
  | zoneDefine (m : ZoneMsg)
  | zoneUndefine (ch zone : Byte)
  | zoneRead (ch : Byte)
  | cueLoad (ch : Byte) (recs : List CueRec)
  | cueRemoveByTag (ch : Byte) (tag : Half)
  | cueRemoveByRange (ch : Byte) (lo hi : HostLabel)
  | cueRead (ch pos count : Byte)
  | faultRead (ch : Byte)
  | faultClear (ch : Byte)
  -- link events
  | linkReject
  | unknownKind (payload : List Byte)
  | badLength (payload : List Byte)
  | replySent
  | rxByte (b : Byte)
  | framingError
  | byteGapTimeout
  -- resets and power
  | powerOnReset
  | powerLoss
  | pinReset
  | resetPinRelease
  | resetComplete
  -- the house reference and frame starts
  | refPulse (dt : Nat) (order : List Chan)
  | refSilence
  | freeRunFrameStart (order : List Chan)
  | latePulseFrameStart (order : List Chan)
  -- steps within a channel's frame start
  | slewStep (c : Chan)
  | tcLost (c : Chan)
  | zoneExpiry (c : Chan)
  | fadeEnd (c : Chan)
  | glideEnd (c : Chan)
  | holdExpired (c : Chan)
  -- the programme inputs
  | pgmFrameStart (c : Chan) (dt : Nat) (w h : Half)
  | pgmFrameComplete (c : Chan) (word : Option TcWord) (pic : Picture)
  | pgmSilence (c : Chan)
  -- the source ports
  | portFrameStart (p : Port) (dt : Nat) (w h : Half)
  | portSilence (p : Port)
  | sourceFrameComplete (p : Port) (pic : Picture)
deriving DecidableEq, Repr

end Sys2Proof
end

