-- ==== Sys2Proof/Machine/State.lean ====
section
/-! DEFINITION. The state of the card as plain data: every item the manual gives it, its value after
a power-on reset, and the two reason types of a step that does not go on. -/

namespace Sys2Proof.Machine

/-! ### Named values -/

/-- The six house formats, codes 1 to 6 of R1. UNSET is the absence of one. -/
inductive Format where
  | f1 | f2 | f3 | f4 | f5 | f6
deriving DecidableEq, Repr

/-- The states of the reference checker (R5). -/
inductive RefState where
  | idle | acquiring | locked | free
deriving DecidableEq, Repr

/-- The channel modes (section 1.8). -/
inductive Mode where
  | bypass | thru | auto
deriving DecidableEq, Repr

/-- The positions of a bypass relay (R14). -/
inductive Relay where
  | bypass | processed
deriving DecidableEq, Repr

/-- The states of a programme checker (R7). -/
inductive PgmState where
  | waiting | present | lost
deriving DecidableEq, Repr

/-- The states of a label tracker (section 2.2). -/
inductive TrackState where
  | locked | flywheel | lost
deriving DecidableEq, Repr

/-- The states of a source (section 3.3). -/
inductive SrcState where
  | absent | detecting | rejected | ready | taken | lost | releasing
deriving DecidableEq, Repr

/-- The inset states (section 7.2). -/
inductive Inset where
  | hidden | fadingIn | shown | fadingOut | crossfade | held | forcedOut
deriving DecidableEq, Repr

/-- The outcomes of a resolution (R83, R84). -/
inductive PlaceOutcome where
  | asRequested | moved | shrunk | softCovered | heldPlace | forcedOut
deriving DecidableEq, Repr

/-- The classes of a zone (R96). -/
inductive ZoneClass where
  | hard | soft
deriving DecidableEq, Repr

/-- The pool's answer to a request for the spare, or that none was made (R134, R137). -/
inductive SpareAns where
  | notAsked | granted | refused
deriving DecidableEq, Repr

/-- Why an on-air action fails (R153). -/
inductive Reason where
  | sourceNotReady | sourceBusy | noHome | wrongState | emptyStack | noZone
deriving DecidableEq, Repr

/-- The result codes of a reply (R172). -/
inductive ResultCode where
  | ok | okClamped | deferred | unknownKind | badLength | badField | wrongMode | noSuch | listFull
  | dupTag | tooLate | sourceBusy | sourceNotReady | noHome | wrongState | noFormat | checkFailed
deriving DecidableEq, Repr

/-- The causes of a reset (R196). -/
inductive ResetCause where
  | power | pin | message
deriving DecidableEq, Repr

/-- The card notice kinds (R190). -/
inductive CardKind where
  | sourceChange | refLoss | linkError | resetDone
deriving DecidableEq, Repr

/-- The channel notice kinds (R190). -/
inductive ChanKind where
  | mark | cueFailed | cueMissed | placeFault | forcedOut | degraded | sourceLost | holdExpired
  | tcFlywheel | tcLost | pgmLoss | stackSpill | modeDone
deriving DecidableEq, Repr

/-- The anchors of a placement block (R75). -/
inductive Anchor where
  | topLeft | topCentre | topRight | middleLeft | centre | middleRight | bottomLeft | bottomCentre
  | bottomRight | free
deriving DecidableEq, Repr

/-! ### Records -/

/-- A rectangle of the raster (00_scope 5.3). -/
structure Rect where
  x : Nat
  y : Nat
  w : Nat
  h : Nat
deriving DecidableEq, Repr

/-- A placement block as it is stored (R75); no height stands for the default marker. -/
structure Block where
  anchor : Anchor
  height : Option Nat
  fx : Nat
  fy : Nat
  fallbacks : List Anchor
deriving DecidableEq, Repr

/-- A dated label: a label with its next-day mark (R22). -/
structure Dated where
  label : Nat
  next : Bool
deriving DecidableEq, Repr

/-- An on-air action with its fields as normalised (R137, R142). -/
inductive Action where
  | showInset (src : Option Port) (count : Nat)
  | hide (count : Nat)
  | handover (src : Port) (count : Nat)
  | place (block : Block) (glide : Option Nat)
  | push (block : Block) (glide : Option Nat)
  | pop (glide : Option Nat)
  | zone (idx : Nat) (active : Bool) (expiry : Option Dated)
  | mark (code : Nat)
  | standby (src : Option Port)
deriving DecidableEq, Repr

/-- A cue of a channel's list (R137). `lostLate` is the model's own note that the cue was accepted in
the late window while the tracker was LOST (R143, log entry 13). -/
structure Cue where
  tag : Nat
  date : Dated
  action : Action
  prepared : Bool
  late : Bool
  claim : SpareAns
  seq : Nat
  lostLate : Bool
deriving DecidableEq, Repr

/-- A CH_TAKE action waiting for the frame start, with its spare claim (R185). -/
structure Waiting where
  id : Nat
  action : Action
  claim : SpareAns
deriving DecidableEq, Repr

/-- The last failure of a dispatcher (R138). -/
structure Failure where
  tag : Nat
  reason : Reason
  action : Action
  label : Nat
deriving DecidableEq, Repr

/-- The last marker of a dispatcher (R138). -/
structure Marker where
  code : Nat
  label : Nat
deriving DecidableEq, Repr

/-- An entry of a zone table (R96). -/
structure Zone where
  defined : Bool
  rect : Rect
  cls : ZoneClass
  active : Bool
  expiry : Option Dated
deriving DecidableEq, Repr

/-- An occupied placement fault record (R105); no blocking zone stands for SAFE_AREA. -/
structure FaultRec where
  label : Nat
  requested : Option Rect
  blocking : Option (Nat × ZoneClass)
  outcome : PlaceOutcome
  more : Nat
deriving DecidableEq, Repr

/-- A running fade (section 7.1). -/
structure Fade where
  start : Nat
  target : Nat
  count : Nat
  step : Nat
deriving DecidableEq, Repr

/-- A source on air: its level and its fade, if one runs (section 7.1). -/
structure OnAir where
  src : Port
  level : Nat
  fade : Option Fade
deriving DecidableEq, Repr

/-- The shown placement (section 5.7); its width follows from the height and the crop. -/
structure Shown where
  x : Nat
  y : Nat
  h : Nat
deriving DecidableEq, Repr

/-- A glide record (section 5.7). -/
structure Glide where
  start : Shown
  target : Shown
  count : Nat
  step : Nat
deriving DecidableEq, Repr

/-- The state a hold returns to (section 7.1). -/
inductive Paused where
  | fadingIn | shown
deriving DecidableEq, Repr

/-- A programme frame in a delay store (R8); `serial` tells stored frames apart (log entry 7). -/
structure PgmFrame where
  serial : Nat
  word : Option TcWord
  pic : Picture
deriving DecidableEq, Repr

/-- How the word of a selected frame was found (R37). -/
inductive WordStatus where
  | valid | absent | invalid
deriving DecidableEq, Repr

/-- The frame selected at the latest frame start (R9, R24, R37); no frame is black. -/
structure Selection where
  frame : Option PgmFrame
  status : WordStatus
  isRepeat : Bool
deriving DecidableEq, Repr

/-- The crop of a source as stored (R55, R56). -/
inductive Crop where
  | full
  | rect (r : Rect)
deriving DecidableEq, Repr

/-- A slot of a frame ring (section 3.6); `order` counts completions. -/
inductive RingSlot where
  | empty
  | writing
  | complete (order : Nat) (pic : Picture)
deriving DecidableEq, Repr

/-- The three slots of a ring. -/
inductive SlotId where
  | a | b | c
deriving DecidableEq, Repr

/-- A source's frame ring (section 3.6). -/
structure Ring where
  a : RingSlot
  b : RingSlot
  c : RingSlot
  inUse : Option SlotId
  frozen : Option SlotId
deriving DecidableEq, Repr

/-- What the key and blend unit is handed for one presented source (R60, R133). -/
structure Presented where
  frame : Option Picture
  crop : Rect
  keyOn : Bool
  kb : Nat
  kr : Nat
  tlo : Nat
  rk : Nat
  rect : Rect
  level : Nat
  scaler : Nat
deriving DecidableEq, Repr

/-- What the key and blend unit is handed at a frame start (R60); no frame is black. -/
structure KeyIn where
  pgm : Option Picture
  sources : List Presented
deriving DecidableEq, Repr

/-! ### Blocks -/

/-- The reference checker and the frame-start timing (R5, R6). -/
structure Reference where
  state : RefState
  inRun : Nat
  outRun : Nat
  lastPulse : Nat
  pulseSeen : Bool
  lastFrame : Nat
  selfRun : Bool
deriving DecidableEq, Repr

/-- The notice unit (R190, R194). -/
structure Notices where
  raw : NoticeBits
  enable : NoticeBits
  rearmRef : Bool
  rearmTc : PerChan Bool
  rearmPgm : PerChan Bool
deriving DecidableEq, Repr

/-- The receiver's states (R165). -/
inductive RxState where
  | hunt | length | body | check
deriving DecidableEq, Repr

/-- What a receive slot holds (R169). -/
inductive Entry where
  | request (r : Request)
  | reject
deriving DecidableEq, Repr

/-- A receive slot (R170); `seq` is its place in arrival order, `reply` the payload being sent. -/
inductive Slot where
  | empty
  | waiting (e : Entry) (seq : Nat)
  | answering (e : Entry) (seq : Nat) (reply : List Byte)
deriving DecidableEq, Repr

/-- The control link interface (Chapter 9). -/
structure Link where
  rx : RxState
  len : Byte
  body : List Byte
  slot1 : Slot
  slot2 : Slot
  framing : BitVec 16
  timeout : BitVec 16
  length : BitVec 16
  check : BitVec 16
  overrun : BitVec 16
deriving DecidableEq, Repr

/-- A source and its checker, ring and parameters (section 3.1). -/
structure Source where
  state : SrcState
  owner : Option Chan
  lastStart : Option Nat
  measuring : Bool
  lastInterval : BitVec 32
  lastW : Half
  lastH : Half
  inRun : Nat
  outRun : Nat
  goodRun : Nat
  badRun : Nat
  rasterMark : Bool
  ring : Ring
  crop : Crop
  cropForce : Crop
  cropReport : Bool
  keyOn : Bool
  kb : Nat
  kr : Nat
  tlo : Nat
  wk : Nat
  rk : Nat
deriving DecidableEq, Repr

/-- A channel: path, tracker, resolver, zones, engine and dispatcher. -/
structure Channel where
  -- mode and path (Chapter 1)
  mode : Mode
  pendingMode : Option Mode
  relay : Relay
  pgm : PgmState
  pgmGood : Nat
  pgmBad : Nat
  pgmStart : Option Nat
  store : List PgmFrame
  writing : Bool
  serial : Nat
  target : Nat
  delay : Nat
  slew : Nat
  sel : Selection
  drainRepeats : Nat
  drained : Bool
  -- label tracker (Chapter 2); `lostFrom` is the first label of a LOST (R36, log entry 13)
  label : Nat
  track : TrackState
  flywheel : Nat
  owed : Bool
  lostFrom : Nat
  -- placement resolver (Chapter 5), zones and fault record (Chapter 6)
  requested : Block
  stack : List Block
  resolved : Option Rect
  outcome : Option PlaceOutcome
  defaultGlide : Nat
  zones : List Zone
  fault : Option FaultRec
  -- transition engine (Chapter 7); `shown` is where it has the inset, `displayed` the shown placement of the
  -- current output frame, which changes at frame starts (R95, log entry 43)
  inset : Inset
  cur : Option OnAir
  out : Option OnAir
  outRect : Option Rect
  shown : Option Shown
  displayed : Option Rect
  glide : Option Glide
  paused : Option Paused
  holdCount : Nat
  holdTime : Nat
  exitMark : Bool
  home : Option Port
  standby : Option Port
  -- cue dispatcher (Chapter 8) and CH_TAKE waiting list (R185)
  cues : List Cue
  fired : BitVec 16
  failed : BitVec 16
  missed : BitVec 16
  removed : BitVec 16
  lastFailure : Option Failure
  lastMarker : Option Marker
  deferred : Option (List Nat)
  heldBack : Bool
  waiting : List Waiting
  -- what the key and blend unit was handed at the latest frame start (R60)
  keyIn : KeyIn
deriving DecidableEq, Repr

/-- A cause for which a channel has the spare (R134). -/
inductive Claimant where
  | cue (tag : Nat)
  | take (id : Nat)
  | crossfade
deriving DecidableEq, Repr

/-- The pool's record of the spare scaler (R134); a crossfade among the claimants is IN_USE. -/
inductive Spare where
  | free
  | held (c : Chan) (claimants : List Claimant)
deriving DecidableEq, Repr

/-- The card. -/
structure State where
  pending : List Instr
  now : Nat
  power : Bool
  resetting : Option ResetCause
  resetDue : Nat
  pin : Bool
  cause : ResetCause
  format : Option Format
  ref : Reference
  notices : Notices
  link : Link
  sources : PerPort Source
  channels : PerChan Channel
  spare : Spare
deriving DecidableEq, Repr

/-! ### Reset values (R196) -/

/-- The default placement block (R76). -/
def Block.default : Block := ⟨.bottomRight, none, 0, 0, []⟩

/-- An undefined zone entry (R96). -/
def Zone.undefined : Zone := ⟨false, ⟨0, 0, 0, 0⟩, .hard, false, none⟩

/-- An empty ring (R38). -/
def Ring.empty : Ring := ⟨.empty, .empty, .empty, none, none⟩

/-- The reference checker after a reset (R5). -/
def Reference.reset : Reference := ⟨.idle, 0, 0, 0, false, 0, false⟩

/-- The bits of a notice set that stand for a kind (R190). -/
def NoticeBits.kinds : NoticeBits := ⟨0x0F#8, PerChan.fill 0x1FFF#16⟩

/-- The notice unit after a reset: only RESET_DONE raw, every enable on, no re-arm mark (R190). -/
def Notices.reset : Notices :=
  ⟨⟨0x08#8, PerChan.fill 0#16⟩, NoticeBits.kinds, false, PerChan.fill false, PerChan.fill false⟩

/-- The control link interface after a reset (R163, R165, R170, R173). -/
def Link.reset : Link := ⟨.hunt, 0, [], .empty, .empty, 0, 0, 0, 0, 0⟩

/-- A source after a reset (R38), its port timing as given and its state by its signal. -/
def Source.reset (state : SrcState) (lastStart : Option Nat) (measuring : Bool) : Source where
  state := state
  owner := none
  lastStart := lastStart
  measuring := measuring
  lastInterval := 0
  lastW := 0
  lastH := 0
  inRun := 0
  outRun := 0
  goodRun := 0
  badRun := 0
  rasterMark := false
  ring := Ring.empty
  crop := .full
  cropForce := .full
  cropReport := false
  keyOn := false
  kb := 272
  kr := 240
  tlo := 100
  wk := 200
  rk := 5242

/-- A channel after a reset (R196), its programme input's timing as given. -/
def Channel.reset (pgmStart : Option Nat) : Channel where
  mode := .bypass
  pendingMode := none
  relay := .bypass
  pgm := .waiting
  pgmGood := 0
  pgmBad := 0
  pgmStart := pgmStart
  store := []
  writing := false
  serial := 0
  target := 0
  delay := 0
  slew := 0
  sel := ⟨none, .absent, false⟩
  drainRepeats := 0
  drained := false
  label := 0
  track := .lost
  flywheel := 0
  owed := false
  lostFrom := 0
  requested := Block.default
  stack := []
  resolved := none
  outcome := none
  defaultGlide := 8
  zones := List.replicate 12 Zone.undefined
  fault := none
  inset := .hidden
  cur := none
  out := none
  outRect := none
  shown := none
  displayed := none
  glide := none
  paused := none
  holdCount := 0
  holdTime := 50
  exitMark := false
  home := none
  standby := none
  cues := []
  fired := 0
  failed := 0
  missed := 0
  removed := 0
  lastFailure := none
  lastMarker := none
  deferred := none
  heldBack := false
  waiting := []
  keyIn := ⟨none, []⟩

/-- The card right after a power-on reset (R196): no port has signal (R38), the cause is POWER. -/
def State.reset : State where
  pending := []
  now := 0
  power := true
  resetting := none
  resetDue := 0
  pin := false
  cause := .power
  format := none
  ref := Reference.reset
  notices := Notices.reset
  link := Link.reset
  sources := PerPort.fill (Source.reset .absent none false)
  channels := PerChan.fill (Channel.reset none)
  spare := .free

/-! ### Reasons -/

/-- The card stops on nothing: every command has an effect in every state, so no meaning faults and
there is no fault reason (log entry 25). -/
inductive Fault where
deriving DecidableEq, Repr

/-- Why a step has no meaning. -/
inductive Refusal where
  /-- Raised by `exec`'s arm of a command that has no meaning yet; safe: no claim can be proved
  through it. No arm raises it. -/
  | notModelled (mnemonic : String)
deriving DecidableEq, Repr

end Sys2Proof.Machine
end

