-- ==== Sys2Proof/Machine/Ops.lean ====
section
/-! DEFINITION. The shared operations: channel and source access, the house format table, the card
clock, the integer functions of 00_scope 5.2 and the scaler pool. -/

namespace Sys2Proof.Machine

/-! ### Access -/

def State.chan (s : State) (c : Chan) : Channel := s.channels.get c

def State.src (s : State) (p : Port) : Source := s.sources.get p

/-- Change one channel. -/
def State.modChan (s : State) (c : Chan) (f : Channel → Channel) : State :=
  { s with channels := s.channels.set c (f (s.channels.get c)) }

/-- Change one source. -/
def State.modSrc (s : State) (p : Port) (f : Source → Source) : State :=
  { s with sources := s.sources.set p (f (s.sources.get p)) }

/-- A channel index of a message; above 3 there is no channel (R181). -/
def chanOf (b : Byte) : Option Chan :=
  match b.toNat with
  | 0 => some .c0
  | 1 => some .c1
  | 2 => some .c2
  | 3 => some .c3
  | _ => none

/-- A source index of a message; above 5 there is no source (R59). -/
def portOf (b : Byte) : Option Port :=
  match b.toNat with
  | 0 => some .s0
  | 1 => some .s1
  | 2 => some .s2
  | 3 => some .s3
  | 4 => some .s4
  | 5 => some .s5
  | _ => none

def chanIdx : Chan → Nat
  | .c0 => 0
  | .c1 => 1
  | .c2 => 2
  | .c3 => 3

def portIdx : Port → Nat
  | .s0 => 0
  | .s1 => 1
  | .s2 => 2
  | .s3 => 3
  | .s4 => 4
  | .s5 => 5

/-- The card is powered and no reset is in progress (R196). -/
def State.running (s : State) : Bool := s.power && s.resetting.isNone

/-! ### Integer functions (00_scope 5.2) -/

def evenFloor (n : Nat) : Nat := n / 2 * 2

def ceilDiv (a b : Nat) : Nat := (a + b - 1) / b

/-- The magnitude of a difference. -/
def absDiff (a b : Nat) : Nat := (a - b) + (b - a)

/-- `a + trunc((b - a) × t / n)`, with trunc toward zero (R91, R114). -/
def moveBetween (a b t n : Nat) : Nat :=
  if a ≤ b then a + (b - a) * t / n else a - (a - b) * t / n

/-- A value brought into a range. -/
def clampTo (lo hi n : Nat) : Nat := min hi (max lo n)

/-! ### The house format table (R1, R3, R21) -/

/-- The format a code names; only 1 to 6 name one (R1). -/
def formatOf (b : Byte) : Option Format :=
  match b.toNat with
  | 1 => some .f1
  | 2 => some .f2
  | 3 => some .f3
  | 4 => some .f4
  | 5 => some .f5
  | 6 => some .f6
  | _ => none

def Format.code : Format → Nat
  | .f1 => 1
  | .f2 => 2
  | .f3 => 3
  | .f4 => 4
  | .f5 => 5
  | .f6 => 6

/-- Raster width W. -/
def Format.width : Format → Nat
  | .f5 => 1280
  | .f6 => 1280
  | _ => 1920

/-- Raster height H. -/
def Format.height : Format → Nat
  | .f5 => 720
  | .f6 => 720
  | _ => 1080

/-- R, labels per second. -/
def Format.rate : Format → Nat
  | .f1 => 25
  | .f2 => 30
  | .f3 => 50
  | .f4 => 60
  | .f5 => 50
  | .f6 => 60

/-- Rtc, the timecode base. -/
def Format.base : Format → Nat
  | .f1 => 25
  | .f2 => 30
  | .f3 => 25
  | .f4 => 30
  | .f5 => 25
  | .f6 => 30

/-- N, the nominal frame period in ticks. -/
def Format.period : Format → Nat
  | .f1 => 1080000
  | .f2 => 900900
  | .f3 => 540000
  | .f4 => 450450
  | .f5 => 540000
  | .f6 => 450450

/-- The tolerance, floor(N / 200). -/
def Format.tolerance (f : Format) : Nat := f.period / 200

/-- D, the labels of a day. -/
def Format.day (f : Format) : Nat := 86400 * f.rate

/-- The lines the default height marker stands for (R76). -/
def Format.defaultHeight (f : Format) : Nat := if f.height = 1080 then 432 else 288

/-- The safe area as first pixel, first line, width and height (R3). -/
def Format.safe (f : Format) : Rect :=
  let mx := evenFloor (f.width * 5 / 100)
  let my := f.height * 5 / 100
  ⟨mx, my, f.width - 2 * mx, f.height - 2 * my⟩

/-- An interval is in window when it differs from N by at most the tolerance (R1). -/
def Format.inWindow (f : Format) (interval : Nat) : Bool :=
  decide (absDiff interval f.period ≤ f.tolerance)

/-- A measured raster is that of the house (R7, R39). -/
def Format.matchesRaster (f : Format) (w h : Nat) : Bool :=
  decide (w = f.width) && decide (h = f.height)

/-! ### The card clock (log entry 1) -/

/-- A timed event: `dt` ticks after the latest one. -/
def State.elapse (s : State) (dt : Nat) : State := { s with now := s.now + dt }

/-- An expiry: the clock stands at its moment, or stays where it is past it. -/
def State.reach (s : State) (t : Nat) : State := { s with now := max s.now t }

/-- The silence limit of the source ports (R39). -/
def State.silenceLimit (s : State) : Nat :=
  match s.format with
  | some f => 2 * f.period
  | none => 2160000

/-- A port has signal while a port frame start has arrived within the silence limit (R39). -/
def State.hasSignal (s : State) (p : Port) : Bool :=
  match (s.src p).lastStart with
  | some t => decide (s.now - t < s.silenceLimit)
  | none => false

/-! ### Rectangles (00_scope 5.3) -/

/-- Two rectangles overlap when each starts before the other ends, in both axes. -/
def Rect.overlaps (a b : Rect) : Bool :=
  decide (a.x < b.x + b.w) && decide (b.x < a.x + a.w) &&
  decide (a.y < b.y + b.h) && decide (b.y < a.y + a.h)

/-- No pixel of `a` lies outside `b`. -/
def Rect.within (a b : Rect) : Bool :=
  decide (b.x ≤ a.x) && decide (a.x + a.w ≤ b.x + b.w) &&
  decide (b.y ≤ a.y) && decide (a.y + a.h ≤ b.y + b.h)

/-! ### The scaler pool (R134, R135) -/

/-- The channel has the spare, CLAIMED or IN_USE. -/
def Spare.hasIt (sp : Spare) (c : Chan) : Bool :=
  match sp with
  | .free => false
  | .held d _ => decide (d = c)

/-- The spare is IN_USE: a crossfade is among its claimants (R134). -/
def Spare.inUse (sp : Spare) : Bool :=
  match sp with
  | .free => false
  | .held _ l => l.contains .crossfade

/-- The claimants of a channel. -/
def Spare.claimants (sp : Spare) (c : Chan) : List Claimant :=
  match sp with
  | .free => []
  | .held d l => if d = c then l else []

/-- A request for the spare and its answer (R134). -/
def Spare.request (sp : Spare) (c : Chan) (k : Claimant) : Spare × SpareAns :=
  match sp with
  | .free => (.held c [k], .granted)
  | .held d l => if d = c then (.held d (l.erase k ++ [k]), .granted) else (sp, .refused)

/-- A claimant leaves; the spare is FREE when the last has left (R135). -/
def Spare.leave (sp : Spare) (c : Chan) (k : Claimant) : Spare :=
  match sp with
  | .free => .free
  | .held d l =>
    if d = c then
      match l.erase k with
      | [] => .free
      | l' => .held d l'
    else sp

/-- All claimants of a channel leave together (R132, R135). -/
def Spare.leaveAll (sp : Spare) (c : Chan) : Spare :=
  match sp with
  | .free => .free
  | .held d l => if d = c then .free else .held d l

/-- A channel's request for the spare. -/
def askSpare (c : Chan) (k : Claimant) (s : State) : State × SpareAns :=
  let r := s.spare.request c k
  ({ s with spare := r.1 }, r.2)

/-- A claimant of a channel leaves. -/
def dropClaim (c : Chan) (k : Claimant) (s : State) : State :=
  { s with spare := s.spare.leave c k }

/-- The claim of an action leaves, where it was granted (R135). -/
def dropAnswer (c : Chan) (k : Claimant) (a : SpareAns) (s : State) : State :=
  if a = .granted then dropClaim c k s else s

end Sys2Proof.Machine
end

