-- ==== Sys2Proof/Machine/Geometry.lean ====
section
/-! DEFINITION. The geometry of placement: inset size, anchors and the resolution search
(R75 to R84), crop normalisation (R56) and the blocking zone of a fault (R107). -/

namespace Sys2Proof.Machine

/-! ### Crop -/

/-- The rectangle a crop stands for (R56): FULL is the whole raster. -/
def cropRect (f : Format) : Crop → Rect
  | .full => ⟨0, 0, f.width, f.height⟩
  | .rect r => r

/-- Normalisation of a rectangle crop against the raster (R56). -/
def normaliseCrop (f : Format) (r : Rect) : Rect :=
  let x := min (evenFloor r.x) (f.width - 2)
  let y := min r.y (f.height - 2)
  ⟨x, y, min (evenFloor r.w) (f.width - x), min r.h (f.height - y)⟩

/-! ### Size -/

/-- The width derived from a height with a crop of `cw` by `ch` (R77). -/
def derivedWidth (cw ch h : Nat) : Nat := 2 * ((h * cw + ch) / (2 * ch))

/-- The least admissible height (R78). -/
def heightMin (ch : Nat) : Nat := 2 * ceilDiv ch 16

/-- The largest even height of at most `2 * k` whose derived width is at most `sw`; 0 if none. -/
def widestFit (cw ch sw : Nat) : Nat → Nat
  | 0 => 0
  | k + 1 => if derivedWidth cw ch (2 * (k + 1)) ≤ sw then 2 * (k + 1) else widestFit cw ch sw k

/-- The largest even height within the crop, the safe height and the safe width (R78). -/
def heightMax (f : Format) (cw ch : Nat) : Nat :=
  widestFit cw ch f.safe.w (min ch f.safe.h / 2)

/-- The crop has an admissible height (R78). -/
def placeable (f : Format) (cw ch : Nat) : Bool := decide (heightMin ch ≤ heightMax f cw ch)

/-- A height is admissible for a crop (R78). -/
def admissible (f : Format) (cw ch h : Nat) : Bool :=
  decide (evenFloor h = h) && decide (heightMin ch ≤ h) && decide (h ≤ heightMax f cw ch)

/-- The height a block asks for: its stored height or the default marker's (R76, R79). -/
def blockHeight (f : Format) (b : Block) : Nat := b.height.getD f.defaultHeight

/-- The requested height, clamped to the admissible heights: level 0 of the search (R79). -/
def requestedHeight (f : Format) (cw ch : Nat) (b : Block) : Nat :=
  clampTo (heightMin ch) (heightMax f cw ch) (blockHeight f b)

/-- The height of size level `k` (R83). -/
def levelHeight (hmin hreq k : Nat) : Nat := max hmin (2 * (hreq * (8 - k) / 16))

/-! ### Positions -/

def columnLeft (f : Format) (_w : Nat) : Nat := f.safe.x

def columnCentre (f : Format) (w : Nat) : Nat := f.safe.x + 2 * ((f.safe.w - w) / 4)

def columnRight (f : Format) (w : Nat) : Nat := f.safe.x + f.safe.w - w

def rowTop (f : Format) (_h : Nat) : Nat := f.safe.y

def rowMiddle (f : Format) (h : Nat) : Nat := f.safe.y + (f.safe.h - h) / 2

def rowBottom (f : Format) (h : Nat) : Nat := f.safe.y + f.safe.h - h

/-- A free coordinate brought into the safe area (R81). -/
def freeClamp (lo len size v : Nat) : Nat :=
  let v := max v lo
  if lo + len < v + size then lo + len - size else v

/-- The rectangle of an anchor at a size (R80, R81). -/
def anchorRect (f : Format) (b : Block) (a : Anchor) (w h : Nat) : Rect :=
  match a with
  | .topLeft => ⟨columnLeft f w, rowTop f h, w, h⟩
  | .topCentre => ⟨columnCentre f w, rowTop f h, w, h⟩
  | .topRight => ⟨columnRight f w, rowTop f h, w, h⟩
  | .middleLeft => ⟨columnLeft f w, rowMiddle f h, w, h⟩
  | .centre => ⟨columnCentre f w, rowMiddle f h, w, h⟩
  | .middleRight => ⟨columnRight f w, rowMiddle f h, w, h⟩
  | .bottomLeft => ⟨columnLeft f w, rowBottom f h, w, h⟩
  | .bottomCentre => ⟨columnCentre f w, rowBottom f h, w, h⟩
  | .bottomRight => ⟨columnRight f w, rowBottom f h, w, h⟩
  | .free => ⟨freeClamp f.safe.x f.safe.w w (evenFloor b.fx), freeClamp f.safe.y f.safe.h h b.fy, w, h⟩

/-! ### Zones -/

/-- A zone counts when it is defined and active (R96). -/
def Zone.isActive (z : Zone) : Bool := z.defined && z.active

/-- The ACTIVE zones of a table with their index, rectangle and class: what a resolution reads. -/
def activeView (zones : List Zone) : List (Nat × Rect × ZoneClass) :=
  (zones.zipIdx.filter (fun p => p.1.isActive)).map (fun p => (p.2, p.1.rect, p.1.cls))

/-- A rectangle overlaps none of the ACTIVE zones of a pass: all of them in pass A, the HARD ones
in pass B (R83, R97). -/
def clearOf (zones : List Zone) (hardOnly : Bool) (r : Rect) : Bool :=
  (activeView zones).all (fun z => (hardOnly && decide (z.2.2 = .soft)) || !(r.overlaps z.2.1))

/-- A candidate fits when it lies within the safe area and is clear of the pass's zones (R82). -/
def fits (f : Format) (zones : List Zone) (hardOnly : Bool) (r : Rect) : Bool :=
  r.within f.safe && clearOf zones hardOnly r

/-- The blocking zone of a fault: the lowest-index ACTIVE zone that overlaps the requested
rectangle, or none for SAFE_AREA (R107). -/
def blockingOf (zones : List Zone) : Option Rect → Option (Nat × ZoneClass)
  | none => none
  | some r => ((activeView zones).find? (fun z => r.overlaps z.2.1)).map (fun z => (z.1, z.2.2))

/-! ### The search -/

/-- A candidate with its size level and whether it is the requested anchor's. -/
structure Candidate where
  level : Nat
  first : Bool
  rect : Rect
deriving DecidableEq, Repr

/-- The candidate of one anchor at one size level. -/
def candidateAt (f : Format) (crop : Rect) (b : Block) (k : Nat) (first : Bool) (a : Anchor) :
    Candidate :=
  let h := levelHeight (heightMin crop.h) (requestedHeight f crop.w crop.h b) k
  ⟨k, first, anchorRect f b a (derivedWidth crop.w crop.h h) h⟩

/-- The candidates of one size level, anchor by anchor (R83). -/
def levelCandidates (f : Format) (crop : Rect) (b : Block) (k : Nat) : List Candidate :=
  candidateAt f crop b k true b.anchor :: b.fallbacks.map (candidateAt f crop b k false)

/-- The candidates of a pass in the order of R83. -/
def candidates (f : Format) (crop : Rect) (b : Block) : List Candidate :=
  levelCandidates f crop b 0 ++ levelCandidates f crop b 1 ++ levelCandidates f crop b 2 ++
  levelCandidates f crop b 3 ++ levelCandidates f crop b 4

/-- The outcome named by where pass A found its candidate (R83). -/
def passAOutcome (c : Candidate) : PlaceOutcome :=
  if c.level = 0 then (if c.first then .asRequested else .moved) else .shrunk

/-- What a resolution decides: the outcome, the resolved placement and the requested rectangle. -/
structure Resolution where
  outcome : PlaceOutcome
  rect : Option Rect
  requested : Option Rect
deriving DecidableEq, Repr

/-- The resolved placement already held may be kept (R84). -/
def mayHold (f : Format) (crop : Rect) (zones : List Zone) (r : Rect) : Bool :=
  fits f zones true r && admissible f crop.w crop.h r.h &&
  decide (r.w = derivedWidth crop.w crop.h r.h)

/-- A search that finds nothing keeps the held rectangle or ends FORCED_OUT (R84). -/
def holdOrForce (f : Format) (crop : Rect) (zones : List Zone) (held : Option Rect)
    (requested : Option Rect) : Resolution :=
  match held with
  | some r => if mayHold f crop zones r then ⟨.heldPlace, some r, requested⟩ else ⟨.forcedOut, none, requested⟩
  | none => ⟨.forcedOut, none, requested⟩

/-- A resolution (R83, R84), from the crop, the requested block, the zone table and the resolved
placement held. -/
def resolve (f : Format) (crop : Rect) (b : Block) (zones : List Zone) (held : Option Rect) :
    Resolution :=
  if placeable f crop.w crop.h then
    let requested := some (candidateAt f crop b 0 true b.anchor).rect
    match (candidates f crop b).find? (fun c => fits f zones false c.rect) with
    | some c => ⟨passAOutcome c, some c.rect, requested⟩
    | none =>
      match (candidates f crop b).find? (fun c => fits f zones true c.rect) with
      | some c => ⟨.softCovered, some c.rect, requested⟩
      | none => holdOrForce f crop zones held requested
  else holdOrForce f crop zones held none

/-! ### Clamping reported by CH_TAKE (R79) -/

/-- A block would be changed by clamping against a placement source's crop (R79, log entry 20). -/
def clampedFor (f : Format) (crop : Rect) (b : Block) : Bool :=
  !(admissible f crop.w crop.h (blockHeight f b)) ||
  (decide (b.anchor = .free) &&
    (let r := (candidateAt f crop b 0 true .free).rect
     decide (r.x ≠ b.fx) || decide (r.y ≠ b.fy)))

/-- A FREE block with no placement source: an odd free x, or a corner outside the safe area (R79). -/
def clampedAlone (f : Format) (b : Block) : Bool :=
  decide (b.anchor = .free) &&
    (decide (evenFloor b.fx ≠ b.fx) || decide (b.fx < f.safe.x) || decide (f.safe.x + f.safe.w ≤ b.fx) ||
     decide (b.fy < f.safe.y) || decide (f.safe.y + f.safe.h ≤ b.fy))

end Sys2Proof.Machine
end

