-- ==== Sys2Proof/Machine/Blend.lean ====
section
/-! DEFINITION. The key and blend unit: the per-pixel arithmetic inside the inset (Chapter 4) and
what stands at a channel's output port. -/

namespace Sys2Proof.Machine

/-- A pixel pair while it is computed. -/
structure Samples where
  y0 : Nat
  y1 : Nat
  cb : Nat
  cr : Nat
deriving DecidableEq, Repr

/-- Black (R4). -/
def Samples.black : Samples := ⟨64, 64, 512, 512⟩

def samplesOf (p : Pair) : Samples := ⟨p.y0.toNat, p.y1.toNat, p.cb.toNat, p.cr.toNat⟩

/-- The pair `k` of line `y` of a picture; black where the lists hold none (log entry 7). -/
def pairAt (pic : Picture) (k y : Nat) : Samples :=
  match (pic.rows.getD y [])[k]? with
  | some p => samplesOf p
  | none => Samples.black

/-- The pair of a programme frame; no frame is black (R4, R74). -/
def programmePair (pgm : Option Picture) (k y : Nat) : Samples :=
  match pgm with
  | some pic => pairAt pic k y
  | none => Samples.black

/-- The legal range of luma (R4, R62). -/
def clampY (n : Nat) : Nat := clampTo 64 940 n

/-- The legal range of chroma (R4, R62). -/
def clampC (n : Nat) : Nat := clampTo 64 960 n

/-- The clamped luma of a source pixel (R62). -/
def sourceLuma (pic : Picture) (col line : Nat) : Nat :=
  let p := pairAt pic (col / 2) line
  clampY (if col % 2 = 0 then p.y0 else p.y1)

/-- The clamped Cb a source pixel carries: its pair's (R66). -/
def sourceCb (pic : Picture) (col line : Nat) : Nat := clampC (pairAt pic (col / 2) line).cb

/-- The clamped Cr a source pixel carries (R66). -/
def sourceCr (pic : Picture) (col line : Nat) : Nat := clampC (pairAt pic (col / 2) line).cr

/-! ### Scaling (R63 to R66) -/

/-- The source columns (or lines) under inset column (or row) `i`: first and count, a single one
where the span comes out empty (R63, R64). -/
def span (origin crop size i : Nat) : Nat × Nat :=
  let a := origin + i * crop / size
  let e := origin + (i + 1) * crop / size
  (a, max 1 (e - a))

/-- The pixels of a footprint: columns and lines, each as first and count (R63). -/
def footprint (cols rows : Nat × Nat) : List (Nat × Nat) :=
  (List.range' rows.1 rows.2).flatMap (fun y => (List.range' cols.1 cols.2).map (fun x => (x, y)))

/-- The rounded mean of a list of samples (R65). -/
def roundedMean (l : List Nat) : Nat := (l.sum + l.length / 2) / l.length

/-- The footprint of inset pixel (i, j) of a presented source (R63, R64). -/
def footprintOf (s : Presented) (i j : Nat) : List (Nat × Nat) :=
  footprint (span s.crop.x s.crop.w s.rect.w i) (span s.crop.y s.crop.h s.rect.h j)

/-- The scaled luma of inset pixel (i, j) (R65). -/
def scaledLuma (s : Presented) (pic : Picture) (i j : Nat) : Nat :=
  roundedMean ((footprintOf s i j).map (fun p => sourceLuma pic p.1 p.2))

/-- The scaled pair of inset pair `m` in row `j`: chroma from the even pixel's footprint (R66). -/
def scaledPair (s : Presented) (pic : Picture) (m j : Nat) : Samples :=
  ⟨scaledLuma s pic (2 * m) j, scaledLuma s pic (2 * m + 1) j,
   roundedMean ((footprintOf s (2 * m) j).map (fun p => sourceCb pic p.1 p.2)),
   roundedMean ((footprintOf s (2 * m) j).map (fun p => sourceCr pic p.1 p.2))⟩

/-! ### Key, fade and blend (R67 to R72) -/

/-- The chroma distance of a pair from the backdrop colour (R67). -/
def chromaDistance (kb kr cb cr : Nat) : Nat := absDiff cb kb + absDiff cr kr

/-- The key alpha of a distance (R68). -/
def keyAlphaOf (tlo rk d : Nat) : Nat := if d ≤ tlo then 0 else min 1024 ((d - tlo) * rk / 1024)

/-- The key alpha of a scaled pair; 1024 with the key off (R67). -/
def keyAlpha (s : Presented) (cb cr : Nat) : Nat :=
  if s.keyOn then keyAlphaOf s.tlo s.rk (chromaDistance s.kb s.kr cb cr) else 1024

/-- The alpha of a pair: its key alpha weighted by the fade level (R70). -/
def fadedAlpha (ka level : Nat) : Nat := (ka * level + 512) / 1024

/-- The blend of one sample before the clamp (R71). -/
def blendSample (s p alpha : Nat) : Nat := (s * alpha + p * (1024 - alpha) + 512) / 1024

/-- The blend of a pair with its clamp (R71). -/
def blendPair (s p : Samples) (alpha : Nat) : Samples :=
  ⟨clampY (blendSample s.y0 p.y0 alpha), clampY (blendSample s.y1 p.y1 alpha),
   clampC (blendSample s.cb p.cb alpha), clampC (blendSample s.cr p.cr alpha)⟩

/-- Output pair `k` of line `y` is covered by a presented source (R61). -/
def covers (s : Presented) (k y : Nat) : Bool :=
  decide (s.rect.x ≤ 2 * k) && decide (2 * k < s.rect.x + s.rect.w) &&
  decide (s.rect.y ≤ y) && decide (y < s.rect.y + s.rect.h)

/-- A presented source over a pair: the pair untouched where it is not covered, alpha 0 where the
source has no frame (R61, R71, R73). -/
def blendSource (k y : Nat) (p : Samples) (s : Presented) : Samples :=
  if covers s k y then
    match s.frame with
    | none => blendPair p p 0
    | some pic =>
      let sc := scaledPair s pic (k - s.rect.x / 2) (y - s.rect.y)
      blendPair sc p (fadedAlpha (keyAlpha s sc.cb sc.cr) s.level)
  else p

/-- The presented sources over the programme at pair `k` of line `y`, in order, the outgoing source of a
crossfade first (R60, R72). -/
def composePair (kin : KeyIn) (k y : Nat) : Samples :=
  kin.sources.foldl (blendSource k y) (programmePair kin.pgm k y)

/-- The output pair `k` of line `y` of the key and blend unit. The raster has no pair past its width or
its lines: what of a shown rectangle lies there reaches no output pixel (R61, R93). -/
def renderPair (f : Format) (kin : KeyIn) (k y : Nat) : Option Samples :=
  if 2 * k < f.width ∧ y < f.height then some (composePair kin k y) else none

/-- What stands at a channel's output port at pair `k` of line `y`. In BYPASS the port is the
programme input itself, of which the card holds nothing: none (R14). Without a house format there is no
raster (R1). -/
def outputPair (s : State) (c : Chan) (k y : Nat) : Option Samples :=
  match (s.chan c).relay, s.format with
  | .processed, some f => renderPair f (s.chan c).keyIn k y
  | _, _ => none

end Sys2Proof.Machine
end

