-- ==== Sys2Proof/Machine/Flags.lean ====
section
/-! DEFINITION. The notice unit: raw flags, enables, the pending set and the notice line (Chapter 11). -/

namespace Sys2Proof.Machine

/-- A card kind's position in its part of a notice set (R190). -/
def CardKind.bit : CardKind → BitVec 8
  | .sourceChange => 0x01#8
  | .refLoss => 0x02#8
  | .linkError => 0x04#8
  | .resetDone => 0x08#8

/-- A channel kind's position in its part of a notice set (R190). -/
def ChanKind.bit : ChanKind → BitVec 16
  | .mark => 0x0001#16
  | .cueFailed => 0x0002#16
  | .cueMissed => 0x0004#16
  | .placeFault => 0x0008#16
  | .forcedOut => 0x0010#16
  | .degraded => 0x0020#16
  | .sourceLost => 0x0040#16
  | .holdExpired => 0x0080#16
  | .tcFlywheel => 0x0100#16
  | .tcLost => 0x0200#16
  | .pgmLoss => 0x0400#16
  | .stackSpill => 0x0800#16
  | .modeDone => 0x1000#16

end Sys2Proof.Machine

namespace Sys2Proof

open Machine

def NoticeBits.hasCard (n : NoticeBits) (k : CardKind) : Bool := n.card &&& k.bit != 0

def NoticeBits.hasChan (n : NoticeBits) (c : Chan) (k : ChanKind) : Bool := n.chan.get c &&& k.bit != 0

def NoticeBits.addCard (n : NoticeBits) (k : CardKind) : NoticeBits := { n with card := n.card ||| k.bit }

def NoticeBits.addChan (n : NoticeBits) (c : Chan) (k : ChanKind) : NoticeBits :=
  { n with chan := n.chan.set c (n.chan.get c ||| k.bit) }

/-- The kinds in both sets. -/
def NoticeBits.inter (a b : NoticeBits) : NoticeBits :=
  ⟨a.card &&& b.card, ⟨a.chan.v0 &&& b.chan.v0, a.chan.v1 &&& b.chan.v1,
    a.chan.v2 &&& b.chan.v2, a.chan.v3 &&& b.chan.v3⟩⟩

/-- The kinds of the first set that are not in the second. -/
def NoticeBits.diff (a b : NoticeBits) : NoticeBits :=
  ⟨a.card &&& ~~~b.card, ⟨a.chan.v0 &&& ~~~b.chan.v0, a.chan.v1 &&& ~~~b.chan.v1,
    a.chan.v2 &&& ~~~b.chan.v2, a.chan.v3 &&& ~~~b.chan.v3⟩⟩

/-- The set of no kind. -/
def NoticeBits.empty : NoticeBits := ⟨0, PerChan.fill 0⟩

/-- A set as carried holds no bit that stands for no kind (R176). -/
def NoticeBits.legal (n : NoticeBits) : Bool := decide (n.diff Machine.NoticeBits.kinds = NoticeBits.empty)

end Sys2Proof

namespace Sys2Proof.Machine

/-- The pending kinds: raw and enabled (R191). -/
def Notices.pending (n : Notices) : NoticeBits := n.raw.inter n.enable

/-- The notice line is asserted while a kind is pending, but not during a reset or without power
(R191). -/
def State.noticeLine (s : State) : Bool :=
  s.running && decide (s.notices.pending ≠ NoticeBits.empty)

/-- Raise a card notice: set its raw flag (R191). -/
def raiseCard (k : CardKind) (s : State) : State :=
  { s with notices := { s.notices with raw := s.notices.raw.addCard k } }

/-- Raise a channel notice: set its raw flag (R191). -/
def raiseChan (c : Chan) (k : ChanKind) (s : State) : State :=
  { s with notices := { s.notices with raw := s.notices.raw.addChan c k } }

/-- NOTICE_ACK's effect: the named raw flags are cleared and the re-arm marks of the persistent
kinds among them are set (R193, R194). -/
def Notices.ack (n : Notices) (set : NoticeBits) : Notices where
  raw := n.raw.diff set
  enable := n.enable
  rearmRef := n.rearmRef || set.hasCard .refLoss
  rearmTc := ⟨n.rearmTc.v0 || set.hasChan .c0 .tcLost, n.rearmTc.v1 || set.hasChan .c1 .tcLost,
    n.rearmTc.v2 || set.hasChan .c2 .tcLost, n.rearmTc.v3 || set.hasChan .c3 .tcLost⟩
  rearmPgm := ⟨n.rearmPgm.v0 || set.hasChan .c0 .pgmLoss, n.rearmPgm.v1 || set.hasChan .c1 .pgmLoss,
    n.rearmPgm.v2 || set.hasChan .c2 .pgmLoss, n.rearmPgm.v3 || set.hasChan .c3 .pgmLoss⟩

/-- The re-arm mark of REF_LOSS is looked at and cleared at a frame start (R194). -/
def rearmRefLoss (s : State) : State :=
  let t := { s with notices := { s.notices with rearmRef := false } }
  if s.notices.rearmRef && decide (s.ref.state = .free) then raiseCard .refLoss t else t

/-- The re-arm marks of a channel are looked at and cleared at its frame start (R194). -/
def rearmChannel (c : Chan) (s : State) : State :=
  let t := { s with notices := { s.notices with
    rearmTc := s.notices.rearmTc.set c false, rearmPgm := s.notices.rearmPgm.set c false } }
  let t := if s.notices.rearmTc.get c && decide ((s.chan c).track = .lost) then
    raiseChan c .tcLost t else t
  if s.notices.rearmPgm.get c && decide ((s.chan c).pgm = .lost) then raiseChan c .pgmLoss t else t

end Sys2Proof.Machine
end

