-- ==== Sys2Proof/Machine/Sources.lean ====
section
/-! DEFINITION. A source's frame ring, its state changes, and the requests a transition engine makes
on it: take, check, begin-release and let-go (Chapter 3). -/

namespace Sys2Proof.Machine

/-! ### The frame ring (section 3.6) -/

def Ring.get (r : Ring) : SlotId → RingSlot
  | .a => r.a
  | .b => r.b
  | .c => r.c

def Ring.set (r : Ring) (i : SlotId) (v : RingSlot) : Ring :=
  match i with
  | .a => { r with a := v }
  | .b => { r with b := v }
  | .c => { r with c := v }

/-- How late a slot completed, counted from 1; 0 for a slot that is not COMPLETE. -/
def RingSlot.age : RingSlot → Nat
  | .complete n _ => n + 1
  | _ => 0

def RingSlot.isComplete : RingSlot → Bool
  | .complete _ _ => true
  | _ => false

/-- A frame cut short leaves its slot EMPTY (R52). -/
def RingSlot.cut : RingSlot → RingSlot
  | .writing => .empty
  | x => x

/-- The newest COMPLETE slot (section 3.6). -/
def Ring.newest (r : Ring) : Option SlotId :=
  let m := max r.a.age (max r.b.age r.c.age)
  if m = 0 then none
  else if r.a.age = m then some .a
  else if r.b.age = m then some .b
  else some .c

/-- The number of COMPLETE slots (R59). -/
def Ring.completeCount (r : Ring) : Nat :=
  (if r.a.isComplete then 1 else 0) + (if r.b.isComplete then 1 else 0) +
  (if r.c.isComplete then 1 else 0)

/-- The picture of a slot, if it is COMPLETE. -/
def RingSlot.picture : RingSlot → Option Picture
  | .complete _ p => some p
  | _ => none

/-- The slots the writer may choose: neither the newest COMPLETE slot nor the one in use (R52). -/
def Ring.choices (r : Ring) : List SlotId :=
  [SlotId.a, SlotId.b, SlotId.c].filter (fun i => r.newest != some i && r.inUse != some i)

/-- The older of two COMPLETE slots. -/
def Ring.older (r : Ring) (i j : SlotId) : SlotId :=
  if (r.get j).age < (r.get i).age then j else i

/-- The slot the writer chooses: the first EMPTY one, otherwise the oldest COMPLETE one (R52). -/
def Ring.choose (r : Ring) : Option SlotId :=
  match r.choices.find? (fun i => decide (r.get i = .empty)) with
  | some i => some i
  | none =>
    match r.choices with
    | [] => none
    | i :: is => some (is.foldl r.older i)

/-- Every slot still WRITING becomes EMPTY. -/
def Ring.cut (r : Ring) : Ring := { r with a := r.a.cut, b := r.b.cut, c := r.c.cut }

/-- A port frame start begins a frame in the ring (R52). -/
def Ring.begin (r : Ring) : Ring :=
  let r := r.cut
  match r.choose with
  | some i => r.set i .writing
  | none => r

/-- The slot a frame is being written to. -/
def Ring.writingSlot (r : Ring) : Option SlotId :=
  [SlotId.a, SlotId.b, SlotId.c].find? (fun i => decide (r.get i = .writing))

/-- The frame being written is complete: its slot is COMPLETE and the newest (R52). -/
def Ring.finish (r : Ring) (pic : Picture) : Ring :=
  match r.writingSlot with
  | some i => r.set i (.complete (max r.a.age (max r.b.age r.c.age)) pic)
  | none => r

/-- The ring freezes: the newest COMPLETE slot takes the frozen mark, the others are EMPTY (R54). -/
def Ring.freeze (r : Ring) : Ring :=
  match r.cut.newest with
  | some i => { Ring.empty.set i (r.get i) with inUse := r.inUse, frozen := some i }
  | none => { Ring.empty with inUse := r.inUse }

/-- The ring resumes: the frozen mark goes, the slot stays COMPLETE, and a frame begins (R54). -/
def Ring.resume (r : Ring) : Ring := { r with frozen := none }.begin

/-- The frame a channel reads: the newest COMPLETE slot's (R53). -/
def Ring.newestPicture (r : Ring) : Option Picture :=
  match r.newest with
  | some i => (r.get i).picture
  | none => none

/-! ### State changes -/

/-- Every run count 0 and the raster mark clear (R39). -/
def Source.zeroed (x : Source) : Source :=
  { x with inRun := 0, outRun := 0, goodRun := 0, badRun := 0, rasterMark := false }

/-- Change a source; a change of its state raises SOURCE_CHANGE (R45). -/
def changeSource (p : Port) (f : Source → Source) (s : State) : State :=
  let t := s.modSrc p f
  if (t.src p).state = (s.src p).state then t else raiseCard .sourceChange t

/-- A source that enters ABSENT or DETECTING: no owner, empty ring, counts 0 (R39, R43, R49). -/
def Source.unqualified (st : SrcState) (x : Source) : Source :=
  { x.zeroed with state := st, owner := none, ring := Ring.empty, cropReport := false }

/-! ### The engine's requests (R46 to R49) -/

/-- What a take by a channel answers: none is granted (R46). -/
def takeAnswer (x : Source) (c : Chan) : Option Reason :=
  match x.state with
  | .ready => none
  | .releasing => if x.owner = some c then none else some .sourceBusy
  | .taken => if x.owner = some c then some .sourceNotReady else some .sourceBusy
  | .lost => if x.owner = some c then some .sourceNotReady else some .sourceBusy
  | .absent => some .sourceNotReady
  | .detecting => some .sourceNotReady
  | .rejected => some .sourceNotReady

/-- The check request: what a take would answer, changing nothing (R47). -/
def checkTake (c : Chan) (p : Port) (s : State) : Option Reason := takeAnswer (s.src p) c

/-- A granted take: TAKEN with its owner, the ring as it was (R46). -/
def grantTake (c : Chan) (p : Port) (s : State) : State :=
  changeSource p (fun x => { x with state := .taken, owner := some c }) s

/-- A begin-release moves the owner's TAKEN source to RELEASING (R48). -/
def beginRelease (c : Chan) (p : Port) (s : State) : State :=
  if (s.src p).state = .taken ∧ (s.src p).owner = some c then
    changeSource p (fun x => { x with state := .releasing }) s
  else s

/-- A let-go ends the ownership (R49). -/
def letGo (c : Chan) (p : Port) (s : State) : State :=
  if (s.src p).owner = some c then
    match (s.src p).state with
    | .taken => changeSource p
        (fun x => { x with state := .ready, owner := none, cropReport := false,
                           ring := { x.ring with inUse := none } }) s
    | .releasing => changeSource p
        (fun x => { x with state := .ready, owner := none, cropReport := false,
                           ring := { x.ring with inUse := none } }) s
    | .lost => changeSource p
        (Source.unqualified (if s.hasSignal p then .detecting else .absent)) s
    | _ => s
  else s

/-- A channel lets go of every source it owns (R132). -/
def letGoAll (c : Chan) (s : State) : State := Port.all.foldl (fun t p => letGo c p t) s

/-- The crop of a source that is in force, as a rectangle (R56, R58). -/
def cropInForce (f : Format) (s : State) (p : Port) : Rect := cropRect f (s.src p).cropForce

end Sys2Proof.Machine
end

