-- ==== Sys2Proof/Machine/Transition.lean ====
section
/-! DEFINITION. The placement resolver's resolutions, the placement fault record, and the transition
engine: fades, glides, the on-air actions SHOW, HIDE, HANDOVER and STANDBY, forced-out, and the
loss and return of a source on air (Chapters 5, 6 and 7). -/

namespace Sys2Proof.Machine

/-! ### Resolution (R82 to R86, R105 to R108) -/

/-- The fault record takes an outcome: written when empty, counted when occupied (R106, R107). -/
def recordFault (res : Resolution) (ch : Channel) : Option FaultRec :=
  match res.outcome with
  | .asRequested => ch.fault
  | o =>
    match ch.fault with
    | none => some ⟨ch.label, res.requested, blockingOf ch.zones res.requested, o, 0⟩
    | some r => some { r with more := min 255 (r.more + 1) }

/-- The notices of an outcome: PLACE_FAULT when the record was empty, FORCED_OUT always (R106,
R108). -/
def raiseFault (c : Chan) (res : Resolution) (wasEmpty : Bool) (s : State) : State :=
  let s := if wasEmpty && decide (res.outcome ≠ .asRequested) then raiseChan c .placeFault s else s
  if res.outcome = .forcedOut then raiseChan c .forcedOut s else s

/-- One resolution for a placement source, stored and handed to the fault record (R83 to R85).
The engine's part is the caller's. Without a house format no inset is visible and none runs. -/
def resolveFor (c : Chan) (p : Port) (s : State) : State × PlaceOutcome :=
  match s.format with
  | none => (s, .heldPlace)
  | some f =>
    let ch := s.chan c
    let res := resolve f (cropInForce f s p) ch.requested ch.zones ch.resolved
    (raiseFault c res ch.fault.isNone
      (s.modChan c (fun x => { x with
        resolved := res.rect, outcome := some res.outcome, fault := recordFault res ch })),
     res.outcome)

/-! ### Fades and glides (R90 to R92, R114) -/

/-- Start a fade from the level as it stands; a count of 0 is a cut (R114). -/
def OnAir.fadeTo (o : OnAir) (target count : Nat) : OnAir :=
  if count = 0 then { o with level := target, fade := none }
  else { o with fade := some ⟨o.level, target, count, 0⟩ }

/-- One step of a fade (R114). -/
def OnAir.stepFade (o : OnAir) : OnAir :=
  match o.fade with
  | none => o
  | some fd =>
    let t := fd.step + 1
    if fd.count ≤ t then { o with level := fd.target, fade := none }
    else { o with level := moveBetween fd.start fd.target t fd.count,
                  fade := some { fd with step := t } }

/-- The inset stands at the resolved placement directly, with no glide (R90). Where this is between two frame
starts, what CH_READ shows follows at the next (R95, log entry 43). -/
def Channel.showDirect (ch : Channel) : Channel :=
  match ch.resolved with
  | some r => { ch with shown := some ⟨r.x, r.y, r.h⟩, glide := none }
  | none => ch

/-- The shown placement at step `t` of a glide (R91). -/
def glideAt (g : Glide) (t : Nat) : Shown :=
  ⟨evenFloor (moveBetween g.start.x g.target.x t g.count),
   moveBetween g.start.y g.target.y t g.count,
   evenFloor (moveBetween g.start.h g.target.h t g.count)⟩

/-- A glide of a count from the shown placement toward a target. A count of 0 is a cut: it stands on its
target at the first frame start after it starts, its own where it starts at one (R91, R92, log entry 34). -/
def Channel.startGlide (ch : Channel) (fromShown target : Shown) (count : Nat) : Channel :=
  { ch with glide := some ⟨fromShown, target, count, 0⟩ }

/-- A resolved rectangle that differs from the running glide's target, or from the shown placement
where no glide runs, starts a glide; the same one changes nothing (R90). -/
def Channel.glideToResolved (ch : Channel) (count : Nat) : Channel :=
  match ch.resolved, ch.shown with
  | some r, some sh =>
    let target : Shown := ⟨r.x, r.y, r.h⟩
    match ch.glide with
    | some g => if g.target = target then ch else ch.startGlide sh target count
    | none => if sh = target then ch else ch.startGlide sh target count
  | some _, none => ch.showDirect
  | none, _ => ch

/-- One step of the glide (R91, R92). -/
def Channel.stepGlide (ch : Channel) : Channel :=
  match ch.glide with
  | none => ch
  | some g =>
    let t := g.step + 1
    if g.count ≤ t then { ch with shown := some g.target, glide := none }
    else { ch with shown := some (glideAt g t), glide := some { g with step := t } }

/-- The shown rectangle of the current source: its width is derived with the crop in force (R91). -/
def shownRect (c : Chan) (s : State) : Option Rect :=
  match s.format, (s.chan c).shown, (s.chan c).cur with
  | some f, some sh, some o =>
    let crop := cropInForce f s o.src
    some ⟨sh.x, sh.y, derivedWidth crop.w crop.h sh.h, sh.h⟩
  | _, _, _ => none

/-- The rectangle at which the inset is drawn becomes the shown placement of the output frame that begins
(R92, R95). -/
def display (c : Chan) (s : State) : State :=
  s.modChan c (fun ch => { ch with displayed := shownRect c s })

/-! ### Entering HIDDEN -/

/-- The engine in HIDDEN: nothing on air, no fade, glide, hold or exit mark, and no resolved
placement (R76, R90, R112). -/
def Channel.hide (ch : Channel) : Channel :=
  { ch with inset := .hidden, cur := none, out := none, outRect := none, shown := none,
            displayed := none, glide := none, paused := none, holdCount := 0, exitMark := false, resolved := none }

/-- The current source is let go and the inset enters HIDDEN (R116, R119, R125). -/
def letGoAndHide (c : Chan) (s : State) : State :=
  match (s.chan c).cur with
  | some o => (letGo c o.src s).modChan c Channel.hide
  | none => s.modChan c Channel.hide

/-- The outgoing source of a crossfade is let go, its rectangle is none, and the crossfade leaves
the spare's claimants (R116, R119, R124, R130). -/
def endCrossfade (c : Chan) (s : State) : State :=
  match (s.chan c).out with
  | some o => dropClaim c .crossfade
      ((letGo c o.src s).modChan c (fun ch => { ch with out := none, outRect := none }))
  | none => dropClaim c .crossfade (s.modChan c (fun ch => { ch with outRect := none }))

/-- FADING_OUT with the exit mark set, from the current level over a count; a cut ends in HIDDEN at
once (R116, R119). -/
def fadeOut (c : Chan) (count : Nat) (s : State) : State :=
  if count = 0 then letGoAndHide c s
  else s.modChan c (fun ch => { ch with
    inset := .fadingOut, exitMark := true, paused := none,
    cur := ch.cur.map (fun o => o.fadeTo 0 count) })

/-- FADING_IN from the current level over a count; SHOWN at once for count 0 (R118). -/
def fadeIn (c : Chan) (count : Nat) (s : State) : State :=
  s.modChan c (fun ch => { ch with
    inset := if count = 0 then .shown else .fadingIn,
    cur := ch.cur.map (fun o => o.fadeTo 1024 count) })

/-- FORCED_OUT: the glide ends, a hold ends, and the current source fades to 0 over 6 frames
(R124). -/
def forceOut (c : Chan) (s : State) : State :=
  s.modChan c (fun ch => { ch with
    inset := .forcedOut, glide := none, paused := none,
    holdCount := if ch.inset = .held then 0 else ch.holdCount,
    cur := ch.cur.map (fun o => o.fadeTo 0 6) })

/-! ### What the engine does with an outcome (R85, R124, R125) -/

/-- A FORCED_OUT outcome while the inset is visible or already FORCED_OUT (R124). -/
def reactForcedOut (c : Chan) (s : State) : State :=
  match (s.chan c).inset with
  | .hidden => s
  | .fadingIn => forceOut c s
  | .shown => forceOut c s
  | .fadingOut => forceOut c s
  | .held => forceOut c s
  | .crossfade => forceOut c (endCrossfade c s)
  | .forcedOut => s

/-- The current source stands in a state. -/
def currentIs (c : Chan) (st : SrcState) (s : State) : Bool :=
  match (s.chan c).cur with
  | some o => decide ((s.src o.src).state = st)
  | none => false

/-- A fitting outcome brings a FORCED_OUT inset back, and otherwise sets a glide target (R85, R90,
R125). In FORCED_OUT, where it brings nothing back, no glide starts either (R124 over R90, log entry 40). -/
def reactFitting (c : Chan) (count : Nat) (s : State) : State :=
  if (s.chan c).inset = .forcedOut then
    if !(s.chan c).exitMark && currentIs c .taken s then fadeIn c 6 (s.modChan c Channel.showDirect)
    else s
  else s.modChan c (fun ch => ch.glideToResolved count)

/-- A resolution of a channel's placement source, unless its inset is HIDDEN, with its hand-over to
the engine; the outcome, or none where none ran (R86). HELD_PLACE keeps a visible inset where it is; in
FORCED_OUT it counts as a resolution that fits and brings the inset back (R85, R125, log entry 33). -/
def resolveVisible (c : Chan) (count : Nat) (s : State) : State × Option PlaceOutcome :=
  if (s.chan c).inset = .hidden then (s, none)
  else
    match (s.chan c).cur with
    | none => (s, none)
    | some o =>
      let r := resolveFor c o.src s
      (if r.2 = .forcedOut then reactForcedOut c r.1
       else if r.2 = .heldPlace ∧ (r.1.chan c).inset ≠ .forcedOut then r.1
       else reactFitting c count r.1, some r.2)

/-! ### On-air actions of the engine (R117 to R123) -/

/-- SHOW from HIDDEN: take, home, resolution, and FADING_IN or FORCED_OUT (R118, R124). -/
def showFromHidden (c : Chan) (p : Port) (count : Nat) (s : State) : State × Option Reason :=
  match checkTake c p s with
  | some r => (s, some r)
  | none =>
    let s := (grantTake c p s).modChan c (fun ch => { ch with
      home := some p, cur := some ⟨p, 0, none⟩, exitMark := false, inset := .forcedOut })
    let r := resolveFor c p s
    if r.2 = .forcedOut then (r.1, none)
    else (fadeIn c count (r.1.modChan c Channel.showDirect), none)

/-- SHOW of the fading source in FADING_OUT: taken again, resolved with the default glide, and
FADING_IN from the current level, or FORCED_OUT (R118). -/
def showAgain (c : Chan) (p : Port) (count : Nat) (s : State) : State × Option Reason :=
  match checkTake c p s with
  | some r => (s, some r)
  | none =>
    let s := (grantTake c p s).modChan c (fun ch => { ch with exitMark := false })
    let r := resolveFor c p s
    if r.2 = .forcedOut then (forceOut c r.1, none)
    else (fadeIn c count (if r.2 = .heldPlace then r.1 else
      r.1.modChan c (fun ch => ch.glideToResolved ch.defaultGlide)), none)

/-- SHOW (R118). -/
def doShow (c : Chan) (src : Option Port) (count : Nat) (s : State) : State × Option Reason :=
  match src.or (s.chan c).home with
  | none => (s, some .noHome)
  | some p =>
    let isCur := decide ((s.chan c).cur.map OnAir.src = some p)
    match (s.chan c).inset with
    | .hidden => showFromHidden c p count s
    | .fadingIn => (s, if isCur then none else some .wrongState)
    | .shown => (s, if isCur then none else some .wrongState)
    | .fadingOut => if isCur then showAgain c p count s else (s, some .wrongState)
    | .crossfade => (s, if isCur then none else some .wrongState)
    | .held => (s, some .wrongState)
    | .forcedOut => (s, if isCur then none else some .wrongState)

/-- A begin-release on the current source. -/
def releaseCurrent (c : Chan) (s : State) : State :=
  match (s.chan c).cur with
  | some o => beginRelease c o.src s
  | none => s

/-- HIDE (R119). -/
def doHide (c : Chan) (count : Nat) (s : State) : State :=
  match (s.chan c).inset with
  | .hidden => s
  | .fadingIn => fadeOut c count (releaseCurrent c s)
  | .shown => fadeOut c count (releaseCurrent c s)
  | .fadingOut => fadeOut c count s
  | .crossfade => fadeOut c count (releaseCurrent c (endCrossfade c s))
  | .held => fadeOut c count (s.modChan c (fun ch => { ch with holdCount := 0 }))
  | .forcedOut => letGoAndHide c s

/-- The hand-over's answer about the spare at step 6 of R120: the channel has it, or an action that
has not asked finds it FREE (R134, R154). -/
def spareAtHand (c : Chan) (claim : SpareAns) (s : State) : Bool :=
  s.spare.hasIt c || (decide (claim = .notAsked) && decide (s.spare = .free))

/-- Step 6 of R120: the crossfade. -/
def beginCrossfade (c : Chan) (p : Port) (count : Nat) (old : OnAir) (rect : Option Rect)
    (s : State) : State :=
  let s := beginRelease c old.src s
  let s := (askSpare c .crossfade s).1
  s.modChan c (fun ch => { ch with
    inset := .crossfade, out := some (old.fadeTo 0 count), outRect := rect,
    cur := some ((⟨p, 0, none⟩ : OnAir).fadeTo 1024 count),
    exitMark := false, holdCount := 0, paused := none })

/-- Step 7 of R120: the cut, and DEGRADED where it stands in for a crossfade. -/
def cutOver (c : Chan) (p : Port) (count : Nat) (old : OnAir) (s : State) : State :=
  let s := dropClaim c .crossfade (letGo c old.src s)
  let s := s.modChan c (fun ch => { ch with
    inset := .shown, out := none, outRect := none, cur := some ⟨p, 1024, none⟩,
    exitMark := false, holdCount := 0, paused := none })
  if count = 0 then s else raiseChan c .degraded s

/-- A hand-over that ends FORCED_OUT at step 4 of R120: the named source TAKEN at level 0 with no
fade, the source before it let go, no spare used (R124). -/
def forcedHandover (c : Chan) (p : Port) (old : OnAir) (s : State) : State :=
  dropClaim c .crossfade ((letGo c old.src s).modChan c (fun ch => { ch with
    inset := .forcedOut, out := none, outRect := none, cur := some ⟨p, 0, none⟩, glide := none,
    exitMark := false, holdCount := 0, paused := none }))

/-- Steps 2 to 7 of R120, the named source having been taken. -/
def handOver (c : Chan) (p : Port) (count : Nat) (claim : SpareAns) (old : OnAir) (s : State) :
    State :=
  let rect := shownRect c s
  let s := s.modChan c (fun ch => { ch with home := some p, glide := none })
  let r := resolveFor c p s
  if r.2 = .forcedOut then forcedHandover c p old r.1
  else
    let s := r.1.modChan c Channel.showDirect
    if 0 < count && spareAtHand c claim s then beginCrossfade c p count old rect s
    else cutOver c p count old s

/-- A HANDOVER naming another source while one is on air (R120). -/
def handOverFrom (c : Chan) (p : Port) (count : Nat) (claim : SpareAns) (s : State) :
    State × Option Reason :=
  match checkTake c p s, (s.chan c).cur with
  | some r, _ => (s, some r)
  | none, none => (s, none)
  | none, some old => (handOver c p count claim old (grantTake c p s), none)

/-- A running crossfade completes at once for a hand-over: the outgoing source is let go, the
incoming one stands at 1024, SHOWN; the crossfade stays a claimant of the spare (R122). -/
def completeForHandover (c : Chan) (s : State) : State :=
  let s := match (s.chan c).out with
    | some o => letGo c o.src s
    | none => s
  s.modChan c (fun ch => { ch with
    inset := .shown, out := none, outRect := none,
    cur := ch.cur.map (fun o => { o with level := 1024, fade := none }) })

/-- HANDOVER in CROSSFADE to a third source: taken first, then the crossfade completes and the new
hand-over acts from SHOWN (R121). -/
def handOverInCrossfade (c : Chan) (p : Port) (count : Nat) (claim : SpareAns) (s : State) :
    State × Option Reason :=
  match checkTake c p s with
  | some r => (s, some r)
  | none =>
    let s := completeForHandover c (grantTake c p s)
    match (s.chan c).cur with
    | some old => (handOver c p count claim old s, none)
    | none => (s, none)

/-- HANDOVER in FORCED_OUT to another source: it replaces the source off air (R121). A fitting
resolution brings it on from level 0; otherwise the forced fade-out runs on (log entry 18). -/
def handOverForcedOut (c : Chan) (p : Port) (s : State) : State × Option Reason :=
  match checkTake c p s, (s.chan c).cur with
  | some r, _ => (s, some r)
  | none, none => (s, none)
  | none, some old =>
    let s := letGo c old.src (grantTake c p s)
    let s := s.modChan c (fun ch => { ch with
      home := some p, exitMark := false, cur := some { old with src := p } })
    let r := resolveFor c p s
    if r.2 = .forcedOut then (r.1, none)
    else (fadeIn c 6 (r.1.modChan c
      (fun ch => { ch with cur := some ⟨p, 0, none⟩ }.showDirect)), none)

/-- HANDOVER (R120, R121). -/
def doHandover (c : Chan) (p : Port) (count : Nat) (claim : SpareAns) (s : State) :
    State × Option Reason :=
  let isCur := decide ((s.chan c).cur.map OnAir.src = some p)
  let isOut := decide ((s.chan c).out.map OnAir.src = some p)
  match (s.chan c).inset with
  | .hidden => showFromHidden c p count s
  | .fadingIn => if isCur then (s, none) else handOverFrom c p count claim s
  | .shown => if isCur then (s, none) else handOverFrom c p count claim s
  | .fadingOut => if isCur then (s, none) else handOverFrom c p count claim s
  | .held => if isCur then (s, none) else handOverFrom c p count claim s
  | .crossfade => if isCur || isOut then (s, none) else handOverInCrossfade c p count claim s
  | .forcedOut => if isCur then (s, none) else handOverForcedOut c p s

/-- STANDBY: the standby source becomes what the action names (R123). -/
def doStandby (c : Chan) (src : Option Port) (s : State) : State :=
  s.modChan c (fun ch => { ch with standby := src })

/-! ### Loss and return on air (R126 to R131) -/

/-- The hold expires: HOLD_EXPIRED, and the frozen frame fades out over 12 frames (R129). -/
def expireHold (c : Chan) (s : State) : State :=
  raiseChan c .holdExpired (s.modChan c (fun ch => { ch with
    inset := .fadingOut, paused := none, exitMark := true,
    cur := ch.cur.map (fun o => o.fadeTo 0 12) }))

/-- HELD is entered; with hold time 0 it expires as it is entered (R127). -/
def enterHold (c : Chan) (paused : Paused) (s : State) : State :=
  let s := s.modChan c (fun ch => { ch with inset := .held, paused := some paused, holdCount := 0 })
  if (s.chan c).holdTime = 0 then expireHold c s else s

/-- The automatic cut to the standby source (R126). Its one resolution sees the crop in force at the
moment of the cut; a crop set since the latest frame start comes into force at the next with no
resolution of its own, as R58 reports it to no owner (R86, log entry 35). -/
def cutToStandby (c : Chan) (lost q : Port) (s : State) : State :=
  let s := letGo c lost (grantTake c q s)
  let s := s.modChan c (fun ch => { ch with
    cur := ch.cur.map (fun o => { o with src := q }), standby := none, home := some q })
  let r := resolveFor c q s
  if r.2 = .forcedOut then reactForcedOut c r.1 else r.1.modChan c Channel.showDirect

/-- The current source is lost in FADING_IN or SHOWN: a cut to a grantable standby, or a hold
(R126, R127). -/
def lossOnAir (c : Chan) (lost : Port) (paused : Paused) (s : State) : State :=
  match (s.chan c).standby with
  | none => enterHold c paused s
  | some q =>
    match checkTake c q s with
    | none => cutToStandby c lost q s
    | some _ => enterHold c paused s

/-- The current source is lost in FORCED_OUT: let go at once where the forced fade-out has ended
(R131). -/
def lossForcedOut (c : Chan) (s : State) : State :=
  match (s.chan c).cur with
  | some o => if o.fade.isNone then letGoAndHide c s else s
  | none => s

/-- The incoming source of a crossfade is lost: the crossfade completes at once and the inset enters
HELD on its frozen frame at level 1024, in the event itself, paused state SHOWN (R130 over R136, log entry
44). -/
def lossIncoming (c : Chan) (s : State) : State :=
  enterHold c .shown (dropClaim c .crossfade (completeForHandover c s))

/-- The outgoing source of a crossfade is lost: let go at once, and FADING_IN with the incoming
fade record (R130). -/
def lossOutgoing (c : Chan) (s : State) : State :=
  (endCrossfade c s).modChan c (fun ch => { ch with inset := .fadingIn })

/-- A loss report: SOURCE_LOST, and the engine's part by inset state (R126, R130, R131). -/
def reportLoss (c : Chan) (p : Port) (s : State) : State :=
  let s := raiseChan c .sourceLost s
  if (s.chan c).cur.map OnAir.src = some p then
    match (s.chan c).inset with
    | .hidden => s
    | .fadingIn => lossOnAir c p .fadingIn s
    | .shown => lossOnAir c p .shown s
    | .fadingOut => s
    | .crossfade => lossIncoming c s
    | .held => s
    | .forcedOut => lossForcedOut c s
  else if (s.chan c).out.map OnAir.src = some p then lossOutgoing c s
  else s

/-- A held source is back: the inset returns to its paused state (R128). -/
def resumeHeld (ch : Channel) : Channel :=
  { ch with
    inset := match ch.paused with
      | some .fadingIn => .fadingIn
      | some .shown => .shown
      | none => .shown
    holdCount := 0, paused := none }

/-- A return report: a hold resumes; a source on its way out is released again (R128, R131). -/
def reportReturn (c : Chan) (p : Port) (s : State) : State :=
  if (s.chan c).cur.map OnAir.src = some p then
    match (s.chan c).inset with
    | .held => s.modChan c resumeHeld
    | .fadingOut => beginRelease c p s
    | .forcedOut => if (s.chan c).exitMark then beginRelease c p s else s
    | _ => s
  else if (s.chan c).out.map OnAir.src = some p then beginRelease c p s
  else s

/-! ### The engine's step at a frame start (R115, step 2) -/

/-- The fade that ends in FORCED_OUT: the source is let go with the exit mark set or when LOST, and
is kept otherwise (R125). The shown placement of a source kept off air stands (R90, log entry 38). -/
def endForcedFade (c : Chan) (s : State) : State :=
  if (s.chan c).exitMark || currentIs c .lost s then letGoAndHide c s else s

/-- The inset moves on when a fade has ended (R116). -/
def settleFade (c : Chan) (s : State) : State :=
  match (s.chan c).inset with
  | .fadingIn => s.modChan c (fun ch => { ch with inset := .shown })
  | .fadingOut => letGoAndHide c s
  | .crossfade => (endCrossfade c s).modChan c (fun ch => { ch with inset := .shown })
  | .forcedOut => endForcedFade c s
  | _ => s

/-- The current source's fade runs and is not paused by a hold (R114, R127). -/
def fadeRuns (ch : Channel) : Bool :=
  decide (ch.inset ≠ .held) &&
  (match ch.cur with
   | some o => o.fade.isSome
   | none => false)

/-- One step of every running fade, and what its end brings (R114, R116). -/
def stepFades (c : Chan) (s : State) : State :=
  if fadeRuns (s.chan c) then
    let s := s.modChan c (fun ch => { ch with
      cur := ch.cur.map OnAir.stepFade, out := ch.out.map OnAir.stepFade })
    if fadeRuns (s.chan c) then s else settleFade c s
  else s

/-- The current fade's next step is its last. -/
def fadeEndsNext (ch : Channel) : Bool :=
  decide (ch.inset ≠ .held) &&
  (match ch.cur with
   | some o => match o.fade with
     | some fd => decide (fd.count ≤ fd.step + 1)
     | none => false
   | none => false)

/-- The glide's next step is its last. -/
def glideEndsNext (ch : Channel) : Bool :=
  match ch.glide with
  | some g => decide (g.count ≤ g.step + 1)
  | none => false

/-- One count of a hold; at the hold time it expires and the fade takes its first step (R127,
R129). -/
def stepHold (c : Chan) (s : State) : State :=
  if (s.chan c).inset = .held then
    let s := s.modChan c (fun ch => { ch with holdCount := ch.holdCount + 1 })
    if (s.chan c).holdTime ≤ (s.chan c).holdCount then stepFades c (expireHold c s) else s
  else s

/-- Step 2 of R115: fades, glide, hold. In BYPASS nothing steps. -/
def stepEngine (c : Chan) (s : State) : State :=
  if (s.chan c).mode = .bypass then s
  else stepHold c ((stepFades c s).modChan c Channel.stepGlide)

/-! ### Leaving the processed path (R132) -/

/-- The engine drops whatever it was doing: every owned source is let go, every claim on the spare
is dropped, the inset enters HIDDEN. -/
def dropInset (c : Chan) (s : State) : State :=
  let s := (letGoAll c s).modChan c Channel.hide
  { s with spare := s.spare.leaveAll c }

end Sys2Proof.Machine
end

