-- ==== Sys2Proof/Machine/Actions.lean ====
section
/-! DEFINITION. The zone table's changes and expiries, the actions of the placement resolver and the
zone table, and the taking of an on-air action whole (Chapters 5 and 6, R117, R152, R153). -/

namespace Sys2Proof.Machine

/-! ### The zone table (R99 to R104) -/

/-- The entry of an index. -/
def zoneAt (zones : List Zone) (i : Nat) : Zone := zones.getD i Zone.undefined

/-- A changed zone table is stored, and resolves with the default glide where the ACTIVE set, or the
rectangle or class of an ACTIVE zone, differs and the inset is not HIDDEN (R101). -/
def changeZones (c : Chan) (zones : List Zone) (s : State) : State × Option PlaceOutcome :=
  let old := activeView (s.chan c).zones
  let s := s.modChan c (fun ch => { ch with zones := zones })
  if activeView zones = old then (s, none) else resolveVisible c (s.chan c).defaultGlide s

/-- A zone expiry takes effect: inactive, no expiry; the rest stays (R102). -/
def Zone.expire (z : Zone) : Zone := { z with active := false, expiry := none }

/-- The expiry of a zone is same-day and due by a test on its label. -/
def Zone.dueBy (z : Zone) (due : Nat → Bool) : Bool :=
  match z.expiry with
  | some d => !d.next && due d.label
  | none => false

/-- The due expiries of a step take effect together, with at most one resolution (R102). -/
def expireZones (c : Chan) (due : Nat → Bool) (s : State) : State :=
  (changeZones c ((s.chan c).zones.map (fun z => if z.dueBy due then z.expire else z)) s).1

/-- A midnight clears the next-day mark of an expiry (R33). -/
def Zone.clearMark (z : Zone) : Zone :=
  { z with expiry := z.expiry.map (fun d => { d with next := false }) }

/-- The ZONE action (R100). -/
def doZone (c : Chan) (i : Nat) (active : Bool) (expiry : Option Dated) (s : State) :
    State × Option Reason :=
  let zones := (s.chan c).zones
  let z := zoneAt zones i
  if active then
    if z.defined then ((changeZones c (zones.set i { z with active := true, expiry := expiry }) s).1, none)
    else (s, some .noZone)
  else ((changeZones c (zones.set i { z with active := false, expiry := none }) s).1, none)

/-! ### The placement resolver's actions (R87 to R89) -/

/-- PLACE replaces the requested placement and resolves (R87). -/
def doPlace (c : Chan) (b : Block) (glide : Option Nat) (s : State) : State :=
  let s := s.modChan c (fun ch => { ch with requested := b })
  (resolveVisible c (glide.getD (s.chan c).defaultGlide) s).1

/-- PUSH stacks the requested placement, spilling the bottom block of a full stack, and resolves
(R88). -/
def doPush (c : Chan) (b : Block) (glide : Option Nat) (s : State) : State :=
  let full := decide (4 ≤ (s.chan c).stack.length)
  let s := s.modChan c (fun ch => { ch with
    stack := (if full then ch.stack.drop 1 else ch.stack) ++ [ch.requested], requested := b })
  let s := if full then raiseChan c .stackSpill s else s
  (resolveVisible c (glide.getD (s.chan c).defaultGlide) s).1

/-- POP restores the top block of the stack and resolves; an empty stack spills and fails (R89). -/
def doPop (c : Chan) (glide : Option Nat) (s : State) : State × Option Reason :=
  match (s.chan c).stack.getLast? with
  | none => (raiseChan c .stackSpill s, some .emptyStack)
  | some b =>
    let s := s.modChan c (fun ch => { ch with stack := ch.stack.dropLast, requested := b })
    ((resolveVisible c (glide.getD (s.chan c).defaultGlide) s).1, none)

/-- MARK writes the last marker with the output label, and raises MARK (R158). -/
def doMark (c : Chan) (code : Nat) (s : State) : State :=
  raiseChan c .mark (s.modChan c (fun ch => { ch with lastMarker := some ⟨code, ch.label⟩ }))

/-! ### An on-air action, taken whole (R117, R152) -/

/-- An on-air action with the answer its request for the spare had; why it fails, or none (R153). -/
def applyAction (c : Chan) (a : Action) (claim : SpareAns) (s : State) : State × Option Reason :=
  match a with
  | .showInset src count => doShow c src count s
  | .hide count => (doHide c count s, none)
  | .handover src count => doHandover c src count claim s
  | .place b g => (doPlace c b g s, none)
  | .push b g => (doPush c b g s, none)
  | .pop g => doPop c g s
  | .zone i active expiry => doZone c i active expiry s
  | .mark code => (doMark c code s, none)
  | .standby src => (doStandby c src s, none)

/-- A failed action writes the last failure and raises CUE_FAILED (R157, R160). -/
def writeFailure (c : Chan) (tag : Nat) (a : Action) (r : Reason) (s : State) : State :=
  raiseChan c .cueFailed (s.modChan c (fun ch => { ch with
    lastFailure := some ⟨tag, r, a, ch.label⟩ }))

/-- The action is a HANDOVER with a count above 0, which asks for the spare (R134). -/
def Action.asksSpare : Action → Bool
  | .handover _ n => decide (0 < n)
  | _ => false

end Sys2Proof.Machine
end

