-- ==== Sys2Proof/Machine/Labels.lean ====
section
/-! DEFINITION. Timecode words, frame labels and the discontinuity rule (R20 to R22, R29). -/

namespace Sys2Proof.Machine

/-- The first two validity conditions of R20, on the fields of a word or of a host's label. -/
def timeValid (f : Format) (h m s ff : Byte) : Bool :=
  decide (h.toNat < 24) && decide (m.toNat < 60) && decide (s.toNat < 60) &&
  decide (ff.toNat < f.base)

/-- A timecode word is valid (R20). -/
def wordValid (f : Format) (w : TcWord) : Bool := timeValid f w.h w.m w.s w.ff && !w.drop

/-- The label of a timecode (R21): the pair flag counts where R / Rtc is 2. -/
def labelOfTime (f : Format) (h m s ff : Byte) (pair : Bool) : Nat :=
  ((h.toNat * 60 + m.toNat) * 60 + s.toNat) * f.rate + ff.toNat * (f.rate / f.base) +
    (if f.rate / f.base = 2 && pair then 1 else 0)

/-- The label of a word (R21). -/
def wordLabel (f : Format) (w : TcWord) : Nat := labelOfTime f w.h w.m w.s w.ff w.pair

/-- A host's label is refused when its time breaks R22, or a flag is neither 0 nor 1 (R141). -/
def hostLabelOk (f : Format) (l : HostLabel) : Bool :=
  timeValid f l.h l.m l.s l.ff && decide (l.pair.toNat ≤ 1) && decide (l.next.toNat ≤ 1)

/-- The dated label of a host's label (R22). -/
def datedOf (f : Format) (l : HostLabel) : Dated :=
  ⟨labelOfTime f l.h l.m l.s l.ff (decide (l.pair.toNat = 1)), decide (l.next.toNat = 1)⟩

/-- The timecode a label is reported as: hours, minutes, seconds, frames, pair flag (R22). -/
def timeOfLabel (f : Format) (n : Nat) : List Nat :=
  [n / (3600 * f.rate), n % (3600 * f.rate) / (60 * f.rate), n % (60 * f.rate) / f.rate,
   n % f.rate / (f.rate / f.base), n % f.rate % (f.rate / f.base)]

/-- Dated order: the clear mark before the set one, then the number (R22). -/
def Dated.le (a b : Dated) : Bool :=
  if a.next = b.next then decide (a.label ≤ b.label) else b.next

/-- The finding of a frame start (R29). -/
inductive Finding where
  | continuous | catchUp | jumpForward | jumpBack
deriving DecidableEq, Repr

/-- The discontinuity rule (R29): the class of the move from label L to label N. -/
def findingOf (f : Format) (l n : Nat) : Finding :=
  if n = l ∨ n = (l + 1) % f.day then .continuous
  else if (n + f.day - l) % f.day ≤ f.rate then .catchUp
  else if l < n then .jumpForward
  else .jumpBack

/-- A flywheeled label: one on, or the same for a repeated frame (R24). -/
def flywheelLabel (f : Format) (l : Nat) (isRepeat : Bool) : Nat :=
  if isRepeat then l else (l + 1) % f.day

end Sys2Proof.Machine
end

