-- ==== Sys2Proof/Machine/Operands.lean ====
section
/-! DEFINITION. The messages' bytes: reading a payload into a request (R171 and Chapter 10), reading an
action part and a placement block (R174, R175, R141), and writing the same layouts back. -/

namespace Sys2Proof.Machine

/-! ### Reading bytes -/

def byteAt (l : List Byte) (i : Nat) : Byte := l.getD i 0

/-- A two-byte field, most significant byte first (R164). -/
def halfAt (l : List Byte) (i : Nat) : Half :=
  BitVec.ofNat 16 ((byteAt l i).toNat * 256 + (byteAt l (i + 1)).toNat)

/-- A host's label: six bytes (R176). -/
def hostLabelAt (l : List Byte) (i : Nat) : HostLabel :=
  ⟨byteAt l i, byteAt l (i + 1), byteAt l (i + 2), byteAt l (i + 3), byteAt l (i + 4), byteAt l (i + 5)⟩

/-- A notice set: nine bytes (R176). -/
def noticeBitsAt (l : List Byte) (i : Nat) : NoticeBits :=
  ⟨byteAt l i, ⟨halfAt l (i + 1), halfAt l (i + 3), halfAt l (i + 5), halfAt l (i + 7)⟩⟩

/-- A cue record: 28 bytes (R175). -/
def cueRecAt (l : List Byte) (i : Nat) : CueRec :=
  ⟨halfAt l i, hostLabelAt l (i + 2), (l.drop (i + 8)).take 20⟩

/-! ### Writing bytes -/

def be8 (n : Nat) : List Byte := [BitVec.ofNat 8 n]

def be16 (n : Nat) : List Byte := [BitVec.ofNat 8 (n / 256), BitVec.ofNat 8 n]

def be32 (n : Nat) : List Byte :=
  [BitVec.ofNat 8 (n / 16777216), BitVec.ofNat 8 (n / 65536), BitVec.ofNat 8 (n / 256), BitVec.ofNat 8 n]

def flag (b : Bool) : List Byte := [if b then 1 else 0]

/-- A list of bytes brought to a length, filled up with zeros. -/
def padTo (n : Nat) (l : List Byte) : List Byte := (l ++ List.replicate n 0).take n

/-- A notice set as carried (R176). -/
def noticeBytes (n : NoticeBits) : List Byte :=
  [n.card] ++ be16 n.chan.v0.toNat ++ be16 n.chan.v1.toNat ++ be16 n.chan.v2.toNat ++
  be16 n.chan.v3.toNat

/-- A label as the card reports its timecode: five bytes, or zeros without a format (R176). -/
def timeBytes (fmt : Option Format) (label : Nat) : List Byte :=
  match fmt with
  | some f => (timeOfLabel f label).map (BitVec.ofNat 8)
  | none => [0, 0, 0, 0, 0]

/-- A label as the card reports it: number and timecode (R176). -/
def labelBytes (fmt : Option Format) (label : Nat) : List Byte := be32 label ++ timeBytes fmt label

/-- A rectangle, two bytes a field; an absent one is zeros (R182). -/
def rectBytes : Option Rect → List Byte
  | some r => be16 r.x ++ be16 r.y ++ be16 r.w ++ be16 r.h
  | none => [0, 0, 0, 0, 0, 0, 0, 0]

/-! ### The codes of R174 and R176 -/

def anchorOf (n : Nat) : Option Anchor :=
  match n with
  | 0 => some .topLeft
  | 1 => some .topCentre
  | 2 => some .topRight
  | 3 => some .middleLeft
  | 4 => some .centre
  | 5 => some .middleRight
  | 6 => some .bottomLeft
  | 7 => some .bottomCentre
  | 8 => some .bottomRight
  | 9 => some .free
  | _ => none

def Anchor.code : Anchor → Nat
  | .topLeft => 0
  | .topCentre => 1
  | .topRight => 2
  | .middleLeft => 3
  | .centre => 4
  | .middleRight => 5
  | .bottomLeft => 6
  | .bottomCentre => 7
  | .bottomRight => 8
  | .free => 9

/-- The result code values of R172. -/
def ResultCode.value : ResultCode → Byte
  | .ok => 0x00
  | .okClamped => 0x01
  | .deferred => 0x02
  | .unknownKind => 0x10
  | .badLength => 0x11
  | .badField => 0x12
  | .wrongMode => 0x13
  | .noSuch => 0x14
  | .listFull => 0x15
  | .dupTag => 0x16
  | .tooLate => 0x17
  | .sourceBusy => 0x18
  | .sourceNotReady => 0x19
  | .noHome => 0x1A
  | .wrongState => 0x1B
  | .noFormat => 0x1C
  | .checkFailed => 0x1D

/-- The failure reason values of R172. -/
def Reason.value : Reason → Byte
  | .sourceBusy => 0x18
  | .sourceNotReady => 0x19
  | .noHome => 0x1A
  | .wrongState => 0x1B
  | .emptyStack => 0x1E
  | .noZone => 0x1F

/-- The result code with which CH_TAKE answers a failure found as it is taken (R184). -/
def Reason.result : Reason → ResultCode
  | .sourceBusy => .sourceBusy
  | .sourceNotReady => .sourceNotReady
  | .noHome => .noHome
  | .wrongState => .wrongState
  | .emptyStack => .ok
  | .noZone => .noSuch

/-! ### The placement block (R174) -/

/-- The named anchors: the fallback list takes no FREE (R75). -/
def namedAnchorOf (n : Nat) : Option Anchor :=
  if n = 9 then none else anchorOf n

/-- The first `k` fallback entries, each one of the nine named anchors (R75). -/
def fallbacksAt (l : List Byte) (i : Nat) : Nat → Option (List Anchor)
  | 0 => some []
  | k + 1 =>
    match namedAnchorOf (byteAt l i).toNat, fallbacksAt l (i + 1) k with
    | some a, some as => some (a :: as)
    | _, _ => none

/-- A placement block read from its 12 bytes, height even-floored; none where R75 refuses it. -/
def blockAt (l : List Byte) (i : Nat) : Option Block :=
  if 3 < (byteAt l (i + 8)).toNat || 1 < (byteAt l (i + 1)).toNat then none
  else
    match anchorOf (byteAt l i).toNat, fallbacksAt l (i + 9) (byteAt l (i + 8)).toNat with
    | some a, some fb =>
      some ⟨a, if (byteAt l (i + 1)).toNat = 1 then none else some (evenFloor (halfAt l (i + 2)).toNat),
        (halfAt l (i + 4)).toNat, (halfAt l (i + 6)).toNat, fb⟩
    | _, _ => none

/-- A block as it is reported: a default height as kind 1 with the height it stands for (R95). -/
def blockBytes (fmt : Option Format) (b : Block) : List Byte :=
  be8 b.anchor.code ++
  (match b.height with
   | some h => be8 0 ++ be16 h
   | none => be8 1 ++ be16 (match fmt with
     | some f => f.defaultHeight
     | none => 0)) ++
  be16 b.fx ++ be16 b.fy ++ be8 b.fallbacks.length ++
  padTo 3 (b.fallbacks.map (fun a => BitVec.ofNat 8 a.code))

/-! ### The action part (R175) and its tests 3, 4 and 5 (R141) -/

/-- Counts and glides of 251..255 are taken as 250 (R94, R114, R142). -/
def cap250 (b : Byte) : Nat := min 250 b.toNat

/-- An optional glide: its presence byte and its value; none where the presence byte is neither 0
nor 1. -/
def glideAtPart (l : List Byte) (i : Nat) : Option (Option Nat) :=
  match (byteAt l i).toNat with
  | 0 => some none
  | 1 => some (some (cap250 (byteAt l (i + 1))))
  | _ => none

/-- A SHOW's or STANDBY's source: test 4 on a source that is present, then test 5 on the presence
byte (R141, log entry 26). -/
def optionalSource (l : List Byte) (i : Nat) (k : Option Port → Action) : Except ResultCode Action :=
  if (byteAt l i).toNat = 0 then .ok (k none)
  else
    match portOf (byteAt l (i + 1)) with
    | none => .error .noSuch
    | some p => if (byteAt l i).toNat = 1 then .ok (k (some p)) else .error .badField

/-- A PLACE's or PUSH's block and glide (R175). -/
def placeAction (l : List Byte) (k : Block → Option Nat → Action) : Except ResultCode Action :=
  match blockAt l 1, glideAtPart l 13 with
  | some b, some g => .ok (k b g)
  | _, _ => .error .badField

/-- A ZONE action's activity and expiry (R175, R141 test 5). -/
def zoneAction (f : Format) (l : List Byte) : Except ResultCode Action :=
  let i := (byteAt l 1).toNat
  if 11 < i then .error .noSuch
  else
    match (byteAt l 2).toNat, (byteAt l 3).toNat with
    | 0, 0 => .ok (.zone i false none)
    | 1, 0 => .ok (.zone i true none)
    | 1, 1 =>
      if hostLabelOk f (hostLabelAt l 4) then .ok (.zone i true (some (datedOf f (hostLabelAt l 4))))
      else .error .badField
    | _, _ => .error .badField

/-- The action of an action part, normalised (R142), or the code of the first of tests 3, 4 and 5 of
R141 that it fails. -/
def actionOf (f : Format) (l : List Byte) : Except ResultCode Action :=
  match (byteAt l 0).toNat with
  | 1 => optionalSource l 1 (fun p => .showInset p (cap250 (byteAt l 3)))
  | 2 => .ok (.hide (cap250 (byteAt l 1)))
  | 3 =>
    match portOf (byteAt l 1) with
    | some p => .ok (.handover p (cap250 (byteAt l 2)))
    | none => .error .noSuch
  | 4 => placeAction l .place
  | 5 => placeAction l .push
  | 6 =>
    match glideAtPart l 1 with
    | some g => .ok (.pop g)
    | none => .error .badField
  | 7 => zoneAction f l
  | 8 => .ok (.mark (byteAt l 1).toNat)
  | 9 => optionalSource l 1 .standby
  | _ => .error .badField

/-- The action codes (R175). -/
def Action.code : Action → Nat
  | .showInset _ _ => 1
  | .hide _ => 2
  | .handover _ _ => 3
  | .place _ _ => 4
  | .push _ _ => 5
  | .pop _ => 6
  | .zone _ _ _ => 7
  | .mark _ => 8
  | .standby _ => 9

/-- An optional value: presence byte and value. -/
def optByte : Option Nat → List Byte
  | some n => be8 1 ++ be8 n
  | none => be8 0 ++ be8 0

/-- A dated label in the host's layout (R175). -/
def datedBytes (fmt : Option Format) (d : Dated) : List Byte := timeBytes fmt d.label ++ flag d.next

/-- The action part of a stored action: bytes it does not use are 0 (R175). -/
def actionBytes (fmt : Option Format) (a : Action) : List Byte :=
  padTo 20 (be8 a.code ++
    match a with
    | .showInset p n => optByte (p.map portIdx) ++ be8 n
    | .hide n => be8 n
    | .handover p n => be8 (portIdx p) ++ be8 n
    | .place b g => blockBytes fmt b ++ optByte g
    | .push b g => blockBytes fmt b ++ optByte g
    | .pop g => optByte g
    | .zone i active e => be8 i ++ flag active ++
        (match e with
         | some d => be8 1 ++ datedBytes fmt d
         | none => be8 0)
    | .mark n => be8 n
    | .standby p => optByte (p.map portIdx))

/-- A fade count or glide of the part was brought into range (R94, R114). -/
def countClamped (l : List Byte) : Bool :=
  match (byteAt l 0).toNat with
  | 1 => decide (250 < (byteAt l 3).toNat)
  | 2 => decide (250 < (byteAt l 1).toNat)
  | 3 => decide (250 < (byteAt l 2).toNat)
  | 4 => decide ((byteAt l 13).toNat = 1) && decide (250 < (byteAt l 14).toNat)
  | 5 => decide ((byteAt l 13).toNat = 1) && decide (250 < (byteAt l 14).toNat)
  | 6 => decide ((byteAt l 1).toNat = 1) && decide (250 < (byteAt l 2).toNat)
  | _ => false

/-- The given height of a PLACE or PUSH part is odd (R79); the default marker's is ignored. -/
def oddHeight (l : List Byte) : Bool :=
  decide ((byteAt l 2).toNat = 0) && decide ((halfAt l 3).toNat % 2 = 1)

/-! ### Reading a payload (R171) -/

/-- A payload of a known kind is that request when its length is the kind's, else BAD_LENGTH. -/
def sized (payload : List Byte) (n : Nat) (r : Request) : Request :=
  if payload.length = n then r else .badLength payload

/-- CUE_LOAD's length is that of the records it says it carries, 1 to 8 of them (R187). -/
def cueLoadOf (l : List Byte) : Request :=
  let n := (byteAt l 2).toNat
  if 1 ≤ n ∧ n ≤ 8 ∧ l.length = 3 + 28 * n then
    .cueLoad (byteAt l 1) ((List.range n).map (fun i => cueRecAt l (3 + 28 * i)))
  else .badLength l

/-- The request a payload makes (R171): the kind first, then the length. -/
def requestOf (l : List Byte) : Request :=
  match (byteAt l 0).toNat with
  | 0x01 => sized l 1 .ident
  | 0x02 => sized l 2 (.house (byteAt l 1))
  | 0x03 => sized l 1 .reset
  | 0x04 => sized l 10 (.noticeEnable (noticeBitsAt l 1))
  | 0x05 => sized l 1 .noticeRead
  | 0x06 => sized l 10 (.noticeAck (noticeBitsAt l 1))
  | 0x07 => sized l 1 .linkCounts
  | 0x10 => sized l 2 (.srcRead (byteAt l 1))
  | 0x11 => sized l 20 (.srcSet ⟨byteAt l 1, byteAt l 2, halfAt l 3, halfAt l 5, halfAt l 7, halfAt l 9,
      byteAt l 11, halfAt l 12, halfAt l 14, halfAt l 16, halfAt l 18⟩)
  | 0x20 => sized l 3 (.chMode (byteAt l 1) (byteAt l 2))
  | 0x21 => sized l 3 (.chDelay (byteAt l 1) (byteAt l 2))
  | 0x22 => sized l 5 (.chSetup (byteAt l 1) (byteAt l 2) (byteAt l 3) (byteAt l 4))
  | 0x23 => sized l 2 (.chRead (byteAt l 1))
  | 0x24 => sized l 2 (.chClear (byteAt l 1))
  | 0x25 => sized l 22 (.chTake (byteAt l 1) ((l.drop 2).take 20))
  | 0x30 => sized l 21 (.zoneDefine (byteAt l 3) ⟨byteAt l 1, byteAt l 2, halfAt l 4, halfAt l 6,
      halfAt l 8, halfAt l 10, byteAt l 12, byteAt l 13, byteAt l 14, hostLabelAt l 15⟩)
  | 0x31 => sized l 2 (.zoneRead (byteAt l 1))
  | 0x40 => cueLoadOf l
  | 0x41 => sized l 17 (.cueRemove (byteAt l 1) (byteAt l 2) (halfAt l 3) (hostLabelAt l 5)
      (hostLabelAt l 11))
  | 0x42 => sized l 4 (.cueRead (byteAt l 1) (byteAt l 2) (byteAt l 3))
  | 0x50 => sized l 2 (.faultRead (byteAt l 1))
  | 0x51 => sized l 2 (.faultClear (byteAt l 1))
  | _ => .unknownKind l

end Sys2Proof.Machine
end

