-- ==== Sys2Proof/Machine/Cues.lean ====
section
/-! DEFINITION. The cue dispatcher: the list and its order, firing, missing, preparing, reverting,
loading and removing (Chapter 8). -/

namespace Sys2Proof.Machine

/-! ### The list (R139) -/

/-- A cue enters the list at its place in dated order, after every cue of an equal dated label. -/
def insertCue (q : Cue) : List Cue → List Cue
  | [] => [q]
  | x :: xs => if x.date.le q.date then x :: insertCue q xs else q :: x :: xs

/-- An entry sequence greater than that of every cue in a list. -/
def nextSeq (cues : List Cue) : Nat := cues.foldl (fun m q => max m (q.seq + 1)) 0

/-- Cues whose mark a midnight clears enter the same-day list one after another, each with a new
entry sequence (R139). -/
def insertCleared (day : List Cue) : List Cue → List Cue
  | [] => day
  | q :: qs =>
    insertCleared (insertCue { q with date := { q.date with next := false }, seq := nextSeq day } day) qs

/-- A midnight clears every next-day mark of the list (R33, R139). -/
def clearCueMarks (cues : List Cue) : List Cue :=
  insertCleared (cues.filter (fun q => !q.date.next)) (cues.filter (fun q => q.date.next))

/-- A midnight clears every next-day mark of a channel: cues and zone expiries (R33). -/
def clearMarks (c : Chan) (s : State) : State :=
  s.modChan c (fun ch => { ch with cues := clearCueMarks ch.cues, zones := ch.zones.map Zone.clearMark })

/-- A cue leaves the list, and with it the recorded set of a deferred mode (R152, R156). -/
def leaveList (tag : Nat) (ch : Channel) : Channel :=
  { ch with
    cues := ch.cues.filter (fun q => decide (q.tag ≠ tag))
    deferred := ch.deferred.map (fun l => l.filter (fun t => decide (t ≠ tag))) }

/-- The tags of the PREPARED cues of a list. -/
def preparedTags (cues : List Cue) : List Nat := (cues.filter (fun q => q.prepared)).map Cue.tag

/-! ### Firing and missing (R151 to R157) -/

/-- The result of a fired action is counted, and a failure recorded (R152, R157, R159). -/
def countFired (c : Chan) (q : Cue) (r : State × Option Reason) : State :=
  match r.2 with
  | none => r.1.modChan c (fun ch => { ch with fired := ch.fired + 1 })
  | some reason =>
    writeFailure c q.tag q.action reason (r.1.modChan c (fun ch => { ch with failed := ch.failed + 1 }))

/-- A cue fires: it leaves the list, its action is taken whole, its claimant leaves, and the outcome
is counted (R152, R154). -/
def fireCue (c : Chan) (s : State) (q : Cue) : State :=
  let r := applyAction c q.action q.claim (s.modChan c (leaveList q.tag))
  countFired c q (dropAnswer c (.cue q.tag) q.claim r.1, r.2)

/-- The cues of a step that are due fire in list order (R151). -/
def fireAll (c : Chan) (due : Cue → Bool) (s : State) : State :=
  ((s.chan c).cues.filter due).foldl (fireCue c) s

/-- A cue is MISSED: it leaves the list without its action (R156). -/
def missCue (c : Chan) (s : State) (q : Cue) : State :=
  raiseChan c .cueMissed (dropAnswer c (.cue q.tag) q.claim
    ((s.modChan c (leaveList q.tag)).modChan c (fun ch => { ch with missed := ch.missed + 1 })))

/-- The cues of a step that are missed (R156). -/
def missAll (c : Chan) (missed : Cue → Bool) (s : State) : State :=
  ((s.chan c).cues.filter missed).foldl (missCue c) s

/-! ### Preparing and reverting (R148, R150) -/

/-- Replace the cue of a tag where it stands. -/
def setCue (tag : Nat) (f : Cue → Cue) (ch : Channel) : Channel :=
  { ch with cues := ch.cues.map (fun q => if q.tag = tag then f q else q) }

/-- The answer to a preparing cue's request for the spare; no request where its action makes none
(R144, R148). -/
def askForCue (c : Chan) (tag : Nat) (a : Action) (s : State) : State × SpareAns :=
  if a.asksSpare then askSpare c (.cue tag) s else (s, .notAsked)

/-- One cue becomes PREPARED, its late mark clear (R148). -/
def prepareCue (c : Chan) (s : State) (q : Cue) : State :=
  let r := askForCue c q.tag q.action s
  r.1.modChan c (setCue q.tag (fun x => { x with prepared := true, late := false, claim := r.2 }))

/-- A cue is within the horizon: PENDING, same-day, at or below N + 2 (R148). -/
def toPrepare (n : Nat) (q : Cue) : Bool :=
  !q.prepared && !q.date.next && decide (q.date.label ≤ n + 2)

/-- Preparation after the dispatch of a frame start (R148). -/
def prepareAll (c : Chan) (n : Nat) (s : State) : State :=
  ((s.chan c).cues.filter (toPrepare n)).foldl (prepareCue c) s

/-- A PREPARED cue reverts to PENDING; its claimant leaves (R150). -/
def revertCue (c : Chan) (s : State) (q : Cue) : State :=
  (dropAnswer c (.cue q.tag) q.claim s).modChan c
    (setCue q.tag (fun x => { x with prepared := false, late := false, claim := .notAsked }))

/-- Every PREPARED cue of a channel reverts (R150). -/
def revertCues (c : Chan) (s : State) : State :=
  ((s.chan c).cues.filter (fun q => q.prepared)).foldl (revertCue c) s

/-! ### Loading (R140 to R144) -/

/-- Test 7 of R141: same-day and at or below the output label less R. -/
def tooLate (f : Format) (label : Nat) (d : Dated) : Bool :=
  !d.next && decide (d.label + f.rate ≤ label)

/-- The judgement of a record against a channel (R141): the action as normalised, or the code of the
first condition met. -/
def judgeCue (f : Format) (ch : Channel) (r : CueRec) : Except ResultCode Action :=
  if r.tag = 0 then .error .badField
  else if !hostLabelOk f r.label then .error .badField
  else
    match actionOf f r.part with
    | .error e => .error e
    | .ok a =>
      if ch.cues.any (fun q => decide (q.tag = r.tag.toNat)) then .error .dupTag
      else if tooLate f ch.label (datedOf f r.label) then .error .tooLate
      else if 64 ≤ ch.cues.length then .error .listFull
      else .ok a

/-- The mode that will be in force at the channel's next frame start (R15, R143). -/
def Channel.nextMode (ch : Channel) : Mode := ch.pendingMode.getD ch.mode

/-- A cue is accepted PREPARED: AUTO ahead, the tracker not LOST, same-day and at or below L + 2
(R143). -/
def acceptPrepared (ch : Channel) (d : Dated) : Bool :=
  decide (ch.nextMode = .auto) && decide (ch.track ≠ .lost) && !d.next && decide (d.label ≤ ch.label + 2)

/-- A cue is accepted in the late window of a LOST: same-day and at or below the flywheeled label, it is
due when the tracker leaves LOST (R143). -/
def acceptLostLate (ch : Channel) (d : Dated) : Bool :=
  decide (ch.track = .lost) && !d.next && decide (d.label ≤ ch.label)

/-- An accepted record enters the list in the state of R143, with the hand-ons of R144. -/
def acceptCue (c : Chan) (f : Format) (r : CueRec) (a : Action) (s : State) : State :=
  let ch := s.chan c
  let d := datedOf f r.label
  let prep := acceptPrepared ch d
  let ans := if prep then askForCue c r.tag.toNat a s else (s, .notAsked)
  let q : Cue := ⟨r.tag.toNat, d, a, prep, prep && decide (d.label ≤ ch.label), ans.2, nextSeq ch.cues,
    acceptLostLate ch d⟩
  ans.1.modChan c (fun x => { x with cues := insertCue q x.cues })

/-- The records of a load in order: how many were accepted, and the code (R140). -/
def loadCues (c : Chan) (f : Format) : List CueRec → Nat → State → State × Nat × ResultCode
  | [], n, s => (s, n, .ok)
  | r :: rs, n, s =>
    match judgeCue f (s.chan c) r with
    | .error e => (s, n, e)
    | .ok a => loadCues c f rs (n + 1) (acceptCue c f r a s)

/-! ### Removing (R145, R146) -/

/-- A cue's dated label lies in a range, in dated order (R146). -/
def inRange (lo hi : Dated) (q : Cue) : Bool := lo.le q.date && q.date.le hi

/-- The PENDING cues picked leave the list and are counted removed (R145, R146). -/
def removeCues (pick : Cue → Bool) (ch : Channel) : Channel :=
  { ch with
    cues := ch.cues.filter (fun q => !(pick q && !q.prepared))
    removed := ch.removed + BitVec.ofNat 16 (ch.cues.filter (fun q => pick q && !q.prepared)).length }

end Sys2Proof.Machine
end

