-- ==== Sys2Proof/Machine/FrameStart.lean ====
section
/-! DEFINITION. A frame start: mode change, slew, output selection, label tracker, dispatch, engine
and the hand-over to the key and blend unit (R9 to R19, R24 to R36, R115). -/

namespace Sys2Proof.Machine

/-! ### The mode change (R15 to R19) -/

/-- Entering BYPASS (R17, R132, R138). -/
def enterBypass (c : Chan) (s : State) : State :=
  (revertCues c (dropInset c s)).modChan c (fun ch => { ch with
    mode := .bypass, relay := .bypass, delay := 0, slew := 0, deferred := none, heldBack := false })

/-- Leaving BYPASS: the relay goes to PROCESSED and the slew count starts from 0 (R16). -/
def leaveBypass (ch : Channel) : Channel :=
  if ch.mode = .bypass then { ch with relay := .processed, slew := 0 } else ch

/-- Entering THRU (R16, R18, R138). -/
def enterThru (c : Chan) (s : State) : State :=
  (revertCues c s).modChan c (fun ch => { leaveBypass ch with
    mode := .thru, deferred := none, heldBack := false })

/-- Entering AUTO (R16, R19). -/
def enterAuto (c : Chan) (s : State) : State :=
  s.modChan c (fun ch => { leaveBypass ch with mode := .auto, deferred := none })

/-- In BYPASS no waiting CH_TAKE action stays: it is discarded with its claim (R185). -/
def discardWaiting (c : Chan) (s : State) : State :=
  ((s.chan c).waiting.foldl (fun t w => dropAnswer c (.take w.id) w.claim t) s).modChan c
    (fun ch => { ch with waiting := [] })

/-- A pending change takes effect; a change to the mode in force does nothing (log entry 10). The
flag says that AUTO was entered. -/
def takePending (c : Chan) (m : Mode) (s : State) : State × Bool :=
  let s := s.modChan c (fun ch => { ch with pendingMode := none })
  if (s.chan c).mode = m then (s, false)
  else
    match m with
    | .bypass => (enterBypass c s, false)
    | .thru => (enterThru c s, false)
    | .auto => (enterAuto c s, true)

/-- A deferred change to THRU whose recorded set is empty takes effect, with MODE_DONE (R18). -/
def takeDeferred (c : Chan) (s : State) : State :=
  if (s.chan c).deferred = some [] then raiseChan c .modeDone (enterThru c s) else s

/-- The mode change of a frame start (R15). -/
def modeChange (c : Chan) (s : State) : State × Bool :=
  let r := match (s.chan c).pendingMode with
    | some m => takePending c m s
    | none => (takeDeferred c s, false)
  if (r.1.chan c).mode = .bypass then (discardWaiting c r.1, r.2) else r

/-! ### Delay and selection (R9, R11, R12) -/

/-- One step of the slew (R11). -/
def slewStep (ch : Channel) : Channel :=
  if ch.mode = .bypass ∨ ch.pgm ≠ .present then ch
  else if ch.delay = ch.target then { ch with slew := 0 }
  else if ch.slew + 1 < 10 then { ch with slew := ch.slew + 1 }
  else { ch with slew := 0, delay := if ch.delay < ch.target then ch.delay + 1 else ch.delay - 1 }

/-- The frame `delay` places behind the newest, or the oldest where there are fewer (R9). -/
def frameBehind (store : List PgmFrame) (delay : Nat) : Option PgmFrame :=
  store[store.length - 1 - delay]?

/-- The next frame newer than the previous selection (R12). After a selection of black every stored
frame is newer, so a loss that finds black selected and frames in the store drains them from the oldest
(log entry 16). -/
def nextNewer (store : List PgmFrame) (prev : Option PgmFrame) : Option PgmFrame :=
  store.find? (fun x => match prev with
    | some p => decide (p.serial < x.serial)
    | none => true)

/-- The frame selected in LOST, the repeats made and whether the store is drained (R12). -/
def drainSelect (ch : Channel) : Option PgmFrame × Nat × Bool :=
  if ch.drained || ch.store.isEmpty then (none, 0, true)
  else
    match nextNewer ch.store ch.sel.frame with
    | some x => (some x, 0, false)
    | none => if ch.drainRepeats < 2 then (ch.sel.frame, ch.drainRepeats + 1, false) else (none, 0, true)

/-- How the word of a selected frame was found (R20, R37). -/
def statusOf (f : Format) : Option PgmFrame → WordStatus
  | none => .absent
  | some x =>
    match x.word with
    | none => .absent
    | some w => if wordValid f w then .valid else .invalid

/-- A selection with its word status, and whether it repeats the one before (R24). -/
def selectionOf (f : Format) (prev : Selection) (x : Option PgmFrame) : Selection :=
  ⟨x, statusOf f x, x.isSome && decide (x.map PgmFrame.serial = prev.frame.map PgmFrame.serial)⟩

/-- The output selection of a frame start (R9, R12). -/
def selectOutput (f : Format) (ch : Channel) : Channel :=
  if ch.pgm = .lost then
    let r := drainSelect ch
    { ch with sel := selectionOf f ch.sel r.1, drainRepeats := r.2.1, drained := r.2.2 }
  else { ch with sel := selectionOf f ch.sel (frameBehind ch.store ch.delay) }

/-! ### The label tracker (R24 to R36) -/

/-- A midnight of a frame start (R33, R34). -/
inductive Midnight where
  | none | continuous | catchUp
deriving DecidableEq, Repr

/-- What the tracker hands on (R36); `owed` says that an owed midnight is applied, and `passedFrom`
is the first label passed in the LOST that this frame start ends. -/
structure Track where
  label : Nat
  prev : Nat
  lost : Bool
  passedFrom : Option Nat
  finding : Finding
  midnight : Midnight
  owed : Bool
deriving DecidableEq, Repr

/-- The midnight of a move from L to N with its finding (R33, R34). -/
def midnightOf (f : Format) (l n : Nat) (g : Finding) : Midnight :=
  match g with
  | .continuous => if l + 1 = f.day ∧ n = 0 then .continuous else .none
  | .catchUp => if n < l then .catchUp else .none
  | _ => .none

/-- The word of a selection where it is valid (R20). -/
def Selection.validWord (x : Selection) : Option TcWord :=
  match x.status, x.frame with
  | .valid, some fr => fr.word
  | _, _ => none

/-- The first label that the flywheel passed during LOST: the one at which LOST was entered, and 0
past an owed midnight, which has ended that day (R36, log entry 13). -/
def Channel.passedFrom (ch : Channel) : Option Nat :=
  if ch.track = .lost then some (if ch.owed then 0 else ch.lostFrom) else none

/-- A step on a valid word (R25, R29, R35). -/
def trackWord (f : Format) (w : TcWord) (ch : Channel) : Track :=
  let n := wordLabel f w
  let g := findingOf f ch.label n
  ⟨n, ch.label, false, ch.passedFrom, g, midnightOf f ch.label n g, ch.owed⟩

/-- The state and count of a step without a valid word (R26 to R28). -/
def flywheelStep (f : Format) (ch : Channel) : TrackState × Nat :=
  match ch.track with
  | .locked => (.flywheel, 1)
  | .flywheel => (if f.rate ≤ ch.flywheel + 1 then .lost else .flywheel, ch.flywheel + 1)
  | .lost => (.lost, min 65535 (ch.flywheel + 1))

/-- What a step without a valid word hands on (R26 to R28, R33). -/
def trackFlywheel (f : Format) (ch : Channel) : Track :=
  let n := flywheelLabel f ch.label ch.sel.isRepeat
  let lost := decide ((flywheelStep f ch).1 = .lost)
  ⟨n, ch.label, lost, none, .continuous,
    if lost then .none else midnightOf f ch.label n .continuous, false⟩

/-- The first label of a LOST after a step without a valid word to label `n`: `n` itself where the step
enters LOST (R27). -/
def lostFromAfter (ch : Channel) (st : TrackState) (n : Nat) : Nat :=
  if ch.track ≠ .lost ∧ st = .lost then n else ch.lostFrom

/-- The tracker's step (R24 to R28). -/
def trackerStep (f : Format) (c : Chan) (s : State) : State × Track :=
  let ch := s.chan c
  match ch.sel.validWord with
  | some w =>
    let t := trackWord f w ch
    (s.modChan c (fun x => { x with label := t.label, track := .locked, flywheel := 0, owed := false }), t)
  | none =>
    let t := trackFlywheel f ch
    let st := flywheelStep f ch
    let owed := ch.owed || (t.lost && decide (midnightOf f ch.label t.label .continuous = .continuous))
    let s := s.modChan c (fun x => { x with
      label := t.label, track := st.1, flywheel := st.2, owed := owed
      lostFrom := lostFromAfter ch st.1 t.label })
    let s := if ch.track = .locked then raiseChan c .tcFlywheel s else s
    (if ch.track = .flywheel ∧ st.1 = .lost then raiseChan c .tcLost s else s, t)

/-! ### Dispatch (R36) -/

/-- Cues act only in AUTO (R36, R151). -/
def inAuto (c : Chan) (k : State → State) (s : State) : State :=
  if (s.chan c).mode = .auto then k s else s

/-- A same-day cue that a test on its label makes due, or its late mark (R151). -/
def dueCue (test : Nat → Bool) (q : Cue) : Bool := !q.date.next && (test q.date.label || q.late)

/-- A same-day cue that a test makes MISSED; a late-marked cue never is (R156). -/
def missedCue (test : Nat → Bool) (q : Cue) : Bool := !q.date.next && test q.date.label && !q.late

/-- The end of a day: every same-day expiry still in the table takes effect, those that a cue of the
same step has set among them, and then the next-day marks are cleared (R33, R104, log entry 32). -/
def endDay (c : Chan) (s : State) : State := clearMarks c (expireZones c (fun _ => true) s)

/-- Step 1: an owed midnight (R35). The same-day cues are judged first: with the entry rule held back those
without late mark are MISSED at once, and the others are due. The same-day expiries take effect before the due
ones fire (R102, R151, R153), and the day ends (R104); log entry 11. `held` is the held-back mark. -/
def owedMidnight (c : Chan) (held : Bool) (s : State) : State :=
  let s := if held then inAuto c (missAll c (missedCue (fun _ => true))) s else s
  endDay c (inAuto c (fireAll c (dueCue (fun _ => !held))) (expireZones c (fun _ => true) s))

/-- Step 2: the entry rule at label N (R19), the expiries at or below N before its cues (log entry
12). -/
def entryRule (f : Format) (c : Chan) (n : Nat) (s : State) : State :=
  let s := expireZones c (fun l => decide (l ≤ n)) s
  let s := missAll c (missedCue (fun l => decide (l + f.rate ≤ n))) s
  let s := fireAll c (dueCue (fun l => decide (l ≤ n))) s
  s.modChan c (fun ch => { ch with heldBack := false })

/-- Step 3: the misses of a jump beyond span (R31). -/
def jumpMisses (c : Chan) (t : Track) (s : State) : State :=
  if t.finding = .jumpForward then
    inAuto c (missAll c (missedCue (fun l => decide (t.prev < l) && decide (l < t.label)))) s
  else s

/-- Step 4: the midnight of the frame start (R33, R104); within a catch-up the expiries and then the cues
of the old day come first (R34, R102). -/
def midnightStep (c : Chan) (t : Track) (s : State) : State :=
  match t.midnight with
  | .none => s
  | .continuous => endDay c s
  | .catchUp => endDay c
      (inAuto c (fireAll c (dueCue (fun l => decide (t.prev < l)))) (expireZones c (fun _ => true) s))

/-- The flywheel passed a label during the LOST that this frame start ends (R36). -/
def Track.passed (t : Track) (l : Nat) : Bool :=
  match t.passedFrom with
  | some a => decide (a ≤ l) && decide (l ≤ t.prev)
  | none => false

/-- A same-day cue that is due because its label was passed in LOST, or because it was accepted there
in the late window (R36, R143). -/
def Track.passedCue (t : Track) (q : Cue) : Bool :=
  !q.date.next && (t.passed q.date.label ||
    (t.passedFrom.isSome && q.lostLate && decide (q.date.label ≤ t.prev)))

/-- The cues of R36 that are still in the list after steps 1 and 2. -/
def passedTags (c : Chan) (t : Track) (s : State) : List Nat :=
  ((s.chan c).cues.filter t.passedCue).map Cue.tag

/-- The labels whose expiries step 5 takes: those at or below N (R102, R103), but for the ones that the cues of
an entry rule have set at this frame start, which wait for the next check (R100). R36 leaves zone expiry to
this test, so after a jump back out of a LOST those above N wait, passed there or not (log entry 13). A
midnight has ended the day of the entry rule's (R104). -/
def dueExpiry (t : Track) (entry : Bool) (l : Nat) : Bool :=
  decide (l ≤ t.label) && !(entry && decide (t.midnight = .none))

/-- Step 5: the due items, expiries before cues (R30, R36, R102, R151); `entry` says that the entry rule has
run. A cue that was passed in a LOST and is still in the list fires here, among the cues of N in list order,
also where a catch-up through midnight has just ended its day (R36 over R151, log entry 13). -/
def dueItems (c : Chan) (t : Track) (entry : Bool) (passed : List Nat) (s : State) : State :=
  inAuto c (fireAll c (fun q => dueCue (fun l => decide (l ≤ t.label)) q || passed.contains q.tag))
    (expireZones c (dueExpiry t entry) s)

/-- The marks of cues accepted in the late window of a LOST end with it (R143). -/
def endLost (c : Chan) (t : Track) (s : State) : State :=
  if t.passedFrom.isSome then
    s.modChan c (fun ch => { ch with cues := ch.cues.map (fun q => { q with lostLate := false }) })
  else s

/-- The five steps of R36 and the preparation after them, the tracker not being LOST. -/
def dispatchSteps (f : Format) (c : Chan) (entered : Bool) (t : Track) (s : State) : State :=
  let held := (s.chan c).heldBack
  let s := if t.owed then owedMidnight c held s else s
  let entry := entered || held
  let s := if entry then entryRule f c t.label s else s
  let passed := passedTags c t s
  let s := jumpMisses c t s
  let s := midnightStep c t s
  let s := endLost c t (dueItems c t entry passed s)
  inAuto c (prepareAll c t.label) s

/-- Dispatch and zone expiry at a frame start (R36). In LOST only an entry into AUTO is noted, by
the held-back mark (R19, R138). -/
def dispatch (f : Format) (c : Chan) (entered : Bool) (t : Track) (s : State) : State :=
  if t.lost then
    if entered then s.modChan c (fun ch => { ch with heldBack := true }) else s
  else dispatchSteps f c entered t s

/-! ### Crop changes (R58) -/

/-- From each frame start the stored crops are in force. -/
def latchCrops (s : State) : State :=
  { s with sources := s.sources.map (fun x => { x with cropForce := x.crop }) }

/-- A crop change of an owned source is reported to its owner; the placement source's resolves with
the default glide (R58, R86). -/
def reportCrop (c : Chan) (s : State) (p : Port) : State :=
  if (s.src p).owner = some c ∧ (s.src p).cropReport = true then
    let s := s.modSrc p (fun x => { x with cropReport := false })
    if (s.chan c).cur.map OnAir.src = some p then (resolveVisible c (s.chan c).defaultGlide s).1 else s
  else s

/-- The crop reports of a frame start. -/
def reportCrops (c : Chan) (s : State) : State := Port.all.foldl (reportCrop c) s

/-! ### CH_TAKE (R185) -/

/-- One waiting action is applied; its claim leaves, and a failure is recorded with tag 0 (R160). -/
def applyTake (c : Chan) (s : State) (w : Waiting) : State :=
  let r := applyAction c w.action w.claim s
  let s := dropAnswer c (.take w.id) w.claim r.1
  match r.2 with
  | none => s
  | some reason => writeFailure c 0 w.action reason s

/-- The waiting actions are applied in arrival order; the list is then empty. -/
def applyTakes (c : Chan) (s : State) : State :=
  ((s.chan c).waiting.foldl (applyTake c) s).modChan c (fun ch => { ch with waiting := [] })

/-! ### The hand-over to the key and blend unit (R53, R60, R113, R133) -/

/-- The sources presented, with rectangle and scaler, the outgoing one first. The choice is that of the state
as step 2 of this frame start leaves it, so an incoming source whose crossfade ends there is on the channel's
own scaler at once (R133, log entry 41). -/
def presentedList (c : Chan) (s : State) : List (OnAir × Option Rect × Nat) :=
  let ch := s.chan c
  let own := match ch.cur with
    | some o => [(o, shownRect c s, chanIdx c)]
    | none => []
  match ch.inset with
  | .hidden => []
  | .forcedOut => if (ch.cur.bind OnAir.fade).isSome then own else []
  | .crossfade =>
    (match ch.out with
     | some o => [(o, ch.outRect, chanIdx c)]
     | none => []) ++ own.map (fun p => (p.1, p.2.1, 4))
  | _ => own

/-- What the key and blend unit gets of one presented source (R60). -/
def presentOne (f : Format) (s : State) (p : OnAir × Option Rect × Nat) : Option Presented :=
  let x := s.src p.1.src
  p.2.1.map (fun r => ⟨x.ring.newestPicture, cropInForce f s p.1.src, x.keyOn, x.kb, x.kr, x.tlo, x.rk,
    r, p.1.level, p.2.2⟩)

/-- The in-use marks of the channel's sources: the slot read, or none (R53). -/
def markInUse (c : Chan) (used : List Port) (s : State) : State :=
  Port.all.foldl (fun t p =>
    if (t.src p).owner = some c then
      t.modSrc p (fun x => { x with ring := { x.ring with
        inUse := if used.contains p then x.ring.newest else none } })
    else t) s

/-- Step 3 of R115; the shown placement in force is that of the output frame that begins (R92, R95). -/
def present (f : Format) (c : Chan) (s : State) : State :=
  let l := presentedList c s
  (markInUse c (l.map (fun p => p.1.src)) s).modChan c (fun ch => { ch with
    keyIn := ⟨ch.sel.frame.map PgmFrame.pic, l.filterMap (presentOne f s)⟩, displayed := shownRect c s })

/-! ### A channel's frame start, and the card's -/

/-- One channel's frame start (R115). -/
def chanFrameStart (f : Format) (s : State) (c : Chan) : State :=
  let m := modeChange c s
  let s := m.1.modChan c (fun ch => selectOutput f (slewStep ch))
  let r := trackerStep f c s
  let s := reportCrops c r.1
  let s := dispatch f c m.2 r.2 s
  let s := if (s.chan c).mode = .bypass then s else applyTakes c s
  rearmChannel c (present f c (stepEngine c s))

/-- The order in which the channels act: as given, each once, the missing ones after (log entry 3). -/
def channelOrder (order : List Chan) : List Chan := (order ++ Chan.all).eraseDups

/-- A frame start of the card: every channel's, and the look at the REF_LOSS re-arm mark (R194).
Without a house format there is none (R1). -/
def frameStart (order : List Chan) (s : State) : State :=
  match s.format with
  | none => s
  | some f => rearmRefLoss ((channelOrder order).foldl (chanFrameStart f) (latchCrops s))

end Sys2Proof.Machine
end

