-- ==== Sys2Proof/Machine/Reports.lean ====
section
/-! DEFINITION. The fields of the reading replies (Chapter 10): the codes of R176 and the layouts of
IDENT, SRC_READ, CH_READ, ZONE_READ, CUE_READ and FAULT_READ. -/

namespace Sys2Proof.Machine

/-! ### Codes (R176) -/

def ResetCause.code : ResetCause → Nat
  | .power => 1
  | .pin => 2
  | .message => 3

def formatCode : Option Format → Nat
  | some f => f.code
  | none => 0

def RefState.code : RefState → Nat
  | .idle => 0
  | .acquiring => 1
  | .locked => 2
  | .free => 3

def Mode.code : Mode → Nat
  | .bypass => 0
  | .thru => 1
  | .auto => 2

def Relay.code : Relay → Nat
  | .bypass => 0
  | .processed => 1

def PgmState.code : PgmState → Nat
  | .waiting => 0
  | .present => 1
  | .lost => 2

def TrackState.code : TrackState → Nat
  | .locked => 0
  | .flywheel => 1
  | .lost => 2

def SrcState.code : SrcState → Nat
  | .absent => 0
  | .detecting => 1
  | .rejected => 2
  | .ready => 3
  | .taken => 4
  | .lost => 5
  | .releasing => 6

def Inset.code : Inset → Nat
  | .hidden => 0
  | .fadingIn => 1
  | .shown => 2
  | .fadingOut => 3
  | .crossfade => 4
  | .held => 5
  | .forcedOut => 6

def PlaceOutcome.code : PlaceOutcome → Nat
  | .asRequested => 1
  | .moved => 2
  | .shrunk => 3
  | .softCovered => 4
  | .heldPlace => 5
  | .forcedOut => 6

/-- An outcome, or 0 for none. -/
def outcomeCode : Option PlaceOutcome → Nat
  | some o => o.code
  | none => 0

def ZoneClass.code : ZoneClass → Nat
  | .hard => 0
  | .soft => 1

def SpareAns.code : SpareAns → Nat
  | .notAsked => 0
  | .granted => 1
  | .refused => 2

def WordStatus.code : WordStatus → Nat
  | .valid => 0
  | .absent => 1
  | .invalid => 2

def pausedCode : Option Paused → Nat
  | none => 0
  | some .fadingIn => 1
  | some .shown => 2

/-- An index that may be none is carried as 0xFF (R176). -/
def portByte (p : Option Port) : List Byte := be8 ((p.map portIdx).getD 255)

def chanByte (c : Option Chan) : List Byte := be8 ((c.map chanIdx).getD 255)

def modeByte (m : Option Mode) : List Byte := be8 ((m.map Mode.code).getD 255)

/-! ### Card and source (R177, R180) -/

/-- The fields of IDENT's reply (R177, R195). -/
def identFields (s : State) : List Byte :=
  be16 0x0E1C ++ be16 0x04C7 ++ be8 3 ++ be8 s.cause.code ++ be8 (formatCode s.format) ++
  be8 s.ref.state.code

/-- The five counters in their order (R177). -/
def countFields (l : Link) : List Byte :=
  be16 l.framing.toNat ++ be16 l.timeout.toNat ++ be16 l.length.toNat ++ be16 l.check.toNat ++
  be16 l.overrun.toNat

/-- A crop as it is reported: kind, then the rectangle; FULL with the size it stands for (R180). -/
def cropFields (fmt : Option Format) : Crop → List Byte
  | .rect r => be8 1 ++ rectBytes (some r)
  | .full => be8 0 ++ rectBytes (fmt.map (fun f => cropRect f .full))

/-- A source's parameters as stored (R180). -/
def paramFields (fmt : Option Format) (x : Source) : List Byte :=
  cropFields fmt x.crop ++ flag x.keyOn ++ be16 x.kb ++ be16 x.kr ++ be16 x.tlo ++ be16 x.wk ++
  be32 x.rk

/-- SRC_READ's fields before the parameters (R59, R180). -/
def standingFields (s : State) (p : Port) : List Byte :=
  let x := s.src p
  be8 x.state.code ++ chanByte x.owner ++ be32 x.lastInterval.toNat ++ be16 x.lastW.toNat ++
  be16 x.lastH.toNat ++ be8 x.inRun ++ be8 x.outRun ++ be8 x.goodRun ++ be8 x.badRun ++
  flag x.rasterMark ++ flag (s.hasSignal p) ++ be8 x.ring.completeCount ++ flag x.ring.frozen.isSome

/-! ### CH_READ (R182) -/

/-- Mode, path and tracker. -/
def pathFields (fmt : Option Format) (ch : Channel) : List Byte :=
  be8 ch.mode.code ++ modeByte ch.pendingMode ++ flag ch.deferred.isSome ++
  be8 (ch.deferred.getD []).length ++
  be8 ch.relay.code ++ be8 ch.pgm.code ++ be8 ch.target ++ be8 ch.delay ++ be8 ch.slew ++
  labelBytes fmt ch.label ++ be8 ch.track.code ++ be16 ch.flywheel ++ flag ch.owed

/-- The word of the frame emitted at the latest frame start, as received (R37). -/
def wordFields (x : Selection) : List Byte :=
  be8 x.status.code ++
  match x.frame.bind PgmFrame.word with
  | some w => [w.h, w.m, w.s, w.ff] ++ flag w.pair ++ flag w.drop
  | none => [0, 0, 0, 0, 0, 0]

/-- The requested placement and the stack, bottom first. -/
def requestedFields (fmt : Option Format) (ch : Channel) : List Byte :=
  blockBytes fmt ch.requested ++ be8 ch.stack.length ++ padTo 48 (ch.stack.flatMap (blockBytes fmt))

/-- The resolved placement and the outcome. -/
def resolvedFields (ch : Channel) : List Byte :=
  flag ch.resolved.isSome ++ rectBytes ch.resolved ++ be8 (outcomeCode ch.outcome)

/-- The shown placement of the current output frame, the glide and the default glide (R95). A shown width derived from a changed crop that
does not fit its two bytes is sent as its low 16 bits (log entry 39). -/
def shownFields (ch : Channel) : List Byte :=
  flag ch.displayed.isSome ++ rectBytes ch.displayed ++
  (match ch.glide with
   | some g => be8 1 ++ be16 g.target.x ++ be16 g.target.y ++ be16 g.target.h ++ be8 g.count ++ be8 g.step
   | none => [0, 0, 0, 0, 0, 0, 0, 0, 0]) ++
  be8 ch.defaultGlide

/-- A source on air with its level and fade (R136). -/
def onAirFields : Option OnAir → List Byte
  | none => be8 255 ++ [0, 0, 0, 0, 0, 0, 0]
  | some o => be8 (portIdx o.src) ++ be16 o.level ++
    match o.fade with
    | some fd => be8 1 ++ be16 fd.target ++ be8 fd.count ++ be8 fd.step
    | none => [0, 0, 0, 0, 0]

/-- The spare's code for a channel: none, CLAIMED or IN_USE (R176). -/
def spareCode (sp : Spare) (c : Chan) : Nat :=
  if sp.hasIt c then (if sp.inUse then 2 else 1) else 0

/-- Inset, sources, hold and spare (R136). -/
def insetFields (s : State) (c : Chan) : List Byte :=
  let ch := s.chan c
  be8 ch.inset.code ++ be8 (pausedCode ch.paused) ++ flag ch.exitMark ++
  onAirFields ch.cur ++ onAirFields ch.out ++ rectBytes ch.outRect ++
  be8 ch.holdCount ++ be8 ch.holdTime ++ portByte ch.home ++ portByte ch.standby ++
  be8 (spareCode s.spare c) ++ be8 (s.spare.claimants c).length

/-- The dispatcher's state (R162). -/
def listFields (ch : Channel) : List Byte :=
  be8 ch.cues.length ++ be8 (preparedTags ch.cues).length ++ be16 ch.fired.toNat ++
  be16 ch.failed.toNat ++ be16 ch.missed.toNat ++ be16 ch.removed.toNat ++
  (match ch.lastFailure with
   | some x => be8 1 ++ be16 x.tag ++ [x.reason.value] ++ be8 x.action.code ++ be32 x.label
   | none => [0, 0, 0, 0, 0, 0, 0, 0, 0]) ++
  (match ch.lastMarker with
   | some x => be8 1 ++ be8 x.code ++ be32 x.label
   | none => [0, 0, 0, 0, 0, 0])

/-- The fields of CH_READ's reply (R182). -/
def channelFields (s : State) (c : Chan) : List Byte :=
  be8 (chanIdx c) ++ pathFields s.format (s.chan c) ++ wordFields (s.chan c).sel ++
  requestedFields s.format (s.chan c) ++ resolvedFields (s.chan c) ++ shownFields (s.chan c) ++
  insetFields s c ++ listFields (s.chan c)

/-! ### Zones, cues and faults (R186, R188, R189) -/

/-- A zone's standing (R186). -/
def Zone.standing (z : Zone) : Nat :=
  if !z.defined then 0
  else if !z.active then 1
  else match z.expiry with
    | none => 2
    | some d => if d.next then 4 else 3

/-- An entry of ZONE_READ's reply, 19 bytes. -/
def zoneFields (fmt : Option Format) (z : Zone) : List Byte :=
  be8 z.standing ++ be8 z.cls.code ++ rectBytes (some z.rect) ++
  match z.expiry with
  | some d => labelBytes fmt d.label
  | none => [0, 0, 0, 0, 0, 0, 0, 0, 0]

/-- The fields of ZONE_READ's reply. -/
def zoneReadFields (s : State) (c : Chan) : List Byte :=
  be8 (chanIdx c) ++ (s.chan c).zones.flatMap (zoneFields s.format)

/-- A record of CUE_READ's reply, 35 bytes (R188). -/
def cueFields (fmt : Option Format) (q : Cue) : List Byte :=
  be16 q.tag ++ datedBytes fmt q.date ++ actionBytes fmt q.action ++ be32 q.date.label ++
  flag q.prepared ++ flag q.late ++ be8 q.claim.code

/-- The fields of CUE_READ's reply (R161, R188). -/
def cueReadFields (s : State) (c : Chan) (pos count : Nat) : List Byte :=
  let l := ((s.chan c).cues.drop pos).take (min count 6)
  be8 (s.chan c).cues.length ++ be8 l.length ++ l.flatMap (cueFields s.format)

/-- The blocking field of a fault: a zone with its class, or SAFE_AREA (R189). -/
def blockingFields : Option (Nat × ZoneClass) → List Byte
  | some z => be8 0 ++ be8 z.1 ++ be8 z.2.code
  | none => be8 1 ++ [0, 0]

/-- The fields of FAULT_READ's reply (R189). -/
def faultFields (fmt : Option Format) : Option FaultRec → List Byte
  | none => List.replicate 24 0
  | some r => be8 1 ++ labelBytes fmt r.label ++ flag r.requested.isSome ++ rectBytes r.requested ++
    blockingFields r.blocking ++ be8 r.outcome.code ++ be8 r.more

end Sys2Proof.Machine
end

