-- ==== Sys2Proof/Machine/Requests.lean ====
section
/-! DEFINITION. The requests: how each is judged, what it does and what its reply carries (Chapter 10). -/

namespace Sys2Proof.Machine

/-- The outcome of a request: the state it leaves, its result code and its reply's fields. -/
abbrev Answer := State × ResultCode × List Byte

/-- A refusal changes nothing and carries no fields (R172). -/
def refuse (code : ResultCode) (s : State) : Answer := (s, code, [])

/-- A request that names a channel; above 3 it is refused (R181). -/
def withChan (ch : Byte) (s : State) (k : Chan → Answer) : Answer :=
  match chanOf ch with
  | some c => k c
  | none => refuse .badField s

/-- OK, or OK_CLAMPED where a value was brought into range. -/
def okOr (clamped : Bool) : ResultCode := if clamped then .okClamped else .ok

/-! ### Card requests (R177 to R179) -/

def actIdent (s : State) : Answer := (s, .ok, identFields s)

/-- A channel when HOUSE is taken (R2, R44, R76, R96, R105, R112, R138, R178). -/
def houseChannel (ch : Channel) : Channel :=
  { ch.hide with
    pgm := .waiting, pgmGood := 0, pgmBad := 0, store := [], writing := false, delay := 0, slew := 0,
    drainRepeats := 0, drained := false, label := 0, track := .lost, flywheel := 0, owed := false,
    lostFrom := 0, stack := [], outcome := none, zones := List.replicate 12 Zone.undefined, fault := none, cues := [],
    deferred := none, heldBack := false }

/-- A source when HOUSE is taken: back to detection, crop FULL, key kept (R44). -/
def houseSource (x : Source) : Source :=
  { x.unqualified (if x.state = .absent then .absent else .detecting) with
    crop := .full, cropForce := .full, measuring := false }

/-- The reference checker when HOUSE is taken at a moment (R5). -/
def houseReference (now : Nat) : Reference := ⟨.acquiring, 0, 0, now, false, now, false⟩

/-- HOUSE is taken only with every channel in BYPASS and no change pending or deferred (R178). -/
def houseAllowed (s : State) : Bool :=
  Chan.all.all (fun c => decide ((s.chan c).mode = .bypass) && (s.chan c).pendingMode.isNone &&
    (s.chan c).deferred.isNone)

/-- The effects of HOUSE (R2). -/
def takeHouse (f : Format) (s : State) : State :=
  Port.all.foldl (fun t p => changeSource p houseSource t)
    { s with format := some f, ref := houseReference s.now, channels := s.channels.map houseChannel }

def actHouse (code : Byte) (s : State) : Answer :=
  match formatOf code with
  | none => refuse .badField s
  | some f => if houseAllowed s then (takeHouse f s, .ok, []) else refuse .wrongMode s

/-- RESET is answered OK; the reset begins when its reply has left (R177, R196). -/
def actReset (s : State) : Answer := (s, .ok, [])

def actNoticeEnable (set : NoticeBits) (s : State) : Answer :=
  if set.legal then
    ({ s with notices := { s.notices with enable := set } }, .ok, noticeBytes set)
  else refuse .badField s

def actNoticeRead (s : State) : Answer := (s, .ok, noticeBytes s.notices.pending)

def actNoticeAck (set : NoticeBits) (s : State) : Answer :=
  if set.legal then
    ({ s with notices := s.notices.ack set }, .ok, noticeBytes (s.notices.ack set).pending)
  else refuse .badField s

/-- The counters are returned and zeroed in one action (R173). -/
def actLinkCounts (s : State) : Answer :=
  ({ s with link := { s.link with framing := 0, timeout := 0, length := 0, check := 0, overrun := 0 } },
   .ok, countFields s.link)

/-! ### Source requests (R55 to R59, R180) -/

def actSrcRead (src : Byte) (s : State) : Answer :=
  match portOf src with
  | none => refuse .noSuch s
  | some p => (s, .ok, standingFields s p ++ paramFields s.format (s.src p))

/-- The BAD_FIELD cases of SRC_SET (R55, R180). -/
def srcBadField (m : SrcMsg) : Bool :=
  decide (1 < m.cropKind.toNat) || decide (1 < m.keyOn.toNat) ||
  (decide (m.cropKind.toNat = 1) && (decide (m.w.toNat < 2) || decide (m.h.toNat < 2)))

/-- The rectangle a SRC_SET gives. -/
def srcRect (m : SrcMsg) : Rect := ⟨m.x.toNat, m.y.toNat, m.w.toNat, m.h.toNat⟩

/-- The crop a SRC_SET stores: none where a rectangle has no house format (R55, R56). -/
def srcCrop (fmt : Option Format) (m : SrcMsg) : Option Crop :=
  if m.cropKind.toNat = 1 then fmt.map (fun f => .rect (normaliseCrop f (srcRect m))) else some .full

/-- A crop differs from the rectangle given. -/
def cropClamped (m : SrcMsg) : Crop → Bool
  | .full => false
  | .rect r => decide (r ≠ srcRect m)

/-- A key parameter was brought into range (R57). -/
def keyClamped (m : SrcMsg) : Bool :=
  decide (clampTo 64 960 m.kb.toNat ≠ m.kb.toNat) || decide (clampTo 64 960 m.kr.toNat ≠ m.kr.toNat) ||
  decide (1791 < m.tlo.toNat) || decide (clampTo 1 1024 m.wk.toNat ≠ m.wk.toNat)

/-- The source as SRC_SET stores it, with a report waiting where an owned source's crop changed
(R56 to R58). -/
def storeParams (m : SrcMsg) (crop : Crop) (x : Source) : Source :=
  let wk := clampTo 1 1024 m.wk.toNat
  { x with
    crop := crop
    cropReport := x.cropReport || (decide (crop ≠ x.crop) && x.owner.isSome)
    keyOn := decide (m.keyOn.toNat = 1), kb := clampTo 64 960 m.kb.toNat, kr := clampTo 64 960 m.kr.toNat,
    tlo := min 1791 m.tlo.toNat, wk := wk, rk := 1048576 / wk }

def actSrcSet (m : SrcMsg) (s : State) : Answer :=
  match portOf m.src with
  | none => refuse .noSuch s
  | some p =>
    if srcBadField m then refuse .badField s
    else
      match srcCrop s.format m with
      | none => refuse .noFormat s
      | some crop =>
        let t := s.modSrc p (storeParams m crop)
        (t, okOr (cropClamped m crop || keyClamped m), paramFields t.format (t.src p))

/-! ### Channel requests (R10, R15 to R18, R94, R123, R181 to R183) -/

/-- A mode of a message (R176). -/
def modeOf (b : Byte) : Option Mode :=
  match b.toNat with
  | 0 => some .bypass
  | 1 => some .thru
  | 2 => some .auto
  | _ => none

/-- CH_MODE while a change to THRU is deferred (R17, R18). -/
def modeWhileDeferred (c : Chan) (m : Mode) (s : State) : State × ResultCode :=
  match m with
  | .thru => (s, .deferred)
  | .auto => (s.modChan c (fun ch => { ch with deferred := none }), .ok)
  | .bypass => (s.modChan c (fun ch => { ch with deferred := none, pendingMode := some .bypass }), .ok)

/-- A request naming another mode than the next one: it replaces a pending change, and is deferred
where R18 says so. -/
def changeMode (c : Chan) (m : Mode) (s : State) : State × ResultCode :=
  let s := if (s.chan c).pendingMode = some .auto then revertCues c s else s
  let tags := preparedTags (s.chan c).cues
  if m = .thru ∧ (s.chan c).mode = .auto ∧ tags ≠ [] then
    (s.modChan c (fun ch => { ch with pendingMode := none, deferred := some tags }), .deferred)
  else (s.modChan c (fun ch => { ch with pendingMode := some m }), .ok)

/-- CH_MODE, its fields in range (R15, R18). -/
def requestMode (c : Chan) (m : Mode) (s : State) : State × ResultCode :=
  if (s.chan c).deferred.isSome then modeWhileDeferred c m s
  else if m = (s.chan c).nextMode then (s, .ok)
  else changeMode c m s

/-- The mode fields of CH_MODE's reply (R181). -/
def modeFields (ch : Channel) : List Byte :=
  be8 ch.mode.code ++ modeByte ch.pendingMode ++ flag ch.deferred.isSome

def actChMode (ch mode : Byte) (s : State) : Answer :=
  withChan ch s fun c =>
    match modeOf mode with
    | none => refuse .badField s
    | some m =>
      if m ≠ .bypass ∧ s.format = none then refuse .noFormat s
      else
        let r := requestMode c m s
        (r.1, r.2, modeFields (r.1.chan c))

def actChDelay (ch target : Byte) (s : State) : Answer :=
  withChan ch s fun c =>
    let n := min 20 target.toNat
    (s.modChan c (fun x => { x with target := n }), okOr (decide (20 < target.toNat)),
     be8 n ++ be8 (s.chan c).delay)

/-- A standby of 6..254 names nothing; 255 names none (R181). -/
def standbyOf (b : Byte) : Option (Option Port) :=
  if b.toNat = 255 then some none else (portOf b).map some

def actChSetup (ch glide hold standby : Byte) (s : State) : Answer :=
  withChan ch s fun c =>
    match standbyOf standby with
    | none => refuse .noSuch s
    | some p =>
      (s.modChan c (fun x => { x with
         defaultGlide := cap250 glide, holdTime := cap250 hold, standby := p }),
       okOr (decide (250 < glide.toNat) || decide (250 < hold.toNat)),
       be8 (cap250 glide) ++ be8 (cap250 hold) ++ portByte p)

def actChRead (ch : Byte) (s : State) : Answer :=
  withChan ch s fun c => (s, .ok, channelFields s c)

/-- A channel as CH_CLEAR leaves it, its inset dropped (R183). -/
def clearChannel (ch : Channel) : Channel :=
  { ch with
    home := none, standby := none, waiting := [], cues := [], fired := 0, failed := 0, missed := 0,
    removed := 0, lastFailure := none, lastMarker := none, deferred := none, heldBack := false,
    zones := List.replicate 12 Zone.undefined, fault := none, requested := Block.default, stack := [],
    resolved := none, outcome := none }

def actChClear (ch : Byte) (s : State) : Answer :=
  withChan ch s fun c =>
    if (s.chan c).mode = .auto ∨ (s.chan c).pendingMode = some .auto then refuse .wrongMode s
    else ((dropInset c s).modChan c clearChannel, .ok, [])

/-! ### CH_TAKE (R184) -/

/-- Step 5 of R184: the action judged as it would act now, an empty POP passing. -/
def takeRefusal (c : Chan) (a : Action) (s : State) : Option ResultCode :=
  match (applyAction c a .notAsked s).2 with
  | none => none
  | some .emptyStack => none
  | some r => some r.result

/-- A PLACE's or PUSH's block would be changed by storing or clamping (R79). -/
def blockClamped (f : Format) (c : Chan) (part : List Byte) (b : Block) (s : State) : Bool :=
  oddHeight part ||
  match (s.chan c).cur with
  | some o => clampedFor f (cropInForce f s o.src) b
  | none => clampedAlone f b

/-- A value of the action was brought into range (R184). -/
def takeClamped (f : Format) (c : Chan) (part : List Byte) (a : Action) (s : State) : Bool :=
  countClamped part ||
  match a with
  | .place b _ => blockClamped f c part b s
  | .push b _ => blockClamped f c part b s
  | _ => false

/-- A CH_TAKE's request for the spare (R134). -/
def askForTake (c : Chan) (id : Nat) (a : Action) (s : State) : State × SpareAns :=
  if a.asksSpare then askSpare c (.take id) s else (s, .notAsked)

/-- A request that passes joins the waiting list (R184, R185). -/
def joinWaiting (f : Format) (c : Chan) (part : List Byte) (a : Action) (s : State) : Answer :=
  let id := (s.chan c).waiting.length
  let r := askForTake c id a s
  (r.1.modChan c (fun x => { x with waiting := x.waiting ++ [⟨id, a, r.2⟩] }),
   okOr (takeClamped f c part a s),
   be8 r.2.code ++ be8 (id + 1) ++ be8 (s.chan c).stack.length)

/-- Steps 3 to 5 of R184. -/
def judgeTake (f : Format) (c : Chan) (part : List Byte) (s : State) : Answer :=
  if (s.chan c).nextMode = .bypass then refuse .wrongMode s
  else
    match actionOf f part with
    | .error e => refuse e s
    | .ok a =>
      match takeRefusal c a s with
      | some e => refuse e s
      | none => joinWaiting f c part a s

def actChTake (ch : Byte) (part : List Byte) (s : State) : Answer :=
  match s.format with
  | none => refuse .noFormat s
  | some f => withChan ch s fun c => judgeTake f c part s

/-! ### Zone requests (R98, R99, R186) -/

def zoneClassOf (b : Byte) : Option ZoneClass :=
  match b.toNat with
  | 0 => some .hard
  | 1 => some .soft
  | _ => none

/-- A DEFINE's rectangle lies in the raster and is not empty (R98). -/
def rectInRaster (f : Format) (m : ZoneMsg) : Bool :=
  decide (0 < m.w.toNat) && decide (0 < m.h.toNat) &&
  decide (m.x.toNat + m.w.toNat ≤ f.width) && decide (m.y.toNat + m.h.toNat ≤ f.height)

/-- A DEFINE's expiry: absent, or present with ACTIVE and a good label; none where it is refused
(R98). -/
def zoneExpiryOf (f : Format) (m : ZoneMsg) : Option (Option Dated) :=
  match m.expPresent.toNat with
  | 0 => some none
  | 1 => if m.activity.toNat = 1 && hostLabelOk f m.expiry then some (some (datedOf f m.expiry)) else none
  | _ => none

/-- The entry a DEFINE leaves (R99); none where R98 refuses its fields. -/
def definedZone (f : Format) (m : ZoneMsg) (old : Zone) : Option Zone :=
  if !rectInRaster f m then none
  else
    match zoneClassOf m.cls, zoneExpiryOf f m, m.activity.toNat with
    | some cls, some _, 0 =>
      some ⟨true, ⟨m.x.toNat, m.y.toNat, m.w.toNat, m.h.toNat⟩, cls, old.active, old.expiry⟩
    | some cls, some e, 1 => some ⟨true, ⟨m.x.toNat, m.y.toNat, m.w.toNat, m.h.toNat⟩, cls, true, e⟩
    | some cls, some _, 2 =>
      some ⟨true, ⟨m.x.toNat, m.y.toNat, m.w.toNat, m.h.toNat⟩, cls, false, none⟩
    | _, _, _ => none

/-- The entry an operation leaves, or none where its fields are refused. -/
def zoneAfter (f : Format) (op : Byte) (m : ZoneMsg) (old : Zone) : Option Zone :=
  match op.toNat with
  | 0 => some Zone.undefined
  | 1 => definedZone f m old
  | _ => none

/-- One entry of the table changes; the reply's outcome is that of the resolution it caused (R186). -/
def storeZone (c : Chan) (i : Nat) (z : Zone) (s : State) : Answer :=
  let r := changeZones c ((s.chan c).zones.set i z) s
  (r.1, .ok, be8 (outcomeCode r.2))

def actZoneDefine (op : Byte) (m : ZoneMsg) (s : State) : Answer :=
  match s.format with
  | none => refuse .noFormat s
  | some f => withChan m.ch s fun c =>
    if 11 < m.zone.toNat then refuse .noSuch s
    else
      match zoneAfter f op m (zoneAt (s.chan c).zones m.zone.toNat) with
      | none => refuse .badField s
      | some z => storeZone c m.zone.toNat z s

def actZoneRead (ch : Byte) (s : State) : Answer :=
  withChan ch s fun c => (s, .ok, zoneReadFields s c)

/-! ### Cue requests (R140, R145, R146, R161, R187, R188) -/

def actCueLoad (ch : Byte) (recs : List CueRec) (s : State) : Answer :=
  match s.format with
  | none => (s, .noFormat, be8 0)
  | some f =>
    match chanOf ch with
    | none => (s, .badField, be8 0)
    | some c =>
      let r := loadCues c f recs 0 s
      (r.1, r.2.2, be8 r.2.1)

/-- A refused removal reports 0 and 0 (R187). -/
def refuseRemoval (code : ResultCode) (s : State) : Answer := (s, code, [0, 0])

/-- The removal of the PENDING cues picked, the PREPARED ones among them skipped (R145, R146). -/
def removal (c : Chan) (pick : Cue → Bool) (s : State) : Answer :=
  let l := (s.chan c).cues.filter pick
  (s.modChan c (removeCues pick), .ok,
   be8 (l.filter (fun q => !q.prepared)).length ++ flag (l.any (fun q => q.prepared)))

def removeByTag (c : Chan) (tag : Half) (s : State) : Answer :=
  if tag = 0 then refuseRemoval .badField s
  else if (s.chan c).cues.any (fun q => decide (q.tag = tag.toNat)) then
    removal c (fun q => decide (q.tag = tag.toNat)) s
  else refuseRemoval .noSuch s

def removeByRange (c : Chan) (lo hi : HostLabel) (s : State) : Answer :=
  match s.format with
  | none => refuseRemoval .noFormat s
  | some f =>
    if !(hostLabelOk f lo && hostLabelOk f hi) then refuseRemoval .badField s
    else if (datedOf f lo).le (datedOf f hi) then removal c (inRange (datedOf f lo) (datedOf f hi)) s
    else refuseRemoval .badField s

def actCueRemove (ch form : Byte) (tag : Half) (lo hi : HostLabel) (s : State) : Answer :=
  match chanOf ch, form.toNat with
  | some c, 0 => removeByTag c tag s
  | some c, 1 => removeByRange c lo hi s
  | _, _ => refuseRemoval .badField s

def actCueRead (ch pos count : Byte) (s : State) : Answer :=
  withChan ch s fun c =>
    if 63 < pos.toNat ∨ count.toNat = 0 ∨ 8 < count.toNat then refuse .badField s
    else (s, .ok, cueReadFields s c pos.toNat count.toNat)

/-! ### Fault requests (R109, R189) -/

def actFaultRead (ch : Byte) (s : State) : Answer :=
  withChan ch s fun c => (s, .ok, faultFields s.format (s.chan c).fault)

def actFaultClear (ch : Byte) (s : State) : Answer :=
  withChan ch s fun c => (s.modChan c (fun x => { x with fault := none }), .ok, [])

/-! ### Any request (R171) -/

/-- A request's kind byte (R171). -/
def kindOf : Request → Byte
  | .ident => 0x01
  | .house _ => 0x02
  | .reset => 0x03
  | .noticeEnable _ => 0x04
  | .noticeRead => 0x05
  | .noticeAck _ => 0x06
  | .linkCounts => 0x07
  | .srcRead _ => 0x10
  | .srcSet _ => 0x11
  | .chMode _ _ => 0x20
  | .chDelay _ _ => 0x21
  | .chSetup _ _ _ _ => 0x22
  | .chRead _ => 0x23
  | .chClear _ => 0x24
  | .chTake _ _ => 0x25
  | .zoneDefine _ _ => 0x30
  | .zoneRead _ => 0x31
  | .cueLoad _ _ => 0x40
  | .cueRemove _ _ _ _ _ => 0x41
  | .cueRead _ _ _ => 0x42
  | .faultRead _ => 0x50
  | .faultClear _ => 0x51
  | .unknownKind l => byteAt l 0
  | .badLength l => byteAt l 0

/-- A request acts in full when it is taken (R171). -/
def act (r : Request) (s : State) : Answer :=
  match r with
  | .ident => actIdent s
  | .house code => actHouse code s
  | .reset => actReset s
  | .noticeEnable set => actNoticeEnable set s
  | .noticeRead => actNoticeRead s
  | .noticeAck set => actNoticeAck set s
  | .linkCounts => actLinkCounts s
  | .srcRead src => actSrcRead src s
  | .srcSet m => actSrcSet m s
  | .chMode ch mode => actChMode ch mode s
  | .chDelay ch target => actChDelay ch target s
  | .chSetup ch glide hold standby => actChSetup ch glide hold standby s
  | .chRead ch => actChRead ch s
  | .chClear ch => actChClear ch s
  | .chTake ch part => actChTake ch part s
  | .zoneDefine op m => actZoneDefine op m s
  | .zoneRead ch => actZoneRead ch s
  | .cueLoad ch recs => actCueLoad ch recs s
  | .cueRemove ch form tag lo hi => actCueRemove ch form tag lo hi s
  | .cueRead ch pos count => actCueRead ch pos count s
  | .faultRead ch => actFaultRead ch s
  | .faultClear ch => actFaultClear ch s
  | .unknownKind _ => refuse .unknownKind s
  | .badLength _ => refuse .badLength s

/-- The payload of a reply: kind + 0x80, result code, fields (R164, R172). -/
def replyPayload (kind : Byte) (code : ResultCode) (fields : List Byte) : List Byte :=
  (kind + 0x80) :: code.value :: fields

/-- A request taken: the state it leaves and its reply's payload, formed from that state (R171). -/
def answer (r : Request) (s : State) : State × List Byte :=
  let a := act r s
  (a.1, replyPayload (kindOf r) a.2.1 a.2.2)

/-- The reply of a reject entry: LINK_REJECT (R169). -/
def rejectPayload : List Byte := [0x80, ResultCode.checkFailed.value]

end Sys2Proof.Machine
end

