-- ==== Sys2Proof/Machine/Link.lean ====
section
/-! DEFINITION. The control link interface: the receiver, the receive slots, the taking of requests and
the frame envelope (Chapter 9), and the beginning of a reset (R196). -/

namespace Sys2Proof.Machine

/-! ### Counters (R173) -/

/-- A counter stays at 65535 once it has reached it. -/
def satInc (n : BitVec 16) : BitVec 16 := if n = 0xFFFF#16 then n else n + 1

/-- Every counted event raises LINK_ERROR. -/
def countError (f : Link → Link) (s : State) : State :=
  raiseCard .linkError { s with link := f s.link }

/-! ### The envelope (R164) -/

/-- The sum of LEN, the payload and CHECK, mod 256. -/
def frameSum (payload : List Byte) (last : Byte) : Byte :=
  BitVec.ofNat 8 (payload.length + (payload.map BitVec.toNat).sum + last.toNat)

/-- The CHECK byte of a payload. -/
def checkOf (payload : List Byte) : Byte :=
  BitVec.ofNat 8 (256 - (payload.length + (payload.map BitVec.toNat).sum) % 256)

/-- A payload in its envelope: SYNC, LEN, payload, CHECK. -/
def frameOf (payload : List Byte) : List Byte :=
  0x5A :: BitVec.ofNat 8 payload.length :: (payload ++ [checkOf payload])

/-! ### The receive slots (R170, R171) -/

/-- The place in arrival order after a slot's. -/
def Slot.nextSeq : Slot → Nat
  | .empty => 0
  | .waiting _ n => n + 1
  | .answering _ n _ => n + 1

def Slot.isAnswering : Slot → Bool
  | .answering _ _ _ => true
  | _ => false

/-- The frame a slot's reply is sent in: its payload in the envelope of R164. -/
def Slot.frame : Slot → List Byte
  | .answering _ _ reply => frameOf reply
  | _ => []

/-- The bytes that the card transmits to the host: SYNC, LEN, payload and CHECK of the reply being sent
(R164, R171); nothing while no slot is ANSWERING, without power and in a reset (R163). -/
def State.transmitting (s : State) : List Byte :=
  if s.running then s.link.slot1.frame ++ s.link.slot2.frame else []

/-- What a WAITING slot holds, with its place in arrival order. -/
def Slot.waitingEntry : Slot → Option (Entry × Nat)
  | .waiting e n => some (e, n)
  | _ => none

/-- A judged frame goes into an EMPTY slot, slot 1 first; with none it is overrun (R170). -/
def placeEntry (e : Entry) (s : State) : State :=
  let l := s.link
  if l.slot1 = .empty then { s with link := { l with slot1 := .waiting e l.slot2.nextSeq } }
  else if l.slot2 = .empty then { s with link := { l with slot2 := .waiting e l.slot1.nextSeq } }
  else countError (fun l => { l with overrun := satInc l.overrun }) s

/-- The two slots. -/
inductive SlotNo where
  | one | two
deriving DecidableEq, Repr

def Link.setSlot (l : Link) (i : SlotNo) (v : Slot) : Link :=
  match i with
  | .one => { l with slot1 := v }
  | .two => { l with slot2 := v }

/-- The oldest WAITING slot, with its entry and place (R171). -/
def Link.oldest (l : Link) : Option (SlotNo × Entry × Nat) :=
  match l.slot1.waitingEntry, l.slot2.waitingEntry with
  | some a, some b => if a.2 < b.2 then some (.one, a) else some (.two, b)
  | some a, none => some (.one, a)
  | none, some b => some (.two, b)
  | none, none => none

/-- The state that taking an entry leaves, and the payload of its reply (R169, R171). -/
def answerEntry (e : Entry) (s : State) : State × List Byte :=
  match e with
  | .request r => answer r s
  | .reject => (s, rejectPayload)

/-- The oldest WAITING slot is taken when no slot is ANSWERING (R171). -/
def takeOldest (s : State) : State :=
  if s.link.slot1.isAnswering || s.link.slot2.isAnswering then s
  else
    match s.link.oldest with
    | none => s
    | some (i, e, n) =>
      let r := answerEntry e s
      { r.1 with link := r.1.link.setSlot i (.answering e n r.2) }

/-- A judged frame arrives: it is placed, and taken at once where no reply is being sent. While no
power is good or a reset is in progress the bytes of the frame are lost (R163). -/
def deliver (e : Entry) (s : State) : State :=
  if s.running then takeOldest (placeEntry e s) else s

/-- A frame that failed its check arrives: CHECK counts it, and a reject entry is placed (R169). -/
def deliverReject (s : State) : State :=
  if s.running then
    deliver .reject (countError (fun l => { l with check := satInc l.check }) s)
  else s

/-! ### The beginning of a reset (R14, R163, R170, R196) -/

/-- Every relay in BYPASS (R14). -/
def relaysToBypass (s : State) : State :=
  { s with channels := s.channels.map (fun ch => { ch with relay := .bypass }) }

/-- The receiver in HUNT with no frame in progress. -/
def Link.hunt (l : Link) : Link := { l with rx := .hunt, len := 0, body := [] }

/-- The link stops: no frame in progress, no reply, both slots EMPTY. -/
def linkStop (s : State) : State :=
  { s with link := { s.link.hunt with slot1 := .empty, slot2 := .empty } }

/-- A reset begins: it takes the place of one in progress and runs 20 ms (R196). -/
def beginReset (cause : ResetCause) (s : State) : State :=
  { linkStop (relaysToBypass s) with resetting := some cause, resetDue := s.now + 540000 }

/-! ### Replies (R170, R177, R196) -/

/-- The slot whose reply has left becomes EMPTY. -/
def freeSlot (i : SlotNo) (s : State) : State := { s with link := s.link.setSlot i .empty }

/-- The last byte of a slot's reply has left: RESET's reply begins the reset; any other frees its
slot, and the oldest WAITING slot is taken. -/
def replyLeft (i : SlotNo) (e : Entry) (s : State) : State :=
  if e = .request .reset then beginReset .message s else takeOldest (freeSlot i s)

/-- The event that a reply has been sent in full; without a reply being sent there is none. -/
def replySent (s : State) : State :=
  if s.running then
    match s.link.slot1, s.link.slot2 with
    | .answering e _ _, _ => replyLeft .one e s
    | _, .answering e _ _ => replyLeft .two e s
    | _, _ => s
  else s

/-! ### The receiver (R165 to R169) -/

/-- The LEN byte (R165, R168). -/
def rxLength (b : Byte) (s : State) : State :=
  if 1 ≤ b.toNat ∧ b.toNat ≤ 240 then { s with link := { s.link with rx := .body, len := b, body := [] } }
  else countError (fun l => { l.hunt with length := satInc l.length }) s

/-- A payload byte (R165). -/
def rxBody (b : Byte) (s : State) : State :=
  let body := s.link.body ++ [b]
  { s with link := { s.link with
      body := body, rx := if s.link.len.toNat ≤ body.length then .check else .body } }

/-- The CHECK byte: the frame is judged (R169). -/
def rxCheck (b : Byte) (s : State) : State :=
  let body := s.link.body
  let s := { s with link := s.link.hunt }
  if frameSum body b = 0 then deliver (.request (requestOf body)) s else deliverReject s

/-- A byte received without a framing error (R165). -/
def rxByte (b : Byte) (s : State) : State :=
  if s.running then
    match s.link.rx with
    | .hunt => if b = 0x5A then { s with link := { s.link with rx := .length } } else s
    | .length => rxLength b s
    | .body => rxBody b s
    | .check => rxCheck b s
  else s

/-- A framing error (R166). -/
def framingError (s : State) : State :=
  if s.running then countError (fun l => { l.hunt with framing := satInc l.framing }) s else s

/-- The gap between two bytes exceeds 10 ms; in HUNT no gap is timed (R167). -/
def gapTimeout (s : State) : State :=
  if s.running && decide (s.link.rx ≠ .hunt) then
    countError (fun l => { l.hunt with timeout := satInc l.timeout }) s
  else s

end Sys2Proof.Machine
end

