-- ==== Sys2Proof/Machine/Events.lean ====
section
/-! DEFINITION. What the card does on its own events: resets and power (R14, R196), the house reference
(R5, R6), the programme checkers and stores (R7, R8, R12, R13), the source checkers (R39 to R52) and
the steps inside a frame start that the table lists by themselves. -/

namespace Sys2Proof.Machine

/-! ### Resets and power -/

/-- Without power since before: no port and no programme input has been seen (R38). -/
def forgetInputs (s : State) : State :=
  { s with
    sources := s.sources.map (fun x => { x with lastStart := none, measuring := false })
    channels := s.channels.map (fun ch => { ch with pgmStart := none }) }

/-- Supply power becomes good (R196). -/
def powerOn (s : State) : State := beginReset .power (forgetInputs { s with power := true })

/-- Loss of power: relays in BYPASS, no reset in progress, the link dead (R14, R196). -/
def powerOff (s : State) : State :=
  { linkStop (relaysToBypass s) with power := false, resetting := none }

/-- The frame asserts the reset pin (R196). -/
def assertPin (s : State) : State :=
  let s := { s with pin := true }
  if s.power then beginReset .pin s else s

/-- The pin is released: a reset whose 20 ms have run waits 20 ms more (R196). -/
def releasePin (s : State) : State :=
  let t := { s with pin := false }
  if s.pin ∧ s.resetting.isSome = true ∧ s.resetDue ≤ s.now then { t with resetDue := s.now + 540000 }
  else t

/-- The state of a source as a reset completes: by its port's signal, measured by the limit of the
UNSET format (R38, R39). -/
def resetSource (now : Nat) (x : Source) : Source :=
  match x.lastStart with
  | some t => Source.reset (if now - t < 2160000 then .detecting else .absent) x.lastStart x.measuring
  | none => Source.reset .absent none x.measuring

/-- The completion of a reset: the cause is recorded and every block takes its reset values (R196). -/
def finishReset (cause : ResetCause) (s : State) : State :=
  { State.reset with
    pending := s.pending, now := s.now, pin := s.pin, cause := cause, resetDue := s.resetDue
    sources := s.sources.map (resetSource s.now)
    channels := s.channels.map (fun ch => Channel.reset ch.pgmStart) }

/-- The reset time has run out; with the pin still asserted the reset goes on (R196). -/
def resetComplete (s : State) : State :=
  match s.resetting with
  | some cause => if s.power && !s.pin then finishReset cause (s.reach s.resetDue) else s
  | none => s

/-! ### The house reference (R5, R6) -/

/-- FREE is entered: REF_LOSS is raised (R6). -/
def loseReference (s : State) : State :=
  raiseCard .refLoss { s with ref := { s.ref with
    state := .free, inRun := 0, outRun := 0, selfRun := false } }

/-- A pulse in LOCKED makes a frame start when it comes at least N − tolerance after the preceding
one (R5). -/
def pulseFrame (f : Format) (order : List Chan) (s : State) : State :=
  let s := { s with ref := { s.ref with selfRun := false } }
  if s.ref.lastFrame + f.period - f.tolerance ≤ s.now then
    frameStart order { s with ref := { s.ref with lastFrame := s.now } }
  else s

/-- The runs of the reference checker after an interval. -/
def Reference.count (r : Reference) (inWindow : Bool) : Reference :=
  if inWindow then { r with inRun := min 8 (r.inRun + 1), outRun := 0 }
  else { r with inRun := 0, outRun := min 3 (r.outRun + 1) }

/-- A pulse that ends an interval, its runs counted (R5, R6). -/
def judgePulse (f : Format) (order : List Chan) (s : State) : State :=
  match s.ref.state with
  | .idle => s
  | .acquiring =>
    if s.ref.inRun = 8 then pulseFrame f order { s with ref := { s.ref with state := .locked } }
    else if s.ref.outRun = 3 then loseReference s
    else s
  | .locked => if s.ref.outRun = 3 then loseReference s else pulseFrame f order s
  | .free =>
    if s.ref.inRun = 8 then pulseFrame f order { s with ref := { s.ref with state := .locked } } else s

/-- A house reference pulse; in IDLE it is ignored (R5). -/
def refPulse (order : List Chan) (s : State) : State :=
  match s.running, s.format with
  | true, some f =>
    let t := { s with ref := { s.ref with lastPulse := s.now, pulseSeen := true } }
    if s.ref.state = .idle then s
    else if s.ref.pulseSeen then
      judgePulse f order { t with ref := t.ref.count (f.inWindow (s.now - s.ref.lastPulse)) }
    else t
  | _, _ => s

/-- 2 × N ticks without a pulse (R5, R6). -/
def refSilence (s : State) : State :=
  match s.running, s.format with
  | true, some f =>
    let s := s.reach (s.ref.lastPulse + 2 * f.period)
    match s.ref.state with
    | .idle => s
    | .free => { s with ref := { s.ref with inRun := 0 } }
    | _ => loseReference s
  | _, _ => s

/-- The frame start that a timer makes: `wait` ticks after the preceding one. Where that moment has passed, as
when the reference is lost more than N ticks after the preceding frame start, the frame start comes late and
the next wait still runs from the moment it stood for (R6, log entry 37). -/
def timedFrame (order : List Chan) (wait : Nat) (selfRun : Bool) (s : State) : State :=
  let due := s.ref.lastFrame + wait
  let s := s.reach due
  frameStart order { s with ref := { s.ref with lastFrame := due, selfRun := selfRun } }

/-- A free-running frame start, in ACQUIRING and FREE (R5). -/
def freeRunFrame (order : List Chan) (s : State) : State :=
  match s.running, s.format with
  | true, some f =>
    if s.ref.state = .acquiring ∨ s.ref.state = .free then timedFrame order f.period false s else s
  | _, _ => s

/-- A frame start that the card makes in LOCKED for want of a pulse (R5). -/
def latePulseFrame (order : List Chan) (s : State) : State :=
  match s.running, s.format with
  | true, some f =>
    if s.ref.state = .locked then
      timedFrame order (if s.ref.selfRun then f.period else f.period + f.tolerance) true s
    else s
  | _, _ => s

/-! ### The programme inputs (R7, R8, R12, R13) -/

/-- The checker enters LOST: PGM_LOSS, and the frame being written is cut short (R12). -/
def losePgm (c : Chan) (s : State) : State :=
  raiseChan c .pgmLoss (s.modChan c (fun ch => { ch with
    pgm := .lost, pgmGood := 0, pgmBad := 0, writing := false, drainRepeats := 0, drained := false }))

/-- The programme returns: store empty, delay and slew count 0, and the frame that starts is written
(R13). -/
def returnPgm (ch : Channel) : Channel :=
  { ch with pgm := .present, pgmBad := 0, store := [], delay := 0, slew := 0, writing := true }

/-- A good interval (R7). -/
def goodInterval (ch : Channel) : Channel :=
  let ch := { ch with pgmGood := min 8 (ch.pgmGood + 1), pgmBad := 0 }
  match ch.pgm with
  | .present => { ch with writing := true }
  | .waiting => if ch.pgmGood = 8 then { ch with pgm := .present, writing := true } else ch
  | .lost => if ch.pgmGood = 8 then returnPgm ch else ch

/-- A bad interval (R7). -/
def badInterval (c : Chan) (s : State) : State :=
  let s := s.modChan c (fun ch => { ch with pgmGood := 0, pgmBad := min 3 (ch.pgmBad + 1) })
  if (s.chan c).pgm = .present then
    if (s.chan c).pgmBad = 3 then losePgm c s else s.modChan c (fun ch => { ch with writing := true })
  else s

/-- A programme interval is good: in window, and its frame of the house raster (R7). -/
def pgmIntervalGood (f : Format) (interval : Nat) (w h : Half) : Bool :=
  f.inWindow interval && f.matchesRaster w.toNat h.toNat

/-- A programme frame start that ends an interval; without a format none is judged (R7). -/
def judgePgm (c : Chan) (interval : Nat) (w h : Half) (s : State) : State :=
  match s.format with
  | none => s
  | some f =>
    if pgmIntervalGood f interval w h then s.modChan c goodInterval else badInterval c s

/-- The inputs' timing is kept while the card runs, and through a pin or message reset (R38). -/
def State.hearsInputs (s : State) : Bool :=
  s.power && decide (s.resetting ≠ some .power)

/-- A programme input frame start (R7, R8). -/
def pgmFrameStart (c : Chan) (w h : Half) (s : State) : State :=
  if s.hearsInputs then
    let t := s.modChan c (fun ch => { ch with pgmStart := some s.now })
    match s.running, (s.chan c).pgmStart with
    | true, some last => judgePgm c (s.now - last) w h t
    | _, _ => t
  else s

/-- A complete frame joins the store as its newest; a 22nd pushes out the oldest (R8). -/
def storeFrame (word : Option TcWord) (pic : Picture) (ch : Channel) : Channel :=
  let l := ch.store ++ [⟨ch.serial, word, pic⟩]
  { ch with store := if l.length = 22 then l.drop 1 else l, serial := ch.serial + 1, writing := false }

/-- The last active line of a programme frame has arrived; a frame of another raster is cut. The raster is judged
once, here, so a frame of more lines than the house raster never joins the list (R8, log entry 42). -/
def pgmFrameComplete (c : Chan) (word : Option TcWord) (pic : Picture) (s : State) : State :=
  match s.running, s.format with
  | true, some f =>
    if (s.chan c).pgm = .present ∧ (s.chan c).writing = true then
      if f.matchesRaster pic.w pic.h then s.modChan c (storeFrame word pic)
      else s.modChan c (fun ch => { ch with writing := false })
    else s
  | _, _ => s

/-- 2 × N ticks without a programme frame start (R7, R12). -/
def pgmSilence (c : Chan) (s : State) : State :=
  match s.running, s.format, (s.chan c).pgmStart with
  | true, some f, some last =>
    let s := s.reach (last + 2 * f.period)
    if (s.chan c).pgm = .present then losePgm c s
    else s.modChan c (fun ch => { ch with pgmGood := 0 })
  | _, _, _ => s

/-! ### The source ports (R39 to R43, R50 to R52) -/

/-- The run counts after an interval (R39). -/
def countRuns (f : Format) (interval : Nat) (w h : Half) (x : Source) : Source :=
  let inW := f.inWindow interval
  let good := inW && f.matchesRaster w.toNat h.toNat
  { x with
    inRun := if inW then min 8 (x.inRun + 1) else 0
    outRun := if inW then 0 else min 8 (x.outRun + 1)
    goodRun := if good then min 8 (x.goodRun + 1) else 0
    badRun := if good then 0 else min 3 (x.badRun + 1)
    rasterMark := inW && (x.rasterMark || !good) }

/-- The last interval as it is stored (section 3.1, log entry 22). -/
def storedInterval (n : Nat) : BitVec 32 :=
  if n < 4294967296 then BitVec.ofNat 32 n else Config.longInterval n

/-- An owned source is lost: LOST, the ring frozen, and its owner told (R50, R54). -/
def loseOwned (p : Port) (f : Source → Source) (s : State) : State :=
  let owner := (s.src p).owner
  let s := changeSource p (fun x => { f x with state := .lost, ring := x.ring.freeze }) s
  match owner with
  | some c => reportLoss c p s
  | none => s

/-- A LOST source has re-qualified: TAKEN again, the ring resumes, and its owner is told (R51, R54). -/
def regain (p : Port) (s : State) : State :=
  let owner := (s.src p).owner
  let s := changeSource p (fun x => { x with state := .taken, ring := x.ring.resume }) s
  match owner with
  | some c => reportReturn c p s
  | none => s

/-- A frame of the source begins in its ring (R52). -/
def ringBegin (p : Port) (s : State) : State := s.modSrc p (fun x => { x with ring := x.ring.begin })

/-- DETECTING judged (R41). -/
def judgeDetecting (p : Port) (s : State) : State :=
  let x := s.src p
  if x.inRun = 8 ∧ x.rasterMark = false then
    ringBegin p (changeSource p (fun x => { x with state := .ready }) s)
  else if x.inRun = 8 ∨ x.outRun = 8 then changeSource p (fun x => { x with state := .rejected }) s
  else s

/-- The judgement of an interval by the source's state, the counts updated (R41 to R43, R50, R51). -/
def judgeSource (p : Port) (s : State) : State :=
  let x := s.src p
  match x.state with
  | .absent => s
  | .detecting => judgeDetecting p s
  | .rejected => s
  | .ready => if x.badRun = 3 then changeSource p (Source.unqualified .absent) s else ringBegin p s
  | .taken => if x.badRun = 3 then loseOwned p id s else ringBegin p s
  | .releasing => if x.badRun = 3 then loseOwned p id s else ringBegin p s
  | .lost => if x.goodRun = 8 then regain p s else s

/-- A port frame start that ends an interval (R39). -/
def portInterval (p : Port) (interval : Nat) (w h : Half) (s : State) : State :=
  let s := s.modSrc p (fun x => { x with
    lastInterval := storedInterval interval, lastW := w, lastH := h })
  match s.format with
  | none => s
  | some f => judgeSource p (s.modSrc p (countRuns f interval w h))

/-- The last raster at a port frame start that ends no interval: it is measured all the same, where the
port had signal and a frame has just ended (R39, log entry 36). -/
def noteRaster (heard : Bool) (w h : Half) (x : Source) : Source :=
  { x with lastW := if heard then w else x.lastW, lastH := if heard then h else x.lastH }

/-- A port frame start (R39, R40). -/
def portFrameStart (p : Port) (w h : Half) (s : State) : State :=
  if s.hearsInputs then
    let x := s.src p
    let t := s.modSrc p (fun x => { x with lastStart := some s.now, measuring := true })
    if s.running then
      let noted := t.modSrc p (noteRaster (s.hasSignal p) w h)
      if x.state = .absent then changeSource p (Source.unqualified .detecting) noted
      else
        match x.measuring, x.lastStart with
        | true, some last => portInterval p (s.now - last) w h t
        | _, _ => noted
    else t
  else s

/-- A silent port (R39, R41 to R43, R50, R51). -/
def fallSilent (p : Port) (s : State) : State :=
  match (s.src p).state with
  | .absent => s.modSrc p Source.zeroed
  | .detecting => changeSource p (Source.unqualified .absent) s
  | .rejected => changeSource p (Source.unqualified .absent) s
  | .ready => changeSource p (Source.unqualified .absent) s
  | .taken => loseOwned p Source.zeroed s
  | .releasing => loseOwned p Source.zeroed s
  | .lost => s.modSrc p Source.zeroed

/-- The silence limit passes after the latest port frame start (R39). -/
def portSilence (p : Port) (s : State) : State :=
  match s.running, (s.src p).lastStart with
  | true, some last => fallSilent p (s.reach (last + s.silenceLimit))
  | _, _ => s

/-- The ring is written in these states (R52). -/
def ringWritten (st : SrcState) : Bool := decide (st = .ready ∨ st = .taken ∨ st = .releasing)

/-- The last active line of a source frame has arrived; a frame of another raster is abandoned. The raster is
judged once, here: the slot of a frame of more lines than the house raster is never COMPLETE, and no COMPLETE
slot is emptied later (R52, log entry 42). -/
def sourceFrameComplete (p : Port) (pic : Picture) (s : State) : State :=
  match s.running, s.format with
  | true, some f =>
    if ringWritten (s.src p).state then
      if f.matchesRaster pic.w pic.h then s.modSrc p (fun x => { x with ring := x.ring.finish pic })
      else s.modSrc p (fun x => { x with ring := x.ring.cut })
    else s
  | _, _ => s

/-! ### Steps inside a frame start, each by itself (log entry 6) -/

/-- The slew count reaches 10 (R11). -/
def slewReached (ch : Channel) : Bool :=
  decide (ch.mode ≠ .bypass) && decide (ch.pgm = .present) && decide (ch.delay ≠ ch.target) &&
  decide (ch.slew = 9)

/-- A step that happens only while the card runs with a house format. -/
def whenRunning (s : State) (k : Format → State) : State :=
  match s.running, s.format with
  | true, some f => k f
  | _, _ => s

def slewEvent (c : Chan) (s : State) : State :=
  whenRunning s fun _ => if slewReached (s.chan c) then s.modChan c slewStep else s

/-- The flywheel count reaches R (R27). -/
def tcLostEvent (c : Chan) (s : State) : State :=
  whenRunning s fun f =>
    if (s.chan c).track = .flywheel ∧ f.rate ≤ (s.chan c).flywheel + 1 ∧ (s.chan c).sel.validWord = none then
      (trackerStep f c s).1
    else s

/-- The check of the zone expiries at the output label, the tracker not being LOST (R102). -/
def zoneExpiryEvent (c : Chan) (s : State) : State :=
  whenRunning s fun _ =>
    if (s.chan c).track = .lost then s
    else expireZones c (fun l => decide (l ≤ (s.chan c).label)) s

/-- A fade's last step (R116). -/
def fadeEndEvent (c : Chan) (s : State) : State :=
  whenRunning s fun _ => if fadeEndsNext (s.chan c) then stepFades c s else s

/-- A glide's last step (R91). -/
def glideEndEvent (c : Chan) (s : State) : State :=
  whenRunning s fun _ => if glideEndsNext (s.chan c) then display c (s.modChan c Channel.stepGlide) else s

/-- The hold count reaches the hold time (R129). -/
def holdExpiredEvent (c : Chan) (s : State) : State :=
  whenRunning s fun _ =>
    if (s.chan c).inset = .held ∧ (s.chan c).holdTime ≤ (s.chan c).holdCount + 1 then stepHold c s else s

end Sys2Proof.Machine
end

