-- ==== Sys2Proof/Machine/InputCommands.lean ====
section
/-! DEFINITION. The meanings of the programme input and source port rows (Chapters 1 and 3). -/

namespace Sys2Proof.Machine

/-- PGM_FRAME_START, `dt` ticks after the latest timed event, with the raster of the frame that ended
(R7, R8). -/
def execPgmFrameStart (c : Chan) (dt : Nat) (w h : Half) (s : State) : Host.Outcome State Fault Refusal :=
  .next (pgmFrameStart c w h (s.elapse dt))

/-- PGM_FRAME_COMPLETE (R8, R20). -/
def execPgmFrameComplete (c : Chan) (word : Option TcWord) (pic : Picture) (s : State) : Host.Outcome State Fault Refusal :=
  .next (pgmFrameComplete c word pic s)

/-- PGM_SILENCE: 2 × N ticks without a programme frame start (R7, R12). -/
def execPgmSilence (c : Chan) (s : State) : Host.Outcome State Fault Refusal :=
  .next (pgmSilence c s)

/-- PORT_FRAME_START, `dt` ticks after the latest timed event, with the raster of the frame that ended
(R39). -/
def execPortFrameStart (p : Port) (dt : Nat) (w h : Half) (s : State) : Host.Outcome State Fault Refusal :=
  .next (portFrameStart p w h (s.elapse dt))

/-- PORT_SILENCE: the silence limit passes (R39). -/
def execPortSilence (p : Port) (s : State) : Host.Outcome State Fault Refusal :=
  .next (portSilence p s)

/-- SOURCE_FRAME_COMPLETE (R52). -/
def execSourceFrameComplete (p : Port) (pic : Picture) (s : State) : Host.Outcome State Fault Refusal :=
  .next (sourceFrameComplete p pic s)

end Sys2Proof.Machine
end

