-- ==== Sys2Proof/Machine/LinkCommands.lean ====
section
/-! DEFINITION. The meanings of the link rows (Chapter 9). -/

namespace Sys2Proof.Machine

/-- LINK_REJECT: a frame that failed its check arrives (R169, log entry 4). -/
def execLinkReject (s : State) : Host.Outcome State Fault Refusal :=
  .next (deliverReject s)

/-- UNKNOWN_KIND: a frame arrives whose kind is no request kind (R171). -/
def execUnknownKind (payload : List Byte) (s : State) : Host.Outcome State Fault Refusal :=
  .next (deliver (.request (requestOf payload)) s)

/-- BAD_LENGTH: a frame arrives whose length is not its kind's (R171). -/
def execBadLength (payload : List Byte) (s : State) : Host.Outcome State Fault Refusal :=
  .next (deliver (.request (requestOf payload)) s)

/-- REPLY_SENT: the last byte of the reply has left (R170, R196). -/
def execReplySent (s : State) : Host.Outcome State Fault Refusal :=
  .next (replySent s)

/-- RX_BYTE: a byte without a framing error (R165, R168, R169). -/
def execRxByte (b : Byte) (s : State) : Host.Outcome State Fault Refusal :=
  .next (rxByte b s)

/-- FRAMING_ERROR (R166). -/
def execFramingError (s : State) : Host.Outcome State Fault Refusal :=
  .next (framingError s)

/-- BYTE_GAP_TIMEOUT (R167). -/
def execByteGapTimeout (s : State) : Host.Outcome State Fault Refusal :=
  .next (gapTimeout s)

end Sys2Proof.Machine
end

