-- ==== Sys2Proof/Machine/ReferenceCommands.lean ====
section
/-! DEFINITION. The meanings of the house reference and frame start rows (R5, R6, R115). -/

namespace Sys2Proof.Machine

/-- REF_PULSE, `dt` ticks after the latest timed event (R5, R6). -/
def execRefPulse (dt : Nat) (order : List Chan) (s : State) : Host.Outcome State Fault Refusal :=
  .next (refPulse order (s.elapse dt))

/-- REF_SILENCE: 2 × N ticks without a pulse (R6). -/
def execRefSilence (s : State) : Host.Outcome State Fault Refusal :=
  .next (refSilence s)

/-- FREE_RUN_FRAME_START (R5). -/
def execFreeRunFrameStart (order : List Chan) (s : State) : Host.Outcome State Fault Refusal :=
  .next (freeRunFrame order s)

/-- LATE_PULSE_FRAME_START (R5). -/
def execLatePulseFrameStart (order : List Chan) (s : State) : Host.Outcome State Fault Refusal :=
  .next (latePulseFrame order s)

end Sys2Proof.Machine
end

