-- ==== Sys2Proof/Machine/RequestCommands.lean ====
section
/-! DEFINITION. The meanings of the request rows: the request arrives whole on the control link
(log entry 4). -/

namespace Sys2Proof.Machine

/-- A label of zeros, for the fields a form does not use (R176). -/
def labelZero : HostLabel := ⟨0, 0, 0, 0, 0, 0⟩

/-- An UNDEFINE's message, its unused fields 0. -/
def undefineMsg (ch zone : Byte) : ZoneMsg := ⟨ch, zone, 0, 0, 0, 0, 0, 0, 0, labelZero⟩

/-- IDENT (R177, R195). -/
def execIdent (s : State) : Host.Outcome State Fault Refusal :=
  .next (deliver (.request .ident) s)

/-- HOUSE (R2, R178). -/
def execHouse (code : Byte) (s : State) : Host.Outcome State Fault Refusal :=
  .next (deliver (.request (.house code)) s)

/-- RESET (R177, R196). -/
def execReset (s : State) : Host.Outcome State Fault Refusal :=
  .next (deliver (.request .reset) s)

/-- NOTICE_ENABLE (R179, R192). -/
def execNoticeEnable (set : NoticeBits) (s : State) : Host.Outcome State Fault Refusal :=
  .next (deliver (.request (.noticeEnable set)) s)

/-- NOTICE_READ (R179, R193). -/
def execNoticeRead (s : State) : Host.Outcome State Fault Refusal :=
  .next (deliver (.request .noticeRead) s)

/-- NOTICE_ACK (R179, R193, R194). -/
def execNoticeAck (set : NoticeBits) (s : State) : Host.Outcome State Fault Refusal :=
  .next (deliver (.request (.noticeAck set)) s)

/-- LINK_COUNTS (R173, R177). -/
def execLinkCounts (s : State) : Host.Outcome State Fault Refusal :=
  .next (deliver (.request .linkCounts) s)

/-- SRC_READ (R59, R180). -/
def execSrcRead (src : Byte) (s : State) : Host.Outcome State Fault Refusal :=
  .next (deliver (.request (.srcRead src)) s)

/-- SRC_SET (R55 to R58, R180). -/
def execSrcSet (m : SrcMsg) (s : State) : Host.Outcome State Fault Refusal :=
  .next (deliver (.request (.srcSet m)) s)

/-- CH_MODE (R15 to R19, R181). -/
def execChMode (ch mode : Byte) (s : State) : Host.Outcome State Fault Refusal :=
  .next (deliver (.request (.chMode ch mode)) s)

/-- CH_DELAY (R10, R181). -/
def execChDelay (ch target : Byte) (s : State) : Host.Outcome State Fault Refusal :=
  .next (deliver (.request (.chDelay ch target)) s)

/-- CH_SETUP (R94, R123, R181). -/
def execChSetup (ch glide hold standby : Byte) (s : State) : Host.Outcome State Fault Refusal :=
  .next (deliver (.request (.chSetup ch glide hold standby)) s)

/-- CH_READ (R182). -/
def execChRead (ch : Byte) (s : State) : Host.Outcome State Fault Refusal :=
  .next (deliver (.request (.chRead ch)) s)

/-- CH_CLEAR (R132, R183). -/
def execChClear (ch : Byte) (s : State) : Host.Outcome State Fault Refusal :=
  .next (deliver (.request (.chClear ch)) s)

/-- CH_TAKE (R117, R184, R185). -/
def execChTake (ch : Byte) (part : List Byte) (s : State) : Host.Outcome State Fault Refusal :=
  .next (deliver (.request (.chTake ch part)) s)

/-- ZONE_DEFINE with operation DEFINE (R98, R99, R101, R186). -/
def execZoneDefine (m : ZoneMsg) (s : State) : Host.Outcome State Fault Refusal :=
  .next (deliver (.request (.zoneDefine 1 m)) s)

/-- ZONE_DEFINE with operation UNDEFINE, whose other fields are not checked (R98, R99, R186). -/
def execZoneUndefine (ch zone : Byte) (s : State) : Host.Outcome State Fault Refusal :=
  .next (deliver (.request (.zoneDefine 0 (undefineMsg ch zone))) s)

/-- ZONE_READ (R110, R186). -/
def execZoneRead (ch : Byte) (s : State) : Host.Outcome State Fault Refusal :=
  .next (deliver (.request (.zoneRead ch)) s)

/-- CUE_LOAD (R140 to R144, R187). -/
def execCueLoad (ch : Byte) (recs : List CueRec) (s : State) : Host.Outcome State Fault Refusal :=
  .next (deliver (.request (.cueLoad ch recs)) s)

/-- CUE_REMOVE by tag, whose labels are not checked (R145, R187). -/
def execCueRemoveByTag (ch : Byte) (tag : Half) (s : State) : Host.Outcome State Fault Refusal :=
  .next (deliver (.request (.cueRemove ch 0 tag labelZero labelZero)) s)

/-- CUE_REMOVE by range, whose tag is not checked (R146, R187). -/
def execCueRemoveByRange (ch : Byte) (lo hi : HostLabel) (s : State) : Host.Outcome State Fault Refusal :=
  .next (deliver (.request (.cueRemove ch 1 0 lo hi)) s)

/-- CUE_READ (R161, R188). -/
def execCueRead (ch pos count : Byte) (s : State) : Host.Outcome State Fault Refusal :=
  .next (deliver (.request (.cueRead ch pos count)) s)

/-- FAULT_READ (R109, R189). -/
def execFaultRead (ch : Byte) (s : State) : Host.Outcome State Fault Refusal :=
  .next (deliver (.request (.faultRead ch)) s)

/-- FAULT_CLEAR (R109, R189). -/
def execFaultClear (ch : Byte) (s : State) : Host.Outcome State Fault Refusal :=
  .next (deliver (.request (.faultClear ch)) s)

end Sys2Proof.Machine
end

