-- ==== Sys2Proof/Machine/ResetCommands.lean ====
section
/-! DEFINITION. The meanings of the power and reset rows (R14, R196, R197). -/

namespace Sys2Proof.Machine

/-- POWER_ON_RESET: supply power becomes good (R196). -/
def execPowerOnReset (s : State) : Host.Outcome State Fault Refusal :=
  .next (powerOn s)

/-- POWER_LOSS (R14, R191). -/
def execPowerLoss (s : State) : Host.Outcome State Fault Refusal :=
  .next (powerOff s)

/-- PIN_RESET: the frame asserts the reset pin (R196). -/
def execPinReset (s : State) : Host.Outcome State Fault Refusal :=
  .next (assertPin s)

/-- RESET_PIN_RELEASE (R196). -/
def execResetPinRelease (s : State) : Host.Outcome State Fault Refusal :=
  .next (releasePin s)

/-- RESET_COMPLETE: the reset time has run out (R196, R197). -/
def execResetComplete (s : State) : Host.Outcome State Fault Refusal :=
  .next (resetComplete s)

end Sys2Proof.Machine
end

