-- ==== Sys2Proof/Machine/StepCommands.lean ====
section
/-! DEFINITION. The meanings of the rows that are steps within a frame start (log entry 6). -/

namespace Sys2Proof.Machine

/-- SLEW_STEP: the slew count reaches 10 (R11). -/
def execSlewStep (c : Chan) (s : State) : Host.Outcome State Fault Refusal :=
  .next (slewEvent c s)

/-- TC_LOST: the flywheel count reaches R (R27). -/
def execTcLost (c : Chan) (s : State) : Host.Outcome State Fault Refusal :=
  .next (tcLostEvent c s)

/-- ZONE_EXPIRY: the due expiries take effect (R102). -/
def execZoneExpiry (c : Chan) (s : State) : Host.Outcome State Fault Refusal :=
  .next (zoneExpiryEvent c s)

/-- FADE_END: a fade's last step (R116). -/
def execFadeEnd (c : Chan) (s : State) : Host.Outcome State Fault Refusal :=
  .next (fadeEndEvent c s)

/-- GLIDE_END: a glide's last step (R91). -/
def execGlideEnd (c : Chan) (s : State) : Host.Outcome State Fault Refusal :=
  .next (glideEndEvent c s)

/-- HOLD_EXPIRED: the hold count reaches the hold time (R129). -/
def execHoldExpired (c : Chan) (s : State) : Host.Outcome State Fault Refusal :=
  .next (holdExpiredEvent c s)

end Sys2Proof.Machine
end

