-- ==== Sys2Proof/Machine/Dispatch.lean ====
section
/-! DEFINITION. One arm per command. -/

namespace Sys2Proof.Machine

def exec (i : Instr) (s : State) : Host.Outcome State Fault Refusal :=
  match i with
  | .ident => Sys2Proof.Machine.execIdent s
  | .house code => Sys2Proof.Machine.execHouse code s
  | .reset => Sys2Proof.Machine.execReset s
  | .noticeEnable set => Sys2Proof.Machine.execNoticeEnable set s
  | .noticeRead => Sys2Proof.Machine.execNoticeRead s
  | .noticeAck set => Sys2Proof.Machine.execNoticeAck set s
  | .linkCounts => Sys2Proof.Machine.execLinkCounts s
  | .srcRead src => Sys2Proof.Machine.execSrcRead src s
  | .srcSet m => Sys2Proof.Machine.execSrcSet m s
  | .chMode ch mode => Sys2Proof.Machine.execChMode ch mode s
  | .chDelay ch target => Sys2Proof.Machine.execChDelay ch target s
  | .chSetup ch glide hold standby => Sys2Proof.Machine.execChSetup ch glide hold standby s
  | .chRead ch => Sys2Proof.Machine.execChRead ch s
  | .chClear ch => Sys2Proof.Machine.execChClear ch s
  | .chTake ch part => Sys2Proof.Machine.execChTake ch part s
  | .zoneDefine m => Sys2Proof.Machine.execZoneDefine m s
  | .zoneUndefine ch zone => Sys2Proof.Machine.execZoneUndefine ch zone s
  | .zoneRead ch => Sys2Proof.Machine.execZoneRead ch s
  | .cueLoad ch recs => Sys2Proof.Machine.execCueLoad ch recs s
  | .cueRemoveByTag ch tag => Sys2Proof.Machine.execCueRemoveByTag ch tag s
  | .cueRemoveByRange ch lo hi => Sys2Proof.Machine.execCueRemoveByRange ch lo hi s
  | .cueRead ch pos count => Sys2Proof.Machine.execCueRead ch pos count s
  | .faultRead ch => Sys2Proof.Machine.execFaultRead ch s
  | .faultClear ch => Sys2Proof.Machine.execFaultClear ch s
  | .linkReject => Sys2Proof.Machine.execLinkReject s
  | .unknownKind payload => Sys2Proof.Machine.execUnknownKind payload s
  | .badLength payload => Sys2Proof.Machine.execBadLength payload s
  | .replySent => Sys2Proof.Machine.execReplySent s
  | .rxByte b => Sys2Proof.Machine.execRxByte b s
  | .framingError => Sys2Proof.Machine.execFramingError s
  | .byteGapTimeout => Sys2Proof.Machine.execByteGapTimeout s
  | .powerOnReset => Sys2Proof.Machine.execPowerOnReset s
  | .powerLoss => Sys2Proof.Machine.execPowerLoss s
  | .pinReset => Sys2Proof.Machine.execPinReset s
  | .resetPinRelease => Sys2Proof.Machine.execResetPinRelease s
  | .resetComplete => Sys2Proof.Machine.execResetComplete s
  | .refPulse dt order => Sys2Proof.Machine.execRefPulse dt order s
  | .refSilence => Sys2Proof.Machine.execRefSilence s
  | .freeRunFrameStart order => Sys2Proof.Machine.execFreeRunFrameStart order s
  | .latePulseFrameStart order => Sys2Proof.Machine.execLatePulseFrameStart order s
  | .slewStep c => Sys2Proof.Machine.execSlewStep c s
  | .tcLost c => Sys2Proof.Machine.execTcLost c s
  | .zoneExpiry c => Sys2Proof.Machine.execZoneExpiry c s
  | .fadeEnd c => Sys2Proof.Machine.execFadeEnd c s
  | .glideEnd c => Sys2Proof.Machine.execGlideEnd c s
  | .holdExpired c => Sys2Proof.Machine.execHoldExpired c s
  | .pgmFrameStart c dt w h => Sys2Proof.Machine.execPgmFrameStart c dt w h s
  | .pgmFrameComplete c word pic => Sys2Proof.Machine.execPgmFrameComplete c word pic s
  | .pgmSilence c => Sys2Proof.Machine.execPgmSilence c s
  | .portFrameStart p dt w h => Sys2Proof.Machine.execPortFrameStart p dt w h s
  | .portSilence p => Sys2Proof.Machine.execPortSilence p s
  | .sourceFrameComplete p pic => Sys2Proof.Machine.execSourceFrameComplete p pic s

end Sys2Proof.Machine
end

