-- ==== Sys2Proof/Safety.lean ====
section
/-! DEFINITION. What a safe card looks like: the laws of the part that every command keeps. -/

namespace Sys2Proof.Machine

/-- The sizes and ranges of a channel's state (R8, R10, R11, R88, R94, R96, R106, R112, R139). -/
structure Channel.Bounded (ch : Channel) : Prop where
  store : ch.store.length ≤ 21
  target : ch.target ≤ 20
  delay : ch.delay ≤ 20
  slew : ch.slew ≤ 9
  stack : ch.stack.length ≤ 4
  glide : ch.defaultGlide ≤ 250
  zones : ch.zones.length = 12
  more : ∀ r, ch.fault = some r → r.more ≤ 255
  hold : ch.holdTime ≤ 250
  cues : ch.cues.length ≤ 64

/-- The list is in dated order and no two cues carry one tag (R139). -/
structure Channel.ListOk (ch : Channel) : Prop where
  order : ch.cues.Pairwise (fun a b => a.date.le b.date = true)
  tags : (ch.cues.map Cue.tag).Nodup

/-- The states of a source that has an owner (section 3.3). -/
def SrcState.isOwned (st : SrcState) : Bool := decide (st = .taken ∨ st = .lost ∨ st = .releasing)

/-- The laws of a source: owner and state agree (section 3.3), run counts stay in range (R39), and Rk
matches the stored Wk (R57). -/
structure Source.Lawful (x : Source) : Prop where
  owner : x.owner.isSome = x.state.isOwned
  inRun : x.inRun ≤ 8
  outRun : x.outRun ≤ 8
  goodRun : x.goodRun ≤ 8
  badRun : x.badRun ≤ 3
  wk : 1 ≤ x.wk ∧ x.wk ≤ 1024
  rk : x.rk = 1048576 / x.wk

/-- The laws of the card's channels and sources. -/
structure State.Lawful (s : State) : Prop where
  bounded : ∀ c, (s.chan c).Bounded
  list : ∀ c, (s.chan c).ListOk
  source : ∀ p, (s.src p).Lawful

/-- A slot holds something that waits. -/
def Slot.isWaiting : Slot → Bool
  | .waiting _ _ => true
  | _ => false

/-- Replies go one at a time, and nothing waits while none is being sent (R171). -/
structure Link.Orderly (l : Link) : Prop where
  one : ¬(l.slot1.isAnswering = true ∧ l.slot2.isAnswering = true)
  busy : l.slot1.isWaiting = true ∨ l.slot2.isWaiting = true →
    l.slot1.isAnswering = true ∨ l.slot2.isAnswering = true

/-- The link is idle on a running card: the next request is taken at once (R171). -/
structure State.LinkIdle (s : State) : Prop where
  running : s.running = true
  slot1 : s.link.slot1 = .empty
  slot2 : s.link.slot2 = .empty

/-- The state in which a request that finds the link idle is judged. -/
def State.hearing (s : State) (e : Entry) : State :=
  { s with link := { s.link with slot1 := .waiting e 0 } }

/-- A state with the reply to a request being sent from slot 1. -/
def State.replying (s : State) (r : Request) (reply : List Byte) : State :=
  { s with link := { s.link with slot1 := .answering (.request r) 0 reply } }

/-- The state but for one channel, the sources, the spare and the notices: what the doings of that
channel leave alone (R5). -/
def State.outside (s : State) (c : Chan) : State :=
  { s with
    channels := s.channels.set c (Channel.reset none)
    sources := PerPort.fill (Source.reset .absent none false)
    spare := .free
    notices := Notices.reset }

/-- The card but for its clock, reference checker, channels, sources, spare and notices: what a frame
start leaves alone (R5). -/
def State.still (s : State) : State :=
  { s with
    now := 0, ref := Reference.reset, channels := PerChan.fill (Channel.reset none)
    sources := PerPort.fill (Source.reset .absent none false), spare := .free, notices := Notices.reset }

/-- The `n` bytes at an offset of a payload, as a number, most significant first (R164). -/
def numberAt (l : List Byte) (off n : Nat) : Nat :=
  ((l.drop off).take n).foldl (fun a b => a * 256 + b.toNat) 0

/-- The label, tracker state, flywheel count, owed midnight and first label of a LOST after a tracker step
from channel `ch` with the selection `x` (R24 to R28, R35; the last is the model's own, log entry 13). -/
def trackedAs (f : Format) (ch : Channel) (x : Selection) : Nat × TrackState × Nat × Bool × Nat :=
  match x.validWord with
  | some w => (wordLabel f w, .locked, 0, false, ch.lostFrom)
  | none =>
    (if x.isRepeat then ch.label else (ch.label + 1) % f.day,
     match ch.track with
     | .locked => (.flywheel, 1, ch.owed, ch.lostFrom)
     | .flywheel =>
       if f.rate ≤ ch.flywheel + 1 then
         (.lost, ch.flywheel + 1, ch.owed || (!x.isRepeat && decide (ch.label + 1 = f.day)),
           if x.isRepeat then ch.label else (ch.label + 1) % f.day)
       else (.flywheel, ch.flywheel + 1, ch.owed, ch.lostFrom)
     | .lost => (.lost, min 65535 (ch.flywheel + 1),
         ch.owed || (!x.isRepeat && decide (ch.label + 1 = f.day)), ch.lostFrom))

/-- A frame start led from one state to another: the rest of the card stands, and each channel with no
change of mode due has slewed, selected its frame and taken its tracker step, with TC_FLYWHEEL and TC_LOST
raised where that step or a re-arm mark raises them and nowhere else (R5, R9 to R12, R24 to R28, R35, R194). -/
structure State.Framed (f : Format) (s t : State) : Prop where
  rest : t.still = s.still
  path : ∀ c, (s.chan c).pendingMode = none → (s.chan c).deferred ≠ some [] →
    (t.chan c).mode = (s.chan c).mode ∧ (t.chan c).relay = (s.chan c).relay ∧
    (t.chan c).store = (s.chan c).store ∧ (t.chan c).target = (s.chan c).target ∧
    (t.chan c).delay = (slewStep (s.chan c)).delay ∧ (t.chan c).slew = (slewStep (s.chan c)).slew ∧
    (t.chan c).sel = (selectOutput f (slewStep (s.chan c))).sel ∧
    ((t.chan c).label, (t.chan c).track, (t.chan c).flywheel, (t.chan c).owed, (t.chan c).lostFrom)
      = trackedAs f (s.chan c) (selectOutput f (slewStep (s.chan c))).sel
  raised : ∀ c, (s.chan c).pendingMode = none → (s.chan c).deferred ≠ some [] →
    (t.notices.raw.hasChan c .tcFlywheel = true ↔ s.notices.raw.hasChan c .tcFlywheel = true ∨
      (s.chan c).track = .locked ∧ (selectOutput f (slewStep (s.chan c))).sel.validWord = none) ∧
    (t.notices.raw.hasChan c .tcLost = true ↔ s.notices.raw.hasChan c .tcLost = true ∨
      (s.chan c).track = .flywheel ∧ (selectOutput f (slewStep (s.chan c))).sel.validWord = none ∧
        f.rate ≤ (s.chan c).flywheel + 1 ∨
      s.notices.rearmTc.get c = true ∧ (t.chan c).track = .lost)

end Sys2Proof.Machine

namespace Sys2Proof

open Machine

/-- The request a request row carries (R171). -/
def Instr.asRequest : Instr → Option Request
  | .ident => some .ident
  | .house code => some (.house code)
  | .reset => some .reset
  | .noticeEnable set => some (.noticeEnable set)
  | .noticeRead => some .noticeRead
  | .noticeAck set => some (.noticeAck set)
  | .linkCounts => some .linkCounts
  | .srcRead src => some (.srcRead src)
  | .srcSet m => some (.srcSet m)
  | .chMode ch mode => some (.chMode ch mode)
  | .chDelay ch target => some (.chDelay ch target)
  | .chSetup ch glide hold standby => some (.chSetup ch glide hold standby)
  | .chRead ch => some (.chRead ch)
  | .chClear ch => some (.chClear ch)
  | .chTake ch part => some (.chTake ch part)
  | .zoneDefine m => some (.zoneDefine 1 m)
  | .zoneUndefine ch zone => some (.zoneDefine 0 (undefineMsg ch zone))
  | .zoneRead ch => some (.zoneRead ch)
  | .cueLoad ch recs => some (.cueLoad ch recs)
  | .cueRemoveByTag ch tag => some (.cueRemove ch 0 tag labelZero labelZero)
  | .cueRemoveByRange ch lo hi => some (.cueRemove ch 1 0 lo hi)
  | .cueRead ch pos count => some (.cueRead ch pos count)
  | .faultRead ch => some (.faultRead ch)
  | .faultClear ch => some (.faultClear ch)
  | .unknownKind payload => some (requestOf payload)
  | .badLength payload => some (requestOf payload)
  | _ => none

/-- The bytes of a list received one after another. -/
def feed : List Byte → State → Host.Outcome State Fault Refusal
  | [], s => .next s
  | b :: l, s =>
    match exec (.rxByte b) s with
    | .next t => feed l t
    | .fault e => .fault e
    | .refused e => .refused e

end Sys2Proof
end

