-- ==== Sys2Proof/WellFormed.lean ====
section
/-! DEFINITION. What a command of the outside world looks like: the operands an event or an arriving
request can carry. The card judges a request's fields itself (Chapter 10); these checks are only about
what can be put on the wire or measured at all. -/

namespace Sys2Proof

open Machine

/-- A frame start names each channel once. -/
def orderOk (order : List Chan) : Bool :=
  decide (order.length = 4) && Chan.all.all (fun c => order.contains c)

/-- An action part is 20 bytes (R175). -/
def partOk (part : List Byte) : Bool := decide (part.length = 20)

/-- A CUE_LOAD of the right length carries 1 to 8 records of 28 bytes (R187). -/
def recordsOk (recs : List CueRec) : Bool :=
  decide (1 ≤ recs.length) && decide (recs.length ≤ 8) && recs.all (fun r => partOk r.part)

/-- A payload is 1 to 240 bytes (R164). -/
def payloadOk (l : List Byte) : Bool := decide (1 ≤ l.length) && decide (l.length ≤ 240)

/-- A payload whose kind is no request kind (R171). -/
def unknownOk (l : List Byte) : Bool := payloadOk l && decide (requestOf l = .unknownKind l)

/-- A payload whose length is not that of its kind (R171). -/
def badLengthOk (l : List Byte) : Bool := payloadOk l && decide (requestOf l = .badLength l)

/-- A picture gives no more lines and pairs than its raster has. -/
def pictureOk (p : Picture) : Bool :=
  decide (p.rows.length ≤ p.h) && p.rows.all (fun r => decide (2 * r.length ≤ p.w))

/-- The commands that can arrive. -/
def Instr.wellFormed : Instr → Bool
  | .ident => true
  | .house _ => true
  | .reset => true
  | .noticeEnable _ => true
  | .noticeRead => true
  | .noticeAck _ => true
  | .linkCounts => true
  | .srcRead _ => true
  | .srcSet _ => true
  | .chMode _ _ => true
  | .chDelay _ _ => true
  | .chSetup _ _ _ _ => true
  | .chRead _ => true
  | .chClear _ => true
  | .chTake _ part => partOk part
  | .zoneDefine _ => true
  | .zoneUndefine _ _ => true
  | .zoneRead _ => true
  | .cueLoad _ recs => recordsOk recs
  | .cueRemoveByTag _ _ => true
  | .cueRemoveByRange _ _ _ => true
  | .cueRead _ _ _ => true
  | .faultRead _ => true
  | .faultClear _ => true
  | .linkReject => true
  | .unknownKind payload => unknownOk payload
  | .badLength payload => badLengthOk payload
  | .replySent => true
  | .rxByte _ => true
  | .framingError => true
  | .byteGapTimeout => true
  | .powerOnReset => true
  | .powerLoss => true
  | .pinReset => true
  | .resetPinRelease => true
  | .resetComplete => true
  | .refPulse _ order => orderOk order
  | .refSilence => true
  | .freeRunFrameStart order => orderOk order
  | .latePulseFrameStart order => orderOk order
  | .slewStep _ => true
  | .tcLost _ => true
  | .zoneExpiry _ => true
  | .fadeEnd _ => true
  | .glideEnd _ => true
  | .holdExpired _ => true
  | .pgmFrameStart _ _ _ _ => true
  | .pgmFrameComplete _ _ pic => pictureOk pic
  | .pgmSilence _ => true
  | .portFrameStart _ _ _ _ => true
  | .portSilence _ => true
  | .sourceFrameComplete _ pic => pictureOk pic

end Sys2Proof
end

