-- ==== Sys2Proof/Certificates/Slice0/Obligations.lean ====
section
/-! DEFINITION. What the provers are asked to prove of the card: one definition for each entry of
OBLIGATIONS.json, in the same order. -/

open Sys2Proof Sys2Proof.Machine

/-! ### The machine -/

/-- O1. A step takes the front command with the queue's rest; on an empty queue the card idles (the
model's choice, log entry 2). -/
def Obligations.StepTakesTheFrontCommand : Prop :=
  (∀ (s : State) (i : Instr) (rest : List Instr), s.pending = i :: rest →
    step s = exec i { s with pending := rest }) ∧
  ∀ s : State, s.pending = [] → step s = .next s

/-- O2. The reset state meets the laws that every step keeps. -/
def Obligations.ResetMeetsTheLaws : Prop := State.reset.Lawful ∧ State.reset.link.Orderly

/-- O3. Every step keeps the laws of channels and sources. -/
def Obligations.EveryStepKeepsTheLaws : Prop :=
  ∀ s t : State, s.Lawful → step s = .next t → t.Lawful

/-- O4. Every step keeps the receive slots orderly: one reply at a time, nothing waits on an idle link
(R170, R171). -/
def Obligations.EveryStepKeepsTheSlotsOrderly : Prop :=
  ∀ s t : State, s.link.Orderly → step s = .next t → t.link.Orderly

/-- O5. What a channel does at a frame start leaves the other channels and the rest of the card but
the sources, the spare and the notices (R5). -/
def Obligations.ChannelsActAlone : Prop :=
  ∀ (f : Format) (s : State) (c : Chan), (chanFrameStart f s c).outside c = s.outside c ∧
    ∀ d, d ≠ c → (chanFrameStart f s c).chan d = s.chan d

/-! ### The link (Chapter 9) -/

/-- O6. A received byte in HUNT, LENGTH and BODY (R165). A framing error, and a gap over 10 ms outside
HUNT, put the receiver in HUNT and are counted; in HUNT no gap is timed (R166, R167, R173). -/
def Obligations.ReceivedByteByState : Prop :=
  (∀ (s : State) (b : Byte), s.running = true →
    (s.link.rx = .hunt → b = 0x5A → exec (.rxByte b) s = .next { s with link := { s.link with rx := .length } }) ∧
    (s.link.rx = .hunt → b ≠ 0x5A → exec (.rxByte b) s = .next s) ∧
    (s.link.rx = .length → 1 ≤ b.toNat → b.toNat ≤ 240 → exec (.rxByte b) s
      = .next { s with link := { s.link with rx := .body, len := b, body := [] } }) ∧
    (s.link.rx = .body → exec (.rxByte b) s = .next { s with link := { s.link with
      body := s.link.body ++ [b]
      rx := if s.link.len.toNat ≤ s.link.body.length + 1 then .check else .body } })) ∧
  ∀ s : State, s.running = true →
    exec .framingError s = .next (raiseCard .linkError { s with link := { s.link with
      rx := .hunt, len := 0, body := []
      framing := if s.link.framing = 0xFFFF#16 then s.link.framing else s.link.framing + 1 } }) ∧
    (s.link.rx ≠ .hunt → exec .byteGapTimeout s = .next (raiseCard .linkError { s with link := { s.link with
      rx := .hunt, len := 0, body := []
      timeout := if s.link.timeout = 0xFFFF#16 then s.link.timeout else s.link.timeout + 1 } })) ∧
    (s.link.rx = .hunt → exec .byteGapTimeout s = .next s)

/-- O7. A LEN byte of 0 or above 240 (R168): HUNT, counted by LENGTH, no reply; the byte after it is
treated in HUNT. -/
def Obligations.WrongLengthByteIsCounted : Prop :=
  ∀ (s : State) (b : Byte), s.running = true → s.link.rx = .length → (b.toNat = 0 ∨ 240 < b.toNat) →
    ∃ t, exec (.rxByte b) s = .next t ∧
      t = raiseCard .linkError { s with link := { s.link with
        rx := .hunt, len := 0, body := []
        length := if s.link.length = 0xFFFF#16 then s.link.length else s.link.length + 1 } } ∧
      t.link.slot1 = s.link.slot1 ∧ t.link.slot2 = s.link.slot2 ∧
      exec (.rxByte 0x5A) t = .next { t with link := { t.link with rx := .length } } ∧
      ∀ x : Byte, x ≠ 0x5A → exec (.rxByte x) t = .next t

/-- O8. A payload of 1 to 240 bytes sent in its envelope to a receiver in HUNT arrives as the request it
spells; with any other CHECK byte it arrives as a reject entry, counted by CHECK (R164, R165, R169). -/
def Obligations.WholeFrameArrives : Prop :=
  ∀ (s : State) (payload : List Byte), s.running = true → s.link.rx = .hunt → s.link.len = 0 →
    s.link.body = [] → 1 ≤ payload.length → payload.length ≤ 240 →
    feed (frameOf payload) s = .next (deliver (.request (requestOf payload)) s) ∧
    ∀ last : Byte, last ≠ checkOf payload →
      feed (0x5A :: BitVec.ofNat 8 payload.length :: (payload ++ [last])) s
        = .next (deliver .reject (raiseCard .linkError { s with link := { s.link with
            check := if s.link.check = 0xFFFF#16 then s.link.check else s.link.check + 1 } }))

/-- O9. The request that a payload spells: for each kind of message its length and the offset of every field,
two-byte fields most significant byte first. A payload of another length spells a BAD_LENGTH, one of another
kind an UNKNOWN_KIND (R164, R171 and the layouts of Chapter 10, R175 and R176). -/
def Obligations.PayloadSpellsItsRequest : Prop :=
  ∀ (l : List Byte) (b : Nat → Byte) (w : Nat → Half) (label : Nat → HostLabel) (set : Nat → NoticeBits)
    (kinds : List (Nat × Nat × Request)),
    b = (fun i => BitVec.ofNat 8 (numberAt l i 1)) → w = (fun i => BitVec.ofNat 16 (numberAt l i 2)) →
    label = (fun i => ⟨b i, b (i + 1), b (i + 2), b (i + 3), b (i + 4), b (i + 5)⟩) →
    set = (fun i => ⟨b i, ⟨w (i + 1), w (i + 3), w (i + 5), w (i + 7)⟩⟩) →
    kinds = [
      (0x01, 1, .ident), (0x02, 2, .house (b 1)), (0x03, 1, .reset), (0x04, 10, .noticeEnable (set 1)),
      (0x05, 1, .noticeRead), (0x06, 10, .noticeAck (set 1)), (0x07, 1, .linkCounts),
      (0x10, 2, .srcRead (b 1)),
      (0x11, 20, .srcSet ⟨b 1, b 2, w 3, w 5, w 7, w 9, b 11, w 12, w 14, w 16, w 18⟩),
      (0x20, 3, .chMode (b 1) (b 2)), (0x21, 3, .chDelay (b 1) (b 2)),
      (0x22, 5, .chSetup (b 1) (b 2) (b 3) (b 4)), (0x23, 2, .chRead (b 1)), (0x24, 2, .chClear (b 1)),
      (0x25, 22, .chTake (b 1) (l.drop 2)),
      (0x30, 21, .zoneDefine (b 3) ⟨b 1, b 2, w 4, w 6, w 8, w 10, b 12, b 13, b 14, label 15⟩),
      (0x31, 2, .zoneRead (b 1)),
      (0x40, 3 + 28 * numberAt l 2 1, .cueLoad (b 1) ((List.range (numberAt l 2 1)).map (fun i =>
        ⟨w (3 + 28 * i), label (5 + 28 * i), (l.drop (11 + 28 * i)).take 20⟩))),
      (0x41, 17, .cueRemove (b 1) (b 2) (w 3) (label 5) (label 11)), (0x42, 4, .cueRead (b 1) (b 2) (b 3)),
      (0x50, 2, .faultRead (b 1)), (0x51, 2, .faultClear (b 1))] →
    (∀ k n r, (k, n, r) ∈ kinds → numberAt l 0 1 = k →
      (l.length = n → (k = 0x40 → 1 ≤ numberAt l 2 1 ∧ numberAt l 2 1 ≤ 8) → requestOf l = r) ∧
      (l.length ≠ n ∨ k = 0x40 ∧ (numberAt l 2 1 = 0 ∨ 8 < numberAt l 2 1) → requestOf l = .badLength l)) ∧
    ((∀ k n r, (k, n, r) ∈ kinds → numberAt l 0 1 ≠ k) → requestOf l = .unknownKind l)

/-- O10. On an idle link a frame that failed its check is answered LINK_REJECT with CHECK_FAILED (R169,
R173). While one slot is answered, a request goes into the other slot and waits, and so does the reject
entry of a frame that failed its check, counted by CHECK; with both slots occupied what arrives is overrun,
counted by OVERRUN, with no reply (R169 to R171). That the row LINK_REJECT is the arrival of a frame that
failed its check, and a request row the arrival of its whole frame, is the model's choice (log entry 4).
Without power, or with a reset in progress, nothing arrives over the link (R163, R196). -/
def Obligations.FramesRejectedWaitingOrUnheard : Prop :=
  (∀ s : State, s.LinkIdle → exec .linkReject s
    = .next (raiseCard .linkError { s with link := { s.link with
        slot1 := .answering .reject 0 [0x80, 0x1D]
        check := if s.link.check = 0xFFFF#16 then s.link.check else s.link.check + 1 } })) ∧
  (∀ (i : Instr) (arrives : Entry) (s counted : State) (e : Entry) (n : Nat) (reply : List Byte),
    s.running = true →
    (∃ r, i.asRequest = some r ∧ arrives = .request r ∧ counted = s) ∨
      i = .linkReject ∧ arrives = .reject ∧ counted = raiseCard .linkError { s with link := { s.link with
        check := if s.link.check = 0xFFFF#16 then s.link.check else s.link.check + 1 } } →
    (s.link.slot1 = .answering e n reply → s.link.slot2 = .empty →
      exec i s = .next { counted with link := { counted.link with slot2 := .waiting arrives (n + 1) } }) ∧
    (s.link.slot2 = .answering e n reply → s.link.slot1 = .empty →
      exec i s = .next { counted with link := { counted.link with slot1 := .waiting arrives (n + 1) } }) ∧
    (s.link.slot1 = .answering e n reply ∧ s.link.slot2.isWaiting = true ∨
      s.link.slot2 = .answering e n reply ∧ s.link.slot1.isWaiting = true →
      exec i s = .next (raiseCard .linkError { counted with link := { counted.link with
        overrun := if s.link.overrun = 0xFFFF#16 then s.link.overrun else s.link.overrun + 1 } }))) ∧
  ∀ s : State, s.running = false →
    (∀ i : Instr, i.asRequest ≠ none → exec i s = .next s) ∧
    exec .linkReject s = .next s ∧ exec .replySent s = .next s ∧ (∀ b, exec (.rxByte b) s = .next s) ∧
    exec .framingError s = .next s ∧ exec .byteGapTimeout s = .next s

/-- O11. A reply is transmitted in the envelope of R164. When it has been sent in full its slot is EMPTY
and a waiting entry, whatever it is, is taken; RESET's reply begins the reset by message (R170, R171,
R196). The same of either slot. -/
def Obligations.SentReplyFreesItsSlot : Prop :=
  ∀ (s : State) (e : Entry) (n : Nat) (reply : List Byte), s.running = true →
    (s.link.slot1 = .answering e n reply ∧ s.link.slot2.isAnswering = false ∨
        s.link.slot2 = .answering e n reply ∧ s.link.slot1.isAnswering = false →
      ∃ last : Byte, s.transmitting = 0x5A :: BitVec.ofNat 8 reply.length :: (reply ++ [last]) ∧
        (reply.length + (reply.map BitVec.toNat).sum + last.toNat) % 256 = 0) ∧
    (s.link.slot1 = .answering e n reply →
      (e ≠ .request .reset → s.link.slot2 = .empty →
        exec .replySent s = .next { s with link := { s.link with slot1 := .empty } }) ∧
      (∀ (w : Entry) (m : Nat) (r : State × List Byte), e ≠ .request .reset → s.link.slot2 = .waiting w m →
        r = answerEntry w { s with link := { s.link with slot1 := .empty } } →
        exec .replySent s = .next { r.1 with link := { r.1.link with slot2 := .answering w m r.2 } }) ∧
      (∀ m, e ≠ .request .reset → s.link.slot2 = .waiting .reject m →
        exec .replySent s = .next { s with link := { s.link with
          slot1 := .empty, slot2 := .answering .reject m [0x80, 0x1D] } }) ∧
      (∀ m, e ≠ .request .reset → s.link.slot2 = .waiting (.request .ident) m →
        exec .replySent s = .next { s with link := { s.link with
          slot1 := .empty
          slot2 := .answering (.request .ident) m ([0x81, 0x00] ++ identFields s) } }) ∧
      (e = .request .reset → exec .replySent s = .next { s with
        resetting := some .message, resetDue := s.now + 540000
        channels := s.channels.map (fun ch => { ch with relay := .bypass })
        link := { s.link with rx := .hunt, len := 0, body := [], slot1 := .empty, slot2 := .empty } })) ∧
    (s.link.slot2 = .answering e n reply → s.link.slot1.isAnswering = false →
      (e ≠ .request .reset → s.link.slot1 = .empty →
        exec .replySent s = .next { s with link := { s.link with slot2 := .empty } }) ∧
      (∀ (w : Entry) (m : Nat) (r : State × List Byte), e ≠ .request .reset → s.link.slot1 = .waiting w m →
        r = answerEntry w { s with link := { s.link with slot2 := .empty } } →
        exec .replySent s = .next { r.1 with link := { r.1.link with slot1 := .answering w m r.2 } }) ∧
      (e = .request .reset → exec .replySent s = .next { s with
        resetting := some .message, resetDue := s.now + 540000
        channels := s.channels.map (fun ch => { ch with relay := .bypass })
        link := { s.link with rx := .hunt, len := 0, body := [], slot1 := .empty, slot2 := .empty } }))

/-! ### Card and source requests (Chapter 10) -/

/-- O12. IDENT and RESET are answered at once and change nothing but the slot (R177, R195). LINK_COUNTS
returns the five counters and zeroes them (R173, R177). A frame of an unknown kind, and one of a wrong
length for its kind, are answered so and change nothing (R171). -/
def Obligations.SmallRequestsReply : Prop :=
  ∀ s : State, s.LinkIdle →
    exec .ident s = .next (s.replying .ident [0x81, 0x00, 0x0E, 0x1C, 0x04, 0xC7, 0x03,
      (match s.cause with
        | .power => 0x01#8
        | .pin => 0x02#8
        | .message => 0x03#8),
      (match s.format with
        | none => 0x00#8
        | some f => BitVec.ofNat 8 f.code),
      (match s.ref.state with
        | .idle => 0x00#8
        | .acquiring => 0x01#8
        | .locked => 0x02#8
        | .free => 0x03#8)]) ∧
    exec .reset s = .next (s.replying .reset [0x83, 0x00]) ∧
    exec .linkCounts s = .next (State.replying { s with link := { s.link with
        framing := 0, timeout := 0, length := 0, check := 0, overrun := 0 } } .linkCounts
      ([0x87, 0x00] ++ be16 s.link.framing.toNat ++ be16 s.link.timeout.toNat ++ be16 s.link.length.toNat ++
        be16 s.link.check.toNat ++ be16 s.link.overrun.toNat)) ∧
    ∀ l : List Byte,
      (unknownOk l = true → exec (.unknownKind l) s
        = .next (s.replying (.unknownKind l) [byteAt l 0 + 0x80, 0x10])) ∧
      (badLengthOk l = true → exec (.badLength l) s
        = .next (s.replying (.badLength l) [byteAt l 0 + 0x80, 0x11]))

/-- O13. HOUSE (R2, R44, R178). SOURCE_CHANGE is raised exactly where a source changes state (R44, R45).
That the inset is hidden, which R178 has already made sure of, is set by the model (log entry 31), the first
label of a LOST is its own note (log entry 13), and that the moment of a channel's latest programme frame
start stands, so that the next one ends an interval begun before HOUSE, is its reading (log entry 28). -/
def Obligations.HouseSetsTheFormat : Prop :=
  ∀ (s : State) (code : Byte), s.LinkIdle →
    (code.toNat < 1 ∨ 6 < code.toNat → exec (.house code) s = .next (s.replying (.house code) [0x82, 0x12])) ∧
    (∀ f : Format, f.code = code.toNat →
      (∃ c, (s.chan c).mode ≠ .bypass ∨ (s.chan c).pendingMode ≠ none ∨ (s.chan c).deferred ≠ none) →
      exec (.house code) s = .next (s.replying (.house code) [0x82, 0x13])) ∧
    (∀ f : Format, f.code = code.toNat →
      (∀ c, (s.chan c).mode = .bypass ∧ (s.chan c).pendingMode = none ∧ (s.chan c).deferred = none) →
      ∃ t, exec (.house code) s = .next t ∧ t.format = some f ∧
        t.ref = ⟨.acquiring, 0, 0, s.now, false, s.now, false⟩ ∧
        t.link = (s.replying (.house code) [0x82, 0x00]).link ∧ t.spare = s.spare ∧ t.now = s.now ∧
        ((∃ p, (s.src p).state ≠ .absent ∧ (s.src p).state ≠ .detecting) →
          t.notices = (raiseCard .sourceChange s).notices) ∧
        ((∀ p, (s.src p).state = .absent ∨ (s.src p).state = .detecting) → t.notices = s.notices) ∧
        (∀ c, t.chan c = { (s.chan c).hide with
          pgm := .waiting, pgmGood := 0, pgmBad := 0, store := [], writing := false, delay := 0, slew := 0,
          drainRepeats := 0, drained := false, label := 0, track := .lost, flywheel := 0, owed := false,
          lostFrom := 0, stack := [], outcome := none, zones := List.replicate 12 Zone.undefined
          fault := none, cues := [], deferred := none, heldBack := false }) ∧
        ∀ p, t.src p = { s.src p with
          state := if (s.src p).state = .absent then .absent else .detecting
          owner := none, inRun := 0, outRun := 0, goodRun := 0, badRun := 0, rasterMark := false
          ring := Ring.empty, crop := .full, cropForce := .full, cropReport := false, measuring := false })

/-- O14. NOTICE_ENABLE, NOTICE_READ and NOTICE_ACK (R179, R192, R193, R194). A notice set is carried in nine
bytes, and each kind is the bit of its position in its part (R176, R190); raising a notice sets the flag of
its kind and no other (R191). -/
def Obligations.NoticeRequestsReply : Prop :=
  (∀ (s : State) (set : NoticeBits), s.LinkIdle →
    (set.legal = true → exec (.noticeEnable set) s
      = .next (State.replying { s with notices := { s.notices with enable := set } } (.noticeEnable set)
          ([0x84, 0x00] ++ noticeBytes set))) ∧
    (set.legal = false → exec (.noticeEnable set) s = .next (s.replying (.noticeEnable set) [0x84, 0x12])) ∧
    exec .noticeRead s = .next (s.replying .noticeRead
      ([0x85, 0x00] ++ noticeBytes (s.notices.raw.inter s.notices.enable))) ∧
    (set.legal = false → exec (.noticeAck set) s = .next (s.replying (.noticeAck set) [0x86, 0x12])) ∧
    (set.legal = true → ∃ n : Notices, exec (.noticeAck set) s
      = .next (State.replying { s with notices := n } (.noticeAck set)
          ([0x86, 0x00] ++ noticeBytes ((s.notices.raw.diff set).inter s.notices.enable))) ∧
      n.raw = s.notices.raw.diff set ∧ n.enable = s.notices.enable ∧
      n.rearmRef = (s.notices.rearmRef || set.hasCard .refLoss) ∧
      ∀ c, n.rearmTc.get c = (s.notices.rearmTc.get c || set.hasChan c .tcLost) ∧
        n.rearmPgm.get c = (s.notices.rearmPgm.get c || set.hasChan c .pgmLoss))) ∧
  (∀ (a b : NoticeBits) (k : CardKind) (c : Chan) (j : ChanKind) (l : List Byte), l = noticeBytes a →
    l.length = 9 ∧
    (a.hasCard k = true ↔ numberAt l 0 1 / 2 ^ (match k with
      | .sourceChange => 0 | .refLoss => 1 | .linkError => 2 | .resetDone => 3) % 2 = 1) ∧
    (a.hasChan c j = true ↔ numberAt l (1 + 2 * chanIdx c) 2 / 2 ^ (match j with
      | .mark => 0 | .cueFailed => 1 | .cueMissed => 2 | .placeFault => 3 | .forcedOut => 4 | .degraded => 5
      | .sourceLost => 6 | .holdExpired => 7 | .tcFlywheel => 8 | .tcLost => 9 | .pgmLoss => 10
      | .stackSpill => 11 | .modeDone => 12) % 2 = 1) ∧
    (a.legal = true ↔ numberAt l 0 1 < 16 ∧ ∀ d, numberAt l (1 + 2 * chanIdx d) 2 < 8192) ∧
    (a.inter b).hasCard k = (a.hasCard k && b.hasCard k) ∧
    (a.inter b).hasChan c j = (a.hasChan c j && b.hasChan c j) ∧
    (a.diff b).hasCard k = (a.hasCard k && !b.hasCard k) ∧
    (a.diff b).hasChan c j = (a.hasChan c j && !b.hasChan c j)) ∧
  ∀ (s : State) (c d : Chan) (k i : CardKind) (j h : ChanKind),
    ((raiseCard k s).notices.raw.hasCard i = true ↔ s.notices.raw.hasCard i = true ∨ i = k) ∧
    ((raiseCard k s).notices.raw.hasChan d h = s.notices.raw.hasChan d h) ∧
    ((raiseChan c j s).notices.raw.hasCard i = s.notices.raw.hasCard i) ∧
    ((raiseChan c j s).notices.raw.hasChan d h = true ↔
      s.notices.raw.hasChan d h = true ∨ d = c ∧ h = j)

/-- O15. SRC_READ reports a source in the layout of R180 and changes nothing (R59, R180). A port has signal
while its latest port frame start is less than the silence limit ago: 2 × N ticks with a house format,
2,160,000 without (R39). That a port has no signal once exactly the silence limit has passed is the model's
reading (log entry 28). -/
def Obligations.SourceReadReports : Prop :=
  (∀ (s : State) (p : Port) (limit : Nat),
    limit = (match s.format with | none => 2160000 | some f => 2 * f.period) →
    (s.hasSignal p = true ↔ ∃ m, (s.src p).lastStart = some m ∧ s.now - m < limit)) ∧
  ∀ (s : State) (src : Byte), s.LinkIdle →
    (5 < src.toNat → exec (.srcRead src) s = .next (s.replying (.srcRead src) [0x90, 0x14])) ∧
    ∀ (p : Port) (l : List Byte), portIdx p = src.toNat →
      l = [0x90, 0x00] ++ standingFields s p ++ paramFields s.format (s.src p) →
      exec (.srcRead src) s = .next (s.replying (.srcRead src) l) ∧
      l.length = 42 ∧
      numberAt l 2 1 = (match (s.src p).state with
        | .absent => 0 | .detecting => 1 | .rejected => 2 | .ready => 3 | .taken => 4 | .lost => 5
        | .releasing => 6) ∧
      numberAt l 3 1 = (match (s.src p).owner with
        | none => 255 | some .c0 => 0 | some .c1 => 1 | some .c2 => 2 | some .c3 => 3) ∧
      numberAt l 4 4 = (s.src p).lastInterval.toNat ∧
      numberAt l 8 2 = (s.src p).lastW.toNat ∧ numberAt l 10 2 = (s.src p).lastH.toNat ∧
      numberAt l 12 1 = (s.src p).inRun % 256 ∧ numberAt l 13 1 = (s.src p).outRun % 256 ∧
      numberAt l 14 1 = (s.src p).goodRun % 256 ∧ numberAt l 15 1 = (s.src p).badRun % 256 ∧
      numberAt l 16 1 = (if (s.src p).rasterMark then 1 else 0) ∧
      numberAt l 17 1 = (if s.hasSignal p = true then 1 else 0) ∧
      numberAt l 18 1 = ([(s.src p).ring.a, (s.src p).ring.b, (s.src p).ring.c].filter
        RingSlot.isComplete).length ∧
      numberAt l 19 1 = (if (s.src p).ring.frozen = none then 0 else 1) ∧
      ((s.src p).crop = .full → numberAt l 20 1 = 0 ∧ numberAt l 21 2 = 0 ∧ numberAt l 23 2 = 0 ∧
        (s.format = none → numberAt l 25 2 = 0 ∧ numberAt l 27 2 = 0) ∧
        ∀ f, s.format = some f → numberAt l 25 2 = f.width ∧ numberAt l 27 2 = f.height) ∧
      (∀ r, (s.src p).crop = .rect r → numberAt l 20 1 = 1 ∧ numberAt l 21 2 = r.x % 65536 ∧
        numberAt l 23 2 = r.y % 65536 ∧ numberAt l 25 2 = r.w % 65536 ∧ numberAt l 27 2 = r.h % 65536) ∧
      numberAt l 29 1 = (if (s.src p).keyOn then 1 else 0) ∧ numberAt l 30 2 = (s.src p).kb % 65536 ∧
      numberAt l 32 2 = (s.src p).kr % 65536 ∧ numberAt l 34 2 = (s.src p).tlo % 65536 ∧
      numberAt l 36 2 = (s.src p).wk % 65536 ∧ numberAt l 38 4 = (s.src p).rk % 4294967296

/-- O16. SRC_SET stores crop and key normalised, with Rk = floor(1,048,576 / Wk) from the stored Wk, at the
ends of the range and at the default as R57 says; with the key off the stored key is not used (R55 to R58).
That the changed crop of a source with an owner waits as a mark for its owner's frame start is the model's
reading (log entry 17). -/
def Obligations.SourceSetStoresClamped : Prop :=
  (∀ (s : State) (m : SrcMsg), s.LinkIdle →
    (5 < m.src.toNat → exec (.srcSet m) s = .next (s.replying (.srcSet m) [0x91, 0x14])) ∧
    (m.src.toNat ≤ 5 → (1 < m.cropKind.toNat ∨ 1 < m.keyOn.toNat ∨
        (m.cropKind.toNat = 1 ∧ (m.w.toNat < 2 ∨ m.h.toNat < 2))) →
      exec (.srcSet m) s = .next (s.replying (.srcSet m) [0x91, 0x12])) ∧
    (m.src.toNat ≤ 5 → m.keyOn.toNat ≤ 1 → m.cropKind.toNat = 1 → 2 ≤ m.w.toNat → 2 ≤ m.h.toNat →
      s.format = none → exec (.srcSet m) s = .next (s.replying (.srcSet m) [0x91, 0x1C])) ∧
    (∀ (p : Port) (k : Crop), portIdx p = m.src.toNat → m.keyOn.toNat ≤ 1 →
      (m.cropKind.toNat = 0 ∧ k = .full ∨
        m.cropKind.toNat = 1 ∧ 2 ≤ m.w.toNat ∧ 2 ≤ m.h.toNat ∧ ∃ f, s.format = some f ∧
          k = .rect ⟨min (m.x.toNat / 2 * 2) (f.width - 2), min m.y.toNat (f.height - 2),
            min (m.w.toNat / 2 * 2) (f.width - min (m.x.toNat / 2 * 2) (f.width - 2)),
            min m.h.toNat (f.height - min m.y.toNat (f.height - 2))⟩) →
      ∃ (code : Byte) (t : State), t = s.modSrc p (fun x => { x with
          crop := k
          cropReport := x.cropReport || (decide (k ≠ x.crop) && x.owner.isSome)
          keyOn := decide (m.keyOn.toNat = 1)
          kb := min 960 (max 64 m.kb.toNat), kr := min 960 (max 64 m.kr.toNat)
          tlo := min 1791 m.tlo.toNat, wk := min 1024 (max 1 m.wk.toNat)
          rk := 1048576 / min 1024 (max 1 m.wk.toNat) }) ∧
        exec (.srcSet m) s = .next (t.replying (.srcSet m)
          ([0x91, code] ++ paramFields s.format (t.src p))) ∧
        (code = 0x00 ∨ code = 0x01) ∧
        (code = 0x00 ↔ (k = .full ∨ k = .rect ⟨m.x.toNat, m.y.toNat, m.w.toNat, m.h.toNat⟩) ∧
          64 ≤ m.kb.toNat ∧ m.kb.toNat ≤ 960 ∧ 64 ≤ m.kr.toNat ∧ m.kr.toNat ≤ 960 ∧
          m.tlo.toNat ≤ 1791 ∧ 1 ≤ m.wk.toNat ∧ m.wk.toNat ≤ 1024))) ∧
  1048576 / 1 = 1048576 ∧ 1048576 / 1024 = 1024 ∧ 1048576 / 200 = 5242 ∧
  ∀ (x : Presented) (cb cr : Nat), x.keyOn = false → keyAlpha x cb cr = 1024

/-- O17. The crop in force and the report of a changed one. At a frame start every stored crop comes into
force. A channel looks at the marks of the sources it owns before its zone expiries, cues and actions: the
marked source loses its mark, and where it is the placement source one resolution runs, with the default
glide (R58, R86). That a change of an owned source waits as a mark is the model's reading (log entry 17). -/
def Obligations.CropInForceAndReported : Prop :=
  (∀ (s : State) (order : List Chan), s.format ≠ none → ∀ p,
    ((frameStart order s).src p).crop = (s.src p).crop ∧
    ((frameStart order s).src p).cropForce = (s.src p).crop) ∧
  (∀ (s : State) (c : Chan), reportCrops c s = Port.all.foldl (reportCrop c) s) ∧
  (∀ (s : State) (c : Chan) (p : Port),
    ((s.src p).owner ≠ some c ∨ (s.src p).cropReport = false → reportCrop c s p = s) ∧
    ((s.src p).owner = some c → (s.src p).cropReport = true →
      (∀ o, (s.chan c).cur = some o → o.src = p → reportCrop c s p
        = (resolveVisible c (s.chan c).defaultGlide (s.modSrc p (fun x => { x with cropReport := false }))).1) ∧
      ((∀ o, (s.chan c).cur = some o → o.src ≠ p) →
        reportCrop c s p = s.modSrc p (fun x => { x with cropReport := false })))) ∧
  ∀ (f : Format) (s : State) (c : Chan) (p : Port), (s.src p).owner = some c →
    ((chanFrameStart f s c).src p).cropReport = false

/-! ### Channel requests -/

/-- O18. CH_MODE: the refusals, the mode already ahead, a new pending mode, and a change to THRU deferred
for the PREPARED cues (R15, R18, R181); while a change to THRU is deferred, THRU keeps the recorded set,
AUTO cancels it, BYPASS cancels it and is pending (R17, R18). That a replaced change to AUTO reverts the
PREPARED cues also with AUTO in force, and that the mode in force can be pending again, is the model's
reading (log entry 10). -/
def Obligations.ChannelModeJudged : Prop :=
  (∀ (s : State) (ch mode : Byte), s.LinkIdle →
    (3 < ch.toNat → exec (.chMode ch mode) s = .next (s.replying (.chMode ch mode) [0xA0, 0x12])) ∧
    (ch.toNat ≤ 3 → 2 < mode.toNat →
      exec (.chMode ch mode) s = .next (s.replying (.chMode ch mode) [0xA0, 0x12])) ∧
    (ch.toNat ≤ 3 → mode.toNat = 1 ∨ mode.toNat = 2 → s.format = none →
      exec (.chMode ch mode) s = .next (s.replying (.chMode ch mode) [0xA0, 0x1C])) ∧
    ∀ (c : Chan) (m : Mode), chanIdx c = ch.toNat → m.code = mode.toNat → m = .bypass ∨ s.format ≠ none →
      (s.chan c).deferred = none →
      (m = (s.chan c).pendingMode.getD (s.chan c).mode →
        exec (.chMode ch mode) s = .next (s.replying (.chMode ch mode)
          ([0xA0, 0x00] ++ modeFields (s.chan c)))) ∧
      (m ≠ (s.chan c).pendingMode.getD (s.chan c).mode → (s.chan c).pendingMode ≠ some .auto →
        ¬(m = .thru ∧ (s.chan c).mode = .auto ∧ ∃ q ∈ (s.chan c).cues, q.prepared = true) →
        exec (.chMode ch mode) s = .next ((s.modChan c (fun x => { x with pendingMode := some m })).replying
          (.chMode ch mode) [0xA0, 0x00, BitVec.ofNat 8 (s.chan c).mode.code, mode, 0x00])) ∧
      (m ≠ (s.chan c).pendingMode.getD (s.chan c).mode → (s.chan c).pendingMode ≠ some .auto →
        m = .thru → (s.chan c).mode = .auto → (∃ q ∈ (s.chan c).cues, q.prepared = true) →
        exec (.chMode ch mode) s = .next ((s.modChan c (fun x => { x with
            pendingMode := none
            deferred := some ((x.cues.filter (fun q => q.prepared)).map Cue.tag) })).replying
          (.chMode ch mode) [0xA0, 0x02, 0x02, 0xFF, 0x01])) ∧
      (m ≠ .auto → (s.chan c).pendingMode = some .auto →
        ∃ t, exec (.chMode ch mode) s = .next t ∧ (t.chan c).pendingMode = some m ∧
          (t.chan c).deferred = none ∧ (t.chan c).mode = (s.chan c).mode ∧
          (t.chan c).cues.map Cue.tag = (s.chan c).cues.map Cue.tag ∧
          (∀ q ∈ (t.chan c).cues, q.prepared = false) ∧
          t.link = (s.replying (.chMode ch mode)
            [0xA0, 0x00, BitVec.ofNat 8 (s.chan c).mode.code, mode, 0x00]).link)) ∧
  ∀ (s : State) (ch mode : Byte) (c : Chan) (tags : List Nat), s.LinkIdle → chanIdx c = ch.toNat →
    s.format ≠ none → (s.chan c).deferred = some tags →
    (mode.toNat = 1 → exec (.chMode ch mode) s = .next (s.replying (.chMode ch mode)
      ([0xA0, 0x02] ++ modeFields (s.chan c)))) ∧
    (mode.toNat = 2 → exec (.chMode ch mode) s
      = .next ((s.modChan c (fun x => { x with deferred := none })).replying (.chMode ch mode)
          ([0xA0, 0x00] ++ modeFields { s.chan c with deferred := none }))) ∧
    (mode.toNat = 0 → exec (.chMode ch mode) s
      = .next ((s.modChan c (fun x => { x with deferred := none, pendingMode := some .bypass })).replying
          (.chMode ch mode) [0xA0, 0x00, BitVec.ofNat 8 (s.chan c).mode.code, 0x00, 0x00]))

/-- O19. CH_DELAY and CH_SETUP store their values, brought into range, and FAULT_CLEAR empties the fault
record (R10, R94, R109, R181, R189). -/
def Obligations.ChannelValuesStored : Prop :=
  ∀ (s : State) (ch a b e : Byte), s.LinkIdle →
    (3 < ch.toNat →
      exec (.chDelay ch a) s = .next (s.replying (.chDelay ch a) [0xA1, 0x12]) ∧
      exec (.chSetup ch a b e) s = .next (s.replying (.chSetup ch a b e) [0xA2, 0x12]) ∧
      exec (.faultClear ch) s = .next (s.replying (.faultClear ch) [0xD1, 0x12])) ∧
    ∀ c, chanIdx c = ch.toNat →
      exec (.faultClear ch) s
        = .next ((s.modChan c (fun x => { x with fault := none })).replying (.faultClear ch) [0xD1, 0x00]) ∧
      (a.toNat ≤ 20 → exec (.chDelay ch a) s
        = .next ((s.modChan c (fun x => { x with target := a.toNat })).replying (.chDelay ch a)
            [0xA1, 0x00, a, BitVec.ofNat 8 (s.chan c).delay])) ∧
      (20 < a.toNat → exec (.chDelay ch a) s
        = .next ((s.modChan c (fun x => { x with target := 20 })).replying (.chDelay ch a)
            [0xA1, 0x01, 20, BitVec.ofNat 8 (s.chan c).delay])) ∧
      (5 < e.toNat → e ≠ 0xFF →
        exec (.chSetup ch a b e) s = .next (s.replying (.chSetup ch a b e) [0xA2, 0x14])) ∧
      ∀ p : Option Port, portByte p = [e] → ∃ code : Byte, exec (.chSetup ch a b e) s
        = .next ((s.modChan c (fun x => { x with
            defaultGlide := min 250 a.toNat, holdTime := min 250 b.toNat, standby := p })).replying
          (.chSetup ch a b e)
          [0xA2, code, BitVec.ofNat 8 (min 250 a.toNat), BitVec.ofNat 8 (min 250 b.toNat), e]) ∧
        (code = 0x00 ∧ a.toNat ≤ 250 ∧ b.toNat ≤ 250 ∨ code = 0x01 ∧ (250 < a.toNat ∨ 250 < b.toNat))

/-- O20. CH_READ, ZONE_READ, CUE_READ and FAULT_READ report and change nothing; FAULT_READ's occupied record
has 24 bytes, each field at its offset, SAFE_AREA told from a zone by the byte before index and class (R22,
R109, R176, R110, R161, R182, R186, R188, R189). -/
def Obligations.ReadingRequestsChangeNothing : Prop :=
  ∀ (s : State) (ch pos count : Byte), s.LinkIdle →
    (3 < ch.toNat →
      exec (.chRead ch) s = .next (s.replying (.chRead ch) [0xA3, 0x12]) ∧
      exec (.zoneRead ch) s = .next (s.replying (.zoneRead ch) [0xB1, 0x12]) ∧
      exec (.cueRead ch pos count) s = .next (s.replying (.cueRead ch pos count) [0xC2, 0x12]) ∧
      exec (.faultRead ch) s = .next (s.replying (.faultRead ch) [0xD0, 0x12])) ∧
    ∀ c, chanIdx c = ch.toNat →
      exec (.chRead ch) s = .next (s.replying (.chRead ch) ([0xA3, 0x00] ++ channelFields s c)) ∧
      exec (.zoneRead ch) s = .next (s.replying (.zoneRead ch) ([0xB1, 0x00, ch] ++
        (s.chan c).zones.flatMap (zoneFields s.format))) ∧
      (63 < pos.toNat ∨ count.toNat = 0 ∨ 8 < count.toNat →
        exec (.cueRead ch pos count) s = .next (s.replying (.cueRead ch pos count) [0xC2, 0x12])) ∧
      (pos.toNat ≤ 63 → 1 ≤ count.toNat → count.toNat ≤ 8 →
        exec (.cueRead ch pos count) s = .next (s.replying (.cueRead ch pos count)
          ([0xC2, 0x00, BitVec.ofNat 8 (s.chan c).cues.length,
            BitVec.ofNat 8 (((s.chan c).cues.drop pos.toNat).take (min count.toNat 6)).length] ++
           (((s.chan c).cues.drop pos.toNat).take (min count.toNat 6)).flatMap (cueFields s.format)))) ∧
      ((s.chan c).fault = none →
        exec (.faultRead ch) s = .next (s.replying (.faultRead ch) ([0xD0, 0x00] ++ List.replicate 24 0))) ∧
      ∀ r, (s.chan c).fault = some r → ∃ l : List Byte,
        exec (.faultRead ch) s = .next (s.replying (.faultRead ch) l) ∧ l.length = 26 ∧
        numberAt l 0 1 = 0xD0 ∧ numberAt l 1 1 = 0 ∧ numberAt l 2 1 = 1 ∧
        numberAt l 3 4 = r.label % 4294967296 ∧ (l.drop 7).take 5 = timeBytes s.format r.label ∧
        (r.requested = none → numberAt l 12 9 = 0) ∧
        (∀ q, r.requested = some q → numberAt l 12 1 = 1 ∧ numberAt l 13 2 = q.x % 65536 ∧
          numberAt l 15 2 = q.y % 65536 ∧ numberAt l 17 2 = q.w % 65536 ∧ numberAt l 19 2 = q.h % 65536) ∧
        (r.blocking = none → numberAt l 21 1 = 1 ∧ numberAt l 22 2 = 0) ∧
        (∀ i cls, r.blocking = some (i, cls) → numberAt l 21 1 = 0 ∧ numberAt l 22 1 = i % 256 ∧
          numberAt l 23 1 = (match cls with | .hard => 0 | .soft => 1)) ∧
        numberAt l 24 1 = (match r.outcome with
          | .asRequested => 1 | .moved => 2 | .shrunk => 3 | .softCovered => 4 | .heldPlace => 5
          | .forcedOut => 6) ∧
        numberAt l 25 1 = r.more % 256

/-- O21. CH_READ's reply is laid out as R182 says: 180 bytes, each field at its offset, absent items as 0
after a present byte of 0 or an index of 0xFF. The shown placement is the one in force since the latest
frame start that changed it (R37, R95, R136, R162, R176, R182). That a fade paused in HELD is reported as
running is the model's reading (log entry 29), and that a width over 65,535 is sent as its low 16 bits its
choice (log entry 39). -/
def Obligations.ChannelReportLaidOut : Prop :=
  ∀ (s : State) (c : Chan) (l : List Byte), l = [0xA3, 0x00] ++ channelFields s c →
    l.length = 180 ∧ numberAt l 2 1 = chanIdx c ∧
    numberAt l 3 1 = (match (s.chan c).mode with | .bypass => 0 | .thru => 1 | .auto => 2) ∧
    numberAt l 4 1 = (match (s.chan c).pendingMode with
      | none => 255 | some .bypass => 0 | some .thru => 1 | some .auto => 2) ∧
    ((s.chan c).deferred = none → numberAt l 5 1 = 0 ∧ numberAt l 6 1 = 0) ∧
    (∀ tags, (s.chan c).deferred = some tags → numberAt l 5 1 = 1 ∧ numberAt l 6 1 = tags.length % 256) ∧
    numberAt l 7 1 = (match (s.chan c).relay with | .bypass => 0 | .processed => 1) ∧
    numberAt l 8 1 = (match (s.chan c).pgm with | .waiting => 0 | .present => 1 | .lost => 2) ∧
    numberAt l 9 1 = (s.chan c).target % 256 ∧ numberAt l 10 1 = (s.chan c).delay % 256 ∧
    numberAt l 11 1 = (s.chan c).slew % 256 ∧ numberAt l 12 4 = (s.chan c).label % 4294967296 ∧
    (l.drop 16).take 5 = timeBytes s.format (s.chan c).label ∧
    numberAt l 21 1 = (match (s.chan c).track with | .locked => 0 | .flywheel => 1 | .lost => 2) ∧
    numberAt l 22 2 = (s.chan c).flywheel % 65536 ∧
    numberAt l 24 1 = (if (s.chan c).owed then 1 else 0) ∧
    numberAt l 25 1 = (match (s.chan c).sel.status with | .valid => 0 | .absent => 1 | .invalid => 2) ∧
    ((∀ x, (s.chan c).sel.frame = some x → x.word = none) → numberAt l 26 6 = 0) ∧
    (∀ x w, (s.chan c).sel.frame = some x → x.word = some w → (l.drop 26).take 6
      = [w.h, w.m, w.s, w.ff, if w.pair then 1 else 0, if w.drop then 1 else 0]) ∧
    (l.drop 32).take 12 = blockBytes s.format (s.chan c).requested ∧
    numberAt l 44 1 = (s.chan c).stack.length % 256 ∧
    (∀ i b, i < 4 → (s.chan c).stack[i]? = some b →
      (l.drop (45 + 12 * i)).take 12 = blockBytes s.format b) ∧
    (∀ i, (s.chan c).stack.length ≤ i → i < 4 → (l.drop (45 + 12 * i)).take 12 = List.replicate 12 0) ∧
    ((s.chan c).resolved = none → numberAt l 93 9 = 0) ∧
    (∀ r, (s.chan c).resolved = some r → numberAt l 93 1 = 1 ∧ numberAt l 94 2 = r.x % 65536 ∧
      numberAt l 96 2 = r.y % 65536 ∧ numberAt l 98 2 = r.w % 65536 ∧ numberAt l 100 2 = r.h % 65536) ∧
    numberAt l 102 1 = (match (s.chan c).outcome with
      | none => 0 | some .asRequested => 1 | some .moved => 2 | some .shrunk => 3 | some .softCovered => 4
      | some .heldPlace => 5 | some .forcedOut => 6) ∧
    ((s.chan c).displayed = none → numberAt l 103 9 = 0) ∧
    (∀ r, (s.chan c).displayed = some r → numberAt l 103 1 = 1 ∧ numberAt l 104 2 = r.x % 65536 ∧
      numberAt l 106 2 = r.y % 65536 ∧ numberAt l 108 2 = r.w % 65536 ∧ numberAt l 110 2 = r.h % 65536) ∧
    ((s.chan c).glide = none → numberAt l 112 9 = 0) ∧
    (∀ g, (s.chan c).glide = some g → numberAt l 112 1 = 1 ∧ numberAt l 113 2 = g.target.x % 65536 ∧
      numberAt l 115 2 = g.target.y % 65536 ∧ numberAt l 117 2 = g.target.h % 65536 ∧
      numberAt l 119 1 = g.count % 256 ∧ numberAt l 120 1 = g.step % 256) ∧
    numberAt l 121 1 = (s.chan c).defaultGlide % 256 ∧
    numberAt l 122 1 = (match (s.chan c).inset with
      | .hidden => 0 | .fadingIn => 1 | .shown => 2 | .fadingOut => 3 | .crossfade => 4 | .held => 5
      | .forcedOut => 6) ∧
    numberAt l 123 1 = (match (s.chan c).paused with | none => 0 | some .fadingIn => 1 | some .shown => 2) ∧
    numberAt l 124 1 = (if (s.chan c).exitMark then 1 else 0) ∧
    (∀ k on, k = 125 ∧ on = (s.chan c).cur ∨ k = 133 ∧ on = (s.chan c).out →
      (on = none → numberAt l k 1 = 255 ∧ numberAt l (k + 1) 7 = 0) ∧
      ∀ o, on = some o → numberAt l k 1 = portIdx o.src ∧ numberAt l (k + 1) 2 = o.level % 65536 ∧
        (o.fade = none → numberAt l (k + 3) 5 = 0) ∧
        ∀ fd, o.fade = some fd → numberAt l (k + 3) 1 = 1 ∧ numberAt l (k + 4) 2 = fd.target % 65536 ∧
          numberAt l (k + 6) 1 = fd.count % 256 ∧ numberAt l (k + 7) 1 = fd.step % 256) ∧
    ((s.chan c).outRect = none → numberAt l 141 8 = 0) ∧
    (∀ r, (s.chan c).outRect = some r → numberAt l 141 2 = r.x % 65536 ∧ numberAt l 143 2 = r.y % 65536 ∧
      numberAt l 145 2 = r.w % 65536 ∧ numberAt l 147 2 = r.h % 65536) ∧
    numberAt l 149 1 = (s.chan c).holdCount % 256 ∧ numberAt l 150 1 = (s.chan c).holdTime % 256 ∧
    (∀ k on, k = 151 ∧ on = (s.chan c).home ∨ k = 152 ∧ on = (s.chan c).standby →
      (on = none → numberAt l k 1 = 255) ∧ ∀ p, on = some p → numberAt l k 1 = portIdx p) ∧
    (s.spare.hasIt c = false → numberAt l 153 1 = 0 ∧ numberAt l 154 1 = 0) ∧
    (∀ k, s.spare = .held c k → numberAt l 153 1 = (if Claimant.crossfade ∈ k then 2 else 1) ∧
      numberAt l 154 1 = k.length % 256) ∧
    numberAt l 155 1 = (s.chan c).cues.length % 256 ∧
    numberAt l 156 1 = ((s.chan c).cues.filter (fun q => q.prepared)).length % 256 ∧
    numberAt l 157 2 = (s.chan c).fired.toNat ∧ numberAt l 159 2 = (s.chan c).failed.toNat ∧
    numberAt l 161 2 = (s.chan c).missed.toNat ∧ numberAt l 163 2 = (s.chan c).removed.toNat ∧
    ((s.chan c).lastFailure = none → numberAt l 165 9 = 0) ∧
    (∀ x, (s.chan c).lastFailure = some x → numberAt l 165 1 = 1 ∧ numberAt l 166 2 = x.tag % 65536 ∧
      numberAt l 168 1 = (match x.reason with
        | .sourceBusy => 0x18 | .sourceNotReady => 0x19 | .noHome => 0x1A | .wrongState => 0x1B
        | .emptyStack => 0x1E | .noZone => 0x1F) ∧
      numberAt l 169 1 = x.action.code ∧ numberAt l 170 4 = x.label % 4294967296) ∧
    ((s.chan c).lastMarker = none → numberAt l 174 6 = 0) ∧
    (∀ x, (s.chan c).lastMarker = some x → numberAt l 174 1 = 1 ∧ numberAt l 175 1 = x.code % 256 ∧
      numberAt l 176 4 = x.label % 4294967296)

/-- O22. The records of the reading replies: an entry of ZONE_READ (R186), a record of CUE_READ with its
action part (R188, R175), a placement block (R174) and a label's timecode (R22). -/
def Obligations.RecordsLaidOut : Prop :=
  (∀ (fmt : Option Format) (z : Zone) (l : List Byte), l = zoneFields fmt z →
    l.length = 19 ∧
    (z.defined = false → numberAt l 0 1 = 0) ∧
    (z.defined = true → z.active = false → numberAt l 0 1 = 1) ∧
    (z.defined = true → z.active = true →
      (z.expiry = none → numberAt l 0 1 = 2) ∧
      ∀ d, z.expiry = some d → numberAt l 0 1 = (if d.next then 4 else 3)) ∧
    numberAt l 1 1 = (match z.cls with | .hard => 0 | .soft => 1) ∧
    numberAt l 2 2 = z.rect.x % 65536 ∧ numberAt l 4 2 = z.rect.y % 65536 ∧
    numberAt l 6 2 = z.rect.w % 65536 ∧ numberAt l 8 2 = z.rect.h % 65536 ∧
    (z.expiry = none → numberAt l 10 9 = 0) ∧
    ∀ d, z.expiry = some d →
      numberAt l 10 4 = d.label % 4294967296 ∧ (l.drop 14).take 5 = timeBytes fmt d.label) ∧
  (∀ (fmt : Option Format) (q : Cue) (l : List Byte), l = cueFields fmt q →
    l.length = 35 ∧ numberAt l 0 2 = q.tag % 65536 ∧ (l.drop 2).take 5 = timeBytes fmt q.date.label ∧
    numberAt l 7 1 = (if q.date.next then 1 else 0) ∧ (l.drop 8).take 20 = actionBytes fmt q.action ∧
    numberAt l 28 4 = q.date.label % 4294967296 ∧ numberAt l 32 1 = (if q.prepared then 1 else 0) ∧
    numberAt l 33 1 = (if q.late then 1 else 0) ∧
    numberAt l 34 1 = (match q.claim with | .notAsked => 0 | .granted => 1 | .refused => 2)) ∧
  (∀ (fmt : Option Format) (n : Nat) (p : Port) (b : Block) (g : Nat) (d : Dated),
    actionBytes fmt (.showInset none n) = [1, 0, 0, BitVec.ofNat 8 n] ++ List.replicate 16 0 ∧
    actionBytes fmt (.showInset (some p) n)
      = [1, 1, BitVec.ofNat 8 (portIdx p), BitVec.ofNat 8 n] ++ List.replicate 16 0 ∧
    actionBytes fmt (.hide n) = [2, BitVec.ofNat 8 n] ++ List.replicate 18 0 ∧
    actionBytes fmt (.handover p n)
      = [3, BitVec.ofNat 8 (portIdx p), BitVec.ofNat 8 n] ++ List.replicate 17 0 ∧
    actionBytes fmt (.place b none) = [4] ++ blockBytes fmt b ++ List.replicate 7 0 ∧
    actionBytes fmt (.place b (some g))
      = [4] ++ blockBytes fmt b ++ [1, BitVec.ofNat 8 g] ++ List.replicate 5 0 ∧
    actionBytes fmt (.push b none) = [5] ++ blockBytes fmt b ++ List.replicate 7 0 ∧
    actionBytes fmt (.push b (some g))
      = [5] ++ blockBytes fmt b ++ [1, BitVec.ofNat 8 g] ++ List.replicate 5 0 ∧
    actionBytes fmt (.pop none) = [6] ++ List.replicate 19 0 ∧
    actionBytes fmt (.pop (some g)) = [6, 1, BitVec.ofNat 8 g] ++ List.replicate 17 0 ∧
    actionBytes fmt (.zone n false none) = [7, BitVec.ofNat 8 n] ++ List.replicate 18 0 ∧
    actionBytes fmt (.zone n true none) = [7, BitVec.ofNat 8 n, 1] ++ List.replicate 17 0 ∧
    actionBytes fmt (.zone n true (some d)) = [7, BitVec.ofNat 8 n, 1, 1] ++ timeBytes fmt d.label ++
      [if d.next then 1 else 0] ++ List.replicate 10 0 ∧
    actionBytes fmt (.mark n) = [8, BitVec.ofNat 8 n] ++ List.replicate 18 0 ∧
    actionBytes fmt (.standby none) = [9] ++ List.replicate 19 0 ∧
    actionBytes fmt (.standby (some p)) = [9, 1, BitVec.ofNat 8 (portIdx p)] ++ List.replicate 17 0) ∧
  (∀ (fmt : Option Format) (b : Block) (l : List Byte), l = blockBytes fmt b →
    l.length = 12 ∧ (∀ a, anchorOf (numberAt l 0 1) = some a ↔ a = b.anchor) ∧
    (∀ h, b.height = some h → numberAt l 1 1 = 0 ∧ numberAt l 2 2 = h % 65536) ∧
    (b.height = none → numberAt l 1 1 = 1 ∧ (fmt = none → numberAt l 2 2 = 0) ∧
      ∀ f, fmt = some f → numberAt l 2 2 = (if f.height = 1080 then 432 else 288)) ∧
    numberAt l 4 2 = b.fx % 65536 ∧ numberAt l 6 2 = b.fy % 65536 ∧
    numberAt l 8 1 = b.fallbacks.length % 256 ∧
    (∀ i a, i < 3 → b.fallbacks[i]? = some a → anchorOf (numberAt l (9 + i) 1) = some a) ∧
    ∀ i, b.fallbacks.length ≤ i → i < 3 → numberAt l (9 + i) 1 = 0) ∧
  ∀ (f : Format) (n : Nat), timeBytes none n = List.replicate 5 0 ∧
    (n < f.day → ∃ w : TcWord, wordValid f w = true ∧ wordLabel f w = n ∧
      (f.rate / f.base = 1 → w.pair = false) ∧
      timeBytes (some f) n = [w.h, w.m, w.s, w.ff, if w.pair then 1 else 0])

/-- O23. CH_CLEAR: refused in and before AUTO; otherwise the channel's inset, lists, tables and stack are
dropped, and its mode, path, tracker and setup stand. Its sources are let go with SOURCE_CHANGE, its claims
on the spare leave, and what belongs to the other channels stands (R45, R49, R132, R135, R183). An inset
that enters HIDDEN has no source, fade, outgoing rectangle, shown or resolved placement, glide or paused
state, hold count 0 and the exit mark clear (R76, R90, R112). -/
def Obligations.ChannelClearDropsEverything : Prop :=
  (∀ x : Channel, x.hide = { x with
    inset := .hidden, cur := none, out := none, outRect := none, shown := none, displayed := none
    glide := none, paused := none, holdCount := 0, exitMark := false, resolved := none }) ∧
  ∀ (s : State) (ch : Byte), s.LinkIdle →
    (3 < ch.toNat → exec (.chClear ch) s = .next (s.replying (.chClear ch) [0xA4, 0x12])) ∧
    ∀ c, chanIdx c = ch.toNat →
      ((s.chan c).mode = .auto ∨ (s.chan c).pendingMode = some .auto →
        exec (.chClear ch) s = .next (s.replying (.chClear ch) [0xA4, 0x13])) ∧
      ((s.chan c).mode ≠ .auto → (s.chan c).pendingMode ≠ some .auto → s.Lawful →
        ∃ t, exec (.chClear ch) s = .next t ∧
          t.link = (s.replying (.chClear ch) [0xA4, 0x00]).link ∧
          t.chan c = { (s.chan c).hide with
            home := none, standby := none, waiting := [], cues := [], fired := 0, failed := 0, missed := 0,
            removed := 0, lastFailure := none, lastMarker := none, deferred := none, heldBack := false,
            zones := List.replicate 12 Zone.undefined, fault := none, requested := Block.default, stack := [],
            outcome := none } ∧
          (∀ d, d ≠ c → t.chan d = s.chan d) ∧ (∀ p, (t.src p).owner ≠ some c) ∧
          (∀ p, (s.src p).owner ≠ some c → t.src p = s.src p) ∧
          (∀ p, (s.src p).owner = some c →
            ((s.src p).state = .taken ∨ (s.src p).state = .releasing →
              t.src p = { s.src p with
                state := .ready, owner := none, cropReport := false
                ring := { (s.src p).ring with inUse := none } }) ∧
            ((s.src p).state = .lost →
              t.src p = { s.src p with
                state := if s.hasSignal p then .detecting else .absent
                owner := none, cropReport := false, ring := Ring.empty
                inRun := 0, outRun := 0, goodRun := 0, badRun := 0, rasterMark := false })) ∧
          t.spare = (if s.spare.hasIt c then .free else s.spare) ∧ t.spare.hasIt c = false ∧
          ((∃ p, (s.src p).owner = some c) → t.notices = (raiseCard .sourceChange s).notices) ∧
          ((∀ p, (s.src p).owner ≠ some c) → t.notices = s.notices) ∧
          t.format = s.format ∧ t.ref = s.ref ∧ t.now = s.now ∧ t.pending = s.pending)

/-- O24. CH_TAKE: the refusals in their order, a refused action, and an action that joins the waiting list
with its request for the spare; id 1 is the first of the list (R134, R184, R185). That an action joins a
list of 20 or more as well is the model's choice (log entry 21), and OK_CLAMPED follows its reading of a
block's values (log entry 20). The byte of each refusal is the value that CueJudgedInOrder gives it (R172).
-/
def Obligations.ChannelTakeJudged : Prop :=
  ∀ (s : State) (ch : Byte) (part : List Byte), s.LinkIdle →
    (s.format = none → exec (.chTake ch part) s = .next (s.replying (.chTake ch part) [0xA5, 0x1C])) ∧
    ∀ f, s.format = some f →
      (3 < ch.toNat → exec (.chTake ch part) s = .next (s.replying (.chTake ch part) [0xA5, 0x12])) ∧
      ∀ c, chanIdx c = ch.toNat →
        ((s.chan c).pendingMode.getD (s.chan c).mode = .bypass →
          exec (.chTake ch part) s = .next (s.replying (.chTake ch part) [0xA5, 0x13])) ∧
        ((s.chan c).pendingMode.getD (s.chan c).mode ≠ .bypass →
          (∀ e, actionOf f part = .error e →
            exec (.chTake ch part) s = .next (s.replying (.chTake ch part) [0xA5, e.value])) ∧
          ∀ a, actionOf f part = .ok a →
            (∀ e, takeRefusal c a (s.hearing (.request (.chTake ch part))) = some e →
              exec (.chTake ch part) s = .next (s.replying (.chTake ch part) [0xA5, e.value])) ∧
            (takeRefusal c a (s.hearing (.request (.chTake ch part))) = none →
              ∃ (code : Byte) (ans : SpareAns) (sp : Spare),
                exec (.chTake ch part) s = .next (State.replying { s.modChan c (fun x => { x with
                    waiting := x.waiting ++ [⟨x.waiting.length, a, ans⟩] }) with spare := sp }
                  (.chTake ch part)
                  [0xA5, code, BitVec.ofNat 8 ans.code, BitVec.ofNat 8 ((s.chan c).waiting.length + 1),
                   BitVec.ofNat 8 (s.chan c).stack.length]) ∧
                code = (if takeClamped f c part a s then 0x01 else 0x00) ∧
                (a.asksSpare = false → ans = .notAsked ∧ sp = s.spare) ∧
                (a.asksSpare = true →
                  (sp, ans) = s.spare.request c (.take (s.chan c).waiting.length))))

/-- O25. What CH_TAKE's last test answers: MARK and HIDE always pass, SHOW without a source and without a
home source is refused, POP on an empty stack passes, SHOW and HANDOVER are judged by the inset state and
the source they name (R118, R120, R121, R141, R184). When a passed action is answered
OK_CLAMPED: a count or glide above 250, an odd given height, a stored height outside the admissible ones,
a FREE position that R81 would move (R79, R184); that a default height is judged as the height it stands
for is the model's reading (log entry 20). -/
def Obligations.TakeRefusalsByAction : Prop :=
  (∀ (s : State) (c : Chan),
    (∀ n, takeRefusal c (.mark n) s = none) ∧ (∀ n, takeRefusal c (.hide n) s = none) ∧
    (∀ b g, takeRefusal c (.place b g) s = none) ∧ (∀ b g, takeRefusal c (.push b g) s = none) ∧
    (∀ g, takeRefusal c (.pop g) s = none) ∧ (∀ p, takeRefusal c (.standby p) s = none) ∧
    (∀ i e, takeRefusal c (.zone i false e) s = none) ∧
    (∀ i e, takeRefusal c (.zone i true e) s
      = if (zoneAt (s.chan c).zones i).defined then none else some .noSuch) ∧
    ((s.chan c).home = none → ∀ n, takeRefusal c (.showInset none n) s = some .noHome) ∧
    ((s.chan c).inset = .held → ∀ p n, takeRefusal c (.showInset (some p) n) s = some .wrongState) ∧
    ((s.chan c).inset = .hidden → ∀ p n, (s.src p).state = .ready →
      takeRefusal c (.showInset (some p) n) s = none ∧ takeRefusal c (.handover p n) s = none) ∧
    ((s.chan c).inset = .hidden → ∀ p n, (s.src p).state = .detecting →
      takeRefusal c (.showInset (some p) n) s = some .sourceNotReady ∧
      takeRefusal c (.handover p n) s = some .sourceNotReady) ∧
    ∀ (o : OnAir) (p : Port) (n : Nat), (s.chan c).cur = some o →
      ((s.chan c).inset = .fadingIn ∨ (s.chan c).inset = .shown ∨ (s.chan c).inset = .crossfade ∨
          (s.chan c).inset = .forcedOut →
        takeRefusal c (.showInset (some p) n) s = if o.src = p then none else some .wrongState) ∧
      ((s.chan c).inset = .fadingOut →
        (o.src ≠ p → takeRefusal c (.showInset (some p) n) s = some .wrongState) ∧
        (o.src = p → (s.src p).owner = some c →
          ((s.src p).state = .releasing → takeRefusal c (.showInset (some p) n) s = none) ∧
          ((s.src p).state = .lost → takeRefusal c (.showInset (some p) n) s = some .sourceNotReady))) ∧
      ((s.chan c).inset ≠ .hidden →
        (o.src = p ∨ (s.chan c).inset = .crossfade ∧ (∃ u, (s.chan c).out = some u ∧ u.src = p) →
          takeRefusal c (.handover p n) s = none) ∧
        (o.src ≠ p → ((s.chan c).inset = .crossfade → ∀ u, (s.chan c).out = some u → u.src ≠ p) →
          ((s.src p).state = .ready → takeRefusal c (.handover p n) s = none) ∧
          ((s.src p).state = .absent ∨ (s.src p).state = .detecting ∨ (s.src p).state = .rejected →
            takeRefusal c (.handover p n) s = some .sourceNotReady) ∧
          ((s.src p).state = .taken ∨ (s.src p).state = .lost ∨ (s.src p).state = .releasing →
            (s.src p).owner ≠ some c → takeRefusal c (.handover p n) s = some .sourceBusy)))) ∧
  ∀ (s : State) (f : Format) (c : Chan) (part : List Byte) (a : Action) (code : Nat),
    code = (byteAt part 0).toNat →
    ((∀ b g, a ≠ .place b g ∧ a ≠ .push b g) → code ≠ 4 → code ≠ 5 →
      (takeClamped f c part a s = true ↔
        code = 1 ∧ 250 < (byteAt part 3).toNat ∨ code = 2 ∧ 250 < (byteAt part 1).toNat ∨
        code = 3 ∧ 250 < (byteAt part 2).toNat ∨
        code = 6 ∧ (byteAt part 1).toNat = 1 ∧ 250 < (byteAt part 2).toNat)) ∧
    ∀ (b : Block) (g : Option Nat) (h : Nat), (a = .place b g ∨ a = .push b g) → code = 4 ∨ code = 5 →
      h = b.height.getD (if f.height = 1080 then 432 else 288) → h % 2 = 0 →
      (∀ o r, (s.chan c).cur = some o → r = cropRect f (s.src o.src).cropForce →
        (takeClamped f c part a s = true ↔
          (byteAt part 13).toNat = 1 ∧ 250 < (byteAt part 14).toNat ∨
          (byteAt part 2).toNat = 0 ∧ (byteAt part 4).toNat % 2 = 1 ∨
          h < heightMin r.h ∨ heightMax f r.w r.h < h ∨
          b.anchor = .free ∧ (b.fx % 2 = 1 ∨ b.fx < f.safe.x ∨
            f.safe.x + f.safe.w < b.fx + derivedWidth r.w r.h h ∨ b.fy < f.safe.y ∨
            f.safe.y + f.safe.h < b.fy + h))) ∧
      ((s.chan c).cur = none →
        (takeClamped f c part a s = true ↔
          (byteAt part 13).toNat = 1 ∧ 250 < (byteAt part 14).toNat ∨
          (byteAt part 2).toNat = 0 ∧ (byteAt part 4).toNat % 2 = 1 ∨
          b.anchor = .free ∧ (b.fx % 2 = 1 ∨ b.fx < f.safe.x ∨ f.safe.x + f.safe.w ≤ b.fx ∨
            b.fy < f.safe.y ∨ f.safe.y + f.safe.h ≤ b.fy)))

/-! ### Zones, cues and faults -/

/-- O26. ZONE_DEFINE and ZONE_UNDEFINE: the refusals in the order of R98, the entry changed, and at most one
resolution, with the default glide, whose outcome the reply carries; what it makes of inset, fault record
and notices is that of ResolutionIsHandedOn, at once, while the shown placement that CH_READ reports stands
until the next frame start (R95, R98, R99, R101, R186). That the engine goes on from the new place in the
meantime is the model's reading (log entry 43). -/
def Obligations.ZoneDefineChangesOneEntry : Prop :=
  ∀ (s : State) (i : Instr) (op : Byte) (m : ZoneMsg), s.LinkIdle →
    (i = .zoneDefine m ∧ op = 1 ∨ ∃ ch zone, i = .zoneUndefine ch zone ∧ op = 0 ∧ m = undefineMsg ch zone) →
    (s.format = none → exec i s = .next (s.replying (.zoneDefine op m) [0xB0, 0x1C])) ∧
    ∀ f, s.format = some f →
      (3 < m.ch.toNat → exec i s = .next (s.replying (.zoneDefine op m) [0xB0, 0x12])) ∧
      ∀ c, chanIdx c = m.ch.toNat →
        (11 < m.zone.toNat → exec i s = .next (s.replying (.zoneDefine op m) [0xB0, 0x14])) ∧
        (m.zone.toNat ≤ 11 →
          (zoneAfter f op m (zoneAt (s.chan c).zones m.zone.toNat) = none →
            exec i s = .next (s.replying (.zoneDefine op m) [0xB0, 0x12])) ∧
          ∀ z, zoneAfter f op m (zoneAt (s.chan c).zones m.zone.toNat) = some z →
            ((s.chan c).inset = .hidden ∨ (s.chan c).cur = none ∨
                activeView ((s.chan c).zones.set m.zone.toNat z) = activeView (s.chan c).zones →
              exec i s = .next ((s.modChan c (fun x => { x with zones := x.zones.set m.zone.toNat z })).replying
                (.zoneDefine op m) [0xB0, 0x00, 0x00])) ∧
            ∀ o, (s.chan c).inset ≠ .hidden → (s.chan c).cur = some o →
              activeView ((s.chan c).zones.set m.zone.toNat z) ≠ activeView (s.chan c).zones →
              ∃ (t u : State) (res : Resolution), exec i s = .next t ∧
                u = (resolveVisible c (s.chan c).defaultGlide
                  (s.modChan c (fun x => { x with zones := x.zones.set m.zone.toNat z }))).1 ∧
                t.chan c = u.chan c ∧ (∀ p, t.src p = u.src p) ∧ t.spare = u.spare ∧ t.notices = u.notices ∧
                res = resolve f (cropRect f (s.src o.src).cropForce) (s.chan c).requested
                  ((s.chan c).zones.set m.zone.toNat z) (s.chan c).resolved ∧
                (t.chan c).zones = (s.chan c).zones.set m.zone.toNat z ∧
                (t.chan c).resolved = res.rect ∧ (t.chan c).outcome = some res.outcome ∧
                (t.chan c).displayed = (s.chan c).displayed ∧
                t.link = (s.replying (.zoneDefine op m)
                  [0xB0, 0x00, BitVec.ofNat 8 res.outcome.code]).link)

/-- O27. What a ZONE_DEFINE leaves of its entry, and the fields for which it is refused (R98, R99); that a
pair flag or next-day mark other than 0 or 1 in an expiry is refused is the model's reading (log entry
26). -/
def Obligations.ZoneEntryByActivity : Prop :=
  (∀ (f : Format) (m : ZoneMsg) (old : Zone) (cls : ZoneClass), cls.code = m.cls.toNat →
    0 < m.w.toNat → 0 < m.h.toNat → m.x.toNat + m.w.toNat ≤ f.width → m.y.toNat + m.h.toNat ≤ f.height →
    (m.activity.toNat = 0 → m.expPresent.toNat = 0 → zoneAfter f 1 m old
      = some ⟨true, ⟨m.x.toNat, m.y.toNat, m.w.toNat, m.h.toNat⟩, cls, old.active, old.expiry⟩) ∧
    (m.activity.toNat = 1 → m.expPresent.toNat = 0 → zoneAfter f 1 m old
      = some ⟨true, ⟨m.x.toNat, m.y.toNat, m.w.toNat, m.h.toNat⟩, cls, true, none⟩) ∧
    (m.activity.toNat = 1 → m.expPresent.toNat = 1 → hostLabelOk f m.expiry = true → zoneAfter f 1 m old
      = some ⟨true, ⟨m.x.toNat, m.y.toNat, m.w.toNat, m.h.toNat⟩, cls, true, some (datedOf f m.expiry)⟩) ∧
    (m.activity.toNat = 2 → m.expPresent.toNat = 0 → zoneAfter f 1 m old
      = some ⟨true, ⟨m.x.toNat, m.y.toNat, m.w.toNat, m.h.toNat⟩, cls, false, none⟩) ∧
    (m.activity.toNat ≠ 1 → m.expPresent.toNat = 1 → zoneAfter f 1 m old = none) ∧
    zoneAfter f 0 m old = some ⟨false, ⟨0, 0, 0, 0⟩, .hard, false, none⟩) ∧
  ∀ (f : Format) (m : ZoneMsg) (old : Zone),
    (m.w.toNat = 0 ∨ m.h.toNat = 0 ∨ f.width < m.x.toNat + m.w.toNat ∨ f.height < m.y.toNat + m.h.toNat ∨
        1 < m.cls.toNat ∨ 2 < m.activity.toNat ∨ 1 < m.expPresent.toNat ∨
        m.expPresent.toNat = 1 ∧ m.activity.toNat ≠ 1 ∨
        m.expPresent.toNat = 1 ∧ (24 ≤ m.expiry.h.toNat ∨ 60 ≤ m.expiry.m.toNat ∨ 60 ≤ m.expiry.s.toNat ∨
          f.base ≤ m.expiry.ff.toNat ∨ 1 < m.expiry.pair.toNat ∨ 1 < m.expiry.next.toNat) →
      zoneAfter f 1 m old = none) ∧
    ∀ op : Byte, 1 < op.toNat → zoneAfter f op m old = none

/-- O28. CUE_LOAD: the refusals of the whole, a first record refused with nothing accepted, one record
accepted in the state of R143 with the hand-ons of R144, and a longer load record by record: the first that
fails ends it, and the count is of those accepted before it (R140, R143, R144, R187). The mark of a cue
accepted in the late window of a LOST is the model's own (log entry 13). The byte of each refusal is the
value that CueJudgedInOrder gives it (R172). -/
def Obligations.CueLoadAcceptsOrRefuses : Prop :=
  ∀ (s : State) (ch : Byte) (r : CueRec) (rs : List CueRec), s.LinkIdle →
    (s.format = none → exec (.cueLoad ch (r :: rs)) s
      = .next (s.replying (.cueLoad ch (r :: rs)) [0xC0, 0x1C, 0x00])) ∧
    ∀ f, s.format = some f →
      (3 < ch.toNat → exec (.cueLoad ch (r :: rs)) s
        = .next (s.replying (.cueLoad ch (r :: rs)) [0xC0, 0x12, 0x00])) ∧
      ∀ c, chanIdx c = ch.toNat →
        (∀ e, judgeCue f (s.chan c) r = .error e → exec (.cueLoad ch (r :: rs)) s
          = .next (s.replying (.cueLoad ch (r :: rs)) [0xC0, e.value, 0x00])) ∧
        (∀ a, judgeCue f (s.chan c) r = .ok a →
          ∃ (q : Cue) (sp : Spare),
            exec (.cueLoad ch [r]) s = .next (State.replying { s.modChan c (fun x => { x with
                cues := insertCue q x.cues }) with spare := sp } (.cueLoad ch [r]) [0xC0, 0x00, 0x01]) ∧
            q.tag = r.tag.toNat ∧ q.date = datedOf f r.label ∧ q.action = a ∧
            (∀ x ∈ (s.chan c).cues, x.seq < q.seq) ∧
            (q.prepared = true ↔ (s.chan c).pendingMode.getD (s.chan c).mode = .auto ∧
              (s.chan c).track ≠ .lost ∧ q.date.next = false ∧ q.date.label ≤ (s.chan c).label + 2) ∧
            (q.late = true ↔ q.prepared = true ∧ q.date.label ≤ (s.chan c).label) ∧
            (q.lostLate = true ↔ (s.chan c).track = .lost ∧ q.date.next = false ∧
              q.date.label ≤ (s.chan c).label) ∧
            (q.prepared = true → a.asksSpare = true → (sp, q.claim) = s.spare.request c (.cue r.tag.toNat)) ∧
            (¬(q.prepared = true ∧ a.asksSpare = true) → sp = s.spare ∧ q.claim = .notAsked)) ∧
        ∀ (l : List CueRec) (u : State), u.LinkIdle →
          exec (.cueLoad ch l) s
            = .next (u.replying (.cueLoad ch l) [0xC0, 0x00, BitVec.ofNat 8 l.length]) →
          (∀ e, judgeCue f (u.chan c) r = .error e → exec (.cueLoad ch (l ++ r :: rs)) s
            = .next (u.replying (.cueLoad ch (l ++ r :: rs)) [0xC0, e.value, BitVec.ofNat 8 l.length])) ∧
          ∀ (a : Action) (v : State), judgeCue f (u.chan c) r = .ok a →
            exec (.cueLoad ch [r]) u = .next (v.replying (.cueLoad ch [r]) [0xC0, 0x00, 0x01]) →
            exec (.cueLoad ch (l ++ [r])) s = .next (v.replying (.cueLoad ch (l ++ [r]))
              [0xC0, 0x00, BitVec.ofNat 8 (l.length + 1)])

/-- O29. A cue record is judged by the tests of R141 in their order. What its action part spells, and which
of tests 3, 4 and 5 refuses it, is said by the bytes of each action code, counts and glides held at 250 and
a height even-floored (R142, R174, R175); CH_TAKE's part is read so too. A label the host gives is in range,
and counted, as R21 and R22 say. The result codes have the values of R172. That a source byte is tested
before a wrong presence byte, and that a wrong pair flag or next-day mark of an expiry is refused, is the
model's reading (log entry 26). -/
def Obligations.CueJudgedInOrder : Prop :=
  (∀ (f : Format) (ch : Channel) (r : CueRec),
    (r.tag = 0 → judgeCue f ch r = .error .badField) ∧
    (r.tag ≠ 0 → hostLabelOk f r.label = false → judgeCue f ch r = .error .badField) ∧
    (r.tag ≠ 0 → hostLabelOk f r.label = true →
      (∀ e, actionOf f r.part = .error e → judgeCue f ch r = .error e) ∧
      ∀ a, actionOf f r.part = .ok a →
        ((∃ q ∈ ch.cues, q.tag = r.tag.toNat) → judgeCue f ch r = .error .dupTag) ∧
        ((∀ q ∈ ch.cues, q.tag ≠ r.tag.toNat) →
          ((datedOf f r.label).next = false → (datedOf f r.label).label + f.rate ≤ ch.label →
            judgeCue f ch r = .error .tooLate) ∧
          ((datedOf f r.label).next = true ∨ ch.label < (datedOf f r.label).label + f.rate →
            (64 ≤ ch.cues.length → judgeCue f ch r = .error .listFull) ∧
            (ch.cues.length < 64 → judgeCue f ch r = .ok a))))) ∧
  (∀ e : ResultCode, e.value = match e with
    | .ok => 0x00#8 | .okClamped => 0x01#8 | .deferred => 0x02#8 | .unknownKind => 0x10#8 | .badLength => 0x11#8
    | .badField => 0x12#8 | .wrongMode => 0x13#8 | .noSuch => 0x14#8 | .listFull => 0x15#8 | .dupTag => 0x16#8
    | .tooLate => 0x17#8 | .sourceBusy => 0x18#8 | .sourceNotReady => 0x19#8 | .noHome => 0x1A#8
    | .wrongState => 0x1B#8 | .noFormat => 0x1C#8 | .checkFailed => 0x1D#8) ∧
  (∀ (f : Format) (x : HostLabel) (d : Dated), d = datedOf f x →
    (hostLabelOk f x = true ↔ x.h.toNat < 24 ∧ x.m.toNat < 60 ∧ x.s.toNat < 60 ∧ x.ff.toNat < f.base ∧
      x.pair.toNat ≤ 1 ∧ x.next.toNat ≤ 1) ∧
    d.label = ((x.h.toNat * 60 + x.m.toNat) * 60 + x.s.toNat) * f.rate + x.ff.toNat * (f.rate / f.base)
      + (if f.rate / f.base = 2 ∧ x.pair.toNat = 1 then 1 else 0) ∧
    (d.next = true ↔ x.next.toNat = 1)) ∧
  ∀ (f : Format) (l : List Byte) (b : Nat → Nat) (anchors : List Anchor),
    l.length = 20 → b = (fun i => numberAt l i 1) →
    anchors = [.topLeft, .topCentre, .topRight, .middleLeft, .centre, .middleRight, .bottomLeft, .bottomCentre,
      .bottomRight, .free] →
    (b 0 = 0 ∨ 9 < b 0 → actionOf f l = .error .badField) ∧
    (∀ act : Option Port → Action,
      b 0 = 1 ∧ act = (fun p => .showInset p (min 250 (b 3))) ∨ b 0 = 9 ∧ act = .standby →
      (b 1 = 0 → actionOf f l = .ok (act none)) ∧
      (b 1 ≠ 0 → 5 < b 2 → actionOf f l = .error .noSuch) ∧
      ∀ p, portIdx p = b 2 →
        (b 1 = 1 → actionOf f l = .ok (act (some p))) ∧ (1 < b 1 → actionOf f l = .error .badField)) ∧
    (b 0 = 2 → actionOf f l = .ok (.hide (min 250 (b 1)))) ∧
    (b 0 = 3 → (5 < b 1 → actionOf f l = .error .noSuch) ∧
      ∀ p, portIdx p = b 1 → actionOf f l = .ok (.handover p (min 250 (b 2)))) ∧
    (∀ act : Block → Option Nat → Action, b 0 = 4 ∧ act = .place ∨ b 0 = 5 ∧ act = .push →
      (9 < b 1 ∨ 1 < b 2 ∨ 3 < b 9 ∨ (∃ i, i < b 9 ∧ 8 < b (10 + i)) ∨ 1 < b 13 →
        actionOf f l = .error .badField) ∧
      ∀ (a : Anchor) (h : Option Nat) (back : List Anchor) (g : Option Nat),
        anchors[b 1]? = some a →
        b 2 = 0 ∧ h = some (numberAt l 3 2 / 2 * 2) ∨ b 2 = 1 ∧ h = none →
        b 9 ≤ 3 → back.length = b 9 →
        (∀ i, i < b 9 → b (10 + i) ≤ 8 ∧ back[i]? = anchors[b (10 + i)]?) →
        b 13 = 0 ∧ g = none ∨ b 13 = 1 ∧ g = some (min 250 (b 14)) →
        actionOf f l = .ok (act ⟨a, h, numberAt l 5 2, numberAt l 7 2, back⟩ g)) ∧
    (b 0 = 6 →
      (b 1 = 0 → actionOf f l = .ok (.pop none)) ∧
      (b 1 = 1 → actionOf f l = .ok (.pop (some (min 250 (b 2))))) ∧
      (1 < b 1 → actionOf f l = .error .badField)) ∧
    (b 0 = 7 →
      (11 < b 1 → actionOf f l = .error .noSuch) ∧
      (b 1 ≤ 11 →
        (b 2 = 0 → b 3 = 0 → actionOf f l = .ok (.zone (b 1) false none)) ∧
        (b 2 = 1 → b 3 = 0 → actionOf f l = .ok (.zone (b 1) true none)) ∧
        (b 2 = 0 ∧ b 3 = 1 ∨ 1 < b 2 ∨ 1 < b 3 → actionOf f l = .error .badField) ∧
        (b 2 = 1 → b 3 = 1 →
          (24 ≤ b 4 ∨ 60 ≤ b 5 ∨ 60 ≤ b 6 ∨ f.base ≤ b 7 ∨ 1 < b 8 ∨ 1 < b 9 →
            actionOf f l = .error .badField) ∧
          ∀ d : Dated, b 4 < 24 → b 5 < 60 → b 6 < 60 → b 7 < f.base → b 8 ≤ 1 →
            b 9 = (if d.next then 1 else 0) →
            d.label = ((b 4 * 60 + b 5) * 60 + b 6) * f.rate + b 7 * (f.rate / f.base)
              + (if f.rate / f.base = 2 then b 8 else 0) →
            actionOf f l = .ok (.zone (b 1) true (some d))))) ∧
    (b 0 = 8 → actionOf f l = .ok (.mark (b 1)))

/-- O30. An accepted cue stands after every cue of an equal or earlier dated label and before every later
one, and a midnight's cleared cues enter likewise: the list stays in order of dated label and, within
one, of entry sequence (R139). -/
def Obligations.CueListStaysInDatedOrder : Prop :=
  ∀ (l : List Cue) (q : Cue),
    l.Pairwise (fun a b => a.date.le b.date = true ∧ (a.date = b.date → a.seq < b.seq)) →
    (∀ x ∈ l, x.seq < q.seq) →
    (insertCue q l).Perm (q :: l) ∧
    (insertCue q l).Pairwise (fun a b => a.date.le b.date = true ∧ (a.date = b.date → a.seq < b.seq)) ∧
    (clearCueMarks l).Pairwise (fun a b => a.date.le b.date = true ∧ (a.date = b.date → a.seq < b.seq)) ∧
    ((clearCueMarks l).map Cue.tag).Perm (l.map Cue.tag) ∧ ∀ x ∈ clearCueMarks l, x.date.next = false

/-- O31. CUE_REMOVE by tag, and by range: the PENDING cues of the range leave, the PREPARED ones are skipped
(R145, R146, R187). That a pair flag or next-day mark of a range label other than 0 or 1 is refused is the
model's reading (log entry 26). -/
def Obligations.CuesRemovedByTagAndRange : Prop :=
  (∀ (s : State) (ch : Byte) (tag : Half) (req : Request), s.LinkIdle →
    req = .cueRemove ch 0 tag labelZero labelZero →
    (3 < ch.toNat → exec (.cueRemoveByTag ch tag) s = .next (s.replying req [0xC1, 0x12, 0x00, 0x00])) ∧
    ∀ c, chanIdx c = ch.toNat →
      (tag = 0 → exec (.cueRemoveByTag ch tag) s = .next (s.replying req [0xC1, 0x12, 0x00, 0x00])) ∧
      (tag ≠ 0 → (∀ q ∈ (s.chan c).cues, q.tag ≠ tag.toNat) →
        exec (.cueRemoveByTag ch tag) s = .next (s.replying req [0xC1, 0x14, 0x00, 0x00])) ∧
      ∀ q, tag ≠ 0 → q ∈ (s.chan c).cues → q.tag = tag.toNat → (s.chan c).ListOk →
        (q.prepared = true → exec (.cueRemoveByTag ch tag) s
          = .next (s.replying req [0xC1, 0x00, 0x00, 0x01])) ∧
        (q.prepared = false → exec (.cueRemoveByTag ch tag) s
          = .next ((s.modChan c (fun x => { x with
              cues := x.cues.filter (fun y => decide (y.tag ≠ tag.toNat)), removed := x.removed + 1 })).replying
            req [0xC1, 0x00, 0x01, 0x00]))) ∧
  ∀ (s : State) (ch : Byte) (lo hi : HostLabel) (req : Request), s.LinkIdle →
    req = .cueRemove ch 1 0 lo hi →
    (3 < ch.toNat → exec (.cueRemoveByRange ch lo hi) s = .next (s.replying req [0xC1, 0x12, 0x00, 0x00])) ∧
    ∀ c, chanIdx c = ch.toNat →
      (s.format = none → exec (.cueRemoveByRange ch lo hi) s
        = .next (s.replying req [0xC1, 0x1C, 0x00, 0x00])) ∧
      ∀ f, s.format = some f →
        (hostLabelOk f lo = false ∨ hostLabelOk f hi = false ∨
            (datedOf f lo).le (datedOf f hi) = false →
          exec (.cueRemoveByRange ch lo hi) s = .next (s.replying req [0xC1, 0x12, 0x00, 0x00])) ∧
        (hostLabelOk f lo = true → hostLabelOk f hi = true → (datedOf f lo).le (datedOf f hi) = true →
          exec (.cueRemoveByRange ch lo hi) s = .next ((s.modChan c (fun x => { x with
              cues := x.cues.filter (fun q => q.prepared || !((datedOf f lo).le q.date &&
                q.date.le (datedOf f hi)))
              removed := x.removed + BitVec.ofNat 16 (x.cues.filter (fun q => (datedOf f lo).le q.date &&
                q.date.le (datedOf f hi) && !q.prepared)).length })).replying req
            [0xC1, 0x00,
             BitVec.ofNat 8 ((s.chan c).cues.filter (fun q => (datedOf f lo).le q.date &&
                q.date.le (datedOf f hi) && !q.prepared)).length,
             if (s.chan c).cues.any (fun q => (datedOf f lo).le q.date && q.date.le (datedOf f hi) &&
                q.prepared) then 0x01 else 0x00]))

/-! ### Resets, power and notices -/

/-- O32. A reset begins when power becomes good and when the pin is asserted: its cause is in progress for
20 ms, relays in BYPASS, the link dead; loss of power ends it. The release of the pin gives a reset whose 20
ms have run 20 ms more. While the pin is asserted a reset stays in progress. A reset completes with its
cause recorded and every block at its reset value; a source with signal comes out in DETECTING (R14, R38,
R163, R190, R196). The clock, and that a power-on reset forgets the inputs' timing, are the model's (log
entries 1 and 30), and that a source is without signal once exactly the silence limit has passed its reading
(log entry 28). -/
def Obligations.ResetsBeginAndComplete : Prop :=
  (∀ s : State,
    (∃ t, exec .powerOnReset s = .next t ∧ t.power = true ∧ t.resetting = some .power ∧
      t.resetDue = s.now + 540000 ∧ (∀ c, t.chan c = { s.chan c with relay := .bypass, pgmStart := none }) ∧
      (∀ p, t.src p = { s.src p with lastStart := none, measuring := false }) ∧
      t.link = { s.link with rx := .hunt, len := 0, body := [], slot1 := .empty, slot2 := .empty }) ∧
    (s.power = true → exec .pinReset s = .next { s with
      pin := true, resetting := some .pin, resetDue := s.now + 540000
      channels := s.channels.map (fun ch => { ch with relay := .bypass })
      link := { s.link with rx := .hunt, len := 0, body := [], slot1 := .empty, slot2 := .empty } }) ∧
    (s.power = false → exec .pinReset s = .next { s with pin := true }) ∧
    exec .powerLoss s = .next { s with
      power := false, resetting := none
      channels := s.channels.map (fun ch => { ch with relay := .bypass })
      link := { s.link with rx := .hunt, len := 0, body := [], slot1 := .empty, slot2 := .empty } } ∧
    (s.pin = true → s.resetting ≠ none → s.resetDue ≤ s.now →
      exec .resetPinRelease s = .next { s with pin := false, resetDue := s.now + 540000 }) ∧
    (s.pin = false ∨ s.resetting = none ∨ s.now < s.resetDue →
      exec .resetPinRelease s = .next { s with pin := false })) ∧
  (∀ s : State, s.pin = true ∨ s.power = false ∨ s.resetting = none → exec .resetComplete s = .next s) ∧
  ∀ (s : State) (k : ResetCause), s.resetting = some k → s.power = true → s.pin = false →
    ∃ t, exec .resetComplete s = .next t ∧ t.cause = k ∧ t.resetting = none ∧ t.power = true ∧
      t.now = max s.now s.resetDue ∧ t.pending = s.pending ∧ t.format = none ∧ t.ref.state = .idle ∧
      t.link = ⟨.hunt, 0, [], .empty, .empty, 0, 0, 0, 0, 0⟩ ∧ t.spare = .free ∧
      t.notices = ⟨⟨0x08#8, PerChan.fill 0#16⟩, ⟨0x0F#8, PerChan.fill 0x1FFF#16⟩, false,
        PerChan.fill false, PerChan.fill false⟩ ∧
      (∀ c, t.chan c = Channel.reset (s.chan c).pgmStart) ∧
      ∀ p, t.src p = match (s.src p).lastStart with
        | some n => Source.reset (if max s.now s.resetDue - n < 2160000 then .detecting else .absent)
            (some n) (s.src p).measuring
        | none => Source.reset .absent none (s.src p).measuring

/-- O33. The notice line is asserted exactly while some kind is raw and enabled on a powered card with no
reset in progress (R191, R196). A re-arm mark is looked at and cleared at the next frame start: its
condition still holding, the notice is raised again (R194). -/
def Obligations.NoticeLineAndRearmMarks : Prop :=
  (∀ s : State, s.noticeLine = true ↔ s.power = true ∧ s.resetting = none ∧
    (s.notices.raw.card &&& s.notices.enable.card ≠ 0 ∨
      ∃ c, s.notices.raw.chan.get c &&& s.notices.enable.chan.get c ≠ 0)) ∧
  (∀ s : State,
    (s.notices.rearmRef = true → s.ref.state = .free →
      rearmRefLoss s = raiseCard .refLoss { s with notices := { s.notices with rearmRef := false } }) ∧
    (s.notices.rearmRef = false ∨ s.ref.state ≠ .free →
      rearmRefLoss s = { s with notices := { s.notices with rearmRef := false } })) ∧
  (∀ (s : State) (c : Chan), ∃ n : Notices, rearmChannel c s = { s with notices := n } ∧
    n.enable = s.notices.enable ∧ n.rearmRef = s.notices.rearmRef ∧ n.raw.card = s.notices.raw.card ∧
    n.raw.chan.get c = s.notices.raw.chan.get c |||
      (if s.notices.rearmTc.get c = true ∧ (s.chan c).track = .lost then 0x0200#16 else 0) |||
      (if s.notices.rearmPgm.get c = true ∧ (s.chan c).pgm = .lost then 0x0400#16 else 0) ∧
    n.rearmTc.get c = false ∧ n.rearmPgm.get c = false ∧
    ∀ d, d ≠ c → n.raw.chan.get d = s.notices.raw.chan.get d ∧
      n.rearmTc.get d = s.notices.rearmTc.get d ∧ n.rearmPgm.get d = s.notices.rearmPgm.get d) ∧
  ∀ (s : State) (order : List Chan), s.format ≠ none →
    (frameStart order s).notices.rearmRef = false ∧
    ∀ c, (frameStart order s).notices.rearmTc.get c = false ∧
      (frameStart order s).notices.rearmPgm.get c = false ∧
      (s.notices.rearmRef = true → s.ref.state = .free →
        (frameStart order s).notices.raw.hasCard .refLoss = true) ∧
      (s.notices.rearmTc.get c = true → ((frameStart order s).chan c).track = .lost →
        (frameStart order s).notices.raw.hasChan c .tcLost = true) ∧
      (s.notices.rearmPgm.get c = true → (s.chan c).pgm = .lost →
        (frameStart order s).notices.raw.hasChan c .pgmLoss = true)

/-! ### The house reference and frame starts -/

/-- O34. The house formats: raster, R, Rtc, N, tolerance and the intervals in window (R1). A reference pulse
in ACQUIRING, LOCKED and FREE counts its interval, in LOCKED whether it makes a frame start or comes too
soon for one; the third out of window in a row in ACQUIRING or LOCKED loses the reference; the first pulse
after HOUSE only begins an interval (R5, R6; that a third out-of-window pulse makes no frame start is the
model's reading, log entry 9). 2 × N ticks without a pulse lose the reference in ACQUIRING and LOCKED, and
zero the count in FREE. With the format UNSET the checker is IDLE: pulses are ignored and no timer makes a
frame start (R1, R5). That moments are those of the model's clock is its choice (log entry 1). -/
def Obligations.ReferenceIntervalsCounted : Prop :=
  (∀ f : Format,
    (f.code, f.width, f.height, f.rate, f.base) = (match f with
      | .f1 => (1, 1920, 1080, 25, 25) | .f2 => (2, 1920, 1080, 30, 30) | .f3 => (3, 1920, 1080, 50, 25)
      | .f4 => (4, 1920, 1080, 60, 30) | .f5 => (5, 1280, 720, 50, 25) | .f6 => (6, 1280, 720, 60, 30)) ∧
    (f.period, f.tolerance) = (match f with
      | .f1 => (1080000, 5400) | .f2 => (900900, 4504) | .f3 => (540000, 2700)
      | .f4 => (450450, 2252) | .f5 => (540000, 2700) | .f6 => (450450, 2252)) ∧
    ∀ (n : Nat) (lo hi : Nat), (lo, hi) = (match f with
      | .f1 => (1074600, 1085400) | .f2 => (896396, 905404) | .f3 => (537300, 542700)
      | .f4 => (448198, 452702) | .f5 => (537300, 542700) | .f6 => (448198, 452702)) →
      (f.inWindow n = true ↔ lo ≤ n ∧ n ≤ hi)) ∧
  (∀ (s : State) (dt : Nat) (order : List Chan), s.running = true → s.format = none →
    exec (.refPulse dt order) s = .next { s with now := s.now + dt } ∧ exec .refSilence s = .next s ∧
    exec (.freeRunFrameStart order) s = .next s ∧ exec (.latePulseFrameStart order) s = .next s) ∧
  ∀ (s : State) (f : Format) (dt : Nat) (order : List Chan), s.running = true → s.format = some f →
    (s.ref.state ≠ .idle → s.ref.pulseSeen = false → exec (.refPulse dt order) s
      = .next { s with now := s.now + dt
                       ref := { s.ref with lastPulse := s.now + dt, pulseSeen := true } }) ∧
    (s.ref.pulseSeen = true → s.ref.state = .acquiring →
      (f.inWindow (s.now + dt - s.ref.lastPulse) = true → s.ref.inRun < 7 → exec (.refPulse dt order) s
        = .next { s with now := s.now + dt
                         ref := { s.ref with
                           lastPulse := s.now + dt, inRun := s.ref.inRun + 1, outRun := 0 } }) ∧
      (f.inWindow (s.now + dt - s.ref.lastPulse) = false → s.ref.outRun < 2 → exec (.refPulse dt order) s
        = .next { s with now := s.now + dt
                         ref := { s.ref with
                           lastPulse := s.now + dt, inRun := 0, outRun := s.ref.outRun + 1 } })) ∧
    (s.ref.pulseSeen = true → s.ref.state = .free →
      (f.inWindow (s.now + dt - s.ref.lastPulse) = true → s.ref.inRun < 7 → exec (.refPulse dt order) s
        = .next { s with now := s.now + dt
                         ref := { s.ref with
                           lastPulse := s.now + dt, inRun := s.ref.inRun + 1, outRun := 0 } }) ∧
      (f.inWindow (s.now + dt - s.ref.lastPulse) = false → exec (.refPulse dt order) s
        = .next { s with now := s.now + dt
                         ref := { s.ref with
                           lastPulse := s.now + dt, inRun := 0, outRun := min 3 (s.ref.outRun + 1) } })) ∧
    (s.ref.pulseSeen = true → s.ref.state = .locked →
      ∀ (inW : Bool) (r : Reference), inW = f.inWindow (s.now + dt - s.ref.lastPulse) →
      inW = true ∨ s.ref.outRun < 2 →
      r = { s.ref with
        lastPulse := s.now + dt, selfRun := false
        lastFrame := if s.ref.lastFrame + f.period - f.tolerance ≤ s.now + dt
          then s.now + dt else s.ref.lastFrame
        inRun := if inW then min 8 (s.ref.inRun + 1) else 0, outRun := if inW then 0 else s.ref.outRun + 1 } →
      ∃ t, exec (.refPulse dt order) s = .next t ∧ t.ref = r) ∧
    (s.ref.pulseSeen = true → s.ref.state = .acquiring ∨ s.ref.state = .locked →
      f.inWindow (s.now + dt - s.ref.lastPulse) = false → 2 ≤ s.ref.outRun → exec (.refPulse dt order) s
        = .next (raiseCard .refLoss { s with
            now := s.now + dt
            ref := { s.ref with
              lastPulse := s.now + dt, state := .free, inRun := 0, outRun := 0, selfRun := false } })) ∧
    (s.ref.state = .idle → exec (.refPulse dt order) s = .next { s with now := s.now + dt }) ∧
    (s.ref.state = .acquiring ∨ s.ref.state = .locked → exec .refSilence s
      = .next (raiseCard .refLoss { s with
          now := max s.now (s.ref.lastPulse + 2 * f.period)
          ref := { s.ref with state := .free, inRun := 0, outRun := 0, selfRun := false } })) ∧
    (s.ref.state = .free → exec .refSilence s
      = .next { s with now := max s.now (s.ref.lastPulse + 2 * f.period), ref := { s.ref with inRun := 0 } })

/-- O35. A pulse that completes the eighth in-window interval, or arrives in LOCKED without losing the
reference, makes a frame start when it comes at least N − tolerance after the preceding one, and none when
it comes sooner. In ACQUIRING and FREE one comes N ticks after the preceding one; in LOCKED the card makes
one itself N + tolerance ticks after a pulse's one, and N after one of its own. At each every channel slews,
selects its frame and takes its tracker step, which raises TC_FLYWHEEL and TC_LOST where R26 and R27 say
(R5, R9 to R12, R24 to R28). A pulse counts its interval in or out of window (R5). That an early pulse does
not restart the count is the model's reading (log entry 8), and so is a frame start that comes after its
moment, the next wait running from that moment all the same (log entry 37). That moments are those of the
model's clock is its choice (log entry 1). -/
def Obligations.FrameStartsByPulseAndTimer : Prop :=
  ∀ (s : State) (f : Format) (order : List Chan), s.running = true → s.format = some f →
    (∀ (dt : Nat) (inW : Bool) (r : Reference), s.ref.pulseSeen = true →
      inW = f.inWindow (s.now + dt - s.ref.lastPulse) →
      r = { s.ref with
        state := .locked, lastPulse := s.now + dt, selfRun := false
        inRun := if inW then min 8 (s.ref.inRun + 1) else 0, outRun := if inW then 0 else s.ref.outRun + 1 } →
      ((s.ref.state = .acquiring ∨ s.ref.state = .free) ∧ 7 ≤ s.ref.inRun ∧
          inW = true ∨
        s.ref.state = .locked ∧ (inW = true ∨ s.ref.outRun < 2)) →
      (s.ref.lastFrame + f.period - f.tolerance ≤ s.now + dt →
        ∃ t, exec (.refPulse dt order) s = .next t ∧ State.Framed f s t ∧ t.now = s.now + dt ∧
          t.ref = { r with lastFrame := s.now + dt }) ∧
      (s.now + dt < s.ref.lastFrame + f.period - f.tolerance →
        exec (.refPulse dt order) s = .next { s with now := s.now + dt, ref := r })) ∧
    (s.ref.state = .acquiring ∨ s.ref.state = .free →
      ∃ t, exec (.freeRunFrameStart order) s = .next t ∧ State.Framed f s t ∧
        t.now = max s.now (s.ref.lastFrame + f.period) ∧
        t.ref = { s.ref with lastFrame := s.ref.lastFrame + f.period, selfRun := false }) ∧
    (s.ref.state = .locked →
      ∃ (t : State) (due : Nat), exec (.latePulseFrameStart order) s = .next t ∧ State.Framed f s t ∧
        due = s.ref.lastFrame + (if s.ref.selfRun then f.period else f.period + f.tolerance) ∧
        t.now = max s.now due ∧ t.ref = { s.ref with lastFrame := due, selfRun := true })

/-- O36. The mode change at a frame start. BYPASS drops the inset, the spare, the waiting actions, the
PREPARED cues' state and a deferral, and keeps the rest; THRU reverts the PREPARED cues and leaves inset
and sources alone; AUTO is entered from BYPASS and from THRU; a deferred THRU takes effect, with
MODE_DONE, when nothing is left to wait for, and reverts the cues prepared since (R15 to R18, R132, R138,
R150, R185). -/
def Obligations.ModeChangesAtTheFrameStart : Prop :=
  ∀ (s : State) (c : Chan) (r : State × Bool) (back : List Cue), s.Lawful → r = modeChange c s →
    back = (s.chan c).cues.map (fun q => if q.prepared
      then { q with prepared := false, late := false, claim := .notAsked } else q) →
    ((s.chan c).pendingMode = some .bypass → (s.chan c).mode ≠ .bypass →
      (r.1.chan c).mode = .bypass ∧ (r.1.chan c).relay = .bypass ∧ (r.1.chan c).pendingMode = none ∧
      (r.1.chan c).delay = 0 ∧ (r.1.chan c).slew = 0 ∧ (r.1.chan c).target = (s.chan c).target ∧
      (r.1.chan c).inset = .hidden ∧ (r.1.chan c).deferred = none ∧ (r.1.chan c).heldBack = false ∧
      (r.1.chan c).zones = (s.chan c).zones ∧ (r.1.chan c).stack = (s.chan c).stack ∧
      (r.1.chan c).requested = (s.chan c).requested ∧ (r.1.chan c).fault = (s.chan c).fault ∧
      (r.1.chan c).waiting = [] ∧ (r.1.chan c).cues = back ∧
      (∀ p, (r.1.src p).owner ≠ some c) ∧ r.1.spare.hasIt c = false ∧ r.2 = false) ∧
    ((s.chan c).pendingMode = some .thru → (s.chan c).mode ≠ .thru →
      (r.1.chan c).mode = .thru ∧ (r.1.chan c).relay
        = (if (s.chan c).mode = .bypass then .processed else (s.chan c).relay) ∧
      (r.1.chan c).slew = (if (s.chan c).mode = .bypass then 0 else (s.chan c).slew) ∧
      (r.1.chan c).pendingMode = none ∧ (r.1.chan c).deferred = none ∧ (r.1.chan c).heldBack = false ∧
      (r.1.chan c).cues = back ∧
      (r.1.chan c).inset = (s.chan c).inset ∧ (r.1.chan c).cur = (s.chan c).cur ∧
      (r.1.chan c).waiting = (s.chan c).waiting ∧ (∀ p, r.1.src p = s.src p) ∧
      r.1.notices = s.notices ∧ r.2 = false) ∧
    ((s.chan c).pendingMode = some .auto → (s.chan c).mode = .bypass →
      r = (s.modChan c (fun x => { x with
        mode := .auto, pendingMode := none, relay := .processed, slew := 0, deferred := none }), true)) ∧
    ((s.chan c).pendingMode = some .auto → (s.chan c).mode = .thru →
      r = (s.modChan c (fun x => { x with mode := .auto, pendingMode := none, deferred := none }), true)) ∧
    ((s.chan c).pendingMode = none → (s.chan c).mode = .auto →
      ((s.chan c).deferred = some [] →
        (r.1.chan c).mode = .thru ∧ (r.1.chan c).relay = (s.chan c).relay ∧ (r.1.chan c).deferred = none ∧
        (r.1.chan c).heldBack = false ∧ r.1.notices = (raiseChan c .modeDone s).notices ∧
        (r.1.chan c).cues = back ∧
        (r.1.chan c).inset = (s.chan c).inset ∧ (∀ p, r.1.src p = s.src p) ∧ r.2 = false ∧
        ((∀ q ∈ (s.chan c).cues, q.prepared = false) →
          r.1 = raiseChan c .modeDone (s.modChan c (fun x => { x with
            mode := .thru, deferred := none, heldBack := false })))) ∧
      ((s.chan c).deferred ≠ some [] → r = (s, false)))

/-- O37. The tenth count of a slew moves the delay by one toward its target (R11); that the row SLEW_STEP
does this part of a frame start by itself is the model's choice (log entry 6). At a frame start the slew
counts, moves or is reset by R11; the frame selected is the one the current delay stands behind the
newest, or the oldest (R9), and in LOST the store drains, its newest frame is repeated twice and black
follows (R12; that black before the loss lets a stored frame drain is the model's choice, log entry 16);
the selection carries how its word was found and whether it repeats (R20, R24). -/
def Obligations.PathSlewsAndSelects : Prop :=
  (∀ (s : State) (f : Format) (c : Chan), s.running = true → s.format = some f →
    (s.chan c).mode ≠ .bypass → (s.chan c).pgm = .present → (s.chan c).delay ≠ (s.chan c).target →
    (s.chan c).slew = 9 →
    exec (.slewStep c) s = .next (s.modChan c (fun x => { x with
      slew := 0, delay := if (s.chan c).delay < (s.chan c).target then x.delay + 1 else x.delay - 1 }))) ∧
  (∀ ch : Channel,
    (ch.mode = .bypass ∨ ch.pgm ≠ .present → slewStep ch = ch) ∧
    (ch.mode ≠ .bypass → ch.pgm = .present →
      (ch.delay = ch.target → slewStep ch = { ch with slew := 0 }) ∧
      (ch.delay ≠ ch.target → ch.slew < 9 → slewStep ch = { ch with slew := ch.slew + 1 }) ∧
      (ch.delay < ch.target → 9 ≤ ch.slew → slewStep ch = { ch with slew := 0, delay := ch.delay + 1 }) ∧
      (ch.target < ch.delay → 9 ≤ ch.slew → slewStep ch = { ch with slew := 0, delay := ch.delay - 1 }))) ∧
  ∀ (f : Format) (ch t : Channel), t = selectOutput f ch →
    { t with sel := ch.sel, drainRepeats := ch.drainRepeats, drained := ch.drained } = ch ∧
    (t.sel.frame = none → t.sel.status = .absent) ∧
    (∀ x, t.sel.frame = some x → (x.word = none → t.sel.status = .absent) ∧
      ∀ w, x.word = some w → t.sel.status = (if wordValid f w then .valid else .invalid)) ∧
    (t.sel.isRepeat = true ↔ ∃ x y, t.sel.frame = some x ∧ ch.sel.frame = some y ∧ x.serial = y.serial) ∧
    (ch.pgm ≠ .lost →
      t.drainRepeats = ch.drainRepeats ∧ t.drained = ch.drained ∧ (ch.store = [] → t.sel.frame = none) ∧
      (∀ older x newer, ch.store = older ++ x :: newer → newer.length = ch.delay → t.sel.frame = some x) ∧
      ∀ x newer, ch.store = x :: newer → newer.length < ch.delay → t.sel.frame = some x) ∧
    (ch.pgm = .lost →
      (ch.drained = true ∨ ch.store = [] → t.sel.frame = none ∧ t.drained = true) ∧
      (ch.drained = false →
        (∀ x newer, ch.sel.frame = none → ch.store = x :: newer →
          t.sel.frame = some x ∧ t.drained = false) ∧
        (∀ p older x newer, ch.sel.frame = some p → ch.store = older ++ x :: newer →
          (∀ y ∈ older, y.serial ≤ p.serial) → p.serial < x.serial →
          t.sel.frame = some x ∧ t.drainRepeats = 0 ∧ t.drained = false) ∧
        ∀ p, ch.sel.frame = some p → ch.store ≠ [] → (∀ y ∈ ch.store, y.serial ≤ p.serial) →
          (ch.drainRepeats < 2 →
            t.sel.frame = some p ∧ t.drainRepeats = ch.drainRepeats + 1 ∧ t.drained = false) ∧
          (2 ≤ ch.drainRepeats → t.sel.frame = none ∧ t.drained = true)))

/-- O38. What the key and blend unit is handed at a frame start: the selected programme frame, and the
presented sources in order with the picture of the newest COMPLETE slot, crop, key, shown rectangle, level
and scaler: one source on the channel's own scaler; in CROSSFADE the outgoing one, over its fixed rectangle,
and the incoming one on the spare. The slot read is marked in use, and an owned source that is not presented
has no mark (R53, R60, R113, R133). The rectangle of the placement source is the shown placement that
CH_READ reports from this frame start on (R92, R95). A channel's frame start does its parts in the order of
R36 and R115: the hand-over is of the state that one step of the running fades, the glide or the hold has
left, after the cues and the waiting actions (R91, R92, R114 to R116, R127). That cues are prepared before
the waiting actions (log entry 14), that the re-arm marks come last (log entry 15), and that the source
whose crossfade ends in this frame start is on the channel's own scaler at once (log entry 41) are the
model's readings. -/
def Obligations.KeyUnitIsHandedTheSources : Prop :=
  (∀ (f : Format) (s t : State) (c : Chan) (look : OnAir → Rect → Nat → Presented), s.format = some f →
    t = present f c s →
    look = (fun o r k => ⟨(s.src o.src).ring.newestPicture, cropRect f (s.src o.src).cropForce,
      (s.src o.src).keyOn, (s.src o.src).kb, (s.src o.src).kr, (s.src o.src).tlo, (s.src o.src).rk, r, o.level,
      k⟩) →
    ∃ used : List Port,
      t.chan c = { s.chan c with keyIn := (t.chan c).keyIn, displayed := (t.chan c).displayed } ∧
      ((s.chan c).shown = none ∨ (s.chan c).cur = none → (t.chan c).displayed = none) ∧
      (t.chan c).keyIn.pgm = (s.chan c).sel.frame.map PgmFrame.pic ∧
      ((s.chan c).inset = .hidden ∨ (s.chan c).inset = .forcedOut ∧
          (∀ o, (s.chan c).cur = some o → o.fade = none) →
        used = [] ∧ (t.chan c).keyIn.sources = []) ∧
      (∀ o v r, (s.chan c).cur = some o → (s.chan c).shown = some v →
        r = ⟨v.x, v.y, derivedWidth (cropRect f (s.src o.src).cropForce).w
          (cropRect f (s.src o.src).cropForce).h v.h, v.h⟩ →
        (t.chan c).displayed = some r ∧
        ((s.chan c).inset = .fadingIn ∨ (s.chan c).inset = .shown ∨ (s.chan c).inset = .fadingOut ∨
            (s.chan c).inset = .held ∨ (s.chan c).inset = .forcedOut ∧ o.fade ≠ none →
          used = [o.src] ∧ (t.chan c).keyIn.sources = [look o r (chanIdx c)]) ∧
        ∀ u r0, (s.chan c).inset = .crossfade → (s.chan c).out = some u → (s.chan c).outRect = some r0 →
          used = [u.src, o.src] ∧ (t.chan c).keyIn.sources = [look u r0 (chanIdx c), look o r 4]) ∧
      ∀ p, ((s.src p).owner ≠ some c → t.src p = s.src p) ∧
        ((s.src p).owner = some c → t.src p = { s.src p with ring := { (s.src p).ring with
          inUse := if p ∈ used then (s.src p).ring.newest else none } })) ∧
  (∀ r : Ring, ((∀ i n pic, r.get i ≠ .complete n pic) → r.newest = none ∧ r.newestPicture = none) ∧
    ∀ i n pic, r.get i = .complete n pic → (∀ j m q, j ≠ i → r.get j = .complete m q → m < n) →
      r.newest = some i ∧ r.newestPicture = some pic) ∧
  (∀ (f : Format) (s w u : State) (c : Chan) (m : State × Bool) (k : Track), m = modeChange c s →
    (w, k) = trackerStep f c (m.1.modChan c (fun x => selectOutput f (slewStep x))) →
    u = dispatch f c m.2 k (reportCrops c w) →
    chanFrameStart f s c = rearmChannel c (present f c (stepEngine c
      (if (u.chan c).mode = .bypass then u else applyTakes c u))) ∧
    ((chanFrameStart f s c).chan c).keyIn.pgm = ((chanFrameStart f s c).chan c).sel.frame.map PgmFrame.pic ∧
    ((chanFrameStart f s c).chan c).displayed = shownRect c (chanFrameStart f s c)) ∧
  ∀ (s : State) (c : Chan),
    ((s.chan c).mode = .bypass → stepEngine c s = s) ∧
    ((s.chan c).mode ≠ .bypass → (s.chan c).inset ≠ .held →
      ((∀ o, (s.chan c).cur = some o → o.fade = none) → stepEngine c s = s.modChan c Channel.stepGlide) ∧
      ∀ o fd, (s.chan c).cur = some o → o.fade = some fd →
        (fd.step + 1 < fd.count → stepEngine c s = s.modChan c (fun x => { x.stepGlide with
          cur := some o.stepFade, out := x.out.map OnAir.stepFade })) ∧
        (fd.count ≤ fd.step + 1 → s.running = true → s.format ≠ none →
          ∃ v, exec (.fadeEnd c) s = .next v ∧ stepEngine c s = v.modChan c Channel.stepGlide)) ∧
    ((s.chan c).mode ≠ .bypass → (s.chan c).inset = .held →
      ((s.chan c).holdCount + 1 < (s.chan c).holdTime → stepEngine c s = s.modChan c (fun x =>
        { x.stepGlide with holdCount := x.holdCount + 1 })) ∧
      ((s.chan c).holdTime ≤ (s.chan c).holdCount + 1 → s.running = true → s.format ≠ none →
        ∃ v, exec (.holdExpired c) s = .next v ∧ stepEngine c s = v.modChan c Channel.stepGlide))

/-! ### Dispatch -/

/-- O39. What becomes of one cue. It fires: it leaves the list and the recorded set of a deferral, its
action is taken whole, its granted claim leaves, and the outcome is counted, a failure with its record and
CUE_FAILED (R135, R152, R157, R159). It is MISSED: it leaves without its action, counted, with CUE_MISSED
(R156). It becomes PREPARED, and asks for the spare if it is a HANDOVER with a count (R144, R148). It
reverts to PENDING and its claim is none (R150). The pool grants a request on a FREE spare or on the
channel's own and adds its claimant, refuses another channel's and changes nothing; a claimant that leaves
is taken off its channel's set, and the spare is FREE when it was the last; it is IN_USE while a crossfade
is among them (R134, R135). -/
def Obligations.CueFiresIsMissedPreparedOrReverts : Prop :=
  (∀ (c d : Chan) (k : Claimant) (l : List Claimant), d ≠ c → l.Nodup →
    Spare.free.request c k = (.held c [k], .granted) ∧
    (∃ m, (Spare.held c l).request c k = (.held c m, .granted) ∧ m.Nodup ∧ ∀ x, x ∈ m ↔ x ∈ l ∨ x = k) ∧
    (Spare.held d l).request c k = (.held d l, .refused) ∧
    Spare.free.leave c k = .free ∧ (Spare.held d l).leave c k = .held d l ∧
    ((∀ x ∈ l, x = k) → (Spare.held c l).leave c k = .free) ∧
    ((∃ x ∈ l, x ≠ k) → ∃ m, (Spare.held c l).leave c k = .held c m ∧ m.Nodup ∧ ∀ x, x ∈ m ↔ x ∈ l ∧ x ≠ k) ∧
    Spare.free.leaveAll c = .free ∧ (Spare.held c l).leaveAll c = .free ∧
    (Spare.held d l).leaveAll c = .held d l ∧ Spare.free.hasIt c = false ∧ (Spare.held c l).hasIt c = true ∧
    (Spare.held d l).hasIt c = false ∧ Spare.free.inUse = false ∧
    ((Spare.held c l).inUse = true ↔ .crossfade ∈ l)) ∧
  ∀ (s t left : State) (c : Chan) (q : Cue),
    left = s.modChan c (fun x => { x with
      cues := x.cues.filter (fun y => decide (y.tag ≠ q.tag))
      deferred := x.deferred.map (fun l => l.filter (fun n => decide (n ≠ q.tag))) }) →
    (t = fireCue c s q → ∃ (u : State) (why : Option Reason), (u, why) = applyAction c q.action q.claim left ∧
      (why = none → t = { u.modChan c (fun x => { x with fired := (s.chan c).fired + 1 }) with
        spare := if q.claim = .granted then u.spare.leave c (.cue q.tag) else u.spare }) ∧
      (∀ r, why = some r → t = raiseChan c .cueFailed { u.modChan c (fun x => { x with
          failed := (s.chan c).failed + 1, lastFailure := some ⟨q.tag, r, q.action, (s.chan c).label⟩ }) with
        spare := if q.claim = .granted then u.spare.leave c (.cue q.tag) else u.spare }) ∧
      (t.chan c).cues = (s.chan c).cues.filter (fun y => decide (y.tag ≠ q.tag)) ∧
      (t.chan c).deferred = (s.chan c).deferred.map (fun l => l.filter (fun n => decide (n ≠ q.tag))) ∧
      (t.chan c).missed = (s.chan c).missed ∧ (t.chan c).removed = (s.chan c).removed ∧
      (t.chan c).mode = (s.chan c).mode ∧ (t.chan c).label = (s.chan c).label ∧
      (t.chan c).waiting = (s.chan c).waiting ∧ ∀ d, d ≠ c → t.chan d = s.chan d) ∧
    (t = missCue c s q → t = raiseChan c .cueMissed { left.modChan c (fun x => { x with
        missed := (s.chan c).missed + 1 }) with
      spare := if q.claim = .granted then s.spare.leave c (.cue q.tag) else s.spare }) ∧
    (t = prepareCue c s q → ∃ (sp : Spare) (ans : SpareAns),
      ((∀ p n, q.action ≠ .handover p n) ∨ (∃ p, q.action = .handover p 0) → sp = s.spare ∧ ans = .notAsked) ∧
      (∀ p n, q.action = .handover p n → 0 < n → (sp, ans) = s.spare.request c (.cue q.tag)) ∧
      t = { s.modChan c (fun x => { x with cues := x.cues.map (fun y =>
        if y.tag = q.tag then { y with prepared := true, late := false, claim := ans } else y) }) with
        spare := sp }) ∧
    (t = revertCue c s q → t = { s.modChan c (fun x => { x with cues := x.cues.map (fun y =>
        if y.tag = q.tag then { y with prepared := false, late := false, claim := .notAsked } else y) }) with
      spare := if q.claim = .granted then s.spare.leave c (.cue q.tag) else s.spare })

/-- O40. Dispatch at a frame start in AUTO. While the tracker is LOST it does nothing but note an entry into
AUTO (R19, R28). Otherwise the misses and the due items of R36 leave no same-day cue at or below the output
label and no late mark, the cues within the horizon are PREPARED, cues passed in a LOST have gone, and every
cue that left is counted fired, failed or missed (R19, R30, R31, R35, R36, R148, R151, R156, R159). At an
ordinary frame start the due cues fire in list order after the due expiries, and the rest are prepared
after them (R102, R148, R151). Where the tracker's hand-over puts a cue passed before LOST, or one accepted
in the late window of a LOST, log entry 13 says which; the order inside an owed midnight and an entry is that
of log entries 11 and 12. -/
def Obligations.DispatchInAuto : Prop :=
  ∀ (f : Format) (c : Chan) (entered : Bool) (k : Track) (s t : State), t = dispatch f c entered k s →
    (k.lost = true → entered = false → t = s) ∧
    (k.lost = true → entered = true → t = s.modChan c (fun x => { x with heldBack := true })) ∧
    (k.lost = false → (s.chan c).mode = .auto →
      (t.chan c).mode = .auto ∧ (t.chan c).heldBack = false ∧ (t.chan c).removed = (s.chan c).removed ∧
      (∀ q ∈ (t.chan c).cues, q.date.next = false → k.label < q.date.label ∧ q.late = false ∧
        (q.date.label ≤ k.label + 2 → q.prepared = true)) ∧
      (∀ q ∈ (t.chan c).cues, ∃ y ∈ (s.chan c).cues,
        y.tag = q.tag ∧ y.date.label = q.date.label ∧ y.action = q.action) ∧
      (∀ a, k.passedFrom = some a → ∀ q ∈ (s.chan c).cues, q.date.next = false → q.date.label ≤ k.prev →
        a ≤ q.date.label ∨ q.lostLate = true → q.tag ∉ (t.chan c).cues.map Cue.tag) ∧
      ((s.chan c).ListOk →
        (t.chan c).fired + (t.chan c).failed + (t.chan c).missed + BitVec.ofNat 16 (t.chan c).cues.length
          = (s.chan c).fired + (s.chan c).failed + (s.chan c).missed +
            BitVec.ofNat 16 (s.chan c).cues.length) ∧
      ((s.chan c).ListOk → k.owed = false →
        (t.chan c).missed = (s.chan c).missed + BitVec.ofNat 16 ((s.chan c).cues.filter (fun q =>
          !q.date.next && !q.late &&
          (if entered = true ∨ (s.chan c).heldBack = true then decide (q.date.label + f.rate ≤ k.label)
           else decide (k.finding = .jumpForward ∧ k.prev < q.date.label ∧ q.date.label < k.label)))).length) ∧
      ((s.chan c).ListOk → k.owed = true → entered = false → (s.chan c).heldBack = true →
        (t.chan c).missed = (s.chan c).missed + BitVec.ofNat 16 ((s.chan c).cues.filter (fun q =>
          !q.late && (!q.date.next || decide (q.date.label + f.rate ≤ k.label)))).length) ∧
      (entered = false → (s.chan c).heldBack = false → k.owed = false → k.midnight = .none →
        k.finding ≠ .jumpForward → k.passedFrom = none →
        ∃ u : State, u = (((expireZones c (fun l => decide (l ≤ k.label)) s).chan c).cues.filter
            (fun q => !q.date.next && (decide (q.date.label ≤ k.label) || q.late))).foldl (fireCue c)
            (expireZones c (fun l => decide (l ≤ k.label)) s) ∧
          t = ((u.chan c).cues.filter (fun q => !q.prepared && !q.date.next &&
            decide (q.date.label ≤ k.label + 2))).foldl (prepareCue c) u))

/-- O41. In BYPASS and THRU no cue fires, is missed or is prepared, but zone expiries take effect and
midnights clear the marks (R33, R35, R36, R102, R104, R151). In every mode a midnight leaves no cue with its
mark. A same-day expiry at or below the output label takes effect, at the end of a LOST too, and after a
jump back those above it wait (R103); at a midnight, an owed one included, all of the ended day do, and the
marked ones become same-day (R22, R34, R36, R102 to R104). That R103 stands for the expiries at the end of a
LOST is the model's reading (log entry 13). The expiries of the entry rule and of a midnight come where log
entries 11, 12 and 32 say. -/
def Obligations.MidnightsAndExpiries : Prop :=
  ∀ (f : Format) (c : Chan) (entered : Bool) (k : Track) (s t : State) (gone : Zone → Bool),
    t = dispatch f c entered k s → k.lost = false →
    (k.owed = true ∨ k.midnight ≠ .none → ∀ q ∈ (t.chan c).cues, q.date.next = false) ∧
    ((s.chan c).mode ≠ .auto → entered = false → (s.chan c).heldBack = false →
      (t.chan c).cues.map Cue.tag = (if k.owed = true ∨ k.midnight ≠ .none
        then (clearCueMarks (s.chan c).cues).map Cue.tag else (s.chan c).cues.map Cue.tag) ∧
      ((t.chan c).cues.map Cue.tag).Perm ((s.chan c).cues.map Cue.tag) ∧
      (t.chan c).fired = (s.chan c).fired ∧ (t.chan c).failed = (s.chan c).failed ∧
      (t.chan c).missed = (s.chan c).missed ∧ (t.chan c).removed = (s.chan c).removed ∧
      (t.chan c).lastFailure = (s.chan c).lastFailure ∧ (t.chan c).lastMarker = (s.chan c).lastMarker ∧
      (k.owed = false → k.midnight = .none →
        (∀ z, gone z = true ↔ ∃ d, z.expiry = some d ∧ d.next = false ∧ d.label ≤ k.label) →
        (t.chan c).zones = (s.chan c).zones.map (fun z =>
          if gone z then { z with active := false, expiry := none } else z)) ∧
      (k.owed = true ∧ k.midnight = .none ∨ k.owed = false ∧ k.midnight ≠ .none →
        (∀ z, gone z = true ↔ ∃ d, z.expiry = some d ∧ (d.next = false ∨ d.label ≤ k.label)) →
        (t.chan c).zones = (s.chan c).zones.map (fun z =>
          if gone z then { z with active := false, expiry := none }
          else { z with expiry := z.expiry.map (fun d => ⟨d.label, false⟩) })))

/-- O42. A frame start leaves no CH_TAKE action waiting: each is applied in the order of arrival after the
cues, and its claim leaves; a failure is recorded with tag 0 and raises CUE_FAILED, and no counter counts
it; a MARK waiting last is the last marker (R135, R158, R160, R185). -/
def Obligations.WaitingTakesApplied : Prop :=
  (∀ (f : Format) (s t : State) (c : Chan), t = chanFrameStart f s c →
    (t.chan c).waiting = [] ∧
    ∀ l id n ans, (s.chan c).waiting = l ++ [⟨id, .mark n, ans⟩] → (t.chan c).mode ≠ .bypass →
      (t.chan c).lastMarker = some ⟨n, (t.chan c).label⟩) ∧
  (∀ (s : State) (c : Chan), applyTakes c s
    = ((s.chan c).waiting.foldl (applyTake c) s).modChan c (fun x => { x with waiting := [] })) ∧
  ∀ (s t : State) (c : Chan) (w : Waiting), t = applyTake c s w →
    ∃ (u : State) (why : Option Reason), (u, why) = applyAction c w.action w.claim s ∧
      (why = none → t = { u with
        spare := if w.claim = .granted then u.spare.leave c (.take w.id) else u.spare }) ∧
      (∀ r, why = some r → t = raiseChan c .cueFailed { u.modChan c (fun x => { x with
          lastFailure := some ⟨0, r, w.action, (s.chan c).label⟩ }) with
        spare := if w.claim = .granted then u.spare.leave c (.take w.id) else u.spare }) ∧
      (t.chan c).cues = (s.chan c).cues ∧ (t.chan c).deferred = (s.chan c).deferred ∧
      (t.chan c).fired = (s.chan c).fired ∧ (t.chan c).failed = (s.chan c).failed ∧
      (t.chan c).missed = (s.chan c).missed ∧ (t.chan c).removed = (s.chan c).removed ∧
      (t.chan c).label = (s.chan c).label ∧ ∀ d, d ≠ c → t.chan d = s.chan d

/-! ### Steps inside a frame start -/

/-- O43. Four parts of a frame start as rows of their own. The flywheel count reaches R: the label is
flywheeled, the tracker is LOST, TC_LOST is raised, and a midnight passed is owed (R27, R28, R35). The due
expiries of a check take effect together: same-day and at or below the output label, the zone inactive, its
expiry gone, the rest of it standing; at most one resolution runs, and with a HIDDEN inset nothing else
changes (R101, R102). A glide ends on its target; a hold that reaches the hold time expires, and the frozen
frame takes the first of its 12 fade steps (R91, R95, R127, R129). That the rows TC_LOST, ZONE_EXPIRY,
GLIDE_END and HOLD_EXPIRED do these parts by themselves is the model's choice (log entry 6), that the hold
count is kept its reading (log entry 29), and the first label of a LOST its own note (log entry 13). -/
def Obligations.FlywheelExpiryGlideAndHoldRows : Prop :=
  (∀ (s : State) (f : Format) (c : Chan) (n : Nat), s.running = true → s.format = some f →
    (s.chan c).track = .flywheel → f.rate ≤ (s.chan c).flywheel + 1 → (s.chan c).sel.validWord = none →
    n = (if (s.chan c).sel.isRepeat then (s.chan c).label else ((s.chan c).label + 1) % f.day) →
    exec (.tcLost c) s = .next (raiseChan c .tcLost (s.modChan c (fun x => { x with
      label := n, track := .lost, flywheel := (s.chan c).flywheel + 1, lostFrom := n
      owed := (s.chan c).owed || (!(s.chan c).sel.isRepeat && decide ((s.chan c).label + 1 = f.day)) })))) ∧
  (∀ (s : State) (f : Format) (c : Chan), s.running = true → s.format = some f →
    (s.chan c).track ≠ .lost →
    (∀ l : List Zone, l = (s.chan c).zones.map (fun z => match z.expiry with
        | some d => if d.next = false ∧ d.label ≤ (s.chan c).label
            then { z with active := false, expiry := none } else z
        | none => z) →
      (activeView l = activeView (s.chan c).zones →
        exec (.zoneExpiry c) s = .next (s.modChan c (fun x => { x with zones := l }))) ∧
      (activeView l ≠ activeView (s.chan c).zones → exec (.zoneExpiry c) s
        = .next (resolveVisible c (s.chan c).defaultGlide (s.modChan c (fun x => { x with zones := l }))).1)) ∧
    (∃ t, exec (.zoneExpiry c) s = .next t ∧ (t.chan c).zones = (s.chan c).zones.map (fun z =>
      match z.expiry with
      | some d => if d.next = false ∧ d.label ≤ (s.chan c).label
          then { z with active := false, expiry := none } else z
      | none => z)) ∧
    ((s.chan c).inset = .hidden → exec (.zoneExpiry c) s = .next (s.modChan c (fun x => { x with
      zones := x.zones.map (fun z => match z.expiry with
        | some d => if d.next = false ∧ d.label ≤ (s.chan c).label
            then { z with active := false, expiry := none } else z
        | none => z) })))) ∧
  ∀ (s : State) (f : Format) (c : Chan), s.running = true → s.format = some f →
    (∀ g, (s.chan c).glide = some g → g.count ≤ g.step + 1 →
      exec (.glideEnd c) s = .next (s.modChan c (fun x => { x with
        shown := some g.target, glide := none
        displayed := (s.chan c).cur.map (fun o => ⟨g.target.x, g.target.y,
          derivedWidth (cropRect f (s.src o.src).cropForce).w (cropRect f (s.src o.src).cropForce).h g.target.h,
          g.target.h⟩) }))) ∧
    (∀ o, (s.chan c).inset = .held → (s.chan c).cur = some o → (s.chan c).out = none →
      (s.chan c).holdTime ≤ (s.chan c).holdCount + 1 →
      exec (.holdExpired c) s = .next (raiseChan c .holdExpired (s.modChan c (fun x => { x with
        inset := .fadingOut, paused := none, exitMark := true, holdCount := x.holdCount + 1
        cur := some { o with level := o.level - o.level / 12, fade := some ⟨o.level, 0, 12, 1⟩ } }))))

/-- O44. The end of a fade in FADING_IN, FADING_OUT, CROSSFADE and FORCED_OUT, of a source that is LOST and
with the exit mark set as well; a crossfade lets its outgoing source go, which is READY, or, where it was
LOST, DETECTING with signal and ABSENT without, its ring and counts empty (R49, R114, R116, R125, R135).
That the row FADE_END takes a fade's last step by itself is the model's choice (log entry 6), and that the
shown placement stands where a forced fade-out has reached 0 its reading (log entry 38). -/
def Obligations.FadeEndsByInset : Prop :=
  ∀ (s : State) (f : Format) (c : Chan) (o : OnAir) (fd : Fade), s.running = true → s.format = some f →
    (s.chan c).cur = some o → o.fade = some fd → fd.count ≤ fd.step + 1 →
    ((s.chan c).inset = .fadingIn → (s.chan c).out = none → exec (.fadeEnd c) s
      = .next (s.modChan c (fun x => { x with
          inset := .shown, cur := some { o with level := fd.target, fade := none } }))) ∧
    ((s.chan c).inset = .fadingOut ∨ (s.chan c).inset = .forcedOut ∧ (s.chan c).exitMark = true →
      (s.src o.src).owner = some c → (s.src o.src).state = .releasing →
      exec (.fadeEnd c) s = .next (raiseCard .sourceChange ((s.modSrc o.src (fun x => { x with
        state := .ready, owner := none, cropReport := false
        ring := { x.ring with inUse := none } })).modChan c Channel.hide))) ∧
    ((s.chan c).inset = .fadingOut ∨ (s.chan c).inset = .forcedOut →
      (s.src o.src).owner = some c → (s.src o.src).state = .lost →
      exec (.fadeEnd c) s = .next (raiseCard .sourceChange ((s.modSrc o.src (fun x => { x with
        state := if s.hasSignal o.src then .detecting else .absent
        owner := none, cropReport := false, ring := Ring.empty
        inRun := 0, outRun := 0, goodRun := 0, badRun := 0, rasterMark := false })).modChan c
          Channel.hide))) ∧
    ((s.chan c).inset = .crossfade → ∀ w, (s.chan c).out = some w → (s.src w.src).owner = some c →
      ∀ y : Source,
      (s.src w.src).state = .releasing ∧ y = { s.src w.src with
          state := .ready, owner := none, cropReport := false
          ring := { (s.src w.src).ring with inUse := none } } ∨
        (s.src w.src).state = .lost ∧ y = { s.src w.src with
          state := if s.hasSignal w.src then .detecting else .absent
          owner := none, cropReport := false, ring := Ring.empty
          inRun := 0, outRun := 0, goodRun := 0, badRun := 0, rasterMark := false } →
      exec (.fadeEnd c) s = .next { raiseCard .sourceChange ((s.modSrc w.src (fun _ => y)).modChan c
        (fun x => { x with
          inset := .shown, out := none, outRect := none
          cur := some { o with level := fd.target, fade := none } }))
        with spare := s.spare.leave c .crossfade }) ∧
    ((s.chan c).inset = .forcedOut → (s.chan c).out = none → (s.chan c).exitMark = false →
      (s.src o.src).state = .taken → exec (.fadeEnd c) s
        = .next (s.modChan c (fun x => { x with
            cur := some { o with level := fd.target, fade := none } })))

/-! ### Programme inputs and source ports -/

/-- O45. A programme frame start: the first begins an interval, a good and a bad one by the checker's state,
the third bad in a row loses the programme, the eighth good one brings it in or back. A complete programme
frame joins the store as its newest, the 22nd pushing out the oldest; one of another raster is abandoned;
while none is being written nothing changes. 2 × N ticks without a programme frame start lose a PRESENT
programme and zero the good count otherwise (R7, R8, R12, R13). That moments are those of the model's clock
is its choice (log entry 1), and so is the number that a stored frame carries (log entry 7); that a frame's
raster is judged once, as it completes, is its reading (log entry 42). -/
def Obligations.ProgrammeInputJudged : Prop :=
  (∀ (s : State) (f : Format) (c : Chan) (dt : Nat) (w h : Half), s.running = true → s.format = some f →
    ((s.chan c).pgmStart = none → exec (.pgmFrameStart c dt w h) s
      = .next (State.modChan { s with now := s.now + dt } c (fun x => { x with
          pgmStart := some (s.now + dt) }))) ∧
    ∀ last, (s.chan c).pgmStart = some last →
      (f.inWindow (s.now + dt - last) = true ∧ w.toNat = f.width ∧ h.toNat = f.height →
        ((s.chan c).pgm = .present → exec (.pgmFrameStart c dt w h) s
          = .next (State.modChan { s with now := s.now + dt } c (fun x => { x with
              pgmStart := some (s.now + dt), pgmGood := min 8 (x.pgmGood + 1), pgmBad := 0
              writing := true }))) ∧
        ((s.chan c).pgm ≠ .present → (s.chan c).pgmGood < 7 → exec (.pgmFrameStart c dt w h) s
          = .next (State.modChan { s with now := s.now + dt } c (fun x => { x with
              pgmStart := some (s.now + dt), pgmGood := x.pgmGood + 1, pgmBad := 0 }))) ∧
        ((s.chan c).pgm = .waiting → 7 ≤ (s.chan c).pgmGood → exec (.pgmFrameStart c dt w h) s
          = .next (State.modChan { s with now := s.now + dt } c (fun x => { x with
              pgmStart := some (s.now + dt), pgmGood := 8, pgmBad := 0, pgm := .present
              writing := true }))) ∧
        ((s.chan c).pgm = .lost → 7 ≤ (s.chan c).pgmGood → exec (.pgmFrameStart c dt w h) s
          = .next (State.modChan { s with now := s.now + dt } c (fun x => { x with
              pgmStart := some (s.now + dt), pgmGood := 8, pgmBad := 0, pgm := .present
              store := [], delay := 0, slew := 0, writing := true })))) ∧
      (¬(f.inWindow (s.now + dt - last) = true ∧ w.toNat = f.width ∧ h.toNat = f.height) →
        ((s.chan c).pgm = .present → (s.chan c).pgmBad < 2 → exec (.pgmFrameStart c dt w h) s
          = .next (State.modChan { s with now := s.now + dt } c (fun x => { x with
              pgmStart := some (s.now + dt), pgmGood := 0, pgmBad := x.pgmBad + 1, writing := true }))) ∧
        ((s.chan c).pgm = .present → 2 ≤ (s.chan c).pgmBad → exec (.pgmFrameStart c dt w h) s
          = .next (raiseChan c .pgmLoss (State.modChan { s with now := s.now + dt } c (fun x => { x with
              pgmStart := some (s.now + dt), pgm := .lost, pgmGood := 0, pgmBad := 0, writing := false
              drainRepeats := 0, drained := false })))) ∧
        ((s.chan c).pgm ≠ .present → exec (.pgmFrameStart c dt w h) s
          = .next (State.modChan { s with now := s.now + dt } c (fun x => { x with
              pgmStart := some (s.now + dt), pgmGood := 0, pgmBad := min 3 (x.pgmBad + 1) }))))) ∧
  ∀ (s : State) (f : Format) (c : Chan) (word : Option TcWord) (pic : Picture),
    s.running = true → s.format = some f →
    ((s.chan c).pgm = .present → (s.chan c).writing = true → pic.w = f.width → pic.h = f.height →
      exec (.pgmFrameComplete c word pic) s = .next (s.modChan c (fun x => { x with
        store := (if x.store.length = 21 then x.store.drop 1 else x.store) ++ [⟨x.serial, word, pic⟩]
        serial := x.serial + 1, writing := false }))) ∧
    ((s.chan c).pgm = .present → (s.chan c).writing = true → pic.w ≠ f.width ∨ pic.h ≠ f.height →
      exec (.pgmFrameComplete c word pic) s = .next (s.modChan c (fun x => { x with writing := false }))) ∧
    ((s.chan c).pgm ≠ .present ∨ (s.chan c).writing = false →
      exec (.pgmFrameComplete c word pic) s = .next s) ∧
    ∀ last, (s.chan c).pgmStart = some last →
      ((s.chan c).pgm = .present → exec (.pgmSilence c) s
        = .next (raiseChan c .pgmLoss (State.modChan { s with now := max s.now (last + 2 * f.period) } c
            (fun x => { x with
              pgm := .lost, pgmGood := 0, pgmBad := 0, writing := false, drainRepeats := 0
              drained := false })))) ∧
      ((s.chan c).pgm ≠ .present → exec (.pgmSilence c) s
        = .next (State.modChan { s with now := max s.now (last + 2 * f.period) } c
            (fun x => { x with pgmGood := 0 })))

/-- O46. A port frame start: it takes an ABSENT source to DETECTING; every later one ends an interval, whose
raster and length are stored and whose runs are counted, and is judged by the source's state: DETECTING
becomes READY or REJECTED, REJECTED is only counted, a qualified source's frame begins in its ring until the
third bad interval loses it, and a LOST one is TAKEN again at the eighth good one (R39 to R43, R50 to R52).
The owner told of a return takes the held source back on air, or releases one on its way out (R128, R131).
That a frame start which ends no interval stores the raster where the port had signal is the model's reading
(log entry 36). That moments are those of the model's clock is its choice (log entry 1). -/
def Obligations.PortFrameStartJudged : Prop :=
  (∀ (s s' : State) (p : Port) (dt : Nat) (w h : Half), s.running = true → s' = { s with now := s.now + dt } →
    ((s.src p).state = .absent → exec (.portFrameStart p dt w h) s
      = .next (raiseCard .sourceChange (s'.modSrc p (fun x => { x with
          state := .detecting, owner := none, ring := Ring.empty, cropReport := false
          lastStart := some s'.now, measuring := true
          lastW := if s'.hasSignal p then w else x.lastW, lastH := if s'.hasSignal p then h else x.lastH
          inRun := 0, outRun := 0, goodRun := 0, badRun := 0, rasterMark := false })))) ∧
    ((s.src p).state ≠ .absent → (s.src p).measuring = false → exec (.portFrameStart p dt w h) s
      = .next (s'.modSrc p (fun x => { x with
          lastStart := some s'.now, measuring := true
          lastW := if s'.hasSignal p then w else x.lastW
          lastH := if s'.hasSignal p then h else x.lastH }))) ∧
    ∀ (last : Nat) (x : Source), (s.src p).measuring = true → (s.src p).lastStart = some last →
      s'.now - last < 4294967296 →
      x = { s.src p with
        lastStart := some s'.now, lastInterval := BitVec.ofNat 32 (s'.now - last), lastW := w, lastH := h } →
      (s.format = none → (s.src p).state ≠ .absent →
        exec (.portFrameStart p dt w h) s = .next (s'.modSrc p (fun _ => x))) ∧
      ∀ (f : Format) (inW good : Bool) (y : Source), s.format = some f → inW = f.inWindow (s'.now - last) →
        (good = true ↔ inW = true ∧ w.toNat = f.width ∧ h.toNat = f.height) →
        y = { x with
          inRun := if inW then min 8 (x.inRun + 1) else 0, outRun := if inW then 0 else min 8 (x.outRun + 1)
          goodRun := if good then min 8 (x.goodRun + 1) else 0
          badRun := if good then 0 else min 3 (x.badRun + 1)
          rasterMark := inW && (x.rasterMark || !good) } →
        ((s.src p).state = .detecting ∧ y.inRun ≠ 8 ∧ y.outRun ≠ 8 ∨ (s.src p).state = .rejected ∨
            (s.src p).state = .lost ∧ y.goodRun ≠ 8 →
          exec (.portFrameStart p dt w h) s = .next (s'.modSrc p (fun _ => y))) ∧
        ((s.src p).state = .detecting → y.inRun = 8 → y.rasterMark = false →
          exec (.portFrameStart p dt w h) s = .next (raiseCard .sourceChange (s'.modSrc p (fun _ =>
            { y with state := .ready, ring := y.ring.begin })))) ∧
        ((s.src p).state = .detecting → y.inRun = 8 ∧ y.rasterMark = true ∨ y.outRun = 8 →
          exec (.portFrameStart p dt w h) s = .next (raiseCard .sourceChange (s'.modSrc p (fun _ =>
            { y with state := .rejected })))) ∧
        ((s.src p).state = .ready ∨ (s.src p).state = .taken ∨ (s.src p).state = .releasing →
          y.badRun ≠ 3 → exec (.portFrameStart p dt w h) s
            = .next (s'.modSrc p (fun _ => { y with ring := y.ring.begin }))) ∧
        ((s.src p).state = .ready → y.badRun = 3 →
          exec (.portFrameStart p dt w h) s = .next (raiseCard .sourceChange (s'.modSrc p (fun _ => { y with
            state := .absent, owner := none, ring := Ring.empty, cropReport := false
            inRun := 0, outRun := 0, goodRun := 0, badRun := 0, rasterMark := false })))) ∧
        ∀ c, (s.src p).owner = some c →
          ((s.src p).state = .taken ∨ (s.src p).state = .releasing → y.badRun = 3 →
            exec (.portFrameStart p dt w h) s = .next (reportLoss c p (raiseCard .sourceChange
              (s'.modSrc p (fun _ => { y with state := .lost, ring := y.ring.freeze }))))) ∧
          ((s.src p).state = .lost → y.goodRun = 8 →
            exec (.portFrameStart p dt w h) s = .next (reportReturn c p (raiseCard .sourceChange
              (s'.modSrc p (fun _ => { y with state := .taken, ring := y.ring.resume })))))) ∧
  ∀ (s : State) (c : Chan) (p : Port) (o : OnAir), (s.chan c).cur = some o →
    (o.src = p → (s.chan c).inset = .held → ∀ k, (s.chan c).paused = some k →
      reportReturn c p s = s.modChan c (fun x => { x with
        inset := match k with | .fadingIn => .fadingIn | .shown => .shown
        holdCount := 0, paused := none })) ∧
    ((o.src = p ∧ ((s.chan c).inset = .fadingOut ∨ (s.chan c).inset = .forcedOut ∧ (s.chan c).exitMark = true) ∨
        o.src ≠ p ∧ ∃ u, (s.chan c).out = some u ∧ u.src = p) →
      (s.src p).state = .taken → (s.src p).owner = some c →
      reportReturn c p s = raiseCard .sourceChange (s.modSrc p (fun x => { x with state := .releasing }))) ∧
    (o.src = p → (s.chan c).inset = .forcedOut → (s.chan c).exitMark = false → reportReturn c p s = s)

/-- O47. A port falls silent once the silence limit, 2 × N ticks with a house format and 2,160,000 without,
has passed: an unowned source enters ABSENT; an owned one is LOST with its ring frozen, and its owner is
told (R39, R43, R49, R50, R54). The owner told of a loss cuts to a standby that can be taken, or holds the
frozen frame (for a hold time of 0 it fades it out at once); in CROSSFADE it completes or ends the crossfade
and lets the outgoing source go, a LOST one to DETECTING or ABSENT with ring and counts empty; what was on
its way out goes on, or is let go where its forced fade-out has ended (R126, R127, R129 to R131). The shown
placement that CH_READ reports stands until the next frame start, or is none in HIDDEN (R90, R95). That
moments are those of the model's clock is its choice (log entry 1); that the inset stands at its new place
for the engine from a cut on (log entry 43), and that a completed crossfade stands at level 1024 at once
(log entry 44), are its readings. -/
def Obligations.SilentPortLosesItsSource : Prop :=
  (∀ (s : State) (p : Port) (last limit n : Nat), s.running = true → (s.src p).lastStart = some last →
    limit = (match s.format with | none => 2160000 | some f => 2 * f.period) → n = max s.now (last + limit) →
    ((s.src p).state = .detecting ∨ (s.src p).state = .rejected ∨ (s.src p).state = .ready →
      exec (.portSilence p) s = .next (raiseCard .sourceChange (State.modSrc { s with now := n } p
        (fun x => { x with
          state := .absent, owner := none, ring := Ring.empty, cropReport := false
          inRun := 0, outRun := 0, goodRun := 0, badRun := 0, rasterMark := false })))) ∧
    ((s.src p).state = .absent ∨ (s.src p).state = .lost →
      exec (.portSilence p) s = .next (State.modSrc { s with now := n } p (fun x => { x with
        inRun := 0, outRun := 0, goodRun := 0, badRun := 0, rasterMark := false }))) ∧
    ∀ (c : Chan) (t : State), (s.src p).owner = some c →
      t = raiseCard .sourceChange (State.modSrc { s with now := n } p (fun x => { x with
        state := .lost, ring := x.ring.freeze
        inRun := 0, outRun := 0, goodRun := 0, badRun := 0, rasterMark := false })) →
      ((s.src p).state = .taken ∨ (s.src p).state = .releasing →
        exec (.portSilence p) s = .next (reportLoss c p t)) ∧
      ∀ o : OnAir, (s.chan c).cur = some o → o.src = p →
        ((s.src p).state = .releasing → (s.chan c).inset = .fadingOut →
          exec (.portSilence p) s = .next (raiseChan c .sourceLost t)) ∧
        ((s.src p).state = .taken → (s.chan c).inset = .shown → (s.chan c).standby = none →
          0 < (s.chan c).holdTime →
          exec (.portSilence p) s = .next ((raiseChan c .sourceLost t).modChan c
            (fun x => { x with inset := .held, paused := some .shown, holdCount := 0 })))) ∧
  ∀ (s t : State) (c : Chan) (p : Port) (o : OnAir), t = reportLoss c p s → (s.chan c).cur = some o →
    ((t.chan c).displayed = (s.chan c).displayed ∨ (t.chan c).inset = .hidden ∧ (t.chan c).displayed = none) ∧
    (o.src = p → (s.chan c).inset = .fadingOut ∨ (s.chan c).inset = .held ∨
        (s.chan c).inset = .forcedOut ∧ o.fade ≠ none →
      t = raiseChan c .sourceLost s) ∧
    (∀ k, o.src = p →
      (s.chan c).inset = .fadingIn ∧ k = .fadingIn ∨ (s.chan c).inset = .shown ∧ k = .shown →
      (∀ q, (s.chan c).standby = some q → checkTake c q s ≠ none) →
      (0 < (s.chan c).holdTime → t = (raiseChan c .sourceLost s).modChan c (fun x => { x with
        inset := .held, paused := some k, holdCount := 0 })) ∧
      ((s.chan c).holdTime = 0 → t = raiseChan c .holdExpired ((raiseChan c .sourceLost s).modChan c
        (fun x => { x with
          inset := .fadingOut, paused := none, exitMark := true, holdCount := 0
          cur := some { o with fade := some ⟨o.level, 0, 12, 0⟩ } })))) ∧
    (∀ (q : Port) (f : Format) (res : Resolution), o.src = p →
      (s.chan c).inset = .fadingIn ∨ (s.chan c).inset = .shown → (s.chan c).standby = some q →
      (s.src q).state = .ready → (s.src p).state = .lost → (s.src p).owner = some c → s.format = some f →
      res = resolve f (cropRect f (s.src q).cropForce) (s.chan c).requested (s.chan c).zones
        (s.chan c).resolved →
      (t.chan c).home = some q ∧ (t.chan c).standby = none ∧ (t.chan c).resolved = res.rect ∧
      (t.chan c).outcome = some res.outcome ∧ t.notices.raw.hasChan c .sourceLost = true ∧
      t.src q = { s.src q with state := .taken, owner := some c } ∧ (t.src p).owner = none ∧
      (t.src p).state = (if s.hasSignal p then .detecting else .absent) ∧
      (∀ r, res.outcome ≠ .forcedOut → res.rect = some r →
        (t.chan c).inset = (s.chan c).inset ∧ (t.chan c).cur = some { o with src := q } ∧
        (t.chan c).shown = some ⟨r.x, r.y, r.h⟩ ∧ (t.chan c).glide = none) ∧
      (res.outcome = .forcedOut → (t.chan c).inset = .forcedOut ∧
        (t.chan c).cur = some { o with src := q, fade := some ⟨o.level, 0, 6, 0⟩ } ∧
        t.notices.raw.hasChan c .forcedOut = true)) ∧
    (∀ u : OnAir, (s.chan c).inset = .crossfade → (s.chan c).out = some u → u.src ≠ o.src →
      (s.src u.src).owner = some c → (s.src u.src).state = .releasing ∨ (s.src u.src).state = .lost →
      o.src = p ∨ u.src = p →
      (t.chan c).out = none ∧ (t.chan c).outRect = none ∧ t.spare = s.spare.leave c .crossfade ∧
      (t.src u.src).owner = none ∧ t.notices.raw.hasChan c .sourceLost = true ∧
      ((s.src u.src).state = .releasing → t.src u.src = { s.src u.src with
        state := .ready, owner := none, cropReport := false, ring := { (s.src u.src).ring with inUse := none } }) ∧
      ((s.src u.src).state = .lost → t.src u.src = { s.src u.src with
        state := if s.hasSignal u.src then .detecting else .absent
        owner := none, cropReport := false, ring := Ring.empty
        inRun := 0, outRun := 0, goodRun := 0, badRun := 0, rasterMark := false }) ∧
      (u.src = p → (t.chan c).inset = .fadingIn ∧ (t.chan c).cur = some o) ∧
      (o.src = p → 0 < (s.chan c).holdTime → (t.chan c).inset = .held ∧ (t.chan c).holdCount = 0 ∧
        (t.chan c).paused = some .shown ∧ (t.chan c).cur = some { o with level := 1024, fade := none }) ∧
      (o.src = p → (s.chan c).holdTime = 0 → (t.chan c).inset = .fadingOut ∧ (t.chan c).exitMark = true ∧
        (t.chan c).cur = some { o with level := 1024, fade := some ⟨1024, 0, 12, 0⟩ } ∧
        t.notices.raw.hasChan c .holdExpired = true)) ∧
    (o.src = p → (s.chan c).inset = .forcedOut → o.fade = none → (s.src p).state = .lost →
      (s.src p).owner = some c →
      t.chan c = (s.chan c).hide ∧ (t.src p).owner = none ∧
      (t.src p).state = (if s.hasSignal p then .detecting else .absent) ∧
      t.notices.raw.hasChan c .sourceLost = true)

/-- O48. A source frame completes in its ring, one of another raster leaves its slot empty, and nothing is
written in the other states (R52, R54). A frame that begins cuts one still being written and takes a slot
that is neither the newest COMPLETE one nor the one in use, an EMPTY one before the oldest COMPLETE one
(R52). A ring that freezes keeps its newest COMPLETE slot, frozen, and empties the rest; one that resumes
clears the frozen mark, keeps that slot and begins a frame (R54). That the raster is judged once, as the
frame completes, is the model's reading (log entry 42). -/
def Obligations.SourceFrameIsWritten : Prop :=
  (∀ (s : State) (f : Format) (p : Port) (pic : Picture), s.running = true → s.format = some f →
    ((s.src p).state = .ready ∨ (s.src p).state = .taken ∨ (s.src p).state = .releasing →
      (pic.w = f.width → pic.h = f.height → exec (.sourceFrameComplete p pic) s
        = .next (s.modSrc p (fun x => { x with ring := x.ring.finish pic })) ∧
        ∀ i, (s.src p).ring.writingSlot = some i →
          (((s.src p).ring.finish pic).get i).picture = some pic ∧
          ((s.src p).ring.finish pic).newest = some i) ∧
      (pic.w ≠ f.width ∨ pic.h ≠ f.height → exec (.sourceFrameComplete p pic) s
        = .next (s.modSrc p (fun x => { x with ring := x.ring.cut })))) ∧
    ((s.src p).state = .absent ∨ (s.src p).state = .detecting ∨ (s.src p).state = .rejected ∨
        (s.src p).state = .lost → exec (.sourceFrameComplete p pic) s = .next s)) ∧
  (∀ (r cut t : Ring) (free : SlotId → Prop),
    cut = ⟨if r.a = .writing then .empty else r.a, if r.b = .writing then .empty else r.b,
      if r.c = .writing then .empty else r.c, r.inUse, r.frozen⟩ →
    free = (fun i => cut.newest ≠ some i ∧ r.inUse ≠ some i) → t = r.begin →
    ∃ i, free i ∧ t = cut.set i .writing ∧ t.writingSlot = some i ∧ (∀ j, j ≠ i → t.get j = cut.get j) ∧
      ((∃ j, free j ∧ cut.get j = .empty) → cut.get i = .empty) ∧
      ((∀ j, free j → cut.get j ≠ .empty) → ∀ j m n p q, free j → cut.get i = .complete m p →
        cut.get j = .complete n q → m ≤ n)) ∧
  ∀ r : Ring,
    ((∀ i n pic, r.get i ≠ .complete n pic) → r.freeze = ⟨.empty, .empty, .empty, r.inUse, none⟩) ∧
    (∀ i n pic, r.get i = .complete n pic → (∀ j m q, j ≠ i → r.get j = .complete m q → m < n) →
      r.freeze.get i = .complete n pic ∧ (∀ j, j ≠ i → r.freeze.get j = .empty) ∧
      r.freeze.frozen = some i ∧ r.freeze.inUse = r.inUse ∧ r.freeze.newest = some i ∧
      r.resume.get i = .complete n pic ∧ r.resume.newest = some i) ∧
    r.resume = ({ r with frozen := none } : Ring).begin ∧ r.resume.frozen = none ∧ r.resume.inUse = r.inUse

/-! ### On-air actions -/

/-- O49. What a take answers, by the source's state and owner, and what a granted take makes of the source;
a check changes nothing, so a refused SHOW leaves the card as it was (R46, R47, R118). -/
def Obligations.TakeAnsweredByStateAndOwner : Prop :=
  ∀ (s : State) (c : Chan) (p : Port) (n : Nat),
    ((s.src p).state = .ready → checkTake c p s = none) ∧
    ((s.src p).state = .releasing → (s.src p).owner = some c → checkTake c p s = none) ∧
    ((s.src p).state = .taken ∨ (s.src p).state = .lost ∨ (s.src p).state = .releasing →
      (s.src p).owner ≠ some c → checkTake c p s = some .sourceBusy) ∧
    ((s.src p).state = .taken ∨ (s.src p).state = .lost → (s.src p).owner = some c →
      checkTake c p s = some .sourceNotReady) ∧
    ((s.src p).state = .absent ∨ (s.src p).state = .detecting ∨ (s.src p).state = .rejected →
      checkTake c p s = some .sourceNotReady) ∧
    (grantTake c p s).src p = { s.src p with state := .taken, owner := some c } ∧
    (∀ q, q ≠ p → (grantTake c p s).src q = s.src q) ∧
    ∀ e, (s.chan c).inset = .hidden → checkTake c p s = some e → doShow c (some p) n s = (s, some e)

/-- O50. SHOW from HIDDEN takes the source, makes it the home source, resolves and fades in, or shows at
once for a count of 0, or ends FORCED_OUT with the source off air; in FADING_OUT it takes its source back;
in the other states it has no effect or fails (R46, R90, R118, R124). That a glide of count 0 is kept until
the frame start that ends it is the model's reading (log entry 34). -/
def Obligations.ShowActsByInset : Prop :=
  ∀ (s t : State) (f : Format) (c : Chan) (p : Port) (n : Nat) (res : Resolution) (why : Option Reason),
    s.format = some f → (t, why) = doShow c (some p) n s →
    res = resolve f (cropRect f (s.src p).cropForce) (s.chan c).requested (s.chan c).zones
      (s.chan c).resolved →
    ((s.chan c).home = some p → doShow c none n s = doShow c (some p) n s) ∧
    ((s.chan c).home = none → doShow c none n s = (s, some .noHome)) ∧
    ((s.chan c).inset = .hidden → ∀ k, doHandover c p n k s = doShow c (some p) n s) ∧
    ((s.chan c).inset = .hidden → (s.src p).state = .ready →
      why = none ∧ t.src p = { s.src p with state := .taken, owner := some c } ∧
      (∀ q, q ≠ p → t.src q = s.src q) ∧ t.notices.raw.hasCard .sourceChange = true ∧
      (t.chan c).home = some p ∧ (t.chan c).exitMark = false ∧ (t.chan c).resolved = res.rect ∧
      (t.chan c).outcome = some res.outcome ∧
      (∀ r, res.outcome ≠ .forcedOut → res.rect = some r →
        (t.chan c).shown = some ⟨r.x, r.y, r.h⟩ ∧ (t.chan c).glide = none ∧
        (n = 0 → (t.chan c).inset = .shown ∧ (t.chan c).cur = some ⟨p, 1024, none⟩) ∧
        (0 < n → (t.chan c).inset = .fadingIn ∧ (t.chan c).cur = some ⟨p, 0, some ⟨0, 1024, n, 0⟩⟩)) ∧
      (res.outcome = .forcedOut → (t.chan c).inset = .forcedOut ∧ (t.chan c).cur = some ⟨p, 0, none⟩ ∧
        t.notices.raw.hasChan c .forcedOut = true)) ∧
    ((s.chan c).inset = .hidden → ∀ e, checkTake c p s = some e → t = s ∧ why = some e) ∧
    ∀ o, (s.chan c).cur = some o →
      ((s.chan c).inset = .fadingIn ∨ (s.chan c).inset = .shown ∨ (s.chan c).inset = .crossfade ∨
          (s.chan c).inset = .forcedOut →
        t = s ∧ why = if o.src = p then none else some .wrongState) ∧
      ((s.chan c).inset = .held ∨ (s.chan c).inset = .fadingOut ∧ o.src ≠ p → t = s ∧ why = some .wrongState) ∧
      ((s.chan c).inset = .fadingOut → o.src = p → (s.src p).state = .lost → (s.src p).owner = some c →
        t = s ∧ why = some .sourceNotReady) ∧
      ((s.chan c).inset = .fadingOut → o.src = p → (s.src p).state = .releasing → (s.src p).owner = some c →
        why = none ∧ t.src p = { s.src p with state := .taken } ∧ (t.chan c).exitMark = false ∧
        (t.chan c).resolved = res.rect ∧ (t.chan c).outcome = some res.outcome ∧
        (res.outcome ≠ .forcedOut → n = 0 →
          (t.chan c).inset = .shown ∧ (t.chan c).cur = some { o with level := 1024, fade := none }) ∧
        (res.outcome ≠ .forcedOut → 0 < n → (t.chan c).inset = .fadingIn ∧
          (t.chan c).cur = some { o with fade := some ⟨o.level, 1024, n, 0⟩ }) ∧
        (∀ r v, res.rect = some r → (s.chan c).shown = some v → (s.chan c).glide = none →
          res.outcome ≠ .forcedOut → res.outcome ≠ .heldPlace → v ≠ ⟨r.x, r.y, r.h⟩ →
          (t.chan c).shown = some v ∧
            (t.chan c).glide = some ⟨v, ⟨r.x, r.y, r.h⟩, (s.chan c).defaultGlide, 0⟩) ∧
        (res.outcome = .forcedOut → (t.chan c).inset = .forcedOut ∧ (t.chan c).glide = none ∧
          (t.chan c).cur = some { o with fade := some ⟨o.level, 0, 6, 0⟩ }))

/-- O51. HIDE: nothing in HIDDEN; in FADING_IN and SHOWN the source is RELEASING and fades out with the exit
mark set; a fade-out restarts; a crossfade ends for it, its outgoing source let go, a LOST one to DETECTING
or ABSENT with ring and counts empty, and its claim dropped; a hold ends and its frozen frame fades out; in
FORCED_OUT, and everywhere for a count of 0, the source is let go and the inset HIDDEN (R48, R49, R116,
R119, R135). -/
def Obligations.HideActsByInset : Prop :=
  ∀ (s t : State) (c : Chan) (o : OnAir) (n : Nat), t = doHide c n s →
    ((s.chan c).inset = .hidden → t = s) ∧
    ((s.chan c).cur = some o → (s.src o.src).owner = some c →
      ((s.chan c).inset = .fadingIn ∨ (s.chan c).inset = .shown → (s.src o.src).state = .taken → 0 < n →
        t = (raiseCard .sourceChange (s.modSrc o.src (fun x => { x with state := .releasing }))).modChan c
          (fun x => { x with
            inset := .fadingOut, exitMark := true, paused := none
            cur := some { o with fade := some ⟨o.level, 0, n, 0⟩ } })) ∧
      ((s.chan c).inset = .fadingOut → 0 < n →
        t = s.modChan c (fun x => { x with
          exitMark := true, paused := none, cur := some { o with fade := some ⟨o.level, 0, n, 0⟩ } })) ∧
      ((s.chan c).inset = .held → 0 < n →
        t = s.modChan c (fun x => { x with
          inset := .fadingOut, exitMark := true, paused := none, holdCount := 0
          cur := some { o with fade := some ⟨o.level, 0, n, 0⟩ } })) ∧
      (∀ u : OnAir, (s.chan c).inset = .crossfade → (s.chan c).out = some u → u.src ≠ o.src →
        (s.src u.src).owner = some c → (s.src u.src).state = .releasing ∨ (s.src u.src).state = .lost →
        (s.src o.src).state = .taken →
        ((s.src u.src).state = .releasing → t.src u.src = { s.src u.src with
          state := .ready, owner := none, cropReport := false
          ring := { (s.src u.src).ring with inUse := none } }) ∧
        ((s.src u.src).state = .lost → t.src u.src = { s.src u.src with
          state := if s.hasSignal u.src then .detecting else .absent
          owner := none, cropReport := false, ring := Ring.empty
          inRun := 0, outRun := 0, goodRun := 0, badRun := 0, rasterMark := false }) ∧
        t.spare = s.spare.leave c .crossfade ∧
        (0 < n → (t.src o.src).state = .releasing ∧ t.chan c = { s.chan c with
          inset := .fadingOut, exitMark := true, paused := none, out := none, outRect := none
          cur := some { o with fade := some ⟨o.level, 0, n, 0⟩ } }) ∧
        (n = 0 → (t.src o.src).state = .ready ∧ (t.src o.src).owner = none ∧ t.chan c = (s.chan c).hide)) ∧
      ((s.chan c).inset = .forcedOut ∨ (s.chan c).inset ≠ .hidden ∧ (s.chan c).inset ≠ .crossfade ∧ n = 0 →
        t.chan c = (s.chan c).hide ∧
        ((s.src o.src).state = .taken ∨ (s.src o.src).state = .releasing →
          t.src o.src = { s.src o.src with
            state := .ready, owner := none, cropReport := false
            ring := { (s.src o.src).ring with inUse := none } }) ∧
        ((s.src o.src).state = .lost → (t.src o.src).owner = none ∧ (t.src o.src).ring = Ring.empty ∧
          (t.src o.src).state = if s.hasSignal o.src then .detecting else .absent)))

/-- O52. HANDOVER. Naming the source on air, or the outgoing one of a crossfade, it has no effect, and a
refused take leaves the card as it was. In FADING_IN, SHOWN, FADING_OUT and HELD it hands over: with a count
and the spare a crossfade from the shown rectangle, without either a cut, DEGRADED where a crossfade was
asked for, or the end in FORCED_OUT with the source off air. In CROSSFADE the running one completes first;
in FORCED_OUT the named source replaces the one off air (R46, R49, R120 to R122, R124, R125, R134). That it
then comes on from level 0 is the model's reading (log entry 18), and so is what an end in FORCED_OUT clears
(log entry 19) and that HELD_PLACE counts as fitting in FORCED_OUT (log entry 33). -/
def Obligations.HandoverCrossfadesOrCuts : Prop :=
  (∀ (s : State) (f : Format) (c : Chan) (p : Port) (n : Nat) (claim : SpareAns) (old : OnAir),
    s.format = some f → (s.chan c).inset = .shown → (s.chan c).cur = some old → old.src ≠ p →
    (s.chan c).out = none → (s.src p).state = .ready → (s.src old.src).state = .taken →
    (s.src old.src).owner = some c →
    (resolve f (cropRect f (s.src p).cropForce) (s.chan c).requested (s.chan c).zones
      (s.chan c).resolved).outcome ≠ .forcedOut →
    ∃ t, doHandover c p n claim s = (t, none) ∧
      (t.chan c).home = some p ∧ (t.chan c).glide = none ∧ (t.src p).state = .taken ∧
      (t.src p).owner = some c ∧
      (t.chan c).resolved = (resolve f (cropRect f (s.src p).cropForce) (s.chan c).requested
        (s.chan c).zones (s.chan c).resolved).rect ∧
      (0 < n → s.spare.hasIt c = true ∨ claim = .notAsked ∧ s.spare = .free →
        (t.chan c).inset = .crossfade ∧ (t.chan c).cur = some ⟨p, 0, some ⟨0, 1024, n, 0⟩⟩ ∧
        (t.chan c).out = some { old with fade := some ⟨old.level, 0, n, 0⟩ } ∧
        (t.chan c).outRect = shownRect c s ∧ (t.src old.src).state = .releasing ∧
        t.spare = (s.spare.request c .crossfade).1) ∧
      (n = 0 ∨ s.spare.hasIt c = false ∧ (claim ≠ .notAsked ∨ s.spare ≠ .free) →
        (t.chan c).inset = .shown ∧ (t.chan c).cur = some ⟨p, 1024, none⟩ ∧ (t.chan c).out = none ∧
        (t.src old.src).state = .ready ∧ (t.src old.src).owner = none ∧
        (0 < n → t.notices.raw.hasChan c .degraded = true))) ∧
  (∀ (s t : State) (c : Chan) (p : Port) (n : Nat) (claim : SpareAns) (why : Option Reason) (o : OnAir),
    (t, why) = doHandover c p n claim s → (s.chan c).inset ≠ .hidden → (s.chan c).cur = some o →
    (o.src = p ∨ (s.chan c).inset = .crossfade ∧ (∃ u, (s.chan c).out = some u ∧ u.src = p) →
      t = s ∧ why = none) ∧
    (∀ e, o.src ≠ p → ((s.chan c).inset = .crossfade → ∀ u, (s.chan c).out = some u → u.src ≠ p) →
      checkTake c p s = some e → t = s ∧ why = some e)) ∧
  ∀ (s t : State) (f : Format) (c : Chan) (p : Port) (n : Nat) (claim : SpareAns) (old : OnAir)
    (res : Resolution) (why : Option Reason) (gone : Port → Prop),
    (t, why) = doHandover c p n claim s → s.format = some f → (s.chan c).cur = some old → old.src ≠ p →
    (s.src p).state = .ready → (s.src old.src).owner = some c →
    res = resolve f (cropRect f (s.src p).cropForce) (s.chan c).requested (s.chan c).zones
      (s.chan c).resolved →
    gone = (fun q => (t.src q).owner = none ∧
      ((s.src q).state = .taken ∨ (s.src q).state = .releasing → t.src q = { s.src q with
        state := .ready, owner := none, cropReport := false, ring := { (s.src q).ring with inUse := none } }) ∧
      ((s.src q).state = .lost → t.src q = { s.src q with
        state := if s.hasSignal q then .detecting else .absent
        owner := none, cropReport := false, ring := Ring.empty
        inRun := 0, outRun := 0, goodRun := 0, badRun := 0, rasterMark := false })) →
    (s.src old.src).state = .taken ∨ (s.src old.src).state = .releasing ∨ (s.src old.src).state = .lost →
    ((s.chan c).inset ≠ .hidden →
      ((s.chan c).inset = .crossfade → ∀ u, (s.chan c).out = some u → u.src ≠ p) →
      why = none ∧ (t.chan c).home = some p ∧ t.src p = { s.src p with state := .taken, owner := some c } ∧
      (t.chan c).exitMark = false ∧ (t.chan c).resolved = res.rect ∧ (t.chan c).outcome = some res.outcome ∧
      (res.outcome = .forcedOut → t.notices.raw.hasChan c .forcedOut = true ∧
        (t.chan c).inset = .forcedOut)) ∧
    (∀ (from_ : OnAir),
      (((s.chan c).inset = .fadingIn ∨ (s.chan c).inset = .shown ∨ (s.chan c).inset = .fadingOut ∨
          (s.chan c).inset = .held) ∧ (s.chan c).out = none ∧ from_ = old ∨
        (s.chan c).inset = .crossfade ∧ from_ = { old with level := 1024, fade := none } ∧
          ∃ u, (s.chan c).out = some u ∧ u.src ≠ old.src ∧ u.src ≠ p ∧ (s.src u.src).owner = some c ∧
            ((s.src u.src).state = .releasing ∨ (s.src u.src).state = .lost)) →
      (t.chan c).holdCount = 0 ∧ (t.chan c).paused = none ∧ (t.chan c).glide = none ∧
      (∀ u, (s.chan c).inset = .crossfade → (s.chan c).out = some u → gone u.src) ∧
      (∀ r, res.outcome ≠ .forcedOut → res.rect = some r → (t.chan c).shown = some ⟨r.x, r.y, r.h⟩ ∧
        (0 < n → s.spare.hasIt c = true ∨ claim = .notAsked ∧ s.spare = .free →
          (t.chan c).inset = .crossfade ∧ (t.chan c).cur = some ⟨p, 0, some ⟨0, 1024, n, 0⟩⟩ ∧
          (t.chan c).out = some { from_ with fade := some ⟨from_.level, 0, n, 0⟩ } ∧
          (t.chan c).outRect = shownRect c s ∧ (t.src old.src).owner = some c ∧
          (t.src old.src).state = (if (s.src old.src).state = .lost then .lost else .releasing) ∧
          t.spare = (s.spare.request c .crossfade).1) ∧
        (n = 0 ∨ s.spare.hasIt c = false ∧ (claim ≠ .notAsked ∨ s.spare ≠ .free) →
          (t.chan c).inset = .shown ∧ (t.chan c).cur = some ⟨p, 1024, none⟩ ∧ (t.chan c).out = none ∧
          (t.chan c).outRect = none ∧ gone old.src ∧ t.spare = s.spare.leave c .crossfade ∧
          (0 < n → t.notices.raw.hasChan c .degraded = true) ∧
          (n = 0 → t.notices.raw.hasChan c .degraded = s.notices.raw.hasChan c .degraded))) ∧
      (res.outcome = .forcedOut → (t.chan c).cur = some ⟨p, 0, none⟩ ∧ (t.chan c).out = none ∧
        (t.chan c).outRect = none ∧ gone old.src ∧ t.spare = s.spare.leave c .crossfade)) ∧
    ((s.chan c).inset = .forcedOut → gone old.src ∧ t.spare = s.spare ∧
      t.notices.raw.hasChan c .degraded = s.notices.raw.hasChan c .degraded ∧
      (∀ r, res.outcome ≠ .forcedOut → res.rect = some r →
        (t.chan c).inset = .fadingIn ∧ (t.chan c).cur = some ⟨p, 0, some ⟨0, 1024, 6, 0⟩⟩ ∧
        (t.chan c).shown = some ⟨r.x, r.y, r.h⟩ ∧ (t.chan c).glide = none) ∧
      (res.outcome = .forcedOut → (t.chan c).cur = some { old with src := p }))

/-- O53. PLACE replaces the requested placement and resolves: the result glides in over the action's count,
or the default glide, takes the inset off air, or brings it back from FORCED_OUT. PUSH stacks the requested
placement and spills the bottom of a full stack, POP restores the top, and both then do as PLACE does; an
empty stack spills and fails. ZONE changes its entry, and resolves where the ACTIVE zones changed; MARK
writes the last marker; STANDBY sets the standby source; SHOW, HIDE and HANDOVER act as ShowActsByInset,
HideActsByInset and HandoverCrossfadesOrCuts say (R85 to R90, R100, R101, R123, R124, R158). That a cut, a
glide of count 0, is kept as one until the frame start that ends it is the model's reading (log entry 34),
and so is that HELD_PLACE brings a FORCED_OUT inset back (log entry 33). What a resolution makes of the
fault record is that of ResolutionIsHandedOn. -/
def Obligations.PlacementZoneMarkerActions : Prop :=
  (∀ (s t : State) (c : Chan) (b : Block) (g : Option Nat), t = doPlace c b g s →
    ((s.chan c).inset = .hidden → t = s.modChan c (fun x => { x with requested := b })) ∧
    (t.chan c).requested = b ∧ (t.chan c).stack = (s.chan c).stack ∧
    t = (resolveVisible c (g.getD (s.chan c).defaultGlide)
      (s.modChan c (fun x => { x with requested := b }))).1 ∧
    ∀ (f : Format) (o : OnAir) (res : Resolution), s.format = some f → (s.chan c).cur = some o →
      (s.chan c).inset ≠ .hidden →
      res = resolve f (cropRect f (s.src o.src).cropForce) b (s.chan c).zones (s.chan c).resolved →
      (t.chan c).resolved = res.rect ∧ (t.chan c).outcome = some res.outcome ∧
      (∀ r v n, (s.chan c).inset ≠ .forcedOut → res.outcome ≠ .forcedOut → res.rect = some r →
        (s.chan c).shown = some v → n = g.getD (s.chan c).defaultGlide →
        (t.chan c).inset = (s.chan c).inset ∧ (t.chan c).cur = some o ∧
        (res.outcome ≠ .heldPlace →
          ((s.chan c).glide = none → v = ⟨r.x, r.y, r.h⟩ →
            (t.chan c).shown = some v ∧ (t.chan c).glide = none) ∧
          (∀ old, (s.chan c).glide = some old → old.target = ⟨r.x, r.y, r.h⟩ →
            (t.chan c).shown = some v ∧ (t.chan c).glide = some old) ∧
          ((s.chan c).glide = none ∧ v ≠ ⟨r.x, r.y, r.h⟩ ∨
              (∃ old, (s.chan c).glide = some old ∧ old.target ≠ ⟨r.x, r.y, r.h⟩) →
            (t.chan c).shown = some v ∧ (t.chan c).glide = some ⟨v, ⟨r.x, r.y, r.h⟩, n, 0⟩)) ∧
        (res.outcome = .heldPlace →
          (t.chan c).shown = some v ∧ (t.chan c).glide = (s.chan c).glide)) ∧
      (∀ r, (s.chan c).inset = .forcedOut → (s.chan c).exitMark = false → (s.src o.src).state = .taken →
        res.outcome ≠ .forcedOut → res.rect = some r →
        (t.chan c).inset = .fadingIn ∧ (t.chan c).shown = some ⟨r.x, r.y, r.h⟩ ∧ (t.chan c).glide = none ∧
        (t.chan c).cur = some { o with fade := some ⟨o.level, 1024, 6, 0⟩ }) ∧
      (res.outcome = .forcedOut → t.notices.raw.hasChan c .forcedOut = true ∧
        (t.chan c).inset = .forcedOut ∧
        ((s.chan c).inset ≠ .forcedOut →
          (t.chan c).cur = some { o with fade := some ⟨o.level, 0, 6, 0⟩ } ∧ (t.chan c).glide = none))) ∧
  (∀ (s : State) (c : Chan) (b : Block) (g : Option Nat),
    ((s.chan c).stack.length < 4 → doPush c b g s = doPlace c b g (s.modChan c (fun x => { x with
      stack := x.stack ++ [x.requested] }))) ∧
    (4 ≤ (s.chan c).stack.length → doPush c b g s
      = doPlace c b g (raiseChan c .stackSpill (s.modChan c (fun x => { x with
          stack := x.stack.drop 1 ++ [x.requested] })))) ∧
    ((doPush c b g s).chan c).requested = b ∧
    ((s.chan c).stack.length < 4 →
      ((doPush c b g s).chan c).stack = (s.chan c).stack ++ [(s.chan c).requested]) ∧
    (4 ≤ (s.chan c).stack.length →
      ((doPush c b g s).chan c).stack = (s.chan c).stack.drop 1 ++ [(s.chan c).requested] ∧
      (doPush c b g s).notices.raw.hasChan c .stackSpill = true) ∧
    ((s.chan c).stack = [] → doPop c g s = (raiseChan c .stackSpill s, some .emptyStack)) ∧
    ∀ (l : List Block) (x : Block), (s.chan c).stack = l ++ [x] →
      doPop c g s = (doPlace c x g (s.modChan c (fun y => { y with stack := l })), none) ∧
      ((doPop c g s).1.chan c).stack = l ∧ ((doPop c g s).1.chan c).requested = x) ∧
  (∀ (s t : State) (c : Chan) (i : Nat) (on : Bool) (e : Option Dated) (why : Option Reason) (l : List Zone),
    (t, why) = doZone c i on e s →
    l = (s.chan c).zones.set i { zoneAt (s.chan c).zones i with
      active := on, expiry := if on then e else none } →
    (on = true → (zoneAt (s.chan c).zones i).defined = false → t = s ∧ why = some .noZone) ∧
    (on = false ∨ (zoneAt (s.chan c).zones i).defined = true →
      why = none ∧ (t.chan c).zones = l ∧
      ((s.chan c).inset = .hidden ∨ activeView l = activeView (s.chan c).zones →
        t = s.modChan c (fun x => { x with zones := l })) ∧
      (activeView l ≠ activeView (s.chan c).zones → t = (resolveVisible c (s.chan c).defaultGlide
        (s.modChan c (fun x => { x with zones := l }))).1) ∧
      ∀ (f : Format) (o : OnAir) (res : Resolution), s.format = some f → (s.chan c).cur = some o →
        (s.chan c).inset ≠ .hidden → activeView l ≠ activeView (s.chan c).zones →
        res = resolve f (cropRect f (s.src o.src).cropForce) (s.chan c).requested l (s.chan c).resolved →
        (t.chan c).resolved = res.rect ∧ (t.chan c).outcome = some res.outcome)) ∧
  ∀ (s : State) (c : Chan) (k : SpareAns) (b : Block) (g : Option Nat) (i n : Nat) (p : Option Port)
    (q : Port) (on : Bool) (e : Option Dated),
    applyAction c (.place b g) k s = (doPlace c b g s, none) ∧
    applyAction c (.push b g) k s = (doPush c b g s, none) ∧ applyAction c (.pop g) k s = doPop c g s ∧
    applyAction c (.zone i on e) k s = doZone c i on e s ∧
    applyAction c (.mark n) k s = (raiseChan c .mark (s.modChan c (fun x => { x with
      lastMarker := some ⟨n, x.label⟩ })), none) ∧
    applyAction c (.standby p) k s = (s.modChan c (fun x => { x with standby := p }), none) ∧
    applyAction c (.showInset p n) k s = doShow c p n s ∧ applyAction c (.hide n) k s = (doHide c n s, none) ∧
    applyAction c (.handover q n) k s = doHandover c q n k s

/-- O54. A resolution is stored and handed on. The fault record takes any outcome but AS_REQUESTED: an empty
one is written with the label, the requested rectangle, what blocked it and the outcome, and raises
PLACE_FAULT, an occupied one only counts, up to 255; FORCED_OUT raises its notice (R85, R105 to R108). The
blocking zone is the first ACTIVE one that overlaps the requested rectangle (R107). FORCED_OUT takes the
inset off air by its state, lets the outgoing source of a crossfade go, and a later resolution that fits
brings it back from the level it stands at, where the exit mark is clear and the source TAKEN (R49, R124,
R125); the shown placement reported stands until the frame start (R95); that HELD_PLACE counts as fitting
there is the model's reading (log entry 33), and so is that a resolution that fits and brings nothing back
starts no glide (log entry 40) and that the shown placement stands there (log entry 38), and that the engine
has the inset at its new place from the event that brings it back (log entry 43). -/
def Obligations.ResolutionIsHandedOn : Prop :=
  (∀ (s : State) (c : Chan) (n : Nat), (s.chan c).inset = .hidden → resolveVisible c n s = (s, none)) ∧
  (∀ (s t : State) (f : Format) (c : Chan) (o : OnAir) (n : Nat) (res : Resolution), s.format = some f →
    (s.chan c).inset ≠ .hidden → (s.chan c).cur = some o →
    res = resolve f (cropRect f (s.src o.src).cropForce) (s.chan c).requested (s.chan c).zones
      (s.chan c).resolved →
    t = (resolveVisible c n s).1 →
    (resolveVisible c n s).2 = some res.outcome ∧
    (t.chan c).resolved = res.rect ∧ (t.chan c).outcome = some res.outcome ∧
    (t.chan c).displayed = (s.chan c).displayed ∧
    (res.outcome = .asRequested → (t.chan c).fault = (s.chan c).fault) ∧
    (res.outcome ≠ .asRequested →
      ((s.chan c).fault = none → (t.chan c).fault = some ⟨(s.chan c).label, res.requested,
        blockingOf (s.chan c).zones res.requested, res.outcome, 0⟩) ∧
      ∀ r, (s.chan c).fault = some r → (t.chan c).fault = some { r with more := min 255 (r.more + 1) }) ∧
    (∀ k, t.notices.raw.hasChan c k = true ↔ s.notices.raw.hasChan c k = true ∨
      k = .placeFault ∧ res.outcome ≠ .asRequested ∧ (s.chan c).fault = none ∨
      k = .forcedOut ∧ res.outcome = .forcedOut) ∧
    (res.outcome = .forcedOut →
      (t.chan c).inset = .forcedOut ∧ (t.chan c).shown = (s.chan c).shown ∧
      (t.chan c).exitMark = (s.chan c).exitMark ∧
      ((s.chan c).inset = .forcedOut → (t.chan c).cur = some o ∧ (t.chan c).glide = (s.chan c).glide) ∧
      ((s.chan c).inset ≠ .forcedOut →
        (t.chan c).cur = some { o with fade := some ⟨o.level, 0, 6, 0⟩ } ∧ (t.chan c).glide = none ∧
        (t.chan c).paused = none) ∧
      ((s.chan c).inset = .held → (t.chan c).holdCount = 0) ∧
      ∀ u, (s.chan c).inset = .crossfade → (s.chan c).out = some u → (s.src u.src).owner = some c →
        (t.chan c).out = none ∧ (t.chan c).outRect = none ∧ t.spare = s.spare.leave c .crossfade ∧
        ((s.src u.src).state = .releasing → t.src u.src = { s.src u.src with
          state := .ready, owner := none, cropReport := false
          ring := { (s.src u.src).ring with inUse := none } }) ∧
        ((s.src u.src).state = .lost → t.src u.src = { s.src u.src with
          state := if s.hasSignal u.src then .detecting else .absent
          owner := none, cropReport := false, ring := Ring.empty
          inRun := 0, outRun := 0, goodRun := 0, badRun := 0, rasterMark := false })) ∧
    (∀ r, res.outcome ≠ .forcedOut → res.rect = some r → (s.chan c).inset = .forcedOut →
      ((s.chan c).exitMark = false → (s.src o.src).state = .taken →
        (t.chan c).inset = .fadingIn ∧ (t.chan c).shown = some ⟨r.x, r.y, r.h⟩ ∧ (t.chan c).glide = none ∧
        (t.chan c).cur = some { o with fade := some ⟨o.level, 1024, 6, 0⟩ }) ∧
      ((s.chan c).exitMark = true ∨ (s.src o.src).state ≠ .taken →
        (t.chan c).inset = .forcedOut ∧ (t.chan c).shown = (s.chan c).shown ∧ (t.chan c).cur = some o ∧
        (t.chan c).glide = (s.chan c).glide))) ∧
  ∀ (zones : List Zone) (r : Rect), blockingOf zones none = none ∧
    ((∀ z ∈ zones, z.isActive = true → r.overlaps z.rect = false) → blockingOf zones (some r) = none) ∧
    ∀ (before after : List Zone) (z : Zone), zones = before ++ z :: after → z.isActive = true →
      r.overlaps z.rect = true → (∀ y ∈ before, y.isActive = true → r.overlaps y.rect = false) →
      blockingOf zones (some r) = some (before.length, z.cls)

/-! ### What the card computes -/

/-- O55. The finding of a move from label L to label N (R29). The tracker's step at a frame start, on a
valid word and on none: label, state, count, owed midnight and notices (R24 to R28, R35), and what it hands
on: label and label before, whether it is LOST, the finding, the midnight of this frame start, an owed one,
and the first label passed in a LOST that ends here (R33 to R36). That those labels run from the first one
of the LOST, or from 0 past an owed midnight, and that the first label of a LOST is noted, is the model's
reading (log entry 13). -/
def Obligations.TrackerStepsAndHandsOn : Prop :=
  (∀ (f : Format) (l n : Nat), l < f.day → n < f.day →
    (n = l → findingOf f l n = .continuous) ∧
    (n = (l + 1) % f.day → findingOf f l n = .continuous) ∧
    (n ≠ l → n ≠ (l + 1) % f.day →
      (2 ≤ (n + f.day - l) % f.day → (n + f.day - l) % f.day ≤ f.rate → findingOf f l n = .catchUp) ∧
      (f.rate < (n + f.day - l) % f.day → l < n → findingOf f l n = .jumpForward) ∧
      (f.rate < (n + f.day - l) % f.day → n < l → findingOf f l n = .jumpBack))) ∧
  (∀ (x : Selection) (w : TcWord), x.validWord = some w ↔
    x.status = .valid ∧ ∃ fr, x.frame = some fr ∧ fr.word = some w) ∧
  ∀ (f : Format) (s t : State) (c : Chan) (k : Track) (n : Nat) (midnight : Bool), (t, k) = trackerStep f c s →
    (∀ w, (s.chan c).sel.validWord = some w → n = wordLabel f w →
      t = s.modChan c (fun x => { x with label := n, track := .locked, flywheel := 0, owed := false }) ∧
      k.label = n ∧ k.prev = (s.chan c).label ∧ k.lost = false ∧ k.owed = (s.chan c).owed ∧
      k.finding = findingOf f (s.chan c).label n ∧
      (k.midnight = .continuous ↔ (s.chan c).label + 1 = f.day ∧ n = 0) ∧
      (k.midnight = .catchUp ↔ k.finding = .catchUp ∧ n < (s.chan c).label) ∧
      ((s.chan c).track ≠ .lost → k.passedFrom = none) ∧
      ((s.chan c).track = .lost → k.passedFrom = some (if (s.chan c).owed then 0 else (s.chan c).lostFrom))) ∧
    ((s.chan c).sel.validWord = none →
      n = (if (s.chan c).sel.isRepeat then (s.chan c).label else ((s.chan c).label + 1) % f.day) →
      midnight = (!(s.chan c).sel.isRepeat && decide ((s.chan c).label + 1 = f.day)) →
      k.label = n ∧ k.prev = (s.chan c).label ∧ k.owed = false ∧ k.finding = .continuous ∧ k.passedFrom = none ∧
      ((s.chan c).track = .locked → k.lost = false ∧
        t = raiseChan c .tcFlywheel (s.modChan c (fun x => { x with
          label := n, track := .flywheel, flywheel := 1 }))) ∧
      ((s.chan c).track = .flywheel → (s.chan c).flywheel + 1 < f.rate → k.lost = false ∧
        t = s.modChan c (fun x => { x with label := n, flywheel := x.flywheel + 1 })) ∧
      ((s.chan c).track = .flywheel → f.rate ≤ (s.chan c).flywheel + 1 → k.lost = true ∧
        t = raiseChan c .tcLost (s.modChan c (fun x => { x with
          label := n, track := .lost, flywheel := x.flywheel + 1, owed := x.owed || midnight, lostFrom := n }))) ∧
      ((s.chan c).track = .lost → k.lost = true ∧
        t = s.modChan c (fun x => { x with
          label := n, flywheel := min 65535 (x.flywheel + 1), owed := x.owed || midnight })) ∧
      k.midnight = (if k.lost = false ∧ midnight = true then .continuous else .none))

/-- O56. The label of a valid word is ((h × 60 + m) × 60 + s) × R + ff × (R / Rtc) + p, p the pair flag where
R / Rtc is 2 and 0 where it is 1; the labels of a day are exactly 0 to D − 1, D = 86,400 × R (R21). -/
def Obligations.LabelsOfADay : Prop :=
  ∀ f : Format, (f.rate / f.base = 1 ∨ f.rate / f.base = 2) ∧ f.day = 86400 * f.rate ∧
    (∀ w : TcWord, wordValid f w = true →
      wordLabel f w = ((w.h.toNat * 60 + w.m.toNat) * 60 + w.s.toNat) * f.rate
        + w.ff.toNat * (f.rate / f.base)
        + (if f.rate / f.base = 2 then (if w.pair then 1 else 0) else 0) ∧
      wordLabel f w < f.day) ∧
    ∀ n, n < f.day → ∃ w : TcWord, wordValid f w = true ∧ wordLabel f w = n

/-- O57. A resolution never leaves the safe area nor covers a HARD zone; an inset goes FORCED_OUT exactly
when it gets no rectangle (R3, R82 to R84). The search tries the size levels in turn and in each the
requested anchor and the fallbacks, first against every ACTIVE zone, then against the HARD ones; the first
candidate that fits is the result, named by where it was found; where none fits, or the crop is unplaceable,
the held rectangle stays where it may (R79, R83, R84). The safe areas are those of R3, a derived width that
of R77, the heights are those of R78, the positions those of R80 and R81. -/
def Obligations.ResolutionFitsOrForcesOut : Prop :=
  (∀ (f : Format) (crop : Rect) (b : Block) (zones : List Zone) (held : Option Rect),
    ((resolve f crop b zones held).outcome = .forcedOut ↔ (resolve f crop b zones held).rect = none) ∧
    (∀ r, (resolve f crop b zones held).rect = some r → r.within f.safe = true ∧
      ∀ z ∈ zones, z.isActive = true → z.cls = .hard → r.overlaps z.rect = false) ∧
    (∀ r, (resolve f crop b zones held).rect = some r →
      (resolve f crop b zones held).outcome ≠ .softCovered →
      (resolve f crop b zones held).outcome ≠ .heldPlace →
      ∀ z ∈ zones, z.isActive = true → r.overlaps z.rect = false) ∧
    (placeable f crop.w crop.h = true →
      fits f zones false (candidateAt f crop b 0 true b.anchor).rect = true →
      resolve f crop b zones held = ⟨.asRequested, some (candidateAt f crop b 0 true b.anchor).rect,
        some (candidateAt f crop b 0 true b.anchor).rect⟩)) ∧
  (∀ (f : Format) (crop : Rect) (b : Block) (zones : List Zone) (held : Option Rect) (lo hi asked : Nat)
    (box : Nat → Anchor → Rect) (l : List (Nat × Nat × Rect)) (ok : Bool → Rect → Prop) (stays : Rect → Prop)
    (res : Resolution),
    lo = 2 * ((crop.h + 15) / 16) → hi = heightMax f crop.w crop.h →
    asked = min hi (max lo (b.height.getD (if f.height = 1080 then 432 else 288))) →
    box = (fun k a => anchorRect f b a
      (derivedWidth crop.w crop.h (max lo (2 * (asked * (8 - k) / 16)))) (max lo (2 * (asked * (8 - k) / 16)))) →
    l = [0, 1, 2, 3, 4].flatMap (fun k => (b.anchor :: b.fallbacks).zipIdx.map (fun p => (k, p.2, box k p.1))) →
    ok = (fun hardOnly r => r.within f.safe = true ∧ ∀ z ∈ zones, z.isActive = true →
      (hardOnly = true → z.cls = .hard) → r.overlaps z.rect = false) →
    stays = (fun r => held = some r ∧ ok true r ∧ r.h % 2 = 0 ∧ lo ≤ r.h ∧ r.h ≤ hi ∧
      r.w = derivedWidth crop.w crop.h r.h) →
    res = resolve f crop b zones held →
    res.requested = (if lo ≤ hi then some (box 0 b.anchor) else none) ∧
    (lo ≤ hi → ∀ before x after, l = before ++ x :: after →
      ((∀ y ∈ before, ¬ok false y.2.2) → ok false x.2.2 → res.rect = some x.2.2 ∧
        res.outcome = if x.1 = 0 then (if x.2.1 = 0 then .asRequested else .moved) else .shrunk) ∧
      ((∀ y ∈ l, ¬ok false y.2.2) → (∀ y ∈ before, ¬ok true y.2.2) → ok true x.2.2 →
        res.rect = some x.2.2 ∧ res.outcome = .softCovered)) ∧
    ((lo ≤ hi → ∀ y ∈ l, ¬ok true y.2.2) →
      (∀ r, stays r → res.rect = some r ∧ res.outcome = .heldPlace) ∧
      ((∀ r, ¬stays r) → res.rect = none ∧ res.outcome = .forcedOut))) ∧
  (∀ f : Format, f.safe = if f.height = 1080 then ⟨96, 54, 1728, 972⟩ else ⟨64, 36, 1152, 648⟩) ∧
  (∀ cw ch h : Nat, derivedWidth cw ch h = 2 * ((h * cw + ch) / (2 * ch))) ∧
  (∀ (f : Format) (cw ch : Nat), heightMax f cw ch % 2 = 0 ∧ heightMax f cw ch ≤ ch ∧
    heightMax f cw ch ≤ f.safe.h ∧ derivedWidth cw ch (heightMax f cw ch) ≤ f.safe.w ∧
    ∀ h, h % 2 = 0 → h ≤ ch → h ≤ f.safe.h → derivedWidth cw ch h ≤ f.safe.w → h ≤ heightMax f cw ch) ∧
  ∀ (f : Format) (b : Block) (w h left mid right top centre bottom fx fy : Nat),
    left = f.safe.x → mid = f.safe.x + 2 * ((f.safe.w - w) / 4) → right = f.safe.x + f.safe.w - w →
    top = f.safe.y → centre = f.safe.y + (f.safe.h - h) / 2 → bottom = f.safe.y + f.safe.h - h →
    fx = max (b.fx / 2 * 2) f.safe.x → fy = max b.fy f.safe.y →
    anchorRect f b .topLeft w h = ⟨left, top, w, h⟩ ∧ anchorRect f b .topCentre w h = ⟨mid, top, w, h⟩ ∧
    anchorRect f b .topRight w h = ⟨right, top, w, h⟩ ∧
    anchorRect f b .middleLeft w h = ⟨left, centre, w, h⟩ ∧ anchorRect f b .centre w h = ⟨mid, centre, w, h⟩ ∧
    anchorRect f b .middleRight w h = ⟨right, centre, w, h⟩ ∧
    anchorRect f b .bottomLeft w h = ⟨left, bottom, w, h⟩ ∧
    anchorRect f b .bottomCentre w h = ⟨mid, bottom, w, h⟩ ∧
    anchorRect f b .bottomRight w h = ⟨right, bottom, w, h⟩ ∧
    anchorRect f b .free w h = ⟨if f.safe.x + f.safe.w < fx + w then f.safe.x + f.safe.w - w else fx,
      if f.safe.y + f.safe.h < fy + h then f.safe.y + f.safe.h - h else fy, w, h⟩

/-- O58. Blended samples are legal, a pair outside every presented rectangle leaves the unit unchanged, at
alpha 0 a pair is the programme's, clamped, and at alpha 1024 it is the source's (R4, R71, R73, R74). A pair
is the programme's blended with each source that covers it in order, the outgoing one of a crossfade first
(R72). What of a rectangle lies past the raster reaches no output pixel (R61, R93); in BYPASS the port is
the programme input itself, and without a house format there is no raster: that the model then names no pair
is its reading (log entry 27). -/
def Obligations.BlendIsLegalInsideAndNeutralOutside : Prop :=
  (∀ (kin : KeyIn) (k y : Nat), (∀ x ∈ kin.sources, covers x k y = false) →
    composePair kin k y = programmePair kin.pgm k y) ∧
  (∀ (kin : KeyIn) (k y : Nat), (∃ x ∈ kin.sources, covers x k y = true) →
    64 ≤ (composePair kin k y).y0 ∧ (composePair kin k y).y0 ≤ 940 ∧
    64 ≤ (composePair kin k y).y1 ∧ (composePair kin k y).y1 ≤ 940 ∧
    64 ≤ (composePair kin k y).cb ∧ (composePair kin k y).cb ≤ 960 ∧
    64 ≤ (composePair kin k y).cr ∧ (composePair kin k y).cr ≤ 960) ∧
  (∀ (kin : KeyIn) (k y : Nat),
    composePair kin k y = (kin.sources.filter (fun x => covers x k y)).foldl (fun p x => blendSource k y p x)
      (programmePair kin.pgm k y) ∧
    ∀ u o, kin.sources = [u, o] →
      (covers u k y = true → covers o k y = true → composePair kin k y
        = blendSource k y (blendSource k y (programmePair kin.pgm k y) u) o) ∧
      (covers u k y = true → covers o k y = false → composePair kin k y
        = blendSource k y (programmePair kin.pgm k y) u) ∧
      (covers u k y = false → covers o k y = true → composePair kin k y
        = blendSource k y (programmePair kin.pgm k y) o)) ∧
  (∀ (x : Presented) (k y : Nat), covers x k y = true ↔ x.rect.x ≤ 2 * k ∧ 2 * k < x.rect.x + x.rect.w ∧
    x.rect.y ≤ y ∧ y < x.rect.y + x.rect.h) ∧
  (∀ a p : Nat, blendSample a p 1024 = a ∧ blendSample a p 0 = p) ∧
  (∀ ka level : Nat, fadedAlpha ka 0 = 0 ∧ fadedAlpha ka 1024 = ka ∧
    (ka ≤ 1024 → level ≤ 1024 → fadedAlpha ka level ≤ 1024)) ∧
  ∀ (s : State) (c : Chan) (k y : Nat),
    ((s.chan c).relay = .bypass ∨ s.format = none → outputPair s c k y = none) ∧
    ∀ f, (s.chan c).relay = .processed → s.format = some f →
      (2 * k < f.width → y < f.height → outputPair s c k y = some (composePair (s.chan c).keyIn k y)) ∧
      (f.width ≤ 2 * k ∨ f.height ≤ y → outputPair s c k y = none)

/-- O59. The scaled picture, the key and the blend of one pair. A footprint is the source pixels of its column
and line spans, each once, a span never empty; luma and chroma are rounded means of the clamped samples,
the chroma of a pair from its even pixel, and stay in the legal range (R62 to R66). The key alpha is 0 up
to Tlo and then rises with Rk to 1024, at the ends of the range and at the default as R69 lays down; with
the key off it is 1024 (R67 to R69). A covered pair is blended with that alpha at its fade level, and a
source with no frame leaves the programme, clamped (R61, R70, R71, R73). -/
def Obligations.KeyAlphaAndScaling : Prop :=
  (∀ (x : Presented) (i j a e b d : Nat),
    a = x.crop.x + i * x.crop.w / x.rect.w → e = x.crop.x + (i + 1) * x.crop.w / x.rect.w →
    b = x.crop.y + j * x.crop.h / x.rect.h → d = x.crop.y + (j + 1) * x.crop.h / x.rect.h →
    (footprintOf x i j).Nodup ∧ (footprintOf x i j).length = max 1 (e - a) * max 1 (d - b) ∧
    ∀ q, q ∈ footprintOf x i j ↔ a ≤ q.1 ∧ q.1 < a + max 1 (e - a) ∧ b ≤ q.2 ∧ q.2 < b + max 1 (d - b)) ∧
  (∀ (pic : Picture) (q y : Nat) (u : Samples), u = pairAt pic q y →
    sourceLuma pic (2 * q) y = min 940 (max 64 u.y0) ∧ sourceLuma pic (2 * q + 1) y = min 940 (max 64 u.y1) ∧
    sourceCb pic (2 * q) y = min 960 (max 64 u.cb) ∧ sourceCb pic (2 * q + 1) y = min 960 (max 64 u.cb) ∧
    sourceCr pic (2 * q) y = min 960 (max 64 u.cr) ∧ sourceCr pic (2 * q + 1) y = min 960 (max 64 u.cr)) ∧
  (∀ (x : Presented) (pic : Picture) (m j : Nat) (mean : (Nat → Nat → Nat) → Nat → Nat) (sc : Samples),
    mean = (fun sample i => (((footprintOf x i j).map (fun q => sample q.1 q.2)).sum +
      (footprintOf x i j).length / 2) / (footprintOf x i j).length) →
    sc = scaledPair x pic m j →
    sc.y0 = mean (sourceLuma pic) (2 * m) ∧ sc.y1 = mean (sourceLuma pic) (2 * m + 1) ∧
    sc.cb = mean (sourceCb pic) (2 * m) ∧ sc.cr = mean (sourceCr pic) (2 * m) ∧
    64 ≤ sc.y0 ∧ sc.y0 ≤ 940 ∧ 64 ≤ sc.y1 ∧ sc.y1 ≤ 940 ∧ 64 ≤ sc.cb ∧ sc.cb ≤ 960 ∧
    64 ≤ sc.cr ∧ sc.cr ≤ 960) ∧
  (∀ (x : Presented) (cb cr d : Nat), d = (cb - x.kb) + (x.kb - cb) + ((cr - x.kr) + (x.kr - cr)) →
    (x.keyOn = false → keyAlpha x cb cr = 1024) ∧
    (x.keyOn = true →
      (d ≤ x.tlo → keyAlpha x cb cr = 0) ∧
      (x.tlo < d → keyAlpha x cb cr = min 1024 ((d - x.tlo) * x.rk / 1024)) ∧
      (x.tlo < d → x.rk = 1048576 / 1 → keyAlpha x cb cr = 1024) ∧
      (x.tlo < d → x.rk = 1048576 / 1024 → keyAlpha x cb cr = min 1024 (d - x.tlo)) ∧
      (x.rk = 1048576 / 200 → (d = x.tlo + 200 → keyAlpha x cb cr = 1023) ∧
        (x.tlo + 201 ≤ d → keyAlpha x cb cr = 1024)))) ∧
  ∀ (x : Presented) (p : Samples) (k y : Nat), covers x k y = true →
    (x.frame = none → blendSource k y p x
      = ⟨min 940 (max 64 p.y0), min 940 (max 64 p.y1), min 960 (max 64 p.cb), min 960 (max 64 p.cr)⟩) ∧
    ∀ (pic : Picture) (sc : Samples) (alpha : Nat) (mix : Nat → Nat → Nat), x.frame = some pic →
      sc = scaledPair x pic (k - x.rect.x / 2) (y - x.rect.y) →
      alpha = (keyAlpha x sc.cb sc.cr * x.level + 512) / 1024 →
      mix = (fun a b => (a * alpha + b * (1024 - alpha) + 512) / 1024) →
      blendSource k y p x = ⟨min 940 (max 64 (mix sc.y0 p.y0)), min 940 (max 64 (mix sc.y1 p.y1)),
        min 960 (max 64 (mix sc.cb p.cb)), min 960 (max 64 (mix sc.cr p.cr))⟩

/-- O60. Step t of a fade of n frames stands at Fs + trunc((Ft − Fs) × t / n), between Fs and Ft; step n
ends it on Ft; a count of 0 is a cut (R114). Step t of a glide of n frames stands at the same fraction of
its way, x and h brought down to even; step n ends it on its target; a count of 0 is a cut, on its target at
its first step (R91, R92). That a cut is kept as a glide until then is the model's reading (log entry 34).
-/
def Obligations.FadesAndGlidesReachTheirTargets : Prop :=
  (∀ (o : OnAir) (ft n : Nat),
    (o.fadeTo ft 0).level = ft ∧ (o.fadeTo ft 0).fade = none ∧
    ∀ t, 1 ≤ t → t ≤ n →
      ((OnAir.stepFade^[t] (o.fadeTo ft n)).level : Int)
        = o.level + Int.tdiv (((ft : Int) - o.level) * t) n ∧
      min o.level ft ≤ (OnAir.stepFade^[t] (o.fadeTo ft n)).level ∧
      (OnAir.stepFade^[t] (o.fadeTo ft n)).level ≤ max o.level ft ∧
      ((OnAir.stepFade^[t] (o.fadeTo ft n)).fade = none ↔ t = n) ∧
      (t = n → (OnAir.stepFade^[t] (o.fadeTo ft n)).level = ft)) ∧
  ∀ (ch : Channel) (a b : Shown) (n : Nat),
    (ch.startGlide a b 0).stepGlide.shown = some b ∧ (ch.startGlide a b 0).stepGlide.glide = none ∧
    (ch.startGlide a b n).shown = ch.shown ∧
    ∀ t, 1 ≤ t → t ≤ n → ∃ v : Shown, (Channel.stepGlide^[t] (ch.startGlide a b n)).shown = some v ∧
      (t < n → (Channel.stepGlide^[t] (ch.startGlide a b n)).glide = some ⟨a, b, n, t⟩ ∧
        (v.x : Int) = 2 * ((a.x + Int.tdiv (((b.x : Int) - a.x) * t) n) / 2) ∧
        (v.y : Int) = a.y + Int.tdiv (((b.y : Int) - a.y) * t) n ∧
        (v.h : Int) = 2 * ((a.h + Int.tdiv (((b.h : Int) - a.h) * t) n) / 2)) ∧
      (t = n → v = b ∧ (Channel.stepGlide^[t] (ch.startGlide a b n)).glide = none)
end

