-- ==== Sys2Proof/Laws/State.lean ====
section
/-! SUPPORT. One lemma per field per update of the state, and the reading of one value of a family of
four or six. -/

namespace Sys2Proof

theorem PerChan.get_set {α : Type} (v : PerChan α) (c d : Chan) (a : α) :
    (v.set c a).get d = if d = c then a else v.get d := by
  cases c <;> cases d <;> rfl

theorem PerPort.get_set {α : Type} (v : PerPort α) (p q : Port) (a : α) :
    (v.set p a).get q = if q = p then a else v.get q := by
  cases p <;> cases q <;> rfl

@[simp] theorem PerChan.get_fill {α : Type} (a : α) (c : Chan) : (PerChan.fill a).get c = a := by
  cases c <;> rfl

@[simp] theorem PerPort.get_fill {α : Type} (a : α) (p : Port) : (PerPort.fill a).get p = a := by
  cases p <;> rfl

@[simp] theorem PerChan.get_map {α β : Type} (f : α → β) (v : PerChan α) (c : Chan) :
    (v.map f).get c = f (v.get c) := by
  cases c <;> rfl

@[simp] theorem PerPort.get_map {α β : Type} (f : α → β) (v : PerPort α) (p : Port) :
    (v.map f).get p = f (v.get p) := by
  cases p <;> rfl

@[simp] theorem PerChan.set_set {α : Type} (v : PerChan α) (c : Chan) (a b : α) :
    (v.set c a).set c b = v.set c b := by
  cases c <;> rfl

@[simp] theorem PerPort.set_set {α : Type} (v : PerPort α) (p : Port) (a b : α) :
    (v.set p a).set p b = v.set p b := by
  cases p <;> rfl

namespace Machine

variable (s : State)

@[simp] theorem modChan_pending (c : Chan) (f : Channel → Channel) : (s.modChan c f).pending = s.pending := rfl
@[simp] theorem modChan_now (c : Chan) (f : Channel → Channel) : (s.modChan c f).now = s.now := rfl
@[simp] theorem modChan_power (c : Chan) (f : Channel → Channel) : (s.modChan c f).power = s.power := rfl
@[simp] theorem modChan_resetting (c : Chan) (f : Channel → Channel) : (s.modChan c f).resetting = s.resetting := rfl
@[simp] theorem modChan_resetDue (c : Chan) (f : Channel → Channel) : (s.modChan c f).resetDue = s.resetDue := rfl
@[simp] theorem modChan_pin (c : Chan) (f : Channel → Channel) : (s.modChan c f).pin = s.pin := rfl
@[simp] theorem modChan_cause (c : Chan) (f : Channel → Channel) : (s.modChan c f).cause = s.cause := rfl
@[simp] theorem modChan_format (c : Chan) (f : Channel → Channel) : (s.modChan c f).format = s.format := rfl
@[simp] theorem modChan_ref (c : Chan) (f : Channel → Channel) : (s.modChan c f).ref = s.ref := rfl
@[simp] theorem modChan_notices (c : Chan) (f : Channel → Channel) : (s.modChan c f).notices = s.notices := rfl
@[simp] theorem modChan_link (c : Chan) (f : Channel → Channel) : (s.modChan c f).link = s.link := rfl
@[simp] theorem modChan_sources (c : Chan) (f : Channel → Channel) : (s.modChan c f).sources = s.sources := rfl
@[simp] theorem modChan_spare (c : Chan) (f : Channel → Channel) : (s.modChan c f).spare = s.spare := rfl
@[simp] theorem modChan_src (c : Chan) (f : Channel → Channel) (q : Port) : (s.modChan c f).src q = s.src q := rfl

@[simp] theorem modSrc_pending (p : Port) (f : Source → Source) : (s.modSrc p f).pending = s.pending := rfl
@[simp] theorem modSrc_now (p : Port) (f : Source → Source) : (s.modSrc p f).now = s.now := rfl
@[simp] theorem modSrc_power (p : Port) (f : Source → Source) : (s.modSrc p f).power = s.power := rfl
@[simp] theorem modSrc_resetting (p : Port) (f : Source → Source) : (s.modSrc p f).resetting = s.resetting := rfl
@[simp] theorem modSrc_resetDue (p : Port) (f : Source → Source) : (s.modSrc p f).resetDue = s.resetDue := rfl
@[simp] theorem modSrc_pin (p : Port) (f : Source → Source) : (s.modSrc p f).pin = s.pin := rfl
@[simp] theorem modSrc_cause (p : Port) (f : Source → Source) : (s.modSrc p f).cause = s.cause := rfl
@[simp] theorem modSrc_format (p : Port) (f : Source → Source) : (s.modSrc p f).format = s.format := rfl
@[simp] theorem modSrc_ref (p : Port) (f : Source → Source) : (s.modSrc p f).ref = s.ref := rfl
@[simp] theorem modSrc_notices (p : Port) (f : Source → Source) : (s.modSrc p f).notices = s.notices := rfl
@[simp] theorem modSrc_link (p : Port) (f : Source → Source) : (s.modSrc p f).link = s.link := rfl
@[simp] theorem modSrc_channels (p : Port) (f : Source → Source) : (s.modSrc p f).channels = s.channels := rfl
@[simp] theorem modSrc_spare (p : Port) (f : Source → Source) : (s.modSrc p f).spare = s.spare := rfl
@[simp] theorem modSrc_chan (p : Port) (f : Source → Source) (d : Chan) : (s.modSrc p f).chan d = s.chan d := rfl

@[simp] theorem raiseCard_pending (k : CardKind) : (raiseCard k s).pending = s.pending := rfl
@[simp] theorem raiseCard_now (k : CardKind) : (raiseCard k s).now = s.now := rfl
@[simp] theorem raiseCard_power (k : CardKind) : (raiseCard k s).power = s.power := rfl
@[simp] theorem raiseCard_resetting (k : CardKind) : (raiseCard k s).resetting = s.resetting := rfl
@[simp] theorem raiseCard_resetDue (k : CardKind) : (raiseCard k s).resetDue = s.resetDue := rfl
@[simp] theorem raiseCard_pin (k : CardKind) : (raiseCard k s).pin = s.pin := rfl
@[simp] theorem raiseCard_cause (k : CardKind) : (raiseCard k s).cause = s.cause := rfl
@[simp] theorem raiseCard_format (k : CardKind) : (raiseCard k s).format = s.format := rfl
@[simp] theorem raiseCard_ref (k : CardKind) : (raiseCard k s).ref = s.ref := rfl
@[simp] theorem raiseCard_link (k : CardKind) : (raiseCard k s).link = s.link := rfl
@[simp] theorem raiseCard_sources (k : CardKind) : (raiseCard k s).sources = s.sources := rfl
@[simp] theorem raiseCard_channels (k : CardKind) : (raiseCard k s).channels = s.channels := rfl
@[simp] theorem raiseCard_spare (k : CardKind) : (raiseCard k s).spare = s.spare := rfl
@[simp] theorem raiseCard_chan (k : CardKind) (d : Chan) : (raiseCard k s).chan d = s.chan d := rfl
@[simp] theorem raiseCard_src (k : CardKind) (q : Port) : (raiseCard k s).src q = s.src q := rfl

@[simp] theorem raiseChan_pending (c : Chan) (k : ChanKind) : (raiseChan c k s).pending = s.pending := rfl
@[simp] theorem raiseChan_now (c : Chan) (k : ChanKind) : (raiseChan c k s).now = s.now := rfl
@[simp] theorem raiseChan_power (c : Chan) (k : ChanKind) : (raiseChan c k s).power = s.power := rfl
@[simp] theorem raiseChan_resetting (c : Chan) (k : ChanKind) : (raiseChan c k s).resetting = s.resetting := rfl
@[simp] theorem raiseChan_resetDue (c : Chan) (k : ChanKind) : (raiseChan c k s).resetDue = s.resetDue := rfl
@[simp] theorem raiseChan_pin (c : Chan) (k : ChanKind) : (raiseChan c k s).pin = s.pin := rfl
@[simp] theorem raiseChan_cause (c : Chan) (k : ChanKind) : (raiseChan c k s).cause = s.cause := rfl
@[simp] theorem raiseChan_format (c : Chan) (k : ChanKind) : (raiseChan c k s).format = s.format := rfl
@[simp] theorem raiseChan_ref (c : Chan) (k : ChanKind) : (raiseChan c k s).ref = s.ref := rfl
@[simp] theorem raiseChan_link (c : Chan) (k : ChanKind) : (raiseChan c k s).link = s.link := rfl
@[simp] theorem raiseChan_sources (c : Chan) (k : ChanKind) : (raiseChan c k s).sources = s.sources := rfl
@[simp] theorem raiseChan_channels (c : Chan) (k : ChanKind) : (raiseChan c k s).channels = s.channels := rfl
@[simp] theorem raiseChan_spare (c : Chan) (k : ChanKind) : (raiseChan c k s).spare = s.spare := rfl
@[simp] theorem raiseChan_chan (c : Chan) (k : ChanKind) (d : Chan) : (raiseChan c k s).chan d = s.chan d := rfl
@[simp] theorem raiseChan_src (c : Chan) (k : ChanKind) (q : Port) : (raiseChan c k s).src q = s.src q := rfl

@[simp] theorem dropClaim_pending (c : Chan) (k : Claimant) : (dropClaim c k s).pending = s.pending := rfl
@[simp] theorem dropClaim_now (c : Chan) (k : Claimant) : (dropClaim c k s).now = s.now := rfl
@[simp] theorem dropClaim_power (c : Chan) (k : Claimant) : (dropClaim c k s).power = s.power := rfl
@[simp] theorem dropClaim_resetting (c : Chan) (k : Claimant) : (dropClaim c k s).resetting = s.resetting := rfl
@[simp] theorem dropClaim_resetDue (c : Chan) (k : Claimant) : (dropClaim c k s).resetDue = s.resetDue := rfl
@[simp] theorem dropClaim_pin (c : Chan) (k : Claimant) : (dropClaim c k s).pin = s.pin := rfl
@[simp] theorem dropClaim_cause (c : Chan) (k : Claimant) : (dropClaim c k s).cause = s.cause := rfl
@[simp] theorem dropClaim_format (c : Chan) (k : Claimant) : (dropClaim c k s).format = s.format := rfl
@[simp] theorem dropClaim_ref (c : Chan) (k : Claimant) : (dropClaim c k s).ref = s.ref := rfl
@[simp] theorem dropClaim_notices (c : Chan) (k : Claimant) : (dropClaim c k s).notices = s.notices := rfl
@[simp] theorem dropClaim_link (c : Chan) (k : Claimant) : (dropClaim c k s).link = s.link := rfl
@[simp] theorem dropClaim_sources (c : Chan) (k : Claimant) : (dropClaim c k s).sources = s.sources := rfl
@[simp] theorem dropClaim_channels (c : Chan) (k : Claimant) : (dropClaim c k s).channels = s.channels := rfl
@[simp] theorem dropClaim_chan (c : Chan) (k : Claimant) (d : Chan) : (dropClaim c k s).chan d = s.chan d := rfl
@[simp] theorem dropClaim_src (c : Chan) (k : Claimant) (q : Port) : (dropClaim c k s).src q = s.src q := rfl

@[simp] theorem askSpare_pending (c : Chan) (k : Claimant) : (askSpare c k s).1.pending = s.pending := rfl
@[simp] theorem askSpare_now (c : Chan) (k : Claimant) : (askSpare c k s).1.now = s.now := rfl
@[simp] theorem askSpare_power (c : Chan) (k : Claimant) : (askSpare c k s).1.power = s.power := rfl
@[simp] theorem askSpare_resetting (c : Chan) (k : Claimant) : (askSpare c k s).1.resetting = s.resetting := rfl
@[simp] theorem askSpare_resetDue (c : Chan) (k : Claimant) : (askSpare c k s).1.resetDue = s.resetDue := rfl
@[simp] theorem askSpare_pin (c : Chan) (k : Claimant) : (askSpare c k s).1.pin = s.pin := rfl
@[simp] theorem askSpare_cause (c : Chan) (k : Claimant) : (askSpare c k s).1.cause = s.cause := rfl
@[simp] theorem askSpare_format (c : Chan) (k : Claimant) : (askSpare c k s).1.format = s.format := rfl
@[simp] theorem askSpare_ref (c : Chan) (k : Claimant) : (askSpare c k s).1.ref = s.ref := rfl
@[simp] theorem askSpare_notices (c : Chan) (k : Claimant) : (askSpare c k s).1.notices = s.notices := rfl
@[simp] theorem askSpare_link (c : Chan) (k : Claimant) : (askSpare c k s).1.link = s.link := rfl
@[simp] theorem askSpare_sources (c : Chan) (k : Claimant) : (askSpare c k s).1.sources = s.sources := rfl
@[simp] theorem askSpare_channels (c : Chan) (k : Claimant) : (askSpare c k s).1.channels = s.channels := rfl
@[simp] theorem askSpare_chan (c : Chan) (k : Claimant) (d : Chan) : (askSpare c k s).1.chan d = s.chan d := rfl
@[simp] theorem askSpare_src (c : Chan) (k : Claimant) (q : Port) : (askSpare c k s).1.src q = s.src q := rfl

@[simp] theorem elapse_pending (dt : Nat) : (s.elapse dt).pending = s.pending := rfl
@[simp] theorem elapse_power (dt : Nat) : (s.elapse dt).power = s.power := rfl
@[simp] theorem elapse_resetting (dt : Nat) : (s.elapse dt).resetting = s.resetting := rfl
@[simp] theorem elapse_resetDue (dt : Nat) : (s.elapse dt).resetDue = s.resetDue := rfl
@[simp] theorem elapse_pin (dt : Nat) : (s.elapse dt).pin = s.pin := rfl
@[simp] theorem elapse_cause (dt : Nat) : (s.elapse dt).cause = s.cause := rfl
@[simp] theorem elapse_format (dt : Nat) : (s.elapse dt).format = s.format := rfl
@[simp] theorem elapse_ref (dt : Nat) : (s.elapse dt).ref = s.ref := rfl
@[simp] theorem elapse_notices (dt : Nat) : (s.elapse dt).notices = s.notices := rfl
@[simp] theorem elapse_link (dt : Nat) : (s.elapse dt).link = s.link := rfl
@[simp] theorem elapse_sources (dt : Nat) : (s.elapse dt).sources = s.sources := rfl
@[simp] theorem elapse_channels (dt : Nat) : (s.elapse dt).channels = s.channels := rfl
@[simp] theorem elapse_spare (dt : Nat) : (s.elapse dt).spare = s.spare := rfl
@[simp] theorem elapse_chan (dt : Nat) (d : Chan) : (s.elapse dt).chan d = s.chan d := rfl
@[simp] theorem elapse_src (dt : Nat) (q : Port) : (s.elapse dt).src q = s.src q := rfl

@[simp] theorem reach_pending (t : Nat) : (s.reach t).pending = s.pending := rfl
@[simp] theorem reach_power (t : Nat) : (s.reach t).power = s.power := rfl
@[simp] theorem reach_resetting (t : Nat) : (s.reach t).resetting = s.resetting := rfl
@[simp] theorem reach_resetDue (t : Nat) : (s.reach t).resetDue = s.resetDue := rfl
@[simp] theorem reach_pin (t : Nat) : (s.reach t).pin = s.pin := rfl
@[simp] theorem reach_cause (t : Nat) : (s.reach t).cause = s.cause := rfl
@[simp] theorem reach_format (t : Nat) : (s.reach t).format = s.format := rfl
@[simp] theorem reach_ref (t : Nat) : (s.reach t).ref = s.ref := rfl
@[simp] theorem reach_notices (t : Nat) : (s.reach t).notices = s.notices := rfl
@[simp] theorem reach_link (t : Nat) : (s.reach t).link = s.link := rfl
@[simp] theorem reach_sources (t : Nat) : (s.reach t).sources = s.sources := rfl
@[simp] theorem reach_channels (t : Nat) : (s.reach t).channels = s.channels := rfl
@[simp] theorem reach_spare (t : Nat) : (s.reach t).spare = s.spare := rfl
@[simp] theorem reach_chan (t : Nat) (d : Chan) : (s.reach t).chan d = s.chan d := rfl
@[simp] theorem reach_src (t : Nat) (q : Port) : (s.reach t).src q = s.src q := rfl

theorem modChan_chan (c : Chan) (f : Channel → Channel) (d : Chan) :
    (s.modChan c f).chan d = if d = c then f (s.chan c) else s.chan d :=
  PerChan.get_set _ _ _ _

@[simp] theorem modChan_chan_same (c : Chan) (f : Channel → Channel) :
    (s.modChan c f).chan c = f (s.chan c) := by
  simp [modChan_chan]

theorem modChan_chan_ne {c d : Chan} (h : d ≠ c) (f : Channel → Channel) :
    (s.modChan c f).chan d = s.chan d := by
  simp [modChan_chan, h]

theorem modSrc_src (p : Port) (f : Source → Source) (q : Port) :
    (s.modSrc p f).src q = if q = p then f (s.src p) else s.src q :=
  PerPort.get_set _ _ _ _

@[simp] theorem modSrc_src_same (p : Port) (f : Source → Source) :
    (s.modSrc p f).src p = f (s.src p) := by
  simp [modSrc_src]

theorem modSrc_src_ne {p q : Port} (h : q ≠ p) (f : Source → Source) :
    (s.modSrc p f).src q = s.src q := by
  simp [modSrc_src, h]

/-- What `display` does: the channel's displayed placement is the rectangle drawn, and nothing else changes. -/
@[simp] theorem display_chan_same (c : Chan) :
    (display c s).chan c = { s.chan c with displayed := shownRect c s } :=
  modChan_chan_same s c _

theorem display_chan_ne {c d : Chan} (h : d ≠ c) : (display c s).chan d = s.chan d :=
  modChan_chan_ne s h _

@[simp] theorem elapse_now (dt : Nat) : (s.elapse dt).now = s.now + dt := rfl
@[simp] theorem reach_now (t : Nat) : (s.reach t).now = max s.now t := rfl

@[simp] theorem replying_chan (r : Request) (l : List Byte) (d : Chan) :
    (s.replying r l).chan d = s.chan d := rfl
@[simp] theorem replying_src (r : Request) (l : List Byte) (q : Port) :
    (s.replying r l).src q = s.src q := rfl

end Machine

end Sys2Proof
end

