-- ==== Sys2Proof/Laws/Keeps.lean ====
section
/-! SUPPORT. What every operation of one channel keeps: the card outside that channel, and the laws of
Safety.lean. One lemma per operation, in the form that chains: from `Keeps c s t` to `Keeps c s` of the
operation on `t`. -/

namespace Sys2Proof.Machine

/-- From `s` to `t` only channel `c`, the sources, the spare and the notices changed, and the laws
hold on. -/
structure KeepsLaws (c : Chan) (s t : State) : Prop where
  outside : t.outside c = s.outside c
  lawful : s.Lawful → t.Lawful

/-- The mode, programme path and label tracker of a channel: what the placement resolver, the zone
table, the transition engine and the cue dispatcher only read. -/
def Channel.path (ch : Channel) :
    (Mode × Option Mode × Relay) × (PgmState × Nat × Nat × Option Nat × List PgmFrame × Bool × Nat) ×
    (Nat × Nat × Nat × Selection × Nat × Bool) × (Nat × TrackState × Nat × Bool × Nat) :=
  ((ch.mode, ch.pendingMode, ch.relay),
   (ch.pgm, ch.pgmGood, ch.pgmBad, ch.pgmStart, ch.store, ch.writing, ch.serial),
   (ch.target, ch.delay, ch.slew, ch.sel, ch.drainRepeats, ch.drained),
   (ch.label, ch.track, ch.flywheel, ch.owed, ch.lostFrom))

/-- As `KeepsLaws`, and channel `c`'s mode, path and tracker stand. -/
structure Keeps (c : Chan) (s t : State) : Prop extends KeepsLaws c s t where
  path : (t.chan c).path = (s.chan c).path

variable {c : Chan} {s t : State}

theorem KeepsLaws.trans {u : State} (h : KeepsLaws c s t) (k : KeepsLaws c t u) : KeepsLaws c s u :=
  ⟨k.outside.trans h.outside, fun hs => k.lawful (h.lawful hs)⟩

theorem Keeps.rfl : Keeps c s s := ⟨⟨Eq.refl _, id⟩, Eq.refl _⟩

/-! ### Channels -/

/-- The part of a channel that its laws read. -/
def Channel.core (ch : Channel) : List Nat × List Nat × List (Nat × Dated) :=
  ([ch.store.length, ch.target, ch.delay, ch.slew, ch.stack.length, ch.defaultGlide, ch.zones.length,
    ch.holdTime], (ch.fault.map FaultRec.more).toList, ch.cues.map (fun q => (q.tag, q.date)))

/-- Both laws of a channel. -/
structure Channel.Fine (ch : Channel) : Prop where
  bounded : ch.Bounded
  list : ch.ListOk

theorem Channel.Fine.of_core {a b : Channel} (h : a.Fine) (e : b.core = a.core) : b.Fine := by
  simp only [Channel.core, Prod.mk.injEq, List.cons.injEq, and_true] at e
  obtain ⟨⟨e1, e2, e3, e4, e5, e6, e7, e8⟩, e9, e10⟩ := e
  have tags : b.cues.map Cue.tag = a.cues.map Cue.tag := by
    simpa [List.map_map, Function.comp_def] using congrArg (List.map Prod.fst) e10
  have dates : b.cues.map Cue.date = a.cues.map Cue.date := by
    simpa [List.map_map, Function.comp_def] using congrArg (List.map Prod.snd) e10
  have len : b.cues.length = a.cues.length := by simpa using congrArg List.length e10
  refine ⟨⟨?_, ?_, ?_, ?_, ?_, ?_, ?_, ?_, ?_, ?_⟩, ⟨?_, tags ▸ h.list.tags⟩⟩
  · exact e1 ▸ h.bounded.store
  · exact e2 ▸ h.bounded.target
  · exact e3 ▸ h.bounded.delay
  · exact e4 ▸ h.bounded.slew
  · exact e5 ▸ h.bounded.stack
  · exact e6 ▸ h.bounded.glide
  · exact e7.trans h.bounded.zones
  · intro r hr
    cases ha : a.fault with
    | none => simp [hr, ha] at e9
    | some q =>
      have : r.more = q.more := by simpa [hr, ha] using e9
      exact this ▸ h.bounded.more q ha
  · exact e8 ▸ h.bounded.hold
  · exact len ▸ h.bounded.cues
  · have hp := h.list.order
    rw [← List.pairwise_map (f := Cue.date) (R := fun x y => x.le y = true)] at hp ⊢
    exact dates ▸ hp

theorem State.Lawful.fine (h : s.Lawful) (d : Chan) : (s.chan d).Fine := ⟨h.bounded d, h.list d⟩

theorem outside_modChan (f : Channel → Channel) : (t.modChan c f).outside c = t.outside c := by
  simp [State.outside, State.modChan]

/-- A change of the channel that keeps its laws. -/
theorem KeepsLaws.modChan (h : KeepsLaws c s t) (f : Channel → Channel)
    (hf : (t.chan c).Fine → (f (t.chan c)).Fine) : KeepsLaws c s (t.modChan c f) where
  outside := (outside_modChan f).trans h.outside
  lawful hs := by
    have ht := h.lawful hs
    have key : ∀ d, ((t.modChan c f).chan d).Fine := by
      intro d
      rw [modChan_chan]
      split
      · exact hf (ht.fine c)
      · exact ht.fine d
    exact ⟨fun d => (key d).bounded, fun d => (key d).list, ht.source⟩

theorem Keeps.modChan (h : Keeps c s t) (f : Channel → Channel)
    (hf : (t.chan c).Fine → (f (t.chan c)).Fine) (hp : (f (t.chan c)).path = (t.chan c).path) :
    Keeps c s (t.modChan c f) where
  toKeepsLaws := h.toKeepsLaws.modChan f hf
  path := by rw [modChan_chan_same, hp, h.path]

/-- What the laws read of a channel, and its path. -/
def Channel.parts (ch : Channel) := (ch.core, ch.path)

/-- A change of the channel that its laws do not read and its path has no part in. -/
theorem Keeps.touch (h : Keeps c s t) (f : Channel → Channel) (hf : ∀ ch, (f ch).parts = ch.parts) :
    Keeps c s (t.modChan c f) :=
  h.modChan f (fun hc => hc.of_core (Prod.mk.inj (hf _)).1) (Prod.mk.inj (hf _)).2

/-! ### Sources, spare, notices -/

theorem outside_modSrc (p : Port) (f : Source → Source) : (t.modSrc p f).outside c = t.outside c := rfl

theorem Keeps.modSrc (h : Keeps c s t) (p : Port) (f : Source → Source)
    (hf : (t.src p).Lawful → (f (t.src p)).Lawful) : Keeps c s (t.modSrc p f) where
  outside := (outside_modSrc p f).trans h.outside
  path := h.path
  lawful hs := by
    have ht := h.lawful hs
    refine ⟨ht.bounded, ht.list, fun q => ?_⟩
    rw [modSrc_src]
    split
    · exact hf (ht.source p)
    · exact ht.source q

theorem Keeps.spare (h : Keeps c s t) (sp : Spare) : Keeps c s { t with spare := sp } where
  outside := h.outside
  path := h.path
  lawful hs := ⟨(h.lawful hs).bounded, (h.lawful hs).list, (h.lawful hs).source⟩

theorem Keeps.notices (h : Keeps c s t) (n : Notices) : Keeps c s { t with notices := n } where
  outside := h.outside
  path := h.path
  lawful hs := ⟨(h.lawful hs).bounded, (h.lawful hs).list, (h.lawful hs).source⟩

theorem Keeps.raiseCard (h : Keeps c s t) (k : CardKind) : Keeps c s (raiseCard k t) := h.notices _

theorem Keeps.raiseChan (h : Keeps c s t) (d : Chan) (k : ChanKind) : Keeps c s (raiseChan d k t) :=
  h.notices _

theorem Keeps.dropClaim (h : Keeps c s t) (d : Chan) (k : Claimant) : Keeps c s (dropClaim d k t) :=
  h.spare _

theorem Keeps.askSpare (h : Keeps c s t) (d : Chan) (k : Claimant) : Keeps c s (askSpare d k t).1 :=
  h.spare _

theorem Keeps.dropAnswer (h : Keeps c s t) (d : Chan) (k : Claimant) (a : SpareAns) :
    Keeps c s (dropAnswer d k a t) := by
  unfold Machine.dropAnswer
  split
  · exact h.dropClaim d k
  · exact h

/-- A change of a source with its notice. -/
theorem Keeps.changeSource (h : Keeps c s t) (p : Port) (f : Source → Source)
    (hf : (t.src p).Lawful → (f (t.src p)).Lawful) : Keeps c s (changeSource p f t) := by
  have hm := h.modSrc p f hf
  unfold Machine.changeSource
  dsimp only
  split
  · exact hm
  · exact hm.raiseCard _

/-! ### The laws of a source -/

/-- A source that enters ABSENT or DETECTING is lawful. -/
theorem Source.Lawful.unqualified {x : Source} (h : x.Lawful) {st : SrcState}
    (hst : st.isOwned = false) : (x.unqualified st).Lawful where
  owner := by simp [Source.unqualified, hst]
  inRun := Nat.zero_le _
  outRun := Nat.zero_le _
  goodRun := Nat.zero_le _
  badRun := Nat.zero_le _
  wk := h.wk
  rk := h.rk

/-- A change of state that keeps owner and state in agreement, and counts and key as they are. -/
theorem Source.Lawful.restate {x y : Source} (h : x.Lawful) (ho : y.owner.isSome = y.state.isOwned)
    (e : (y.inRun, y.outRun, y.goodRun, y.badRun, y.wk, y.rk) =
      (x.inRun, x.outRun, x.goodRun, x.badRun, x.wk, x.rk)) : y.Lawful := by
  simp only [Prod.mk.injEq] at e
  obtain ⟨e1, e2, e3, e4, e5, e6⟩ := e
  exact ⟨ho, e1 ▸ h.inRun, e2 ▸ h.outRun, e3 ▸ h.goodRun, e4 ▸ h.badRun, e5 ▸ h.wk,
    by rw [e6, e5]; exact h.rk⟩

/-- A change that neither law of a source reads. -/
theorem Source.Lawful.touch {x y : Source} (h : x.Lawful)
    (e : (y.owner, y.state, y.inRun, y.outRun, y.goodRun, y.badRun, y.wk, y.rk) =
      (x.owner, x.state, x.inRun, x.outRun, x.goodRun, x.badRun, x.wk, x.rk)) : y.Lawful := by
  simp only [Prod.mk.injEq] at e
  obtain ⟨e1, e2, e⟩ := e
  refine h.restate ?_ (by simpa using e)
  rw [e1, e2]
  exact h.owner

/-! ### The requests on a source (R46 to R49) -/

theorem Keeps.grantTake (h : Keeps c s t) (d : Chan) (p : Port) : Keeps c s (grantTake d p t) :=
  h.changeSource p _ (fun hx => hx.restate (by rfl) (by rfl))

theorem Keeps.beginRelease (h : Keeps c s t) (d : Chan) (p : Port) : Keeps c s (beginRelease d p t) := by
  unfold Machine.beginRelease
  split
  · rename_i hc
    exact h.changeSource p _ (fun hx => hx.restate (by simp [hc.2, SrcState.isOwned]) (by rfl))
  · exact h

theorem Keeps.letGo (h : Keeps c s t) (d : Chan) (p : Port) : Keeps c s (letGo d p t) := by
  unfold Machine.letGo
  split
  · split
    · exact h.changeSource p _ (fun hx => hx.restate (by rfl) (by rfl))
    · exact h.changeSource p _ (fun hx => hx.restate (by rfl) (by rfl))
    · refine h.changeSource p _ (fun hx => hx.unqualified ?_)
      split <;> rfl
    · exact h
  · exact h

/-- A fold of operations that keep. -/
theorem Keeps.foldl {α : Type} (f : State → α → State)
    (hf : ∀ {t} a, Keeps c s t → Keeps c s (f t a)) (l : List α) (h : Keeps c s t) :
    Keeps c s (l.foldl f t) := by
  induction l generalizing t with
  | nil => exact h
  | cons a l ih => exact ih (hf a h)

theorem Keeps.letGoAll (h : Keeps c s t) (d : Chan) : Keeps c s (letGoAll d t) :=
  Keeps.foldl _ (fun p h => h.letGo d p) _ h

end Sys2Proof.Machine
end

