-- ==== Sys2Proof/Laws/KeepsEngine.lean ====
section
/-! SUPPORT. What the placement resolver, the zone table and the transition engine keep (Chapters 5 to 7):
one lemma per operation, in the chaining form of `Keeps`. -/

namespace Sys2Proof.Machine

variable {c : Chan} {s t : State}

/-! ### Changes the laws do not read -/

theorem showDirect_parts (ch : Channel) : ch.showDirect.parts = ch.parts := by
  unfold Channel.showDirect
  split <;> rfl

theorem startGlide_parts (ch : Channel) (a b : Shown) (n : Nat) : (ch.startGlide a b n).parts = ch.parts := rfl

theorem glideToResolved_parts (ch : Channel) (n : Nat) : (ch.glideToResolved n).parts = ch.parts := by
  unfold Channel.glideToResolved
  split
  · dsimp only
    split
    · split
      · rfl
      · exact startGlide_parts _ _ _ _
    · split
      · rfl
      · exact startGlide_parts _ _ _ _
  · exact showDirect_parts ch
  · rfl

theorem stepGlide_parts (ch : Channel) : ch.stepGlide.parts = ch.parts := by
  unfold Channel.stepGlide
  split
  · rfl
  · dsimp only
    split <;> rfl

theorem hide_parts (ch : Channel) : ch.hide.parts = ch.parts := rfl

theorem resumeHeld_parts (ch : Channel) : (resumeHeld ch).parts = ch.parts := rfl

/-! ### The fault record and resolutions -/

/-- A fault record keeps its count within 255 (R106). -/
theorem recordFault_more (res : Resolution) (ch : Channel)
    (h : ∀ r, ch.fault = some r → r.more ≤ 255) : ∀ r, recordFault res ch = some r → r.more ≤ 255 := by
  intro r hr
  unfold recordFault at hr
  split at hr
  · exact h r hr
  · split at hr
    · cases hr
      exact Nat.zero_le _
    · cases hr
      exact Nat.min_le_left _ _

theorem Keeps.raiseFault (h : Keeps c s t) (d : Chan) (res : Resolution) (e : Bool) :
    Keeps c s (raiseFault d res e t) := by
  unfold Machine.raiseFault
  dsimp only
  split <;> split
  · exact (h.raiseChan _ _).raiseChan _ _
  · exact h.raiseChan _ _
  · exact h.raiseChan _ _
  · exact h

theorem Keeps.resolveFor (h : Keeps c s t) (p : Port) : Keeps c s (resolveFor c p t).1 := by
  unfold Machine.resolveFor
  split
  · exact h
  · dsimp only
    refine (h.modChan _ (fun hc => ⟨⟨?_, ?_, ?_, ?_, ?_, ?_, ?_, ?_, ?_, ?_⟩, ⟨?_, ?_⟩⟩)
      (by rfl)).raiseFault _ _ _
    · exact hc.bounded.store
    · exact hc.bounded.target
    · exact hc.bounded.delay
    · exact hc.bounded.slew
    · exact hc.bounded.stack
    · exact hc.bounded.glide
    · exact hc.bounded.zones
    · exact recordFault_more _ _ hc.bounded.more
    · exact hc.bounded.hold
    · exact hc.bounded.cues
    · exact hc.list.order
    · exact hc.list.tags

/-! ### Entering and leaving states -/

theorem Keeps.letGoAndHide (h : Keeps c s t) : Keeps c s (letGoAndHide c t) := by
  unfold Machine.letGoAndHide
  split
  · exact (h.letGo _ _).touch _ hide_parts
  · exact h.touch _ hide_parts

theorem Keeps.endCrossfade (h : Keeps c s t) : Keeps c s (endCrossfade c t) := by
  unfold Machine.endCrossfade
  split
  · exact ((h.letGo _ _).touch _ (fun _ => by rfl)).dropClaim _ _
  · exact (h.touch _ (fun _ => by rfl)).dropClaim _ _

theorem Keeps.fadeOut (h : Keeps c s t) (n : Nat) : Keeps c s (fadeOut c n t) := by
  unfold Machine.fadeOut
  split
  · exact h.letGoAndHide
  · exact h.touch _ (fun _ => by rfl)

theorem Keeps.fadeIn (h : Keeps c s t) (n : Nat) : Keeps c s (fadeIn c n t) :=
  h.touch _ (fun _ => by rfl)

theorem Keeps.forceOut (h : Keeps c s t) : Keeps c s (forceOut c t) := h.touch _ (fun _ => by rfl)

theorem Keeps.showDirect (h : Keeps c s t) : Keeps c s (t.modChan c Channel.showDirect) :=
  h.touch _ showDirect_parts

theorem Keeps.reactForcedOut (h : Keeps c s t) : Keeps c s (reactForcedOut c t) := by
  unfold Machine.reactForcedOut
  split
  · exact h
  · exact h.forceOut
  · exact h.forceOut
  · exact h.forceOut
  · exact h.forceOut
  · exact h.endCrossfade.forceOut
  · exact h

theorem Keeps.reactFitting (h : Keeps c s t) (n : Nat) : Keeps c s (reactFitting c n t) := by
  unfold Machine.reactFitting
  split
  · split
    · exact h.showDirect.fadeIn _
    · exact h
  · exact h.touch _ (fun ch => glideToResolved_parts ch n)

theorem Keeps.resolveVisible (h : Keeps c s t) (n : Nat) : Keeps c s (resolveVisible c n t).1 := by
  unfold Machine.resolveVisible
  split
  · exact h
  · split
    · exact h
    · dsimp only
      split
      · exact (h.resolveFor _).reactForcedOut
      · split
        · exact h.resolveFor _
        · exact (h.resolveFor _).reactFitting _

/-! ### SHOW, HIDE, HANDOVER, STANDBY -/

theorem Keeps.showFromHidden (h : Keeps c s t) (p : Port) (n : Nat) :
    Keeps c s (showFromHidden c p n t).1 := by
  unfold Machine.showFromHidden
  split
  · exact h
  · dsimp only
    have h1 := ((h.grantTake c p).touch (fun ch => { ch with
      home := some p, cur := some ⟨p, 0, none⟩, exitMark := false, inset := .forcedOut })
      (fun _ => by rfl)).resolveFor p
    split
    · exact h1
    · exact h1.showDirect.fadeIn n

theorem Keeps.showAgain (h : Keeps c s t) (p : Port) (n : Nat) : Keeps c s (showAgain c p n t).1 := by
  unfold Machine.showAgain
  split
  · exact h
  · dsimp only
    have h1 := ((h.grantTake c p).touch (fun ch => { ch with exitMark := false })
      (fun _ => by rfl)).resolveFor p
    split
    · exact h1.forceOut
    · split
      · exact h1.fadeIn n
      · exact (h1.touch _ (fun ch => glideToResolved_parts ch _)).fadeIn n

theorem Keeps.doShow (h : Keeps c s t) (src : Option Port) (n : Nat) : Keeps c s (doShow c src n t).1 := by
  unfold Machine.doShow
  split
  · exact h
  · dsimp only
    split
    · exact h.showFromHidden _ n
    · exact h
    · exact h
    · split
      · exact h.showAgain _ n
      · exact h
    · exact h
    · exact h
    · exact h

theorem Keeps.releaseCurrent (h : Keeps c s t) : Keeps c s (releaseCurrent c t) := by
  unfold Machine.releaseCurrent
  split
  · exact h.beginRelease _ _
  · exact h

theorem Keeps.doHide (h : Keeps c s t) (n : Nat) : Keeps c s (doHide c n t) := by
  unfold Machine.doHide
  split
  · exact h
  · exact h.releaseCurrent.fadeOut n
  · exact h.releaseCurrent.fadeOut n
  · exact h.fadeOut n
  · exact h.endCrossfade.releaseCurrent.fadeOut n
  · exact (h.touch _ (fun _ => by rfl)).fadeOut n
  · exact h.letGoAndHide

theorem Keeps.beginCrossfade (h : Keeps c s t) (p : Port) (n : Nat) (o : OnAir) (r : Option Rect) :
    Keeps c s (beginCrossfade c p n o r t) := by
  unfold Machine.beginCrossfade
  exact ((h.beginRelease _ _).askSpare _ _).touch _ (fun _ => by rfl)

theorem Keeps.cutOver (h : Keeps c s t) (p : Port) (n : Nat) (o : OnAir) :
    Keeps c s (cutOver c p n o t) := by
  unfold Machine.cutOver
  dsimp only
  have h1 := ((h.letGo c o.src).dropClaim c .crossfade).touch (fun ch => { ch with
    inset := .shown, out := none, outRect := none, cur := some ⟨p, 1024, none⟩,
    exitMark := false, holdCount := 0, paused := none }) (fun _ => by rfl)
  split
  · exact h1
  · exact h1.raiseChan _ _

theorem Keeps.forcedHandover (h : Keeps c s t) (p : Port) (o : OnAir) :
    Keeps c s (forcedHandover c p o t) := by
  unfold Machine.forcedHandover
  exact ((h.letGo _ _).touch _ (fun _ => by rfl)).dropClaim _ _

theorem Keeps.handOver (h : Keeps c s t) (p : Port) (n : Nat) (k : SpareAns) (o : OnAir) :
    Keeps c s (handOver c p n k o t) := by
  unfold Machine.handOver
  dsimp only
  have h1 := (h.touch (fun ch => { ch with home := some p, glide := none }) (fun _ => by rfl)).resolveFor p
  split
  · exact h1.forcedHandover _ _
  · split
    · exact h1.showDirect.beginCrossfade _ _ _ _
    · exact h1.showDirect.cutOver _ _ _

theorem Keeps.handOverFrom (h : Keeps c s t) (p : Port) (n : Nat) (k : SpareAns) :
    Keeps c s (handOverFrom c p n k t).1 := by
  unfold Machine.handOverFrom
  split
  · exact h
  · exact h
  · exact (h.grantTake _ _).handOver _ _ _ _

theorem Keeps.completeForHandover (h : Keeps c s t) : Keeps c s (completeForHandover c t) := by
  unfold Machine.completeForHandover
  dsimp only
  split
  · exact (h.letGo _ _).touch _ (fun _ => by rfl)
  · exact h.touch _ (fun _ => by rfl)

theorem Keeps.handOverInCrossfade (h : Keeps c s t) (p : Port) (n : Nat) (k : SpareAns) :
    Keeps c s (handOverInCrossfade c p n k t).1 := by
  unfold Machine.handOverInCrossfade
  split
  · exact h
  · dsimp only
    split
    · exact (h.grantTake _ _).completeForHandover.handOver _ _ _ _
    · exact (h.grantTake _ _).completeForHandover

theorem Keeps.handOverForcedOut (h : Keeps c s t) (p : Port) :
    Keeps c s (handOverForcedOut c p t).1 := by
  unfold Machine.handOverForcedOut
  split
  · exact h
  · exact h
  · rename_i old _ _
    dsimp only
    have h1 := (((h.grantTake c p).letGo c old.src).touch (fun ch => { ch with
      home := some p, exitMark := false, cur := some { old with src := p } }) (fun _ => by rfl)).resolveFor p
    split
    · exact h1
    · exact (h1.touch _ (fun ch => (showDirect_parts _).trans (by rfl))).fadeIn 6

theorem Keeps.doHandover (h : Keeps c s t) (p : Port) (n : Nat) (k : SpareAns) :
    Keeps c s (doHandover c p n k t).1 := by
  unfold Machine.doHandover
  dsimp only
  split
  · exact h.showFromHidden _ _
  · split <;> first | exact h | exact h.handOverFrom _ _ _
  · split <;> first | exact h | exact h.handOverFrom _ _ _
  · split <;> first | exact h | exact h.handOverFrom _ _ _
  · split <;> first | exact h | exact h.handOverFrom _ _ _
  · split <;> first | exact h | exact h.handOverInCrossfade _ _ _
  · split <;> first | exact h | exact h.handOverForcedOut _

theorem Keeps.doStandby (h : Keeps c s t) (p : Option Port) : Keeps c s (doStandby c p t) :=
  h.touch _ (fun _ => by rfl)

/-! ### Loss and return -/

theorem Keeps.expireHold (h : Keeps c s t) : Keeps c s (expireHold c t) := by
  unfold Machine.expireHold
  exact (h.touch _ (fun _ => by rfl)).raiseChan _ _

theorem Keeps.enterHold (h : Keeps c s t) (p : Paused) : Keeps c s (enterHold c p t) := by
  unfold Machine.enterHold
  dsimp only
  have h1 := h.touch (fun ch => { ch with inset := .held, paused := some p, holdCount := 0 })
    (fun _ => by rfl)
  split
  · exact h1.expireHold
  · exact h1

theorem Keeps.cutToStandby (h : Keeps c s t) (p q : Port) : Keeps c s (cutToStandby c p q t) := by
  unfold Machine.cutToStandby
  dsimp only
  have h1 := (((h.grantTake c q).letGo c p).touch (fun ch => { ch with
    cur := ch.cur.map (fun o => { o with src := q }), standby := none, home := some q })
    (fun _ => by rfl)).resolveFor q
  split
  · exact h1.reactForcedOut
  · exact h1.showDirect

theorem Keeps.lossOnAir (h : Keeps c s t) (p : Port) (k : Paused) : Keeps c s (lossOnAir c p k t) := by
  unfold Machine.lossOnAir
  split
  · exact h.enterHold _
  · split
    · exact h.cutToStandby _ _
    · exact h.enterHold _

theorem Keeps.lossForcedOut (h : Keeps c s t) : Keeps c s (lossForcedOut c t) := by
  unfold Machine.lossForcedOut
  split
  · split
    · exact h.letGoAndHide
    · exact h
  · exact h

theorem Keeps.lossIncoming (h : Keeps c s t) : Keeps c s (lossIncoming c t) :=
  (h.completeForHandover.dropClaim _ _).enterHold _

theorem Keeps.lossOutgoing (h : Keeps c s t) : Keeps c s (lossOutgoing c t) :=
  h.endCrossfade.touch _ (fun _ => by rfl)

theorem Keeps.reportLoss (h : Keeps c s t) (p : Port) : Keeps c s (reportLoss c p t) := by
  unfold Machine.reportLoss
  dsimp only
  have h1 := h.raiseChan c .sourceLost
  split
  · split
    · exact h1
    · exact h1.lossOnAir _ _
    · exact h1.lossOnAir _ _
    · exact h1
    · exact h1.lossIncoming
    · exact h1
    · exact h1.lossForcedOut
  · split
    · exact h1.lossOutgoing
    · exact h1

theorem Keeps.reportReturn (h : Keeps c s t) (p : Port) : Keeps c s (reportReturn c p t) := by
  unfold Machine.reportReturn
  split
  · split
    · exact h.touch _ resumeHeld_parts
    · exact h.beginRelease _ _
    · split
      · exact h.beginRelease _ _
      · exact h
    · exact h
  · split
    · exact h.beginRelease _ _
    · exact h

/-! ### The engine's step -/

theorem Keeps.endForcedFade (h : Keeps c s t) : Keeps c s (endForcedFade c t) := by
  unfold Machine.endForcedFade
  split
  · exact h.letGoAndHide
  · exact h

theorem Keeps.settleFade (h : Keeps c s t) : Keeps c s (settleFade c t) := by
  unfold Machine.settleFade
  split
  · exact h.touch _ (fun _ => by rfl)
  · exact h.letGoAndHide
  · exact h.endCrossfade.touch _ (fun _ => by rfl)
  · exact h.endForcedFade
  · exact h

theorem Keeps.stepFades (h : Keeps c s t) : Keeps c s (stepFades c t) := by
  unfold Machine.stepFades
  dsimp only
  have h1 := h.touch (fun ch => { ch with
    cur := ch.cur.map OnAir.stepFade, out := ch.out.map OnAir.stepFade }) (fun _ => by rfl)
  split
  · split
    · exact h1
    · exact h1.settleFade
  · exact h

theorem Keeps.stepGlide (h : Keeps c s t) : Keeps c s (t.modChan c Channel.stepGlide) :=
  h.touch _ stepGlide_parts

theorem Keeps.stepHold (h : Keeps c s t) : Keeps c s (stepHold c t) := by
  unfold Machine.stepHold
  dsimp only
  have h1 := h.touch (fun ch => { ch with holdCount := ch.holdCount + 1 }) (fun _ => by rfl)
  split
  · split
    · exact h1.expireHold.stepFades
    · exact h1
  · exact h

theorem Keeps.stepEngine (h : Keeps c s t) : Keeps c s (stepEngine c t) := by
  unfold Machine.stepEngine
  split
  · exact h
  · exact h.stepFades.stepGlide.stepHold

theorem Keeps.dropInset (h : Keeps c s t) : Keeps c s (dropInset c t) := by
  unfold Machine.dropInset
  exact ((h.letGoAll _).touch _ hide_parts).spare _

/-! ### The zone table and the placement actions -/

theorem Keeps.changeZones (h : Keeps c s t) (zones : List Zone)
    (hz : zones.length = (t.chan c).zones.length) : Keeps c s (changeZones c zones t).1 := by
  unfold Machine.changeZones
  dsimp only
  have h1 := h.modChan (fun ch => { ch with zones := zones })
    (fun hc => hc.of_core (by simp [Channel.core, hz])) (by rfl)
  split
  · exact h1
  · exact h1.resolveVisible _

theorem Keeps.expireZones (h : Keeps c s t) (due : Nat → Bool) : Keeps c s (expireZones c due t) :=
  h.changeZones _ (by simp)

theorem Keeps.doZone (h : Keeps c s t) (i : Nat) (a : Bool) (e : Option Dated) :
    Keeps c s (doZone c i a e t).1 := by
  unfold Machine.doZone
  dsimp only
  split
  · split
    · exact h.changeZones _ (by simp)
    · exact h
  · exact h.changeZones _ (by simp)

theorem Keeps.doPlace (h : Keeps c s t) (b : Block) (g : Option Nat) : Keeps c s (doPlace c b g t) := by
  unfold Machine.doPlace
  exact (h.touch _ (fun _ => by rfl)).resolveVisible _

/-- A new requested placement and a stack of at most 4 blocks (R88). -/
theorem Channel.Fine.restack {ch : Channel} (h : ch.Fine) (b : Block) (l : List Block)
    (hl : l.length ≤ 4) : ({ ch with stack := l, requested := b } : Channel).Fine :=
  ⟨⟨h.bounded.store, h.bounded.target, h.bounded.delay, h.bounded.slew, hl, h.bounded.glide,
    h.bounded.zones, h.bounded.more, h.bounded.hold, h.bounded.cues⟩, ⟨h.list.order, h.list.tags⟩⟩

theorem Keeps.doPush (h : Keeps c s t) (b : Block) (g : Option Nat) : Keeps c s (doPush c b g t) := by
  unfold Machine.doPush
  dsimp only
  split
  · refine ((h.modChan _ (fun hc => hc.restack b _ ?_) (by rfl)).raiseChan _ _).resolveVisible _
    have := hc.bounded.stack
    simp only [List.length_append, List.length_cons, List.length_nil, List.length_drop]
    omega
  · rename_i hf
    refine (h.modChan _ (fun hc => hc.restack b _ ?_) (by rfl)).resolveVisible _
    simp only [decide_eq_true_eq, Nat.not_le] at hf
    simp only [List.length_append, List.length_cons, List.length_nil]
    omega

theorem Keeps.doPop (h : Keeps c s t) (g : Option Nat) : Keeps c s (doPop c g t).1 := by
  unfold Machine.doPop
  split
  · exact h.raiseChan _ _
  · dsimp only
    refine (h.modChan _ (fun hc => hc.restack _ _ ?_) (by rfl)).resolveVisible _
    have := hc.bounded.stack
    simp only [List.length_dropLast]
    omega

theorem Keeps.doMark (h : Keeps c s t) (n : Nat) : Keeps c s (doMark c n t) := by
  unfold Machine.doMark
  exact (h.touch _ (fun _ => by rfl)).raiseChan _ _

/-- An on-air action keeps the card outside its channel, and the laws (R117, R152). -/
theorem Keeps.applyAction (h : Keeps c s t) (a : Action) (k : SpareAns) :
    Keeps c s (applyAction c a k t).1 := by
  cases a with
  | showInset src n => exact h.doShow src n
  | hide n => exact h.doHide n
  | handover src n => exact h.doHandover src n k
  | place b g => exact h.doPlace b g
  | push b g => exact h.doPush b g
  | pop g => exact h.doPop g
  | zone i a e => exact h.doZone i a e
  | mark n => exact h.doMark n
  | standby p => exact h.doStandby p

theorem Keeps.writeFailure (h : Keeps c s t) (tag : Nat) (a : Action) (r : Reason) :
    Keeps c s (writeFailure c tag a r t) := by
  unfold Machine.writeFailure
  exact (h.touch _ (fun _ => by rfl)).raiseChan _ _

end Sys2Proof.Machine
end

