-- ==== Sys2Proof/Laws/EngineFrame.lean ====
section
/-! SUPPORT. What the placement resolver and the transition engine leave alone in their channel: its cue
list, counters, waiting actions, zone table and requested placement (Chapters 5 to 8). One lemma per
operation, in the chaining form of `Keeps`; `applyAction_dispatcher` says it of every on-air action. -/

namespace Sys2Proof.Machine

variable {c : Chan} {s t : State}

/-- The part of a channel's dispatcher that no on-air action changes: list, recorded set, held-back mark,
waiting actions, counters and last failure (R138, R152, R185). -/
def Channel.dispatcher (ch : Channel) :
    (List Cue × Option (List Nat) × Bool × List Waiting) ×
    (BitVec 16 × BitVec 16 × BitVec 16 × BitVec 16) × Option Failure :=
  ((ch.cues, ch.deferred, ch.heldBack, ch.waiting), (ch.fired, ch.failed, ch.missed, ch.removed),
   ch.lastFailure)

/-- What a resolution and the engine leave alone in a channel. -/
def Channel.asked (ch : Channel) :=
  (ch.dispatcher, ch.lastMarker, ch.zones, ch.requested, ch.stack, ch.defaultGlide, ch.holdTime)

/-- From `s` to `t` channel `c` kept all that. -/
def SameAsked (c : Chan) (s t : State) : Prop := (t.chan c).asked = (s.chan c).asked

theorem SameAsked.rfl : SameAsked c s s := Eq.refl _

theorem SameAsked.touch (h : SameAsked c s t) (f : Channel → Channel) (hf : ∀ ch, (f ch).asked = ch.asked) :
    SameAsked c s (t.modChan c f) := by
  unfold SameAsked
  rw [modChan_chan_same, hf]
  exact h

theorem SameAsked.raiseChan (h : SameAsked c s t) (d : Chan) (k : ChanKind) :
    SameAsked c s (raiseChan d k t) := h

theorem SameAsked.dropClaim (h : SameAsked c s t) (d : Chan) (k : Claimant) :
    SameAsked c s (dropClaim d k t) := h

theorem SameAsked.askSpare (h : SameAsked c s t) (d : Chan) (k : Claimant) :
    SameAsked c s (askSpare d k t).1 := h

theorem changeSource_chan (p : Port) (f : Source → Source) : (changeSource p f s).chan c = s.chan c := by
  unfold changeSource
  dsimp only
  split <;> rfl

theorem SameAsked.grantTake (h : SameAsked c s t) (d : Chan) (p : Port) :
    SameAsked c s (grantTake d p t) := by
  unfold SameAsked Machine.grantTake
  rw [changeSource_chan]
  exact h

theorem SameAsked.beginRelease (h : SameAsked c s t) (d : Chan) (p : Port) :
    SameAsked c s (beginRelease d p t) := by
  unfold SameAsked Machine.beginRelease
  split
  · rw [changeSource_chan]
    exact h
  · exact h

theorem SameAsked.letGo (h : SameAsked c s t) (d : Chan) (p : Port) : SameAsked c s (letGo d p t) := by
  unfold SameAsked Machine.letGo
  split
  · split <;> first | exact h | (rw [changeSource_chan]; exact h)
  · exact h

theorem showDirect_asked (ch : Channel) : ch.showDirect.asked = ch.asked := by
  unfold Channel.showDirect
  split <;> rfl

theorem startGlide_asked (ch : Channel) (a b : Shown) (n : Nat) : (ch.startGlide a b n).asked = ch.asked := rfl

theorem glideToResolved_asked (ch : Channel) (n : Nat) : (ch.glideToResolved n).asked = ch.asked := by
  unfold Channel.glideToResolved
  split
  · dsimp only
    split
    · split
      · rfl
      · exact startGlide_asked _ _ _ _
    · split
      · rfl
      · exact startGlide_asked _ _ _ _
  · exact showDirect_asked ch
  · rfl

theorem stepGlide_asked (ch : Channel) : ch.stepGlide.asked = ch.asked := by
  unfold Channel.stepGlide
  split
  · rfl
  · dsimp only
    split <;> rfl

theorem hide_asked (ch : Channel) : ch.hide.asked = ch.asked := rfl

theorem resumeHeld_asked (ch : Channel) : (resumeHeld ch).asked = ch.asked := rfl

/-! ### The fault record and resolutions -/

theorem SameAsked.raiseFault (h : SameAsked c s t) (d : Chan) (res : Resolution) (e : Bool) :
    SameAsked c s (raiseFault d res e t) := by
  unfold Machine.raiseFault
  dsimp only
  split <;> split
  · exact (h.raiseChan _ _).raiseChan _ _
  · exact h.raiseChan _ _
  · exact h.raiseChan _ _
  · exact h

theorem SameAsked.resolveFor (h : SameAsked c s t) (p : Port) : SameAsked c s (resolveFor c p t).1 := by
  unfold Machine.resolveFor
  split
  · exact h
  · dsimp only
    exact (h.touch _ (fun _ => by rfl)).raiseFault _ _ _

/-! ### Entering and leaving states -/

theorem SameAsked.letGoAndHide (h : SameAsked c s t) : SameAsked c s (letGoAndHide c t) := by
  unfold Machine.letGoAndHide
  split
  · exact (h.letGo _ _).touch _ hide_asked
  · exact h.touch _ hide_asked

theorem SameAsked.endCrossfade (h : SameAsked c s t) : SameAsked c s (endCrossfade c t) := by
  unfold Machine.endCrossfade
  split
  · exact ((h.letGo _ _).touch _ (fun _ => by rfl)).dropClaim _ _
  · exact (h.touch _ (fun _ => by rfl)).dropClaim _ _

theorem SameAsked.fadeOut (h : SameAsked c s t) (n : Nat) : SameAsked c s (fadeOut c n t) := by
  unfold Machine.fadeOut
  split
  · exact h.letGoAndHide
  · exact h.touch _ (fun _ => by rfl)

theorem SameAsked.fadeIn (h : SameAsked c s t) (n : Nat) : SameAsked c s (fadeIn c n t) :=
  h.touch _ (fun _ => by rfl)

theorem SameAsked.forceOut (h : SameAsked c s t) : SameAsked c s (forceOut c t) := h.touch _ (fun _ => by rfl)

theorem SameAsked.showDirect (h : SameAsked c s t) : SameAsked c s (t.modChan c Channel.showDirect) :=
  h.touch _ showDirect_asked

theorem SameAsked.reactForcedOut (h : SameAsked c s t) : SameAsked c s (reactForcedOut c t) := by
  unfold Machine.reactForcedOut
  split
  · exact h
  · exact h.forceOut
  · exact h.forceOut
  · exact h.forceOut
  · exact h.forceOut
  · exact h.endCrossfade.forceOut
  · exact h

theorem SameAsked.reactFitting (h : SameAsked c s t) (n : Nat) : SameAsked c s (reactFitting c n t) := by
  unfold Machine.reactFitting
  split
  · split
    · exact h.showDirect.fadeIn _
    · exact h
  · exact h.touch _ (fun ch => glideToResolved_asked ch n)

theorem SameAsked.resolveVisible (h : SameAsked c s t) (n : Nat) :
    SameAsked c s (resolveVisible c n t).1 := by
  unfold Machine.resolveVisible
  split
  · exact h
  · split
    · exact h
    · dsimp only
      split
      · exact (h.resolveFor _).reactForcedOut
      · split
        · exact h.resolveFor _
        · exact (h.resolveFor _).reactFitting _

/-! ### SHOW, HIDE, HANDOVER, STANDBY -/

theorem SameAsked.showFromHidden (h : SameAsked c s t) (p : Port) (n : Nat) :
    SameAsked c s (showFromHidden c p n t).1 := by
  unfold Machine.showFromHidden
  split
  · exact h
  · dsimp only
    have h1 := ((h.grantTake c p).touch (fun ch => { ch with
      home := some p, cur := some ⟨p, 0, none⟩, exitMark := false, inset := .forcedOut })
      (fun _ => by rfl)).resolveFor p
    split
    · exact h1
    · exact h1.showDirect.fadeIn n

theorem SameAsked.showAgain (h : SameAsked c s t) (p : Port) (n : Nat) :
    SameAsked c s (showAgain c p n t).1 := by
  unfold Machine.showAgain
  split
  · exact h
  · dsimp only
    have h1 := ((h.grantTake c p).touch (fun ch => { ch with exitMark := false })
      (fun _ => by rfl)).resolveFor p
    split
    · exact h1.forceOut
    · split
      · exact h1.fadeIn n
      · exact (h1.touch _ (fun ch => glideToResolved_asked ch _)).fadeIn n

theorem SameAsked.doShow (h : SameAsked c s t) (src : Option Port) (n : Nat) :
    SameAsked c s (doShow c src n t).1 := by
  unfold Machine.doShow
  split
  · exact h
  · dsimp only
    split
    · exact h.showFromHidden _ n
    · exact h
    · exact h
    · split
      · exact h.showAgain _ n
      · exact h
    · exact h
    · exact h
    · exact h

theorem SameAsked.releaseCurrent (h : SameAsked c s t) : SameAsked c s (releaseCurrent c t) := by
  unfold Machine.releaseCurrent
  split
  · exact h.beginRelease _ _
  · exact h

theorem SameAsked.doHide (h : SameAsked c s t) (n : Nat) : SameAsked c s (doHide c n t) := by
  unfold Machine.doHide
  split
  · exact h
  · exact h.releaseCurrent.fadeOut n
  · exact h.releaseCurrent.fadeOut n
  · exact h.fadeOut n
  · exact h.endCrossfade.releaseCurrent.fadeOut n
  · exact (h.touch _ (fun _ => by rfl)).fadeOut n
  · exact h.letGoAndHide

theorem SameAsked.beginCrossfade (h : SameAsked c s t) (p : Port) (n : Nat) (o : OnAir) (r : Option Rect) :
    SameAsked c s (beginCrossfade c p n o r t) := by
  unfold Machine.beginCrossfade
  exact ((h.beginRelease _ _).askSpare _ _).touch _ (fun _ => by rfl)

theorem SameAsked.cutOver (h : SameAsked c s t) (p : Port) (n : Nat) (o : OnAir) :
    SameAsked c s (cutOver c p n o t) := by
  unfold Machine.cutOver
  dsimp only
  have h1 := ((h.letGo c o.src).dropClaim c .crossfade).touch (fun ch => { ch with
    inset := .shown, out := none, outRect := none, cur := some ⟨p, 1024, none⟩,
    exitMark := false, holdCount := 0, paused := none }) (fun _ => by rfl)
  split
  · exact h1
  · exact h1.raiseChan _ _

theorem SameAsked.forcedHandover (h : SameAsked c s t) (p : Port) (o : OnAir) :
    SameAsked c s (forcedHandover c p o t) := by
  unfold Machine.forcedHandover
  exact ((h.letGo _ _).touch _ (fun _ => by rfl)).dropClaim _ _

theorem SameAsked.handOver (h : SameAsked c s t) (p : Port) (n : Nat) (k : SpareAns) (o : OnAir) :
    SameAsked c s (handOver c p n k o t) := by
  unfold Machine.handOver
  dsimp only
  have h1 := (h.touch (fun ch => { ch with home := some p, glide := none }) (fun _ => by rfl)).resolveFor p
  split
  · exact h1.forcedHandover _ _
  · split
    · exact h1.showDirect.beginCrossfade _ _ _ _
    · exact h1.showDirect.cutOver _ _ _

theorem SameAsked.handOverFrom (h : SameAsked c s t) (p : Port) (n : Nat) (k : SpareAns) :
    SameAsked c s (handOverFrom c p n k t).1 := by
  unfold Machine.handOverFrom
  split
  · exact h
  · exact h
  · exact (h.grantTake _ _).handOver _ _ _ _

theorem SameAsked.completeForHandover (h : SameAsked c s t) : SameAsked c s (completeForHandover c t) := by
  unfold Machine.completeForHandover
  dsimp only
  split
  · exact (h.letGo _ _).touch _ (fun _ => by rfl)
  · exact h.touch _ (fun _ => by rfl)

theorem SameAsked.handOverInCrossfade (h : SameAsked c s t) (p : Port) (n : Nat) (k : SpareAns) :
    SameAsked c s (handOverInCrossfade c p n k t).1 := by
  unfold Machine.handOverInCrossfade
  split
  · exact h
  · dsimp only
    split
    · exact (h.grantTake _ _).completeForHandover.handOver _ _ _ _
    · exact (h.grantTake _ _).completeForHandover

theorem SameAsked.handOverForcedOut (h : SameAsked c s t) (p : Port) :
    SameAsked c s (handOverForcedOut c p t).1 := by
  unfold Machine.handOverForcedOut
  split
  · exact h
  · exact h
  · rename_i old _ _
    dsimp only
    have h1 := (((h.grantTake c p).letGo c old.src).touch (fun ch => { ch with
      home := some p, exitMark := false, cur := some { old with src := p } }) (fun _ => by rfl)).resolveFor p
    split
    · exact h1
    · exact (h1.touch _ (fun ch => (showDirect_asked _).trans (by rfl))).fadeIn 6

theorem SameAsked.doHandover (h : SameAsked c s t) (p : Port) (n : Nat) (k : SpareAns) :
    SameAsked c s (doHandover c p n k t).1 := by
  unfold Machine.doHandover
  dsimp only
  split
  · exact h.showFromHidden _ _
  · split <;> first | exact h | exact h.handOverFrom _ _ _
  · split <;> first | exact h | exact h.handOverFrom _ _ _
  · split <;> first | exact h | exact h.handOverFrom _ _ _
  · split <;> first | exact h | exact h.handOverFrom _ _ _
  · split <;> first | exact h | exact h.handOverInCrossfade _ _ _
  · split <;> first | exact h | exact h.handOverForcedOut _

theorem SameAsked.doStandby (h : SameAsked c s t) (p : Option Port) : SameAsked c s (doStandby c p t) :=
  h.touch _ (fun _ => by rfl)

/-! ### Loss and return -/

theorem SameAsked.expireHold (h : SameAsked c s t) : SameAsked c s (expireHold c t) := by
  unfold Machine.expireHold
  exact (h.touch _ (fun _ => by rfl)).raiseChan _ _

theorem SameAsked.enterHold (h : SameAsked c s t) (p : Paused) : SameAsked c s (enterHold c p t) := by
  unfold Machine.enterHold
  dsimp only
  have h1 := h.touch (fun ch => { ch with inset := .held, paused := some p, holdCount := 0 })
    (fun _ => by rfl)
  split
  · exact h1.expireHold
  · exact h1

theorem SameAsked.cutToStandby (h : SameAsked c s t) (p q : Port) : SameAsked c s (cutToStandby c p q t) := by
  unfold Machine.cutToStandby
  dsimp only
  have h1 := (((h.grantTake c q).letGo c p).touch (fun ch => { ch with
    cur := ch.cur.map (fun o => { o with src := q }), standby := none, home := some q })
    (fun _ => by rfl)).resolveFor q
  split
  · exact h1.reactForcedOut
  · exact h1.showDirect

theorem SameAsked.lossOnAir (h : SameAsked c s t) (p : Port) (k : Paused) :
    SameAsked c s (lossOnAir c p k t) := by
  unfold Machine.lossOnAir
  split
  · exact h.enterHold _
  · split
    · exact h.cutToStandby _ _
    · exact h.enterHold _

theorem SameAsked.lossForcedOut (h : SameAsked c s t) : SameAsked c s (lossForcedOut c t) := by
  unfold Machine.lossForcedOut
  split
  · split
    · exact h.letGoAndHide
    · exact h
  · exact h

theorem SameAsked.lossIncoming (h : SameAsked c s t) : SameAsked c s (lossIncoming c t) :=
  (h.completeForHandover.dropClaim _ _).enterHold _

theorem SameAsked.lossOutgoing (h : SameAsked c s t) : SameAsked c s (lossOutgoing c t) :=
  h.endCrossfade.touch _ (fun _ => by rfl)

theorem SameAsked.reportLoss (h : SameAsked c s t) (p : Port) : SameAsked c s (reportLoss c p t) := by
  unfold Machine.reportLoss
  dsimp only
  have h1 := h.raiseChan c .sourceLost
  split
  · split
    · exact h1
    · exact h1.lossOnAir _ _
    · exact h1.lossOnAir _ _
    · exact h1
    · exact h1.lossIncoming
    · exact h1
    · exact h1.lossForcedOut
  · split
    · exact h1.lossOutgoing
    · exact h1

theorem SameAsked.reportReturn (h : SameAsked c s t) (p : Port) : SameAsked c s (reportReturn c p t) := by
  unfold Machine.reportReturn
  split
  · split
    · exact h.touch _ resumeHeld_asked
    · exact h.beginRelease _ _
    · split
      · exact h.beginRelease _ _
      · exact h
    · exact h
  · split
    · exact h.beginRelease _ _
    · exact h

/-! ### The engine's step -/

theorem SameAsked.endForcedFade (h : SameAsked c s t) : SameAsked c s (endForcedFade c t) := by
  unfold Machine.endForcedFade
  split
  · exact h.letGoAndHide
  · exact h

theorem SameAsked.settleFade (h : SameAsked c s t) : SameAsked c s (settleFade c t) := by
  unfold Machine.settleFade
  split
  · exact h.touch _ (fun _ => by rfl)
  · exact h.letGoAndHide
  · exact h.endCrossfade.touch _ (fun _ => by rfl)
  · exact h.endForcedFade
  · exact h

theorem SameAsked.stepFades (h : SameAsked c s t) : SameAsked c s (stepFades c t) := by
  unfold Machine.stepFades
  dsimp only
  have h1 := h.touch (fun ch => { ch with
    cur := ch.cur.map OnAir.stepFade, out := ch.out.map OnAir.stepFade }) (fun _ => by rfl)
  split
  · split
    · exact h1
    · exact h1.settleFade
  · exact h

theorem SameAsked.stepGlide (h : SameAsked c s t) : SameAsked c s (t.modChan c Channel.stepGlide) :=
  h.touch _ stepGlide_asked

theorem SameAsked.stepHold (h : SameAsked c s t) : SameAsked c s (stepHold c t) := by
  unfold Machine.stepHold
  dsimp only
  have h1 := h.touch (fun ch => { ch with holdCount := ch.holdCount + 1 }) (fun _ => by rfl)
  split
  · split
    · exact h1.expireHold.stepFades
    · exact h1
  · exact h

theorem SameAsked.stepEngine (h : SameAsked c s t) : SameAsked c s (stepEngine c t) := by
  unfold Machine.stepEngine
  split
  · exact h
  · exact h.stepFades.stepGlide.stepHold

/-! ### The zone table and the on-air actions -/

theorem SameAsked.dispatcher (h : SameAsked c s t) : (t.chan c).dispatcher = (s.chan c).dispatcher :=
  congrArg Prod.fst h

/-- A changed zone table is stored, and the resolution it causes leaves it and the rest alone (R101). -/
theorem changeZones_asked (l : List Zone) :
    ((changeZones c l s).1.chan c).asked = ({ s.chan c with zones := l } : Channel).asked := by
  unfold changeZones
  dsimp only
  have e : ((s.modChan c (fun ch => { ch with zones := l })).chan c).asked
      = ({ s.chan c with zones := l } : Channel).asked := by rw [modChan_chan_same]
  split
  · exact e
  · exact (SameAsked.resolveVisible SameAsked.rfl _).trans e

/-- The zones whose expiries are due are inactive without one; the rest stands (R102). -/
theorem expireZones_asked (due : Nat → Bool) : ((expireZones c due s).chan c).asked
    = ({ s.chan c with zones := (s.chan c).zones.map (fun z => if z.dueBy due then z.expire else z) } :
        Channel).asked := changeZones_asked _

theorem doPlace_dispatcher (b : Block) (g : Option Nat) :
    ((doPlace c b g s).chan c).dispatcher = (s.chan c).dispatcher := by
  unfold doPlace
  refine (SameAsked.resolveVisible SameAsked.rfl _).dispatcher.trans ?_
  rw [modChan_chan_same]
  rfl

theorem doPush_dispatcher (b : Block) (g : Option Nat) :
    ((doPush c b g s).chan c).dispatcher = (s.chan c).dispatcher := by
  unfold doPush
  refine (SameAsked.resolveVisible SameAsked.rfl _).dispatcher.trans ?_
  split <;> simp only [raiseChan_chan, modChan_chan_same] <;> rfl

theorem doPop_dispatcher (g : Option Nat) : ((doPop c g s).1.chan c).dispatcher = (s.chan c).dispatcher := by
  unfold doPop
  split
  · rfl
  · refine (SameAsked.resolveVisible SameAsked.rfl _).dispatcher.trans ?_
    rw [modChan_chan_same]
    rfl

theorem doZone_dispatcher (i : Nat) (a : Bool) (e : Option Dated) :
    ((doZone c i a e s).1.chan c).dispatcher = (s.chan c).dispatcher := by
  have h : ∀ l, ((changeZones c l s).1.chan c).dispatcher = (s.chan c).dispatcher :=
    fun l => congrArg Prod.fst (changeZones_asked l)
  unfold doZone
  dsimp only
  split
  · split
    · exact h _
    · rfl
  · exact h _

/-- An on-air action leaves the list, the waiting actions and the counters of its channel alone; the
dispatcher counts (R117, R152, R185). -/
theorem applyAction_dispatcher (a : Action) (k : SpareAns) :
    ((applyAction c a k s).1.chan c).dispatcher = (s.chan c).dispatcher := by
  cases a with
  | showInset src n => exact (SameAsked.doShow SameAsked.rfl src n).dispatcher
  | hide n => exact (SameAsked.doHide SameAsked.rfl n).dispatcher
  | handover src n => exact (SameAsked.doHandover SameAsked.rfl src n k).dispatcher
  | place b g => exact doPlace_dispatcher b g
  | push b g => exact doPush_dispatcher b g
  | pop g => exact doPop_dispatcher g
  | zone i a e => exact doZone_dispatcher i a e
  | mark n =>
    unfold applyAction doMark
    dsimp only
    rw [raiseChan_chan, modChan_chan_same]
    rfl
  | standby p => exact (SameAsked.doStandby SameAsked.rfl p).dispatcher

end Sys2Proof.Machine
end

