-- ==== Sys2Proof/Laws/KeepsList.lean ====
section
/-! SUPPORT. The cue list's order (R139), and what the cue dispatcher and a frame start keep (Chapter 8,
R115). -/

namespace Sys2Proof.Machine

variable {c : Chan} {s t : State}

/-! ### Dated order -/

theorem Dated.le_total (a b : Dated) : a.le b = true ∨ b.le a = true := by
  unfold Dated.le
  by_cases h : a.next = b.next
  · simp only [h, ite_true, decide_eq_true_eq]
    omega
  · cases ha : a.next <;> cases hb : b.next <;> simp_all

theorem Dated.le_trans {a b d : Dated} (h : a.le b = true) (k : b.le d = true) : a.le d = true := by
  unfold Dated.le at *
  cases ha : a.next <;> cases hb : b.next <;> cases hd : d.next <;> simp_all <;> omega

theorem insertCue_perm (q : Cue) (l : List Cue) : (insertCue q l).Perm (q :: l) := by
  induction l with
  | nil => exact .refl _
  | cons x xs ih =>
    unfold insertCue
    split
    · exact (ih.cons x).trans (.swap q x xs)
    · exact .refl _

/-- A cue enters a list in dated order, and the list stays in dated order (R139). -/
theorem insertCue_sorted (q : Cue) (l : List Cue)
    (h : l.Pairwise (fun a b => a.date.le b.date = true)) :
    (insertCue q l).Pairwise (fun a b => a.date.le b.date = true) := by
  induction l with
  | nil => simp [insertCue]
  | cons x xs ih =>
    rw [List.pairwise_cons] at h
    unfold insertCue
    split
    · rename_i hx
      refine List.pairwise_cons.mpr ⟨fun y hy => ?_, ih h.2⟩
      rcases List.mem_cons.mp ((insertCue_perm q xs).mem_iff.mp hy) with rfl | hy
      · exact hx
      · exact h.1 y hy
    · rename_i hx
      have hqx : q.date.le x.date = true := (Dated.le_total _ _).resolve_right hx
      refine List.pairwise_cons.mpr ⟨fun y hy => ?_, List.pairwise_cons.mpr h⟩
      rcases List.mem_cons.mp hy with rfl | hy
      · exact hqx
      · exact Dated.le_trans hqx (h.1 y hy)

theorem insertCleared_tags (day l : List Cue) :
    ((insertCleared day l).map Cue.tag).Perm ((day ++ l).map Cue.tag) := by
  induction l generalizing day with
  | nil => simp [insertCleared]
  | cons q qs ih =>
    refine (ih _).trans ?_
    simp only [List.map_append, List.map_cons]
    exact (((insertCue_perm _ day).map Cue.tag).append_right _).trans (by simp [List.perm_middle.symm])

theorem insertCleared_sorted (day l : List Cue)
    (h : day.Pairwise (fun a b => a.date.le b.date = true)) :
    (insertCleared day l).Pairwise (fun a b => a.date.le b.date = true) := by
  induction l generalizing day with
  | nil => exact h
  | cons q qs ih => exact ih _ (insertCue_sorted _ _ h)

theorem clearCueMarks_tags (l : List Cue) : ((clearCueMarks l).map Cue.tag).Perm (l.map Cue.tag) := by
  refine (insertCleared_tags _ _).trans (List.Perm.map _ ?_)
  exact (List.perm_append_comm.trans (List.filter_append_perm (fun q => q.date.next) l))

/-- Clearing the marks keeps the list's laws (R139). -/
theorem Channel.ListOk.clear {ch : Channel} (h : ch.ListOk) (z : List Zone) :
    ({ ch with cues := clearCueMarks ch.cues, zones := z } : Channel).ListOk where
  order := insertCleared_sorted _ _ (h.order.filter _)
  tags := (clearCueMarks_tags ch.cues).nodup_iff.mpr h.tags

/-! ### Changes of the list -/

/-- The list's laws and length, when only the list changes. -/
theorem Channel.Fine.relist {ch ch' : Channel} (h : ch.Fine)
    (e : ({ ch' with cues := ch.cues } : Channel).core = ch.core)
    (hn : ch'.cues.length ≤ 64) (hl : ch'.ListOk) : ch'.Fine := by
  have hf := h.of_core e
  exact ⟨⟨hf.bounded.store, hf.bounded.target, hf.bounded.delay, hf.bounded.slew, hf.bounded.stack,
    hf.bounded.glide, hf.bounded.zones, hf.bounded.more, hf.bounded.hold, hn⟩, hl⟩

theorem Channel.ListOk.filter {ch ch' : Channel} (h : ch.ListOk) (p : Cue → Bool)
    (e : ch'.cues = ch.cues.filter p) : ch'.ListOk where
  order := by rw [e]; exact h.order.filter p
  tags := by rw [e]; exact h.tags.sublist (List.filter_sublist.map Cue.tag)

theorem leaveList_fine (tag : Nat) {ch : Channel} (h : ch.Fine) : (leaveList tag ch).Fine :=
  h.relist (by rfl) ((List.length_filter_le _ _).trans h.bounded.cues) (h.list.filter _ rfl)

theorem removeCues_fine (pick : Cue → Bool) {ch : Channel} (h : ch.Fine) : (removeCues pick ch).Fine :=
  h.relist (by rfl) ((List.length_filter_le _ _).trans h.bounded.cues) (h.list.filter _ rfl)

theorem setCue_parts (tag : Nat) (f : Cue → Cue) (hf : ∀ q, ((f q).tag, (f q).date) = (q.tag, q.date))
    (ch : Channel) : (setCue tag f ch).parts = ch.parts := by
  refine Prod.ext ?_ (by rfl)
  simp only [Channel.parts, setCue, Channel.core, List.map_map, Prod.mk.injEq, true_and]
  refine List.map_congr_left (fun q _ => ?_)
  simp only [Function.comp_def]
  split
  · exact hf q
  · rfl

theorem Keeps.clearMarks (h : Keeps c s t) : Keeps c s (clearMarks c t) := by
  unfold Machine.clearMarks
  refine h.modChan _ (fun hc => ?_) (by rfl)
  have hlen : (clearCueMarks (t.chan c).cues).length = (t.chan c).cues.length := by
    simpa using (clearCueMarks_tags (t.chan c).cues).length_eq
  exact ⟨⟨hc.bounded.store, hc.bounded.target, hc.bounded.delay, hc.bounded.slew, hc.bounded.stack,
    hc.bounded.glide, by simpa using hc.bounded.zones, hc.bounded.more, hc.bounded.hold,
    hlen ▸ hc.bounded.cues⟩, hc.list.clear _⟩

/-! ### Firing, missing, preparing, reverting -/

theorem Keeps.fireCue (h : Keeps c s t) (q : Cue) : Keeps c s (fireCue c t q) := by
  unfold Machine.fireCue
  dsimp only
  have h1 := ((h.modChan (leaveList q.tag) (leaveList_fine q.tag) (by rfl)).applyAction q.action q.claim).dropAnswer c
    (.cue q.tag) q.claim
  unfold countFired
  dsimp only
  split
  · exact h1.touch _ (fun _ => by rfl)
  · exact (h1.touch _ (fun _ => by rfl)).writeFailure _ _ _

theorem Keeps.fireAll (h : Keeps c s t) (due : Cue → Bool) : Keeps c s (fireAll c due t) :=
  Keeps.foldl _ (fun q h => h.fireCue q) _ h

theorem Keeps.missCue (h : Keeps c s t) (q : Cue) : Keeps c s (missCue c t q) := by
  unfold Machine.missCue
  exact (((h.modChan _ (leaveList_fine q.tag) (by rfl)).touch _ (fun _ => by rfl)).dropAnswer _ _ _).raiseChan _ _

theorem Keeps.missAll (h : Keeps c s t) (p : Cue → Bool) : Keeps c s (missAll c p t) :=
  Keeps.foldl _ (fun q h => h.missCue q) _ h

theorem Keeps.askForCue (h : Keeps c s t) (tag : Nat) (a : Action) :
    Keeps c s (askForCue c tag a t).1 := by
  unfold Machine.askForCue
  split
  · exact h.askSpare _ _
  · exact h

theorem Keeps.prepareCue (h : Keeps c s t) (q : Cue) : Keeps c s (prepareCue c t q) := by
  unfold Machine.prepareCue
  exact (h.askForCue _ _).touch _ (setCue_parts _ _ (fun _ => by rfl))

theorem Keeps.prepareAll (h : Keeps c s t) (n : Nat) : Keeps c s (prepareAll c n t) :=
  Keeps.foldl _ (fun q h => h.prepareCue q) _ h

theorem Keeps.revertCue (h : Keeps c s t) (q : Cue) : Keeps c s (revertCue c t q) := by
  unfold Machine.revertCue
  exact (h.dropAnswer _ _ _).touch _ (setCue_parts _ _ (fun _ => by rfl))

theorem Keeps.revertCues (h : Keeps c s t) : Keeps c s (revertCues c t) :=
  Keeps.foldl _ (fun q h => h.revertCue q) _ h

/-! ### Loading -/

/-- A record that passes R141 leaves room for its cue and bears a new tag. -/
theorem judgeCue_ok {f : Format} {ch : Channel} {r : CueRec} {a : Action}
    (h : judgeCue f ch r = .ok a) :
    ch.cues.length < 64 ∧ ∀ q ∈ ch.cues, q.tag ≠ r.tag.toNat := by
  unfold judgeCue at h
  split at h
  · cases h
  · split at h
    · cases h
    · split at h
      · cases h
      · split at h
        · cases h
        · split at h
          · cases h
          · split at h
            · cases h
            · rename_i hd _ hn
              exact ⟨Nat.lt_of_not_le hn, by simpa using hd⟩

theorem acceptCue_fine {ch : Channel} (h : ch.Fine) (q : Cue) (hn : ch.cues.length < 64)
    (hq : ∀ x ∈ ch.cues, x.tag ≠ q.tag) : ({ ch with cues := insertCue q ch.cues } : Channel).Fine := by
  have hp := insertCue_perm q ch.cues
  refine h.relist (by rfl) ?_ ⟨insertCue_sorted _ _ h.list.order, ?_⟩
  · have := hp.length_eq
    simp only [List.length_cons] at this
    simpa [this] using hn
  · refine (hp.map Cue.tag).nodup_iff.mpr ?_
    simp only [List.map_cons, List.nodup_cons]
    refine ⟨fun hm => ?_, h.list.tags⟩
    obtain ⟨x, hx, e⟩ := List.mem_map.mp hm
    exact hq x hx e

theorem askForCue_chan (d : Chan) (tag : Nat) (a : Action) (x : State) (e : Chan) :
    (askForCue d tag a x).1.chan e = x.chan e := by
  unfold askForCue
  split <;> rfl

theorem Keeps.acceptCue (h : Keeps c s t) (f : Format) (r : CueRec) (a : Action)
    (hj : judgeCue f (t.chan c) r = .ok a) : Keeps c s (acceptCue c f r a t) := by
  unfold Machine.acceptCue
  dsimp only
  obtain ⟨hn, hq⟩ := judgeCue_ok hj
  split
  · refine (h.askForCue _ _).modChan _ (fun hc => acceptCue_fine hc _ ?_ ?_) (by rfl)
    · rw [askForCue_chan]; exact hn
    · rw [askForCue_chan]; exact hq
  · exact h.modChan _ (fun hc => acceptCue_fine hc _ hn hq) (by rfl)

theorem Keeps.loadCues (f : Format) (l : List CueRec) (n : Nat) (h : Keeps c s t) :
    Keeps c s (loadCues c f l n t).1 := by
  induction l generalizing t n with
  | nil => exact h
  | cons r rs ih =>
    unfold Machine.loadCues
    split
    · exact h
    · rename_i a hj
      exact ih _ (h.acceptCue f r a hj)

/-! ### The parts of a frame start -/

theorem leaveBypass_core (ch : Channel) (h : ch.slew ≤ 9) : (leaveBypass ch).slew ≤ 9 := by
  unfold leaveBypass
  split
  · exact Nat.zero_le _
  · exact h

theorem leaveBypass_fine {ch : Channel} (h : ch.Fine) : (leaveBypass ch).Fine := by
  unfold leaveBypass
  split
  · exact ⟨⟨h.bounded.store, h.bounded.target, h.bounded.delay, Nat.zero_le _, h.bounded.stack,
      h.bounded.glide, h.bounded.zones, h.bounded.more, h.bounded.hold, h.bounded.cues⟩,
      ⟨h.list.order, h.list.tags⟩⟩
  · exact h

theorem Keeps.discardWaiting (h : Keeps c s t) : Keeps c s (discardWaiting c t) := by
  unfold Machine.discardWaiting
  exact (Keeps.foldl _ (fun w h => h.dropAnswer _ _ _) _ h).touch _ (fun _ => by rfl)

theorem KeepsLaws.touch (h : KeepsLaws c s t) (f : Channel → Channel) (hf : ∀ ch, (f ch).core = ch.core) :
    KeepsLaws c s (t.modChan c f) :=
  h.modChan f (fun hc => hc.of_core (hf _))

theorem KeepsLaws.raiseChan (h : KeepsLaws c s t) (d : Chan) (k : ChanKind) : KeepsLaws c s (raiseChan d k t) :=
  h.trans (Keeps.rfl.raiseChan d k).toKeepsLaws

theorem KeepsLaws.enterBypass (h : KeepsLaws c s t) : KeepsLaws c s (enterBypass c t) := by
  unfold Machine.enterBypass
  refine h.trans ((Keeps.rfl.dropInset.revertCues).toKeepsLaws.modChan _ (fun hc => ?_))
  exact ⟨⟨hc.bounded.store, hc.bounded.target, Nat.zero_le _, Nat.zero_le _, hc.bounded.stack,
    hc.bounded.glide, hc.bounded.zones, hc.bounded.more, hc.bounded.hold, hc.bounded.cues⟩,
    ⟨hc.list.order, hc.list.tags⟩⟩

theorem KeepsLaws.enterThru (h : KeepsLaws c s t) : KeepsLaws c s (enterThru c t) := by
  unfold Machine.enterThru
  exact h.trans (Keeps.rfl.revertCues.toKeepsLaws.modChan _ (fun hc => (leaveBypass_fine hc).of_core (by rfl)))

theorem KeepsLaws.enterAuto (h : KeepsLaws c s t) : KeepsLaws c s (enterAuto c t) := by
  unfold Machine.enterAuto
  exact h.modChan _ (fun hc => (leaveBypass_fine hc).of_core (by rfl))

theorem KeepsLaws.takePending (h : KeepsLaws c s t) (m : Mode) : KeepsLaws c s (takePending c m t).1 := by
  unfold Machine.takePending
  dsimp only
  have h1 := h.touch (fun ch => { ch with pendingMode := none }) (fun _ => by rfl)
  split
  · exact h1
  · split
    · exact h1.enterBypass
    · exact h1.enterThru
    · exact h1.enterAuto

theorem KeepsLaws.takeDeferred (h : KeepsLaws c s t) : KeepsLaws c s (takeDeferred c t) := by
  unfold Machine.takeDeferred
  split
  · exact h.enterThru.raiseChan _ _
  · exact h

theorem KeepsLaws.modeChange (h : KeepsLaws c s t) : KeepsLaws c s (modeChange c t).1 := by
  unfold Machine.modeChange
  cases (t.chan c).pendingMode with
  | some m =>
    dsimp only
    split
    · exact (h.takePending m).trans Keeps.rfl.discardWaiting.toKeepsLaws
    · exact h.takePending m
  | none =>
    dsimp only
    split
    · exact h.takeDeferred.trans Keeps.rfl.discardWaiting.toKeepsLaws
    · exact h.takeDeferred

theorem slewStep_fine {ch : Channel} (h : ch.Fine) : (slewStep ch).Fine := by
  have hb := h.bounded
  have key : ∀ d n, d ≤ 20 → n ≤ 9 → ({ ch with delay := d, slew := n } : Channel).Fine := fun d n hd hn =>
    ⟨⟨hb.store, hb.target, hd, hn, hb.stack, hb.glide, hb.zones, hb.more, hb.hold, hb.cues⟩,
      ⟨h.list.order, h.list.tags⟩⟩
  have ht := hb.target
  have hd := hb.delay
  unfold slewStep
  split
  · exact h
  · split
    · exact key ch.delay 0 hb.delay (Nat.zero_le _)
    · split
      · exact key ch.delay _ hb.delay (by omega)
      · refine key _ 0 ?_ (Nat.zero_le _)
        split <;> omega

theorem selectOutput_core (f : Format) (ch : Channel) : (selectOutput f ch).core = ch.core := by
  unfold selectOutput
  dsimp only
  split <;> rfl

theorem KeepsLaws.trackerStep (h : KeepsLaws c s t) (f : Format) : KeepsLaws c s (trackerStep f c t).1 := by
  unfold Machine.trackerStep
  dsimp only
  split
  · exact h.touch (fun x => { x with
      label := (trackWord f _ (t.chan c)).label, track := .locked, flywheel := 0, owed := false })
      (fun _ => by rfl)
  · dsimp only
    have h1 := h.touch (fun x => { x with
      label := (trackFlywheel f (t.chan c)).label, track := (flywheelStep f (t.chan c)).1
      flywheel := (flywheelStep f (t.chan c)).2
      owed := (t.chan c).owed || ((trackFlywheel f (t.chan c)).lost && decide
        (midnightOf f (t.chan c).label (trackFlywheel f (t.chan c)).label .continuous = .continuous))
      lostFrom := lostFromAfter (t.chan c) (flywheelStep f (t.chan c)).1 (trackFlywheel f (t.chan c)).label })
      (fun _ => by rfl)
    split <;> split
    · exact (h1.raiseChan _ _).raiseChan _ _
    · exact h1.raiseChan _ _
    · exact h1.raiseChan _ _
    · exact h1

theorem Keeps.inAuto (h : Keeps c s t) (k : State → State) (hk : ∀ {t}, Keeps c s t → Keeps c s (k t)) :
    Keeps c s (inAuto c k t) := by
  unfold Machine.inAuto
  split
  · exact hk h
  · exact h

theorem Keeps.endDay (h : Keeps c s t) : Keeps c s (endDay c t) := (h.expireZones _).clearMarks

theorem Keeps.owedMidnight (h : Keeps c s t) (b : Bool) : Keeps c s (owedMidnight c b t) := by
  unfold Machine.owedMidnight
  dsimp only
  refine Keeps.endDay (Keeps.inAuto (Keeps.expireZones ?_ _) _ (fun h => h.fireAll _))
  split
  · exact h.inAuto _ (fun h => h.missAll _)
  · exact h

theorem Keeps.entryRule (h : Keeps c s t) (f : Format) (n : Nat) : Keeps c s (entryRule f c n t) := by
  unfold Machine.entryRule
  exact (((h.expireZones _).missAll _).fireAll _).touch _ (fun _ => by rfl)

theorem Keeps.jumpMisses (h : Keeps c s t) (k : Track) : Keeps c s (jumpMisses c k t) := by
  unfold Machine.jumpMisses
  split
  · exact h.inAuto _ (fun h => h.missAll _)
  · exact h

theorem Keeps.midnightStep (h : Keeps c s t) (k : Track) : Keeps c s (midnightStep c k t) := by
  unfold Machine.midnightStep
  split
  · exact h
  · exact h.endDay
  · exact ((h.expireZones _).inAuto _ (fun h => h.fireAll _)).endDay

theorem Keeps.dueItems (h : Keeps c s t) (k : Track) (e : Bool) (l : List Nat) :
    Keeps c s (dueItems c k e l t) := by
  unfold Machine.dueItems
  exact (h.expireZones _).inAuto _ (fun h => h.fireAll _)

theorem Keeps.endLost (h : Keeps c s t) (k : Track) : Keeps c s (endLost c k t) := by
  unfold Machine.endLost
  split
  · exact h.touch _ (fun _ => by simp [Channel.parts, Channel.core, Channel.path, Function.comp_def])
  · exact h

theorem Keeps.dispatchSteps (h : Keeps c s t) (f : Format) (b : Bool) (k : Track) :
    Keeps c s (dispatchSteps f c b k t) := by
  unfold Machine.dispatchSteps
  dsimp only
  have h1 : Keeps c s (if k.owed = true then Machine.owedMidnight c (t.chan c).heldBack t else t) := by
    split
    · exact h.owedMidnight _
    · exact h
  have h2 : Keeps c s (if (b || (t.chan c).heldBack) = true then Machine.entryRule f c k.label
      (if k.owed = true then Machine.owedMidnight c (t.chan c).heldBack t else t)
      else (if k.owed = true then Machine.owedMidnight c (t.chan c).heldBack t else t)) := by
    split
    · exact h1.entryRule _ _
    · exact h1
  exact Keeps.inAuto ((((h2.jumpMisses _).midnightStep _).dueItems _ _ _).endLost _) _
    (fun h => h.prepareAll _)

theorem Keeps.dispatch (h : Keeps c s t) (f : Format) (b : Bool) (k : Track) :
    Keeps c s (dispatch f c b k t) := by
  unfold Machine.dispatch
  split
  · split
    · exact h.touch _ (fun _ => by rfl)
    · exact h
  · exact h.dispatchSteps _ _ _

theorem Keeps.reportCrop (h : Keeps c s t) (p : Port) : Keeps c s (reportCrop c t p) := by
  unfold Machine.reportCrop
  dsimp only
  have h1 := h.modSrc p (fun x => { x with cropReport := false }) (fun hx => hx.touch (by rfl))
  split
  · split
    · exact h1.resolveVisible _
    · exact h1
  · exact h

theorem Keeps.reportCrops (h : Keeps c s t) : Keeps c s (reportCrops c t) :=
  Keeps.foldl _ (fun p h => h.reportCrop p) _ h

theorem Keeps.applyTake (h : Keeps c s t) (w : Waiting) : Keeps c s (applyTake c t w) := by
  unfold Machine.applyTake
  dsimp only
  have h1 := (h.applyAction w.action w.claim).dropAnswer c (.take w.id) w.claim
  split
  · exact h1
  · exact h1.writeFailure _ _ _

theorem Keeps.applyTakes (h : Keeps c s t) : Keeps c s (applyTakes c t) := by
  unfold Machine.applyTakes
  exact (Keeps.foldl _ (fun w h => h.applyTake w) _ h).touch _ (fun _ => by rfl)

theorem Keeps.markInUse (h : Keeps c s t) (l : List Port) : Keeps c s (markInUse c l t) := by
  unfold Machine.markInUse
  refine Keeps.foldl _ (fun p h => ?_) _ h
  split
  · exact h.modSrc _ _ (fun hx => hx.touch (by rfl))
  · exact h

theorem Keeps.present (h : Keeps c s t) (f : Format) : Keeps c s (present f c t) := by
  unfold Machine.present
  exact (h.markInUse _).touch _ (fun _ => by rfl)

theorem Keeps.rearmChannel (h : Keeps c s t) (d : Chan) : Keeps c s (rearmChannel d t) := by
  unfold Machine.rearmChannel
  dsimp only
  have h1 := h.notices { t.notices with
    rearmTc := t.notices.rearmTc.set d false, rearmPgm := t.notices.rearmPgm.set d false }
  split <;> split
  · exact (h1.raiseChan _ _).raiseChan _ _
  · exact h1.raiseChan _ _
  · exact h1.raiseChan _ _
  · exact h1

/-- What a channel's frame start does after its tracker step keeps the card outside that channel, the
laws, and the channel's mode, path and tracker (R5, R115). -/
theorem Keeps.afterTracker (h : Keeps c s t) (f : Format) (b : Bool) (k : Track) :
    Keeps c s (Machine.rearmChannel c (Machine.present f c (Machine.stepEngine c
      (if ((Machine.dispatch f c b k (Machine.reportCrops c t)).chan c).mode = .bypass
        then Machine.dispatch f c b k (Machine.reportCrops c t)
        else Machine.applyTakes c (Machine.dispatch f c b k (Machine.reportCrops c t)))))) := by
  have h2 := h.reportCrops.dispatch f b k
  refine Keeps.rearmChannel (Keeps.present (Keeps.stepEngine ?_) f) c
  split
  · exact h2
  · exact h2.applyTakes

/-- A channel's frame start keeps the card outside that channel, and the laws (R5, R115). -/
theorem KeepsLaws.chanFrameStart (h : KeepsLaws c s t) (f : Format) :
    KeepsLaws c s (chanFrameStart f t c) := by
  unfold Machine.chanFrameStart
  dsimp only
  have h1 := ((h.modeChange).modChan (fun ch => selectOutput f (slewStep ch))
    (fun hc => (slewStep_fine hc).of_core (selectOutput_core f _))).trackerStep f
  exact h1.trans (Keeps.rfl.afterTracker f _ _).toKeepsLaws

end Sys2Proof.Machine
end

