-- ==== Sys2Proof/Laws/KeepsCard.lean ====
section
/-! SUPPORT. What the requests, the link and the events of the card keep: the laws of Safety.lean. One
lemma per operation. -/

namespace Sys2Proof.Machine

variable {s t : State}

/-! ### States that share channels and sources, and changes of all of them -/

/-- The laws read the channels and the sources alone. -/
theorem State.Lawful.of_eq (h : s.Lawful) (hc : t.channels = s.channels) (hs : t.sources = s.sources) :
    t.Lawful := by
  refine ⟨fun c => ?_, fun c => ?_, fun p => ?_⟩
  · have := h.bounded c
    simpa [State.chan, hc] using this
  · have := h.list c
    simpa [State.chan, hc] using this
  · have := h.source p
    simpa [State.src, hs] using this

/-- Every channel and every source changed by itself. -/
theorem State.Lawful.maps (h : s.Lawful) (f : Channel → Channel) (g : Source → Source)
    (hc : t.channels = s.channels.map f) (hs : t.sources = s.sources.map g)
    (hf : ∀ c, (s.chan c).Fine → (f (s.chan c)).Fine) (hg : ∀ p, (s.src p).Lawful → (g (s.src p)).Lawful) :
    t.Lawful := by
  refine ⟨fun c => ?_, fun c => ?_, fun p => ?_⟩
  · simpa [State.chan, hc] using (hf c (h.fine c)).bounded
  · simpa [State.chan, hc] using (hf c (h.fine c)).list
  · simpa [State.src, hs] using hg p (h.source p)

theorem PerPort.map_id (v : PerPort Source) : v.map id = v := rfl

theorem PerChan.map_id (v : PerChan Channel) : v.map id = v := rfl

theorem State.Lawful.modChan (h : s.Lawful) (c : Chan) (f : Channel → Channel)
    (hf : (s.chan c).Fine → (f (s.chan c)).Fine) : (s.modChan c f).Lawful :=
  ((Keeps.rfl (c := c) (s := s)).toKeepsLaws.modChan f hf).lawful h

theorem State.Lawful.touch (h : s.Lawful) (c : Chan) (f : Channel → Channel)
    (hf : ∀ ch, (f ch).core = ch.core) : (s.modChan c f).Lawful :=
  h.modChan c f (fun hc => hc.of_core (hf _))

theorem State.Lawful.modSrc (h : s.Lawful) (p : Port) (f : Source → Source)
    (hf : (s.src p).Lawful → (f (s.src p)).Lawful) : (s.modSrc p f).Lawful :=
  ((Keeps.rfl (c := .c0) (s := s)).modSrc p f hf).lawful h

theorem State.Lawful.changeSource (h : s.Lawful) (p : Port) (f : Source → Source)
    (hf : (s.src p).Lawful → (f (s.src p)).Lawful) : (changeSource p f s).Lawful :=
  ((Keeps.rfl (c := .c0) (s := s)).changeSource p f hf).lawful h

theorem State.Lawful.raiseCard (h : s.Lawful) (k : CardKind) : (raiseCard k s).Lawful := h.of_eq rfl rfl

theorem State.Lawful.raiseChan (h : s.Lawful) (c : Chan) (k : ChanKind) : (raiseChan c k s).Lawful :=
  h.of_eq rfl rfl

theorem State.Lawful.reach (h : s.Lawful) (n : Nat) : (s.reach n).Lawful := h.of_eq rfl rfl

theorem State.Lawful.elapse (h : s.Lawful) (n : Nat) : (s.elapse n).Lawful := h.of_eq rfl rfl

/-! ### A channel and a source after a reset -/

theorem Channel.reset_fine (n : Option Nat) : (Channel.reset n).Fine where
  bounded := ⟨Nat.zero_le _, Nat.zero_le _, Nat.zero_le _, Nat.zero_le _, Nat.zero_le _,
    (by decide : 8 ≤ 250), List.length_replicate, (fun _ h => nomatch h), (by decide : 50 ≤ 250), Nat.zero_le _⟩
  list := ⟨.nil, .nil⟩

theorem Source.reset_lawful {st : SrcState} (h : st.isOwned = false) (n : Option Nat) (m : Bool) :
    (Source.reset st n m).Lawful where
  owner := h.symm
  inRun := Nat.zero_le _
  outRun := Nat.zero_le _
  goodRun := Nat.zero_le _
  badRun := Nat.zero_le _
  wk := (by decide : 1 ≤ 200 ∧ 200 ≤ 1024)
  rk := (by decide : 5242 = 1048576 / 200)

theorem State.reset_lawful : State.reset.Lawful := by
  refine ⟨fun c => ?_, fun c => ?_, fun p => ?_⟩
  · simpa [State.chan, State.reset] using (Channel.reset_fine none).bounded
  · simpa [State.chan, State.reset] using (Channel.reset_fine none).list
  · simpa [State.src, State.reset] using Source.reset_lawful rfl none false

/-! ### A frame start of the card -/

theorem latchCrops_lawful (h : s.Lawful) : (latchCrops s).Lawful :=
  h.maps id (fun x => { x with cropForce := x.crop }) rfl rfl (fun _ h => h)
   (fun _ h => h.touch (by rfl))

theorem rearmRefLoss_lawful (h : s.Lawful) : (rearmRefLoss s).Lawful := by
  unfold rearmRefLoss
  dsimp only
  split
  · exact h.of_eq rfl rfl
  · exact h.of_eq rfl rfl

theorem frameStart_lawful (h : s.Lawful) (order : List Chan) : (frameStart order s).Lawful := by
  unfold frameStart
  split
  · exact h
  · rename_i f _
    refine rearmRefLoss_lawful ?_
    have h0 := latchCrops_lawful h
    generalize latchCrops s = t at h0
    induction channelOrder order generalizing t with
    | nil => exact h0
    | cons c l ih => exact ih _ ((Keeps.rfl.toKeepsLaws.chanFrameStart f).lawful h0)

/-! ### The requests -/

theorem houseChannel_fine {ch : Channel} (h : ch.Fine) : (houseChannel ch).Fine :=
  ⟨⟨Nat.zero_le _, h.bounded.target, Nat.zero_le _, Nat.zero_le _, Nat.zero_le _, h.bounded.glide,
    by simp [houseChannel], (fun _ h => nomatch h), h.bounded.hold, Nat.zero_le _⟩, ⟨.nil, .nil⟩⟩

theorem houseSource_lawful {x : Source} (h : x.Lawful) : (houseSource x).Lawful := by
  unfold houseSource
  have hu : (x.unqualified (if x.state = .absent then .absent else .detecting)).Lawful :=
    h.unqualified (by split <;> rfl)
  exact hu.touch (by rfl)

theorem houseSources_lawful (l : List Port) (h : t.Lawful) :
    (l.foldl (fun t p => changeSource p houseSource t) t).Lawful := by
  induction l generalizing t with
  | nil => exact h
  | cons p l ih => exact ih (h.changeSource p _ houseSource_lawful)

theorem takeHouse_lawful (h : s.Lawful) (f : Format) : (takeHouse f s).Lawful :=
  houseSources_lawful _ (h.maps houseChannel id rfl rfl (fun _ h => houseChannel_fine h) (fun _ h => h))

theorem storeParams_lawful {x : Source} (h : x.Lawful) (m : SrcMsg) (k : Crop) :
    (storeParams m k x).Lawful :=
  ⟨h.owner, h.inRun, h.outRun, h.goodRun, h.badRun,
    ⟨by simp only [storeParams, clampTo]; omega, by simp only [storeParams, clampTo]; omega⟩, rfl⟩

theorem changeMode_lawful (h : s.Lawful) (c : Chan) (m : Mode) : (changeMode c m s).1.Lawful := by
  have key : ∀ t : State, t.Lawful →
      (if m = .thru ∧ (t.chan c).mode = .auto ∧ preparedTags (t.chan c).cues ≠ [] then
        (t.modChan c (fun ch => { ch with
          pendingMode := none, deferred := some (preparedTags (t.chan c).cues) }), ResultCode.deferred)
      else (t.modChan c (fun ch => { ch with pendingMode := some m }), .ok)).1.Lawful := by
    intro t ht
    split
    · dsimp only
      exact ht.touch _ _ (fun _ => by rfl)
    · dsimp only
      exact ht.touch _ _ (fun _ => by rfl)
  unfold changeMode
  refine key _ ?_
  split
  · exact (Keeps.rfl.revertCues).lawful h
  · exact h

theorem requestMode_lawful (h : s.Lawful) (c : Chan) (m : Mode) : (requestMode c m s).1.Lawful := by
  unfold requestMode
  split
  · cases m with
    | bypass =>
      exact h.touch c (fun ch => { ch with deferred := none, pendingMode := some .bypass })
        (fun _ => by rfl)
    | thru => exact h
    | auto => exact h.touch c (fun ch => { ch with deferred := none }) (fun _ => by rfl)
  · split
    · exact h
    · exact changeMode_lawful h c m

theorem clearChannel_fine {ch : Channel} (h : ch.Fine) : (clearChannel ch).Fine :=
  ⟨⟨h.bounded.store, h.bounded.target, h.bounded.delay, h.bounded.slew, Nat.zero_le _, h.bounded.glide,
    by simp [clearChannel], (fun _ h => nomatch h), h.bounded.hold, Nat.zero_le _⟩, ⟨.nil, .nil⟩⟩

theorem joinWaiting_lawful (h : s.Lawful) (f : Format) (c : Chan) (part : List Byte) (a : Action) :
    (joinWaiting f c part a s).1.Lawful := by
  unfold joinWaiting askForTake
  dsimp only
  refine State.Lawful.touch ?_ _ _ (fun _ => by rfl)
  split
  · exact h.of_eq rfl rfl
  · exact h

theorem judgeTake_lawful (h : s.Lawful) (f : Format) (c : Chan) (part : List Byte) :
    (judgeTake f c part s).1.Lawful := by
  unfold judgeTake refuse
  split
  · exact h
  · split
    · exact h
    · split
      · exact h
      · exact joinWaiting_lawful h f c part _

/-- A request that names a channel. -/
theorem withChan_lawful (h : s.Lawful) (ch : Byte) (k : Chan → Answer) (hk : ∀ c, (k c).1.Lawful) :
    (withChan ch s k).1.Lawful := by
  unfold withChan refuse
  split
  · exact hk _
  · exact h

theorem storeZone_lawful (h : s.Lawful) (c : Chan) (i : Nat) (z : Zone) :
    (storeZone c i z s).1.Lawful :=
  ((Keeps.rfl (c := c)).changeZones _ (by simp)).lawful h

theorem actZoneDefine_lawful (h : s.Lawful) (op : Byte) (m : ZoneMsg) :
    (actZoneDefine op m s).1.Lawful := by
  unfold actZoneDefine
  split
  · exact h
  · refine withChan_lawful h _ _ (fun c => ?_)
    split
    · exact h
    · split
      · exact h
      · exact storeZone_lawful h c _ _

theorem removal_lawful (h : s.Lawful) (c : Chan) (pick : Cue → Bool) : (removal c pick s).1.Lawful :=
  h.modChan c _ (removeCues_fine pick)

theorem actCueRemove_lawful (h : s.Lawful) (ch form : Byte) (tag : Half) (lo hi : HostLabel) :
    (actCueRemove ch form tag lo hi s).1.Lawful := by
  unfold actCueRemove removeByTag removeByRange refuseRemoval
  split
  · split
    · exact h
    · split
      · exact removal_lawful h _ _
      · exact h
  · split
    · exact h
    · split
      · exact h
      · split
        · exact removal_lawful h _ _
        · exact h
  · exact h

theorem actSrcSet_lawful (h : s.Lawful) (m : SrcMsg) : (actSrcSet m s).1.Lawful := by
  unfold actSrcSet refuse
  split
  · exact h
  · split
    · exact h
    · split
      · exact h
      · exact h.modSrc _ _ (fun hx => storeParams_lawful hx _ _)

theorem actHouse_lawful (h : s.Lawful) (code : Byte) : (actHouse code s).1.Lawful := by
  unfold actHouse refuse
  split
  · exact h
  · rename_i f _
    cases houseAllowed s
    · exact h
    · have := takeHouse_lawful h f
      simpa using this

theorem actChMode_lawful (h : s.Lawful) (ch mode : Byte) : (actChMode ch mode s).1.Lawful := by
  unfold actChMode refuse
  refine withChan_lawful h _ _ (fun c => ?_)
  split
  · exact h
  · split
    · exact h
    · exact requestMode_lawful h c _

theorem actChDelay_lawful (h : s.Lawful) (ch target : Byte) : (actChDelay ch target s).1.Lawful := by
  unfold actChDelay
  refine withChan_lawful h _ _ (fun c => ?_)
  dsimp only
  refine h.modChan c _ (fun hc => ?_)
  exact ⟨⟨hc.bounded.store, Nat.min_le_left _ _, hc.bounded.delay, hc.bounded.slew, hc.bounded.stack,
    hc.bounded.glide, hc.bounded.zones, hc.bounded.more, hc.bounded.hold, hc.bounded.cues⟩,
    ⟨hc.list.order, hc.list.tags⟩⟩

theorem actChSetup_lawful (h : s.Lawful) (ch glide hold standby : Byte) :
    (actChSetup ch glide hold standby s).1.Lawful := by
  unfold actChSetup refuse
  refine withChan_lawful h _ _ (fun c => ?_)
  split
  · exact h
  · dsimp only
    refine h.modChan c _ (fun hc => ?_)
    exact ⟨⟨hc.bounded.store, hc.bounded.target, hc.bounded.delay, hc.bounded.slew, hc.bounded.stack,
      Nat.min_le_left _ _, hc.bounded.zones, hc.bounded.more, Nat.min_le_left _ _, hc.bounded.cues⟩,
      ⟨hc.list.order, hc.list.tags⟩⟩

theorem actChClear_lawful (h : s.Lawful) (ch : Byte) : (actChClear ch s).1.Lawful := by
  unfold actChClear refuse
  refine withChan_lawful h _ _ (fun c => ?_)
  split
  · exact h
  · exact ((Keeps.rfl (c := c)).dropInset.toKeepsLaws.modChan _ clearChannel_fine).lawful h

theorem actChTake_lawful (h : s.Lawful) (ch : Byte) (part : List Byte) : (actChTake ch part s).1.Lawful := by
  unfold actChTake refuse
  split
  · exact h
  · exact withChan_lawful h _ _ (fun c => judgeTake_lawful h _ c part)

theorem actCueLoad_lawful (h : s.Lawful) (ch : Byte) (recs : List CueRec) :
    (actCueLoad ch recs s).1.Lawful := by
  unfold actCueLoad
  split
  · exact h
  · split
    · exact h
    · rename_i c _
      exact (Keeps.loadCues (c := c) _ recs 0 .rfl).lawful h

theorem actFaultClear_lawful (h : s.Lawful) (ch : Byte) : (actFaultClear ch s).1.Lawful := by
  unfold actFaultClear
  refine withChan_lawful h _ _ (fun c => ?_)
  dsimp only
  refine h.modChan c _ (fun hc => ?_)
  exact ⟨⟨hc.bounded.store, hc.bounded.target, hc.bounded.delay, hc.bounded.slew, hc.bounded.stack,
    hc.bounded.glide, hc.bounded.zones, (fun _ h => nomatch h), hc.bounded.hold, hc.bounded.cues⟩,
    ⟨hc.list.order, hc.list.tags⟩⟩

/-- A request keeps the laws. -/
theorem act_lawful (h : s.Lawful) (r : Request) : (act r s).1.Lawful := by
  cases r with
  | ident => exact h
  | house code => exact actHouse_lawful h code
  | reset => exact h
  | noticeEnable set =>
    simp only [act, actNoticeEnable, refuse]
    split
    · exact h.of_eq rfl rfl
    · exact h
  | noticeRead => exact h
  | noticeAck set =>
    simp only [act, actNoticeAck, refuse]
    split
    · exact h.of_eq rfl rfl
    · exact h
  | linkCounts => exact h.of_eq rfl rfl
  | srcRead src =>
    simp only [act, actSrcRead, refuse]
    split
    · exact h
    · exact h
  | srcSet m => exact actSrcSet_lawful h m
  | chMode ch mode => exact actChMode_lawful h ch mode
  | chDelay ch target => exact actChDelay_lawful h ch target
  | chSetup ch glide hold standby => exact actChSetup_lawful h ch glide hold standby
  | chRead ch => exact withChan_lawful h _ _ (fun _ => h)
  | chClear ch => exact actChClear_lawful h ch
  | chTake ch part => exact actChTake_lawful h ch part
  | zoneDefine op m => exact actZoneDefine_lawful h op m
  | zoneRead ch => exact withChan_lawful h _ _ (fun _ => h)
  | cueLoad ch recs => exact actCueLoad_lawful h ch recs
  | cueRemove ch form tag lo hi => exact actCueRemove_lawful h ch form tag lo hi
  | cueRead ch pos count =>
    refine withChan_lawful h _ _ (fun c => ?_)
    unfold refuse
    split
    · exact h
    · exact h
  | faultRead ch => exact withChan_lawful h _ _ (fun _ => h)
  | faultClear ch => exact actFaultClear_lawful h ch
  | unknownKind l => exact h
  | badLength l => exact h

/-! ### The link -/

theorem countError_lawful (h : s.Lawful) (f : Link → Link) : (countError f s).Lawful := h.of_eq rfl rfl

theorem placeEntry_lawful (h : s.Lawful) (e : Entry) : (placeEntry e s).Lawful := by
  unfold placeEntry
  dsimp only
  split
  · exact h.of_eq rfl rfl
  · split
    · exact h.of_eq rfl rfl
    · exact h.of_eq rfl rfl

theorem answerEntry_lawful (h : s.Lawful) (e : Entry) : (answerEntry e s).1.Lawful := by
  cases e with
  | request r => exact act_lawful h r
  | reject => exact h

theorem takeOldest_lawful (h : s.Lawful) : (takeOldest s).Lawful := by
  unfold takeOldest
  dsimp only
  split
  · exact h
  · split
    · exact h
    · exact (answerEntry_lawful h _).of_eq rfl rfl

theorem deliver_lawful (h : s.Lawful) (e : Entry) : (deliver e s).Lawful := by
  unfold deliver
  split
  · exact takeOldest_lawful (placeEntry_lawful h e)
  · exact h

theorem deliverReject_lawful (h : s.Lawful) : (deliverReject s).Lawful := by
  unfold deliverReject
  split
  · exact deliver_lawful (countError_lawful h _) _
  · exact h

theorem relaysToBypass_lawful (h : s.Lawful) : (relaysToBypass s).Lawful :=
  h.maps (fun ch => { ch with relay := .bypass }) id rfl rfl (fun _ h => h.of_core (by rfl)) (fun _ h => h)

theorem beginReset_lawful (h : s.Lawful) (k : ResetCause) : (beginReset k s).Lawful :=
  (relaysToBypass_lawful h).of_eq rfl rfl

theorem replyLeft_lawful (h : s.Lawful) (i : SlotNo) (e : Entry) : (replyLeft i e s).Lawful := by
  unfold replyLeft
  split
  · exact beginReset_lawful h _
  · refine takeOldest_lawful ?_
    exact h.of_eq rfl rfl

theorem replySent_lawful (h : s.Lawful) : (replySent s).Lawful := by
  unfold replySent
  split
  · split
    · exact replyLeft_lawful h _ _
    · exact replyLeft_lawful h _ _
    · exact h
  · exact h

theorem rxByte_lawful (h : s.Lawful) (b : Byte) : (rxByte b s).Lawful := by
  unfold rxByte
  split
  · split
    · split
      · exact h.of_eq rfl rfl
      · exact h
    · unfold rxLength
      split
      · exact h.of_eq rfl rfl
      · exact h.of_eq rfl rfl
    · exact h.of_eq rfl rfl
    · unfold rxCheck
      dsimp only
      split
      · refine deliver_lawful ?_ _
        exact h.of_eq rfl rfl
      · refine deliverReject_lawful ?_
        exact h.of_eq rfl rfl
  · exact h

theorem framingError_lawful (h : s.Lawful) : (framingError s).Lawful := by
  unfold framingError
  split
  · exact countError_lawful h _
  · exact h

theorem gapTimeout_lawful (h : s.Lawful) : (gapTimeout s).Lawful := by
  unfold gapTimeout
  split
  · exact countError_lawful h _
  · exact h

/-! ### Resets and power -/

theorem powerOn_lawful (h : s.Lawful) : (powerOn s).Lawful := by
  unfold powerOn
  refine beginReset_lawful ?_ _
  exact h.maps (fun ch => { ch with pgmStart := none })
   (fun x => { x with lastStart := none, measuring := false }) rfl rfl
   (fun _ h => h.of_core (by rfl)) (fun _ h => h.touch (by rfl))

theorem powerOff_lawful (h : s.Lawful) : (powerOff s).Lawful := (relaysToBypass_lawful h).of_eq rfl rfl

theorem assertPin_lawful (h : s.Lawful) : (assertPin s).Lawful := by
  unfold assertPin
  dsimp only
  split
  · refine beginReset_lawful ?_ _
    exact h.of_eq rfl rfl
  · exact h.of_eq rfl rfl

theorem releasePin_lawful (h : s.Lawful) : (releasePin s).Lawful := by
  unfold releasePin
  dsimp only
  split
  · exact h.of_eq rfl rfl
  · exact h.of_eq rfl rfl

theorem resetSource_lawful (n : Nat) (x : Source) : (resetSource n x).Lawful := by
  unfold resetSource
  split
  · exact Source.reset_lawful (by split <;> rfl) _ _
  · exact Source.reset_lawful rfl _ _

theorem resetComplete_lawful (h : s.Lawful) : (resetComplete s).Lawful := by
  unfold resetComplete
  split
  · split
    · exact (h.reach s.resetDue).maps (fun ch => Channel.reset ch.pgmStart)
        (resetSource (s.reach s.resetDue).now) rfl rfl (fun _ _ => Channel.reset_fine _)
       (fun _ _ => resetSource_lawful _ _)
    · exact h
  · exact h

/-! ### The house reference -/

theorem loseReference_lawful (h : s.Lawful) : (loseReference s).Lawful := h.of_eq rfl rfl

theorem pulseFrame_lawful (h : s.Lawful) (f : Format) (order : List Chan) :
    (pulseFrame f order s).Lawful := by
  unfold pulseFrame
  dsimp only
  split
  · refine frameStart_lawful ?_ _
    exact h.of_eq rfl rfl
  · exact h.of_eq rfl rfl

theorem judgePulse_lawful (h : s.Lawful) (f : Format) (order : List Chan) :
    (judgePulse f order s).Lawful := by
  have h1 : ({ s with ref := { s.ref with state := .locked } } : State).Lawful := h.of_eq rfl rfl
  unfold judgePulse
  split
  · exact h
  · split
    · exact pulseFrame_lawful h1 f order
    · split
      · exact loseReference_lawful h
      · exact h
  · split
    · exact loseReference_lawful h
    · exact pulseFrame_lawful h f order
  · split
    · exact pulseFrame_lawful h1 f order
    · exact h

theorem refPulse_lawful (h : s.Lawful) (order : List Chan) : (refPulse order s).Lawful := by
  unfold refPulse
  split
  · dsimp only
    split
    · exact h
    · split
      · refine judgePulse_lawful ?_ _ _
        exact h.of_eq rfl rfl
      · exact h.of_eq rfl rfl
  · exact h

theorem refSilence_lawful (h : s.Lawful) : (refSilence s).Lawful := by
  unfold refSilence
  split
  · dsimp only
    split
    · exact h.reach _
    · exact State.Lawful.of_eq (s := s) h rfl rfl
    · exact loseReference_lawful (h.reach _)
  · exact h

theorem timedFrame_lawful (h : s.Lawful) (order : List Chan) (n : Nat) (b : Bool) :
    (timedFrame order n b s).Lawful := by
  unfold timedFrame
  refine frameStart_lawful ?_ _
  exact h.of_eq rfl rfl

theorem freeRunFrame_lawful (h : s.Lawful) (order : List Chan) : (freeRunFrame order s).Lawful := by
  unfold freeRunFrame
  split
  · split
    · exact timedFrame_lawful h _ _ _
    · exact h
  · exact h

theorem latePulseFrame_lawful (h : s.Lawful) (order : List Chan) : (latePulseFrame order s).Lawful := by
  unfold latePulseFrame
  split
  · split
    · exact timedFrame_lawful h _ _ _
    · exact h
  · exact h

/-! ### The programme inputs -/

theorem losePgm_lawful (h : s.Lawful) (c : Chan) : (losePgm c s).Lawful :=
  (h.touch c _ (fun _ => by rfl)).raiseChan c _

theorem returnPgm_fine {ch : Channel} (h : ch.Fine) : (returnPgm ch).Fine :=
  ⟨⟨Nat.zero_le _, h.bounded.target, Nat.zero_le _, Nat.zero_le _, h.bounded.stack, h.bounded.glide,
    h.bounded.zones, h.bounded.more, h.bounded.hold, h.bounded.cues⟩, ⟨h.list.order, h.list.tags⟩⟩

theorem goodInterval_fine {ch : Channel} (h : ch.Fine) : (goodInterval ch).Fine := by
  have h1 : ({ ch with pgmGood := min 8 (ch.pgmGood + 1), pgmBad := 0 } : Channel).Fine :=
    h.of_core (by rfl)
  unfold goodInterval
  dsimp only
  split
  · exact h.of_core (by rfl)
  · split
    · exact h.of_core (by rfl)
    · exact h1
  · split
    · exact returnPgm_fine h1
    · exact h1

theorem badInterval_lawful (h : s.Lawful) (c : Chan) : (badInterval c s).Lawful := by
  have h1 := h.touch c (fun ch => { ch with pgmGood := 0, pgmBad := min 3 (ch.pgmBad + 1) })
   (fun _ => by rfl)
  unfold badInterval
  dsimp only
  split
  · split
    · exact losePgm_lawful h1 c
    · exact h1.touch c _ (fun _ => by rfl)
  · exact h1

theorem judgePgm_lawful (h : s.Lawful) (c : Chan) (n : Nat) (w v : Half) :
    (judgePgm c n w v s).Lawful := by
  unfold judgePgm
  split
  · exact h
  · split
    · exact h.modChan c _ goodInterval_fine
    · exact badInterval_lawful h c

theorem pgmFrameStart_lawful (h : s.Lawful) (c : Chan) (w v : Half) : (pgmFrameStart c w v s).Lawful := by
  have h1 := h.touch c (fun ch => { ch with pgmStart := some s.now }) (fun _ => by rfl)
  unfold pgmFrameStart
  dsimp only
  split
  · split
    · exact judgePgm_lawful h1 c _ w v
    · exact h1
  · exact h

theorem storeFrame_fine (w : Option TcWord) (pic : Picture) {ch : Channel} (h : ch.Fine) :
    (storeFrame w pic ch).Fine := by
  have hs := h.bounded.store
  refine ⟨⟨?_, h.bounded.target, h.bounded.delay, h.bounded.slew, h.bounded.stack, h.bounded.glide,
    h.bounded.zones, h.bounded.more, h.bounded.hold, h.bounded.cues⟩, ⟨h.list.order, h.list.tags⟩⟩
  simp only [storeFrame, List.length_append, List.length_singleton]
  split
  · simp; omega
  · simp; omega

theorem pgmFrameComplete_lawful (h : s.Lawful) (c : Chan) (w : Option TcWord) (pic : Picture) :
    (pgmFrameComplete c w pic s).Lawful := by
  unfold pgmFrameComplete
  split
  · split
    · split
      · exact h.modChan c _ (storeFrame_fine w pic)
      · exact h.touch c _ (fun _ => by rfl)
    · exact h
  · exact h

theorem pgmSilence_lawful (h : s.Lawful) (c : Chan) : (pgmSilence c s).Lawful := by
  unfold pgmSilence
  split
  · dsimp only
    split
    · exact losePgm_lawful (h.reach _) c
    · exact (h.reach _).touch c _ (fun _ => by rfl)
  · exact h

/-! ### The source ports -/

theorem countRuns_lawful (f : Format) (n : Nat) (w v : Half) {x : Source} (h : x.Lawful) :
    (countRuns f n w v x).Lawful := by
  refine ⟨h.owner, ?_, ?_, ?_, ?_, h.wk, h.rk⟩
  · simp only [countRuns]; split <;> omega
  · simp only [countRuns]; split <;> omega
  · simp only [countRuns]; split <;> omega
  · simp only [countRuns]; split <;> omega

theorem zeroed_lawful {x : Source} (h : x.Lawful) : x.zeroed.Lawful :=
  ⟨h.owner, Nat.zero_le _, Nat.zero_le _, Nat.zero_le _, Nat.zero_le _, h.wk, h.rk⟩

theorem reportLoss_lawful (h : s.Lawful) (c : Chan) (p : Port) : (reportLoss c p s).Lawful :=
  ((Keeps.rfl (c := c)).reportLoss p).lawful h

theorem reportReturn_lawful (h : s.Lawful) (c : Chan) (p : Port) : (reportReturn c p s).Lawful :=
  ((Keeps.rfl (c := c)).reportReturn p).lawful h

theorem loseOwned_lawful (h : s.Lawful) (p : Port) (f : Source → Source)
    (ho : (s.src p).state.isOwned = true) (hf : ∀ {x : Source}, x.Lawful → (f x).Lawful)
    (hk : ∀ x, (f x).owner = x.owner) : (loseOwned p f s).Lawful := by
  have h1 := h.changeSource p (fun x => { f x with state := .lost, ring := x.ring.freeze })
   (fun hx => (hf hx).restate (by
      have := hx.owner
      show (f (s.src p)).owner.isSome = _
      rw [hk, this, ho]
      rfl) (by rfl))
  unfold loseOwned
  dsimp only
  split
  · exact reportLoss_lawful h1 _ _
  · exact h1

theorem regain_lawful (h : s.Lawful) (p : Port) (ho : (s.src p).state = .lost) : (regain p s).Lawful := by
  have h1 := h.changeSource p (fun x => { x with state := .taken, ring := x.ring.resume })
   (fun hx => hx.restate (by
      have := hx.owner
      rw [ho] at this
      simpa [SrcState.isOwned] using this) (by rfl))
  unfold regain
  dsimp only
  split
  · exact reportReturn_lawful h1 _ _
  · exact h1

theorem ringBegin_lawful (h : s.Lawful) (p : Port) : (ringBegin p s).Lawful :=
  h.modSrc p _ (fun hx => hx.touch (by rfl))

theorem judgeDetecting_lawful (h : s.Lawful) (p : Port) (ho : (s.src p).state = .detecting) :
    (judgeDetecting p s).Lawful := by
  have hn : (s.src p).Lawful → (s.src p).owner.isSome = false := by
    intro hx
    have := hx.owner
    rw [ho] at this
    simpa [SrcState.isOwned] using this
  unfold judgeDetecting
  dsimp only
  split
  · exact ringBegin_lawful (h.changeSource p _ (fun hx => hx.restate (hn hx) (by rfl))) p
  · split
    · exact h.changeSource p _ (fun hx => hx.restate (hn hx) (by rfl))
    · exact h

theorem judgeSource_lawful (h : s.Lawful) (p : Port) : (judgeSource p s).Lawful := by
  unfold judgeSource
  dsimp only
  split
  · exact h
  · exact judgeDetecting_lawful h p ‹_›
  · exact h
  · split
    · exact h.changeSource p _ (fun hx => hx.unqualified rfl)
    · exact ringBegin_lawful h p
  · split
    · exact loseOwned_lawful h p id (by simp [SrcState.isOwned, *]) (fun h => h) (fun _ => rfl)
    · exact ringBegin_lawful h p
  · split
    · exact loseOwned_lawful h p id (by simp [SrcState.isOwned, *]) (fun h => h) (fun _ => rfl)
    · exact ringBegin_lawful h p
  · split
    · exact regain_lawful h p ‹_›
    · exact h

theorem portFrameStart_lawful (h : s.Lawful) (p : Port) (w v : Half) : (portFrameStart p w v s).Lawful := by
  have h1 := h.modSrc p (fun x => { x with lastStart := some s.now, measuring := true })
   (fun hx => hx.touch (by rfl))
  have h2 := h1.modSrc p (noteRaster (s.hasSignal p) w v) (fun hx => hx.touch (by rfl))
  unfold portFrameStart
  dsimp only
  split
  · split
    · split
      · exact h2.changeSource p _ (fun hx => hx.unqualified rfl)
      · split
        · unfold portInterval
          dsimp only
          have h3 := fun (n : BitVec 32) => h1.modSrc p
           (fun x => { x with lastInterval := n, lastW := w, lastH := v }) (fun hx => hx.touch (by rfl))
          split
          · exact h3 _
          · exact judgeSource_lawful ((h3 _).modSrc p _ (countRuns_lawful _ _ _ _)) p
        · exact h2
    · exact h1
  · exact h

theorem fallSilent_lawful (h : s.Lawful) (p : Port) : (fallSilent p s).Lawful := by
  unfold fallSilent
  split
  · exact h.modSrc p _ zeroed_lawful
  · exact h.changeSource p _ (fun hx => hx.unqualified rfl)
  · exact h.changeSource p _ (fun hx => hx.unqualified rfl)
  · exact h.changeSource p _ (fun hx => hx.unqualified rfl)
  · exact loseOwned_lawful h p _ (by simp [SrcState.isOwned, *]) zeroed_lawful (fun _ => rfl)
  · exact loseOwned_lawful h p _ (by simp [SrcState.isOwned, *]) zeroed_lawful (fun _ => rfl)
  · exact h.modSrc p _ zeroed_lawful

theorem portSilence_lawful (h : s.Lawful) (p : Port) : (portSilence p s).Lawful := by
  unfold portSilence
  split
  · exact fallSilent_lawful (h.reach _) p
  · exact h

theorem sourceFrameComplete_lawful (h : s.Lawful) (p : Port) (pic : Picture) :
    (sourceFrameComplete p pic s).Lawful := by
  unfold sourceFrameComplete
  split
  · split
    · split
      · exact h.modSrc p _ (fun hx => hx.touch (by rfl))
      · exact h.modSrc p _ (fun hx => hx.touch (by rfl))
    · exact h
  · exact h

/-! ### The steps inside a frame start -/

theorem whenRunning_lawful (h : s.Lawful) (k : Format → State) (hk : ∀ f, (k f).Lawful) :
    (whenRunning s k).Lawful := by
  unfold whenRunning
  split
  · exact hk _
  · exact h

end Sys2Proof.Machine
end

