-- ==== Sys2Proof/Laws/FrameLaws.lean ====
section
/-! SUPPORT. What a frame start of the card leaves alone, and what it makes of each channel's path and
tracker (R5, R9 to R12, R24 to R28, R115). -/

namespace Sys2Proof.Machine

variable {c d : Chan} {s t : State}

/-- The card but for its channels, sources, spare and notices. -/
def State.card (s : State) : State :=
  { s with
    channels := PerChan.fill (Channel.reset none), sources := PerPort.fill (Source.reset .absent none false)
    spare := .free, notices := Notices.reset }

theorem KeepsLaws.card (h : KeepsLaws c s t) : t.card = s.card := by
  have := congrArg State.card h.outside
  exact this

/-- What one channel does leaves the others (R5). -/
theorem KeepsLaws.chan_ne (h : KeepsLaws c s t) (hd : d ≠ c) : t.chan d = s.chan d := by
  have := congrArg (fun x => x.channels.get d) h.outside
  simpa [State.outside, State.chan, PerChan.get_set, hd] using this

/-- A channel after its tracker step (R24 to R28, R35). -/
def Channel.tracked (f : Format) (ch : Channel) : Channel :=
  match ch.sel.validWord with
  | some w => { ch with label := wordLabel f w, track := .locked, flywheel := 0, owed := false }
  | none => { ch with
      label := flywheelLabel f ch.label ch.sel.isRepeat
      track := (flywheelStep f ch).1, flywheel := (flywheelStep f ch).2
      owed := ch.owed || (decide ((flywheelStep f ch).1 = TrackState.lost) &&
        decide (midnightOf f ch.label (flywheelLabel f ch.label ch.sel.isRepeat) .continuous
          = Midnight.continuous))
      lostFrom := lostFromAfter ch (flywheelStep f ch).1 (flywheelLabel f ch.label ch.sel.isRepeat) }

theorem trackerStep_chan (f : Format) : (trackerStep f c t).1.chan c = (t.chan c).tracked f := by
  unfold trackerStep Channel.tracked
  dsimp only
  cases (t.chan c).sel.validWord with
  | some w => simp [trackWord]
  | none =>
    dsimp only
    split
    · rw [raiseChan_chan]
      split
      · rw [raiseChan_chan]
        simp [trackFlywheel]
      · simp [trackFlywheel]
    · split
      · rw [raiseChan_chan]
        simp [trackFlywheel]
      · simp [trackFlywheel]

/-- The waiting list has no part in path and tracker. -/
theorem tracked_waiting (f : Format) (ch : Channel) (l : List Waiting) :
    ((selectOutput f (slewStep { ch with waiting := l })).tracked f).path =
      ((selectOutput f (slewStep ch)).tracked f).path := by
  have h1 : slewStep { ch with waiting := l } = { slewStep ch with waiting := l } := by
    unfold slewStep
    dsimp only
    split
    · rfl
    · split
      · rfl
      · split <;> rfl
  have h2 : ∀ x : Channel, selectOutput f { x with waiting := l } = { selectOutput f x with waiting := l } := by
    intro x
    unfold selectOutput
    dsimp only
    split <;> rfl
  have h3 : ∀ x : Channel, ({ x with waiting := l } : Channel).tracked f = { x.tracked f with waiting := l } := by
    intro x
    unfold Channel.tracked
    dsimp only
    cases x.sel.validWord <;> rfl
  rw [h1, h2, h3]
  rfl

/-- Discarding the waiting list leaves the rest of the channel. -/
theorem discardWaiting_chan : (discardWaiting c t).chan c = { t.chan c with waiting := [] } := by
  unfold discardWaiting
  rw [modChan_chan_same]
  have : ∀ (l : List Waiting) (u : State), (l.foldl (fun t w => dropAnswer c (.take w.id) w.claim t) u).chan c
      = u.chan c := by
    intro l
    induction l with
    | nil => intro u; rfl
    | cons w l ih =>
      intro u
      rw [List.foldl_cons, ih]
      unfold dropAnswer
      split <;> rfl
  rw [this]

/-- Without a mode change due, a channel's frame start makes of its path what slew, selection and
tracker make of it. -/
theorem chanFrameStart_path (f : Format) (hp : (t.chan c).pendingMode = none)
    (hd : (t.chan c).deferred ≠ some []) :
    ((chanFrameStart f t c).chan c).path = ((selectOutput f (slewStep (t.chan c))).tracked f).path := by
  unfold chanFrameStart
  dsimp only
  refine (Keeps.rfl.afterTracker f _ _).path.trans ?_
  rw [trackerStep_chan, modChan_chan_same]
  unfold modeChange takeDeferred
  rw [hp]
  dsimp only
  rw [if_neg hd]
  split
  · rw [discardWaiting_chan, tracked_waiting]
  · rfl

/-! ### The card -/

theorem eraseDups_nodup (n : Nat) : ∀ l : List Chan, l.length ≤ n → l.eraseDups.Nodup := by
  induction n with
  | zero =>
    intro l h
    rw [List.eq_nil_of_length_eq_zero (Nat.le_zero.mp h)]
    exact .nil
  | succ n ih =>
    intro l h
    cases l with
    | nil => exact .nil
    | cons a l =>
      rw [List.eraseDups_cons, List.nodup_cons]
      refine ⟨by simp [List.mem_eraseDups], ih _ ?_⟩
      exact (List.length_filter_le _ _).trans (Nat.le_of_succ_le_succ h)

theorem channelOrder_nodup (order : List Chan) : (channelOrder order).Nodup := eraseDups_nodup _ _ (le_refl _)

theorem mem_channelOrder (order : List Chan) (c : Chan) : c ∈ channelOrder order := by
  unfold channelOrder
  rw [List.mem_eraseDups]
  cases c <;> simp [Chan.all]

/-- Other channels' frame starts leave a channel as it is. -/
theorem foldl_chan_ne (f : Format) (l : List Chan) (hc : c ∉ l) (t : State) :
    (l.foldl (chanFrameStart f) t).chan c = t.chan c := by
  induction l generalizing t with
  | nil => rfl
  | cons d l ih =>
    rw [List.foldl_cons, ih (fun h => hc (List.mem_cons_of_mem _ h))]
    exact (Keeps.rfl.toKeepsLaws.chanFrameStart f).chan_ne (fun h => hc (h ▸ List.mem_cons_self ..))

theorem foldl_path (f : Format) (l : List Chan) (hc : c ∈ l) (hn : l.Nodup) (t : State)
    (hp : (t.chan c).pendingMode = none) (hd : (t.chan c).deferred ≠ some []) :
    ((l.foldl (chanFrameStart f) t).chan c).path
      = ((selectOutput f (slewStep (t.chan c))).tracked f).path := by
  induction l generalizing t with
  | nil => cases hc
  | cons d l ih =>
    rw [List.foldl_cons]
    rw [List.nodup_cons] at hn
    by_cases h : c = d
    · subst h
      rw [foldl_chan_ne f l hn.1]
      exact chanFrameStart_path f hp hd
    · have e : (chanFrameStart f t d).chan c = t.chan c :=
        (Keeps.rfl.toKeepsLaws.chanFrameStart f).chan_ne h
      rw [ih ((List.mem_cons.mp hc).resolve_left h) hn.2 _ (e ▸ hp) (e ▸ hd), e]

theorem rearmRefLoss_chan : (rearmRefLoss s).chan c = s.chan c := by
  unfold rearmRefLoss
  dsimp only
  split <;> rfl

theorem rearmRefLoss_card : (rearmRefLoss s).card = s.card := by
  unfold rearmRefLoss
  dsimp only
  split <;> rfl

/-- A frame start of the card makes of each channel's path, no mode change being due, what slew,
selection and tracker make of it. -/
theorem frameStart_path (order : List Chan) (f : Format) (hf : s.format = some f)
    (hp : (s.chan c).pendingMode = none) (hd : (s.chan c).deferred ≠ some []) :
    ((frameStart order s).chan c).path = ((selectOutput f (slewStep (s.chan c))).tracked f).path := by
  unfold frameStart
  rw [hf]
  dsimp only
  rw [rearmRefLoss_chan, foldl_path f _ (mem_channelOrder order c) (channelOrder_nodup order)]
  · rfl
  · exact hp
  · exact hd

/-- A frame start changes channels, sources, spare and notices alone. -/
theorem frameStart_card (order : List Chan) : (frameStart order s).card = s.card := by
  unfold frameStart
  split
  · rfl
  · rename_i f _
    rw [rearmRefLoss_card]
    have : ∀ (l : List Chan) (u : State), (l.foldl (chanFrameStart f) u).card = u.card := by
      intro l
      induction l with
      | nil => intro u; rfl
      | cons d l ih => intro u; rw [List.foldl_cons, ih]; exact (Keeps.rfl.toKeepsLaws.chanFrameStart f).card
    rw [this]
    rfl

theorem card_link (h : t.card = s.card) : t.link = s.link :=
  (congrArg State.link h :)

theorem card_ref (h : t.card = s.card) : t.ref = s.ref :=
  (congrArg State.ref h :)

theorem card_now (h : t.card = s.card) : t.now = s.now :=
  (congrArg State.now h :)

theorem card_format (h : t.card = s.card) : t.format = s.format :=
  (congrArg State.format h :)

theorem card_pending (h : t.card = s.card) : t.pending = s.pending :=
  (congrArg State.pending h :)

theorem card_running (h : t.card = s.card) : t.running = s.running :=
  (congrArg State.running h :)

end Sys2Proof.Machine
end

