-- ==== Sys2Proof/Laws/LinkLaws.lean ====
section
/-! SUPPORT. What the link does with a judged frame, and that its slots stay orderly (R170, R171). -/

namespace Sys2Proof.Machine

variable {s t : State}

/-! ### The slots are the link's own -/

/-- Two states with the same receive slots. -/
def SameSlots (s t : State) : Prop := t.link.slot1 = s.link.slot1 ∧ t.link.slot2 = s.link.slot2

theorem SameSlots.rfl : SameSlots s s := ⟨Eq.refl _, Eq.refl _⟩

theorem SameSlots.trans {u : State} (h : SameSlots s t) (k : SameSlots t u) : SameSlots s u :=
  ⟨k.1.trans h.1, k.2.trans h.2⟩

theorem SameSlots.of_link (h : t.link = s.link) : SameSlots s t := by
  rw [SameSlots, h]
  exact ⟨Eq.refl _, Eq.refl _⟩

theorem KeepsLaws.slots {c : Chan} (h : KeepsLaws c s t) : SameSlots s t := .of_link (card_link h.card)

theorem Keeps.slots {c : Chan} (h : Keeps c s t) : SameSlots s t := h.toKeepsLaws.slots

theorem frameStart_slots (order : List Chan) : SameSlots s (frameStart order s) :=
  .of_link (card_link (frameStart_card order))

theorem changeSource_slots (p : Port) (f : Source → Source) : SameSlots s (changeSource p f s) := by
  unfold changeSource
  dsimp only
  split
  · exact .rfl
  · exact .rfl

theorem takeHouse_slots (f : Format) : SameSlots s (takeHouse f s) := by
  have : ∀ (l : List Port) (u : State),
      SameSlots u (l.foldl (fun t p => changeSource p houseSource t) u) := by
    intro l
    induction l with
    | nil => intro u; exact .rfl
    | cons p l ih => intro u; exact (changeSource_slots p houseSource).trans (ih _)
  exact SameSlots.trans (t := { s with
    format := some f, ref := houseReference s.now, channels := s.channels.map houseChannel })
    .rfl (this _ _)

theorem withChan_slots (ch : Byte) (k : Chan → Answer) (hk : ∀ c, SameSlots s (k c).1) :
    SameSlots s (withChan ch s k).1 := by
  unfold withChan refuse
  split
  · exact hk _
  · exact .rfl

theorem requestMode_slots (c : Chan) (m : Mode) : SameSlots s (requestMode c m s).1 := by
  unfold requestMode
  split
  · cases m <;> exact .rfl
  · split
    · exact .rfl
    · unfold changeMode
      have h1 : SameSlots s (if (s.chan c).pendingMode = some .auto then revertCues c s else s) := by
        split
        · exact (Keeps.rfl (c := c)).revertCues.slots
        · exact .rfl
      dsimp only
      revert h1
      generalize (if (s.chan c).pendingMode = some .auto then revertCues c s else s) = u
      intro h1
      split
      · exact h1.trans .rfl
      · exact h1.trans .rfl

theorem actChTake_slots (ch : Byte) (part : List Byte) : SameSlots s (actChTake ch part s).1 := by
  unfold actChTake
  split
  · exact .rfl
  · refine withChan_slots _ _ (fun c => ?_)
    unfold judgeTake refuse
    split
    · exact .rfl
    · split
      · exact .rfl
      · split
        · exact .rfl
        · unfold joinWaiting askForTake
          dsimp only
          split
          · exact .rfl
          · exact .rfl

theorem actZoneDefine_slots (op : Byte) (m : ZoneMsg) : SameSlots s (actZoneDefine op m s).1 := by
  unfold actZoneDefine refuse
  split
  · exact .rfl
  · refine withChan_slots _ _ (fun c => ?_)
    split
    · exact .rfl
    · split
      · exact .rfl
      · exact ((Keeps.rfl (c := c)).changeZones _ (by simp)).slots

theorem actCueRemove_slots (ch form : Byte) (tag : Half) (lo hi : HostLabel) :
    SameSlots s (actCueRemove ch form tag lo hi s).1 := by
  unfold actCueRemove removeByTag removeByRange refuseRemoval
  split
  · split
    · exact .rfl
    · split
      · exact .rfl
      · exact .rfl
  · split
    · exact .rfl
    · split
      · exact .rfl
      · split
        · exact .rfl
        · exact .rfl
  · exact .rfl

/-- A request acts on everything but the receive slots (R171). -/
theorem act_slots (r : Request) : SameSlots s (act r s).1 := by
  cases r with
  | ident => exact .rfl
  | house code =>
    simp only [act, actHouse, refuse]
    split
    · exact .rfl
    · rename_i f _
      cases houseAllowed s
      · exact .rfl
      · simpa using takeHouse_slots f
  | reset => exact .rfl
  | noticeEnable set =>
    simp only [act, actNoticeEnable, refuse]
    split
    · exact .rfl
    · exact .rfl
  | noticeRead => exact .rfl
  | noticeAck set =>
    simp only [act, actNoticeAck, refuse]
    split
    · exact .rfl
    · exact .rfl
  | linkCounts => exact .rfl
  | srcRead src =>
    simp only [act, actSrcRead, refuse]
    split
    · exact .rfl
    · exact .rfl
  | srcSet m =>
    simp only [act, actSrcSet, refuse]
    split
    · exact .rfl
    · split
      · exact .rfl
      · split
        · exact .rfl
        · exact .rfl
  | chMode ch mode =>
    refine withChan_slots _ _ (fun c => ?_)
    unfold refuse
    split
    · exact .rfl
    · split
      · exact .rfl
      · exact requestMode_slots c _
  | chDelay ch target => exact withChan_slots _ _ (fun _ => .rfl)
  | chSetup ch glide hold standby =>
    refine withChan_slots _ _ (fun c => ?_)
    unfold refuse
    split
    · exact .rfl
    · exact .rfl
  | chRead ch => exact withChan_slots _ _ (fun _ => .rfl)
  | chClear ch =>
    refine withChan_slots _ _ (fun c => ?_)
    unfold refuse
    split
    · exact .rfl
    · exact (Keeps.rfl (c := c)).dropInset.slots
  | chTake ch part => exact actChTake_slots ch part
  | zoneDefine op m => exact actZoneDefine_slots op m
  | zoneRead ch => exact withChan_slots _ _ (fun _ => .rfl)
  | cueLoad ch recs =>
    simp only [act, actCueLoad]
    split
    · exact .rfl
    · split
      · exact .rfl
      · rename_i c _
        exact (Keeps.loadCues (c := c) _ recs 0 .rfl).slots
  | cueRemove ch form tag lo hi => exact actCueRemove_slots ch form tag lo hi
  | cueRead ch pos count =>
    refine withChan_slots _ _ (fun c => ?_)
    unfold refuse
    split
    · exact .rfl
    · exact .rfl
  | faultRead ch => exact withChan_slots _ _ (fun _ => .rfl)
  | faultClear ch => exact withChan_slots _ _ (fun _ => .rfl)
  | unknownKind l => exact .rfl
  | badLength l => exact .rfl

theorem answerEntry_slots (e : Entry) : SameSlots s (answerEntry e s).1 := by
  cases e with
  | request r => exact act_slots r
  | reject => exact .rfl

/-! ### A frame on an idle link -/

/-- On an idle link a judged frame is taken at once, from slot 1 (R170, R171). -/
theorem deliver_idle (h : s.LinkIdle) (e : Entry) :
    deliver e s = (let r := answerEntry e (s.hearing e)
      { r.1 with link := r.1.link.setSlot .one (.answering e 0 r.2) }) := by
  have hp : placeEntry e s = s.hearing e := by
    simp [placeEntry, h.slot1, h.slot2, Slot.nextSeq, State.hearing]
  have hr : (s.hearing e).link.slot2 = .empty := h.slot2
  unfold deliver
  rw [h.running, hp]
  simp [takeOldest, State.hearing, h.slot2, Slot.isAnswering, Link.oldest, Slot.waitingEntry]

/-! ### Orderly slots -/

theorem Link.Orderly.of_same (h : s.link.Orderly) (k : SameSlots s t) : t.link.Orderly := by
  obtain ⟨k1, k2⟩ := k
  refine ⟨?_, ?_⟩
  · rw [k1, k2]; exact h.one
  · rw [k1, k2]; exact h.busy

/-- Once the oldest waiting slot has been taken, the slots are orderly. -/
theorem takeOldest_orderly
    (h : ¬(s.link.slot1.isAnswering = true ∧ s.link.slot2.isAnswering = true)) :
    (takeOldest s).link.Orderly := by
  unfold takeOldest
  by_cases ha : (s.link.slot1.isAnswering || s.link.slot2.isAnswering) = true
  · rw [if_pos ha]
    exact ⟨h, fun _ => by simpa using ha⟩
  · rw [if_neg ha]
    have hb : s.link.slot1.isAnswering = false ∧ s.link.slot2.isAnswering = false := by
      simpa using ha
    split
    · rename_i ho
      refine ⟨h, ?_⟩
      cases h1 : s.link.slot1 <;> cases h2 : s.link.slot2 <;>
        simp [Link.oldest, Slot.waitingEntry, h1, h2] at ho <;>
        simp_all [Slot.isAnswering, Slot.isWaiting]
      all_goals split at ho <;> simp at ho
    · rename_i i e n ho
      dsimp only
      have he1 := (answerEntry_slots (s := s) e).1
      have he2 := (answerEntry_slots (s := s) e).2
      cases i with
      | one =>
        refine ⟨?_, ?_⟩
        · simp [Link.setSlot, he2, hb.2]
        · simp [Link.setSlot, Slot.isAnswering]
      | two =>
        refine ⟨?_, ?_⟩
        · simp [Link.setSlot, he1, hb.1]
        · simp [Link.setSlot, Slot.isAnswering]

theorem placeEntry_one (h : s.link.Orderly) (e : Entry) :
    ¬((placeEntry e s).link.slot1.isAnswering = true ∧ (placeEntry e s).link.slot2.isAnswering = true) := by
  unfold placeEntry
  dsimp only
  split
  · simp [Slot.isAnswering]
  · split
    · simp [Slot.isAnswering]
    · exact h.one

theorem deliver_orderly (h : s.link.Orderly) (e : Entry) : (deliver e s).link.Orderly := by
  unfold deliver
  split
  · exact takeOldest_orderly (placeEntry_one h e)
  · exact h

theorem countError_orderly (h : s.link.Orderly) (f : Link → Link)
    (hf : ∀ l, (f l).slot1 = l.slot1 ∧ (f l).slot2 = l.slot2) : (countError f s).link.Orderly :=
  h.of_same ⟨(hf _).1, (hf _).2⟩

theorem deliverReject_orderly (h : s.link.Orderly) : (deliverReject s).link.Orderly := by
  unfold deliverReject
  split
  · refine deliver_orderly ?_ _
    exact countError_orderly h _ (fun _ => ⟨Eq.refl _, Eq.refl _⟩)
  · exact h

/-- Both slots EMPTY. -/
theorem linkStop_orderly : (linkStop s).link.Orderly :=
  ⟨by simp [linkStop, Slot.isAnswering], by simp [linkStop, Slot.isWaiting]⟩

theorem beginReset_orderly (k : ResetCause) : (beginReset k s).link.Orderly :=
  linkStop_orderly (s := relaysToBypass s)

theorem replySent_orderly (h : s.link.Orderly) : (replySent s).link.Orderly := by
  unfold replySent
  split
  · split
    · unfold replyLeft
      split
      · exact beginReset_orderly _
      · exact takeOldest_orderly (by simp [freeSlot, Link.setSlot, Slot.isAnswering])
    · unfold replyLeft
      split
      · exact beginReset_orderly _
      · exact takeOldest_orderly (by simp [freeSlot, Link.setSlot, Slot.isAnswering])
    · exact h
  · exact h

theorem rxByte_orderly (h : s.link.Orderly) (b : Byte) : (rxByte b s).link.Orderly := by
  unfold rxByte
  split
  · split
    · split
      · exact h.of_same ⟨Eq.refl _, Eq.refl _⟩
      · exact h
    · unfold rxLength
      split
      · exact h.of_same ⟨Eq.refl _, Eq.refl _⟩
      · exact countError_orderly h _ (fun _ => ⟨Eq.refl _, Eq.refl _⟩)
    · exact h.of_same ⟨Eq.refl _, Eq.refl _⟩
    · have hh : ({ s with link := s.link.hunt } : State).link.Orderly := h.of_same ⟨Eq.refl _, Eq.refl _⟩
      unfold rxCheck
      dsimp only
      split
      · exact deliver_orderly hh _
      · exact deliverReject_orderly hh
  · exact h

theorem framingError_orderly (h : s.link.Orderly) : (framingError s).link.Orderly := by
  unfold framingError
  split
  · exact countError_orderly h _ (fun _ => ⟨Eq.refl _, Eq.refl _⟩)
  · exact h

theorem gapTimeout_orderly (h : s.link.Orderly) : (gapTimeout s).link.Orderly := by
  unfold gapTimeout
  split
  · exact countError_orderly h _ (fun _ => ⟨Eq.refl _, Eq.refl _⟩)
  · exact h

/-! ### The card's own events leave the slots -/

theorem pulseFrame_slots (f : Format) (order : List Chan) : SameSlots s (pulseFrame f order s) := by
  unfold pulseFrame
  dsimp only
  split
  · exact SameSlots.trans (by exact .rfl) (frameStart_slots order)
  · exact .rfl

theorem refPulse_slots (order : List Chan) : SameSlots s (refPulse order s) := by
  unfold refPulse
  split
  · dsimp only
    split
    · exact .rfl
    · split
      · unfold judgePulse
        split
        · exact .rfl
        · split
          · exact SameSlots.trans (by exact .rfl) (pulseFrame_slots _ order)
          · split
            · exact .rfl
            · exact .rfl
        · split
          · exact .rfl
          · exact SameSlots.trans (by exact .rfl) (pulseFrame_slots _ order)
        · split
          · exact SameSlots.trans (by exact .rfl) (pulseFrame_slots _ order)
          · exact .rfl
      · exact .rfl
  · exact .rfl

theorem refSilence_slots : SameSlots s (refSilence s) := by
  unfold refSilence
  split
  · dsimp only
    split <;> exact .rfl
  · exact .rfl

theorem timedFrame_slots (order : List Chan) (n : Nat) (b : Bool) : SameSlots s (timedFrame order n b s) := by
  unfold timedFrame
  exact SameSlots.trans (by exact .rfl) (frameStart_slots order)

theorem freeRunFrame_slots (order : List Chan) : SameSlots s (freeRunFrame order s) := by
  unfold freeRunFrame
  split
  · split
    · exact timedFrame_slots _ _ _
    · exact .rfl
  · exact .rfl

theorem latePulseFrame_slots (order : List Chan) : SameSlots s (latePulseFrame order s) := by
  unfold latePulseFrame
  split
  · split
    · exact timedFrame_slots _ _ _
    · exact .rfl
  · exact .rfl

theorem pgmFrameStart_slots (c : Chan) (w v : Half) : SameSlots s (pgmFrameStart c w v s) := by
  unfold pgmFrameStart
  dsimp only
  split
  · split
    · unfold judgePgm
      split
      · exact .rfl
      · split
        · exact .rfl
        · unfold badInterval
          dsimp only
          split
          · split <;> exact .rfl
          · exact .rfl
    · exact .rfl
  · exact .rfl

theorem pgmFrameComplete_slots (c : Chan) (w : Option TcWord) (pic : Picture) :
    SameSlots s (pgmFrameComplete c w pic s) := by
  unfold pgmFrameComplete
  split
  · split
    · split <;> exact .rfl
    · exact .rfl
  · exact .rfl

theorem pgmSilence_slots (c : Chan) : SameSlots s (pgmSilence c s) := by
  unfold pgmSilence
  split
  · dsimp only
    split <;> exact .rfl
  · exact .rfl

theorem loseOwned_slots (p : Port) (f : Source → Source) : SameSlots s (loseOwned p f s) := by
  unfold loseOwned
  dsimp only
  split
  · rename_i c _
    exact (changeSource_slots _ _).trans ((Keeps.rfl (c := c)).reportLoss p).slots
  · exact changeSource_slots _ _

theorem regain_slots (p : Port) : SameSlots s (regain p s) := by
  unfold regain
  dsimp only
  split
  · rename_i c _
    exact (changeSource_slots _ _).trans ((Keeps.rfl (c := c)).reportReturn p).slots
  · exact changeSource_slots _ _

theorem judgeSource_slots (p : Port) : SameSlots s (judgeSource p s) := by
  unfold judgeSource
  dsimp only
  split
  · exact .rfl
  · unfold judgeDetecting
    dsimp only
    split
    · exact (changeSource_slots _ _).trans .rfl
    · split
      · exact changeSource_slots _ _
      · exact .rfl
  · exact .rfl
  · split
    · exact changeSource_slots _ _
    · exact .rfl
  · split
    · exact loseOwned_slots _ _
    · exact .rfl
  · split
    · exact loseOwned_slots _ _
    · exact .rfl
  · split
    · exact regain_slots _
    · exact .rfl

theorem portFrameStart_slots (p : Port) (w v : Half) : SameSlots s (portFrameStart p w v s) := by
  unfold portFrameStart
  dsimp only
  split
  · split
    · split
      · exact SameSlots.trans (by exact .rfl) (changeSource_slots _ _)
      · split
        · unfold portInterval
          dsimp only
          split
          · exact .rfl
          · exact SameSlots.trans (by exact .rfl) (judgeSource_slots _)
        · exact .rfl
    · exact .rfl
  · exact .rfl

theorem portSilence_slots (p : Port) : SameSlots s (portSilence p s) := by
  unfold portSilence
  split
  · unfold fallSilent
    split
    · exact .rfl
    · exact SameSlots.trans (by exact .rfl) (changeSource_slots _ _)
    · exact SameSlots.trans (by exact .rfl) (changeSource_slots _ _)
    · exact SameSlots.trans (by exact .rfl) (changeSource_slots _ _)
    · exact SameSlots.trans (by exact .rfl) (loseOwned_slots _ _)
    · exact SameSlots.trans (by exact .rfl) (loseOwned_slots _ _)
    · exact .rfl
  · exact .rfl

theorem sourceFrameComplete_slots (p : Port) (pic : Picture) : SameSlots s (sourceFrameComplete p pic s) := by
  unfold sourceFrameComplete
  split
  · split
    · split <;> exact .rfl
    · exact .rfl
  · exact .rfl

theorem whenRunning_slots (k : Format → State) (hk : ∀ f, SameSlots s (k f)) :
    SameSlots s (whenRunning s k) := by
  unfold whenRunning
  split
  · exact hk _
  · exact .rfl

end Sys2Proof.Machine
end

