-- ==== Sys2Proof/Tests/Slice0.lean ====
section
/-! SUPPORT. Tests: the manual's worked examples, the WellFormed smoke tests, and a witness for the
hypotheses of every statement that has any. -/

namespace Sys2Proof.Tests

open Sys2Proof.Machine

/-! ### States -/

/-- The state a command leaves. -/
def after (s : State) (i : Instr) : State :=
  match exec i s with
  | .next t => t
  | _ => s

/-- The reply being sent from slot 1. -/
def replyOf (s : State) : List Byte :=
  match s.link.slot1 with
  | .answering _ _ l => l
  | _ => []

/-- Format 1, the reference LOCKED. -/
def house : State :=
  { State.reset with format := some .f1, ref := ⟨.locked, 8, 0, 0, true, 0, false⟩ }

/-- Format 1 with channel 0 and source S0 changed, and S1 READY. -/
def card (g : Channel → Channel) (h : Source → Source) : State :=
  ((house.modChan .c0 g).modSrc .s0 h).modSrc .s1 (fun x => { x with state := .ready })

/-- Channel 0 in AUTO with a programme and a LOCKED tracker at label 90,000. -/
def auto (ch : Channel) : Channel :=
  { ch with mode := .auto, relay := .processed, pgm := .present, track := .locked, label := 90000 }

/-- S0 on air in channel 0 at full level. -/
def onAir (inset : Inset) (ch : Channel) : Channel :=
  { auto ch with
    inset := inset, cur := some ⟨.s0, 1024, none⟩, resolved := some ⟨96, 54, 768, 432⟩
    shown := some ⟨96, 54, 432⟩ }

/-- S0 owned by channel 0. -/
def owned (st : SrcState) (x : Source) : Source :=
  { x with state := st, owner := some .c0, lastStart := some 0, measuring := true }

/-- SHOWN from S0. -/
def shown : State := card (onAir .shown) (owned .taken)

/-- A cue of the worked list of section 2.6. -/
def cue (tag label : Nat) (prepared : Bool) : Cue :=
  ⟨tag, ⟨label, false⟩, .mark 5, prepared, false, .notAsked, tag, false⟩

/-- Channel 0 in AUTO with a PREPARED and a PENDING cue. -/
def listed : State := card (fun ch => { auto ch with cues := [cue 21 90001 true, cue 22 90040 false] }) id

/-- A label of format 1 as the host gives it. -/
def hostLabel (h m s ff : Byte) : HostLabel := ⟨h, m, s, ff, 0, 0⟩

/-- An action part filled up with zeros. -/
def part (l : List Byte) : List Byte := padTo 20 l

/-- A MARK cue's record. -/
def markRec (tag : Half) : CueRec := ⟨tag, hostLabel 1 0 0 3, part [8, 5]⟩

/-- A reply being sent from slot 1. -/
def busy (e : Entry) (other : Slot) : State :=
  { State.reset with link := { Link.reset with slot1 := .answering e 0 [0x81, 0], slot2 := other } }

/-- The same from slot 2. -/
def busy2 (e : Entry) (other : Slot) : State :=
  { State.reset with link := { Link.reset with slot1 := other, slot2 := .answering e 0 [0x81, 0] } }

/-- A reset in progress. -/
def inReset (s : State) (k : ResetCause) (pin : Bool) : State :=
  { s with resetting := some k, resetDue := s.now + 540000, pin := pin }

theorem idle_reset : State.reset.LinkIdle := ⟨rfl, rfl, rfl⟩

theorem idle_house : house.LinkIdle := ⟨rfl, rfl, rfl⟩

theorem idle_shown : shown.LinkIdle := ⟨rfl, rfl, rfl⟩

theorem idle_listed : listed.LinkIdle := ⟨rfl, rfl, rfl⟩

theorem lawful_house : house.Lawful :=
  ⟨State.reset_lawful.bounded, State.reset_lawful.list, State.reset_lawful.source⟩

/-! ### WellFormed: each check refuses an ill-formed command -/

theorem test_order_with_a_channel_twice_refused :
    (Instr.refPulse 0 [.c0, .c0, .c1, .c2]).wellFormed = false := by decide

theorem test_short_action_part_refused : (Instr.chTake 0 [8, 5]).wellFormed = false := by decide

theorem test_no_cue_record_refused : (Instr.cueLoad 0 []).wellFormed = false := by decide

theorem test_known_kind_is_not_unknown : (Instr.unknownKind [0x01]).wellFormed = false := by decide

theorem test_right_length_is_not_bad : (Instr.badLength [0x02, 1]).wellFormed = false := by decide

theorem test_picture_beyond_its_raster_refused :
    (Instr.sourceFrameComplete .s0 ⟨2, 1, [[], []]⟩).wellFormed = false := by decide

theorem test_good_commands_accepted :
    (Instr.freeRunFrameStart [.c3, .c1, .c0, .c2]).wellFormed = true ∧
    (Instr.unknownKind [0x08]).wellFormed = true ∧ (Instr.badLength [0x02]).wellFormed = true := by decide

/-! ### Labels (sections 2.1 and 2.6) -/

/-- The worked conversions of section 2.1. -/
theorem test_worked_conversions :
    wordLabel .f1 ⟨23, 59, 59, 24, false, false⟩ = 2159999 ∧
    wordLabel .f2 ⟨0, 0, 10, 15, true, false⟩ = 315 ∧
    wordLabel .f3 ⟨10, 0, 0, 12, true, false⟩ = 1800025 ∧
    wordLabel .f4 ⟨1, 2, 3, 29, true, false⟩ = 223439 ∧
    wordLabel .f5 ⟨23, 59, 59, 24, true, false⟩ = 4319999 := by decide

theorem test_invalid_words :
    wordValid .f1 ⟨0, 0, 0, 25, false, false⟩ = false ∧ wordValid .f4 ⟨12, 0, 0, 30, false, false⟩ = false ∧
    wordValid .f2 ⟨24, 0, 0, 0, false, false⟩ = false ∧
    wordValid .f2 ⟨8, 0, 0, 0, false, true⟩ = false := by decide

theorem test_reading_back : timeOfLabel .f3 1800025 = [10, 0, 0, 12, 1] := by decide

/-- The findings of section 2.6. -/
theorem test_worked_findings :
    findingOf .f1 90000 90001 = .continuous ∧ findingOf .f1 90003 90005 = .catchUp ∧
    findingOf .f1 90005 90050 = .jumpForward ∧ findingOf .f1 90050 90025 = .jumpBack ∧
    findingOf .f1 2159990 5 = .catchUp ∧ findingOf .f1 2159990 125 = .jumpBack := by decide

/-! ### Size, position and resolution (sections 5.2 to 5.9) -/

theorem test_worked_widths :
    derivedWidth 640 1080 432 = 256 ∧ derivedWidth 1920 1080 972 = 1728 ∧ derivedWidth 480 720 288 = 192 ∧
    derivedWidth 1920 200 182 = 1748 := by decide

theorem test_worked_heights :
    heightMin 1080 = 136 ∧ heightMin 720 = 90 ∧ heightMax .f1 1920 200 = 180 ∧ heightMax .f1 400 100 = 100 ∧
    placeable .f1 1920 2 = false := by decide

/-- The block and zones of section 5.9: zone 3 HARD, zone 5 SOFT. -/
def worked : Block := ⟨.bottomRight, some 432, 0, 0, [.topRight, .bottomLeft]⟩

def workedZones (z3 z5 : Bool) : List Zone :=
  [Zone.undefined, Zone.undefined, Zone.undefined, ⟨true, ⟨192, 900, 1536, 126⟩, .hard, z3, none⟩,
   Zone.undefined, ⟨true, ⟨1600, 40, 224, 140⟩, .soft, z5, none⟩]

theorem test_worked_resolution_moved :
    resolve .f1 ⟨640, 0, 640, 1080⟩ worked (workedZones true false) (some ⟨1568, 594, 256, 432⟩)
      = ⟨.moved, some ⟨1568, 54, 256, 432⟩, some ⟨1568, 594, 256, 432⟩⟩ := by decide +kernel

theorem test_worked_resolution_soft_covered :
    (resolve .f1 ⟨640, 0, 640, 1080⟩ worked (workedZones true true) none).outcome = .softCovered ∧
    (resolve .f1 ⟨640, 0, 640, 1080⟩ worked (workedZones true true) none).rect
      = some ⟨1568, 54, 256, 432⟩ := by decide +kernel

theorem test_worked_glide :
    glideAt ⟨⟨1568, 594, 432⟩, ⟨1568, 54, 432⟩, 8, 0⟩ 3 = ⟨1568, 392, 432⟩ ∧
    glideAt ⟨⟨1568, 189, 432⟩, ⟨96, 594, 432⟩, 3, 0⟩ 2 = ⟨586, 459, 432⟩ := by decide

/-- R91, R92, R95: a cut between two frame starts is displayed at the next. -/
theorem test_cut_is_displayed_at_the_frame_start :
    ∀ s t : State, s = card (fun ch => { onAir .shown ch with displayed := some ⟨96, 54, 768, 432⟩ }) (owned .taken) →
      t = (resolveVisible .c0 0 s).1 →
      (t.chan .c0).resolved = some ⟨1056, 594, 768, 432⟩ ∧ (t.chan .c0).displayed = some ⟨96, 54, 768, 432⟩ ∧
      ((present .f1 .c0 (stepEngine .c0 t)).chan .c0).displayed = some ⟨1056, 594, 768, 432⟩ ∧
      ((stepEngine .c0 t).chan .c0).glide = none := by
  rintro s t rfl rfl
  decide +kernel

/-! ### Key and blend (sections 4.3 to 4.7) -/

theorem test_worked_footprints :
    span 640 640 256 0 = (640, 2) ∧ span 640 640 256 1 = (642, 3) ∧ span 0 1080 432 2 = (5, 2) ∧
    roundedMean [500, 501, 502, 504] = 502 ∧ roundedMean [300, 330, 302, 333] = 316 := by decide

theorem test_worked_key_alpha :
    keyAlphaOf 100 5242 (chromaDistance 272 240 440 600) = 1024 ∧
    keyAlphaOf 100 5242 (chromaDistance 272 240 300 300) = 0 ∧
    keyAlphaOf 100 5242 (chromaDistance 272 240 330 330) = 245 ∧
    keyAlphaOf 100 5242 (chromaDistance 272 240 422 390) = 1023 ∧
    keyAlphaOf 100 5242 (chromaDistance 272 240 422 391) = 1024 := by decide

theorem test_worked_pixel_pair :
    fadedAlpha 245 512 = 123 ∧ fadedAlpha 245 563 = 135 ∧
    blendPair ⟨600, 612, 330, 330⟩ ⟨200, 210, 520, 500⟩ 123 = ⟨248, 258, 497, 480⟩ ∧
    blendSample 400 (blendSample 700 100 768) 256 = 513 := by decide

/-! ### The link (Chapter 9) -/

theorem test_worked_checks :
    frameOf [0x01] = [0x5A, 0x01, 0x01, 0xFE] ∧ checkOf [0x05] = 0xFA ∧ checkOf [0x07] = 0xF8 := by decide

/-- The reply of R177 and R195 after a power-on reset. -/
theorem test_ident_reply :
    replyOf (after State.reset .ident) = [0x81, 0, 0x0E, 0x1C, 0x04, 0xC7, 3, 1, 0, 0] := by decide

/-- The burst of section 9.6: the third request is overrun. -/
theorem test_burst_of_three :
    (after (after (after State.reset .ident) .noticeRead) .linkCounts).link.overrun = 1 ∧
    ((after (after (after State.reset .ident) .noticeRead) .linkCounts).notices.raw.hasCard .linkError)
      = true := by decide

/-- A refused code and a taken one (R1, R178). -/
theorem test_house_codes :
    replyOf (after State.reset (.house 7)) = [0x82, 0x12] ∧
    (after State.reset (.house 6)).format = some .f6 := by
  decide

/-- The last rows of the table of R89. -/
theorem test_stack_spills :
    ((doPush .c0 worked none (card (fun ch => { ch with
      stack := [Block.default, worked, worked, worked] }) id)).chan .c0).stack.length = 4 ∧
    (doPop .c0 none State.reset).2 = some .emptyStack := by decide

/-! ### Midnights, labels passed in LOST and the raster (R35, R36, R100, R61) -/

/-- A ZONE action's cue that makes entry 3 ACTIVE until a same-day label. -/
def zoneCue (tag label expiry : Nat) : Cue :=
  ⟨tag, ⟨label, false⟩, .zone 3 true (some ⟨expiry, false⟩), false, false, .notAsked, tag, false⟩

/-- Channel 0 in AUTO with that cue and entry 3 defined. -/
def zoned (label expiry : Nat) : State :=
  card (fun ch => { auto ch with cues := [zoneCue 7 label expiry], zones := workedZones false false }) id

/-- R35, R104: the cue of an owed midnight fires, and the expiry it sets ends with the day. -/
theorem test_owed_midnight_ends_what_its_cues_set :
    ((owedMidnight .c0 false (zoned 2159990 2159995)).chan .c0).fired = 1 ∧
    (zoneAt ((owedMidnight .c0 false (zoned 2159990 2159995)).chan .c0).zones 3).active = false := by
  decide +kernel

/-- R100: an expiry set by a cue of the entry rule waits for the next check. -/
theorem test_entry_rule_expiry_waits :
    (zoneAt ((dispatch .f1 .c0 true ⟨90001, 90000, false, none, .continuous, .none, false⟩
      (zoned 89999 90000)).chan .c0).zones 3).active = true := by decide +kernel

/-- R103: after a jump back out of a LOST an expiry above N waits although its label was passed there, and one
at N takes effect. -/
theorem test_expiry_above_the_label_waits_after_a_jump_back :
    (((dispatch .f1 .c0 false ⟨89000, 90010, false, some 88990, .jumpBack, .none, false⟩ (card (fun ch => { auto ch with
      zones := [⟨true, ⟨0, 0, 2, 2⟩, .hard, true, some ⟨89001, false⟩⟩,
        ⟨true, ⟨0, 0, 2, 2⟩, .hard, true, some ⟨89000, false⟩⟩] }) id)).chan .c0).zones.map Zone.active)
      = [true, false] := by decide +kernel

/-- R36: a cue passed in LOST fires at the frame start that ends it, also after a jump back. -/
theorem test_passed_cue_fires_after_a_jump_back :
    ((dispatch .f1 .c0 false ⟨89000, 90010, false, some 90000, .jumpBack, .none, false⟩
      (zoned 90005 91000)).chan .c0).fired = 1 ∧
    ((dispatch .f1 .c0 false ⟨89000, 90010, false, some 90006, .jumpBack, .none, false⟩
      (zoned 90005 91000)).chan .c0).fired = 0 := by decide +kernel

/-- R61: past the last pair of a line there is no output pair. -/
theorem test_no_pair_past_the_raster :
    (outputPair shown .c0 959 1079).isSome = true ∧ outputPair shown .c0 960 1079 = none ∧
    outputPair shown .c0 959 1080 = none := by decide +kernel

/-! ### Witnesses -/

theorem witness_StepTakesTheFrontCommand :
    ({ State.reset with pending := [Instr.ident] } : State).pending = Instr.ident :: [] ∧
    State.reset.pending = [] := by decide

theorem witness_EveryStepKeepsTheLaws :
    ∃ t, ({ house with pending := [Instr.noticeRead] } : State).Lawful ∧
      step { house with pending := [.noticeRead] } = .next t :=
  ⟨_, ⟨lawful_house.bounded, lawful_house.list, lawful_house.source⟩, rfl⟩

theorem witness_EveryStepKeepsTheSlotsOrderly :
    ∃ t, (busy (.request .ident) (.waiting .reject 1)).link.Orderly ∧
      step { busy (.request .ident) (.waiting .reject 1) with pending := [.replySent] } = .next t :=
  ⟨_, ⟨by decide, fun _ => Or.inl rfl⟩, rfl⟩

theorem witness_ChannelsActAlone : Chan.c1 ≠ Chan.c0 := by decide

theorem witness_ReceivedByteByState :
    State.reset.running = true ∧ State.reset.link.rx = .hunt ∧ (0x5B : Byte) ≠ 0x5A ∧
    1 ≤ (1 : Byte).toNat ∧ (240 : Byte).toNat ≤ 240 ∧
    (after (after State.reset (.rxByte 0x5A)) (.rxByte 1)).link.rx = .body ∧
    (after State.reset (.rxByte 0x5A)).link.rx = .length ∧
    (after State.reset (.rxByte 0x5A)).link.rx ≠ .hunt ∧
    (after State.reset (.rxByte 0x5A)).running = true := by decide

theorem witness_WrongLengthByteIsCounted :
    (after State.reset (.rxByte 0x5A)).running = true ∧ (after State.reset (.rxByte 0x5A)).link.rx = .length ∧
    ((0 : Byte).toNat = 0 ∨ 240 < (0 : Byte).toNat) ∧ ((241 : Byte).toNat = 0 ∨ 240 < (241 : Byte).toNat) ∧
    (0x00 : Byte) ≠ 0x5A := by decide

theorem witness_WholeFrameArrives :
    State.reset.running = true ∧ State.reset.link.rx = .hunt ∧ State.reset.link.len = 0 ∧
    State.reset.link.body = [] ∧ 1 ≤ ([0x01] : List Byte).length ∧ (0 : Byte) ≠ checkOf [0x01] ∧
    1 ≤ (List.replicate 240 (0 : Byte)).length ∧ (List.replicate 240 (0 : Byte)).length ≤ 240 :=
  ⟨by decide, by decide, by decide, by decide, by decide, by decide, by rw [List.length_replicate]; decide,
    List.length_replicate.le⟩

theorem witness_PayloadSpellsItsRequest :
    numberAt [0x23, 2] 0 1 = 0x23 ∧ ([0x23, 2] : List Byte).length = 2 ∧
    ((0x23, 2, .chRead 2) : Nat × Nat × Request) ∈ [(0x23, 2, .chRead 2)] ∧
    ([0x23] : List Byte).length ≠ 2 ∧ numberAt [0x40, 0, 8] 2 1 = 8 ∧ numberAt [0x40, 0, 9] 2 1 = 9 ∧
    requestOf [0x23, 2] = .chRead 2 ∧ requestOf [0x23] = .badLength [0x23] ∧
    requestOf [0x40, 0, 9] = .badLength [0x40, 0, 9] ∧ requestOf [0x52] = .unknownKind [0x52] := by decide

theorem witness_FramesRejectedWaitingOrUnheard :
    State.reset.LinkIdle ∧ Instr.ident.asRequest = some .ident ∧ Instr.ident.asRequest ≠ none ∧
    (busy .reject .empty).running = true ∧
    (busy .reject .empty).link.slot1 = .answering .reject 0 [0x81, 0] ∧
    (busy .reject .empty).link.slot2 = .empty ∧
    (busy2 .reject .empty).link.slot2 = .answering .reject 0 [0x81, 0] ∧
    (busy2 .reject .empty).link.slot1 = .empty ∧
    (busy .reject (.waiting .reject 1)).link.slot2.isWaiting = true ∧
    (busy2 .reject (.waiting .reject 1)).link.slot1.isWaiting = true ∧
    (inReset State.reset .pin true).running = false ∧
    ({ State.reset with power := false } : State).running = false := ⟨idle_reset, by decide⟩

theorem witness_SentReplyFreesItsSlot :
    (busy .reject .empty).running = true ∧ (busy2 .reject .empty).running = true ∧
    (busy .reject .empty).link.slot1 = .answering .reject 0 [0x81, 0] ∧
    (busy .reject .empty).link.slot2.isAnswering = false ∧
    (busy2 .reject .empty).link.slot2 = .answering .reject 0 [0x81, 0] ∧
    (busy2 .reject .empty).link.slot1.isAnswering = false ∧
    Entry.reject ≠ .request .reset ∧ (busy .reject .empty).link.slot2 = .empty ∧
    (busy2 .reject .empty).link.slot1 = .empty ∧
    (busy .reject (.waiting .reject 1)).link.slot2 = .waiting .reject 1 ∧
    (busy2 .reject (.waiting .reject 1)).link.slot1 = .waiting .reject 1 ∧
    (busy2 .reject (.waiting .reject 1)).link.slot1.isAnswering = false ∧
    (busy .reject (.waiting (.request .ident) 1)).link.slot2 = .waiting (.request .ident) 1 ∧
    (busy (.request .reset) .empty).link.slot1 = .answering (.request .reset) 0 [0x81, 0] ∧
    (busy2 (.request .reset) .empty).link.slot2 = .answering (.request .reset) 0 [0x81, 0] := by decide

theorem witness_SmallRequestsReply :
    State.reset.LinkIdle ∧ unknownOk [0x08] = true ∧ badLengthOk [0x01, 0x00] = true :=
  ⟨idle_reset, by decide, by decide⟩

theorem witness_HouseSetsTheFormat :
    State.reset.LinkIdle ∧ (0 : Byte).toNat < 1 ∧ 6 < (7 : Byte).toNat ∧ Format.f1.code = (1 : Byte).toNat ∧
    Format.f6.code = (6 : Byte).toNat ∧ (∃ c, (listed.chan c).mode ≠ .bypass) ∧ listed.LinkIdle ∧
    (∀ c, (house.chan c).mode = .bypass ∧ (house.chan c).pendingMode = none ∧ (house.chan c).deferred = none) ∧
    (∀ p, (house.src p).state = .absent ∨ (house.src p).state = .detecting) ∧
    (card id id).LinkIdle ∧ (∀ c, ((card id id).chan c).mode = .bypass ∧
      ((card id id).chan c).pendingMode = none ∧ ((card id id).chan c).deferred = none) ∧
    ((card id id).src .s1).state ≠ .absent ∧ ((card id id).src .s1).state ≠ .detecting :=
  ⟨idle_reset, by decide, by decide, by decide, by decide, ⟨.c0, by decide⟩, idle_listed,
    fun c => by cases c <;> decide, fun p => by cases p <;> decide, ⟨rfl, rfl, rfl⟩,
    fun c => by cases c <;> decide, by decide, by decide⟩

theorem witness_NoticeRequestsReply :
    State.reset.LinkIdle ∧ (⟨0x0F, PerChan.fill 0x1FFF⟩ : NoticeBits).legal = true ∧
    (⟨0x10, PerChan.fill 0⟩ : NoticeBits).legal = false ∧
    (⟨0, PerChan.fill 0x2000⟩ : NoticeBits).legal = false := ⟨idle_reset, by decide, by decide, by decide⟩

theorem witness_SourceReadReports :
    State.reset.LinkIdle ∧ 5 < (6 : Byte).toNat ∧ portIdx .s5 = (5 : Byte).toNat ∧
    State.reset.format = none ∧ (State.reset.src .s5).crop = .full ∧ shown.LinkIdle ∧ shown.format = some .f1 ∧
    ((card id (fun x => { x with crop := .rect ⟨0, 0, 2, 2⟩ })).src .s0).crop = .rect ⟨0, 0, 2, 2⟩ :=
  ⟨idle_reset, by decide, by decide, by decide, by decide, idle_shown, by decide, by decide⟩

/-- A SRC_SET with a rectangle crop of a size and with key parameters. -/
def srcMsg (src kind on : Byte) (w h wk : Half) : SrcMsg := ⟨src, kind, 0, 0, w, h, on, 64, 960, 1791, wk⟩

theorem witness_SourceSetStoresClamped :
    house.LinkIdle ∧ State.reset.LinkIdle ∧ State.reset.format = none ∧ 5 < (srcMsg 6 0 0 2 2 1).src.toNat ∧
    (srcMsg 5 0 0 2 2 1).src.toNat ≤ 5 ∧ 1 < (srcMsg 5 2 0 2 2 1).cropKind.toNat ∧
    1 < (srcMsg 5 0 2 2 2 1).keyOn.toNat ∧ (srcMsg 5 1 0 1 2 1).w.toNat < 2 ∧ (srcMsg 5 1 0 2 1 1).h.toNat < 2 ∧
    (srcMsg 5 1 1 2 2 1024).cropKind.toNat = 1 ∧ (srcMsg 5 1 1 2 2 1024).keyOn.toNat ≤ 1 ∧
    2 ≤ (srcMsg 5 1 1 2 2 1024).w.toNat ∧ house.format = some .f1 ∧
    portIdx .s5 = (srcMsg 5 1 1 2 2 1024).src.toNat :=
  ⟨idle_house, idle_reset, by decide⟩

/-- S0 shown, its crop changed. -/
def cropped : State := card (onAir .shown) (fun x => { owned .taken x with cropReport := true })

theorem witness_CropInForceAndReported :
    shown.format ≠ none ∧ (cropped.src .s1).owner ≠ some .c0 ∧ (shown.src .s0).cropReport = false ∧
    (cropped.src .s0).owner = some .c0 ∧ (cropped.src .s0).cropReport = true ∧
    (cropped.chan .c0).cur = some ⟨.s0, 1024, none⟩ ∧
    ((cropped.modChan .c0 Channel.hide).chan .c0).cur = none := by decide

/-- A change to THRU deferred for the cue 21. -/
def deferring : State := card (fun ch => { auto ch with deferred := some [21] }) id

theorem witness_ChannelModeJudged :
    listed.LinkIdle ∧ house.LinkIdle ∧ State.reset.LinkIdle ∧ deferring.LinkIdle ∧ State.reset.format = none ∧
    3 < (4 : Byte).toNat ∧ 2 < (3 : Byte).toNat ∧ chanIdx .c0 = (0 : Byte).toNat ∧
    chanIdx .c3 = (3 : Byte).toNat ∧
    (listed.chan .c0).deferred = none ∧ Mode.auto.code = (2 : Byte).toNat ∧
    Mode.auto = (listed.chan .c0).pendingMode.getD (listed.chan .c0).mode ∧
    Mode.bypass ≠ (listed.chan .c0).pendingMode.getD (listed.chan .c0).mode ∧
    (listed.chan .c0).pendingMode ≠ some .auto ∧ (∃ q ∈ (listed.chan .c0).cues, q.prepared = true) ∧
    ((after house (.chMode 0 2)).chan .c0).pendingMode = some .auto ∧
    deferring.format ≠ none ∧ (deferring.chan .c0).deferred = some [21] ∧
    (1 : Byte).toNat = 1 ∧ (2 : Byte).toNat = 2 ∧ (0 : Byte).toNat = 0 :=
  ⟨idle_listed, idle_house, idle_reset, ⟨rfl, rfl, rfl⟩, by decide⟩

theorem witness_ChannelValuesStored :
    house.LinkIdle ∧ 3 < (4 : Byte).toNat ∧ chanIdx .c3 = (3 : Byte).toNat ∧ (20 : Byte).toNat ≤ 20 ∧
    20 < (21 : Byte).toNat ∧ 5 < (6 : Byte).toNat ∧ (254 : Byte) ≠ 0xFF ∧ portByte none = [0xFF] ∧
    portByte (some .s5) = [5] := ⟨idle_house, by decide⟩

theorem witness_ReadingRequestsChangeNothing :
    house.LinkIdle ∧ 3 < (4 : Byte).toNat ∧ chanIdx .c3 = (3 : Byte).toNat ∧ 63 < (64 : Byte).toNat ∧
    (0 : Byte).toNat = 0 ∧ 8 < (9 : Byte).toNat ∧ (63 : Byte).toNat ≤ 63 ∧ 1 ≤ (1 : Byte).toNat ∧
    (8 : Byte).toNat ≤ 8 ∧ (house.chan .c3).fault = none ∧
    ((card (fun ch => { ch with fault := some ⟨5, none, none, .forcedOut, 255⟩ }) id).chan .c0).fault
      = some ⟨5, none, none, .forcedOut, 255⟩ ∧
    ((card (fun ch => { ch with fault := some ⟨5, some ⟨0, 0, 2, 2⟩, some (11, .soft), .moved, 0⟩ }) id).chan .c0).fault
      = some ⟨5, some ⟨0, 0, 2, 2⟩, some (11, .soft), .moved, 0⟩ := ⟨idle_house, by decide⟩

/-- A channel with every absent item present. -/
def full : Channel :=
  { onAir .crossfade (Channel.reset none) with
    deferred := some [21], out := some ⟨.s1, 512, some ⟨1024, 0, 4, 2⟩⟩, outRect := some ⟨0, 0, 2, 2⟩
    stack := [Block.default], glide := some ⟨⟨0, 0, 90⟩, ⟨2, 2, 90⟩, 3, 1⟩, home := some .s0
    sel := ⟨some ⟨0, some ⟨1, 2, 3, 4, false, false⟩, ⟨2, 2, []⟩⟩, .valid, false⟩
    displayed := some ⟨96, 54, 768, 432⟩
    lastFailure := some ⟨7, .noZone, .mark 5, 9⟩, lastMarker := some ⟨5, 9⟩ }

theorem witness_ChannelReportLaidOut :
    full.deferred = some [21] ∧ (house.chan .c0).deferred = none ∧ full.stack[0]? = some Block.default ∧
    full.stack.length ≤ 3 ∧ full.resolved = some ⟨96, 54, 768, 432⟩ ∧ (house.chan .c0).resolved = none ∧
    full.displayed = some ⟨96, 54, 768, 432⟩ ∧ (house.chan .c0).displayed = none ∧ (house.chan .c0).glide = none ∧
    (full.out.bind OnAir.fade) = some ⟨1024, 0, 4, 2⟩ ∧ full.outRect.isSome = true ∧ full.glide.isSome = true ∧
    (full.sel.frame.bind PgmFrame.word).isSome = true ∧ (house.chan .c0).sel.frame = none ∧ full.home = some .s0 ∧ full.standby = none ∧
    full.lastFailure.isSome = true ∧ full.lastMarker.isSome = true ∧ house.spare.hasIt .c0 = false ∧
    (house.chan .c0).lastFailure = none ∧ (house.chan .c0).lastMarker = none ∧
    ({ house with spare := .held .c0 [.crossfade] } : State).spare = .held .c0 [.crossfade] := by decide

theorem witness_RecordsLaidOut :
    (⟨true, ⟨0, 0, 2, 2⟩, .soft, true, some ⟨5, true⟩⟩ : Zone).expiry = some ⟨5, true⟩ ∧
    Zone.undefined.defined = false ∧ Zone.undefined.expiry = none ∧ worked.height = some 432 ∧
    Block.default.height = none ∧ worked.fallbacks[1]? = some .bottomLeft ∧ worked.fallbacks.length ≤ 2 ∧
    4319999 < Format.f3.day ∧ Format.f1.rate / Format.f1.base = 1 := by decide

/-- Channel 0 in a mode with a PREPARED cue, with a pending mode and a deferral. -/
def changing (m : Mode) (p : Option Mode) (d : Option (List Nat)) : State :=
  house.modChan .c0 (fun ch => { ch with
    mode := m, pendingMode := p, deferred := d, cues := [cue 21 90001 true] })

theorem lawful_changing (m : Mode) (p : Option Mode) (d : Option (List Nat)) : (changing m p d).Lawful where
  bounded := fun c => by
    cases c
    · exact { lawful_house.bounded .c0 with cues := Nat.le_of_ble_eq_true rfl }
    · exact lawful_house.bounded .c1
    · exact lawful_house.bounded .c2
    · exact lawful_house.bounded .c3
  list := fun c => by
    cases c
    · exact ⟨List.pairwise_singleton _ _, List.nodup_singleton _⟩
    · exact lawful_house.list .c1
    · exact lawful_house.list .c2
    · exact lawful_house.list .c3
  source := lawful_house.source

/-- Channel 0 in THRU with S0 TAKEN, S1 RELEASING and S2 LOST. -/
def holding : State :=
  (((changing .thru none none).modSrc .s0 (owned .taken)).modSrc .s1 (owned .releasing)).modSrc .s2 (owned .lost)

theorem lawful_holding : holding.Lawful where
  bounded := (lawful_changing .thru none none).bounded
  list := (lawful_changing .thru none none).list
  source := fun p => by
    cases p <;> exact ⟨by decide, by decide, by decide, by decide, by decide, by decide, by decide⟩

theorem witness_ChannelClearDropsEverything :
    holding.LinkIdle ∧ holding.Lawful ∧ (holding.chan .c0).mode ≠ .auto ∧
    (holding.chan .c0).pendingMode ≠ some .auto ∧ (holding.src .s0).owner = some .c0 ∧
    (holding.src .s0).state = .taken ∧ (holding.src .s1).state = .releasing ∧
    (holding.src .s2).state = .lost ∧ (holding.src .s3).owner ≠ some .c0 ∧
    (∀ p, (house.src p).owner ≠ some .c0) ∧ house.LinkIdle ∧ listed.LinkIdle ∧ house.Lawful ∧
    3 < (4 : Byte).toNat ∧ chanIdx .c0 = (0 : Byte).toNat ∧ (listed.chan .c0).mode = .auto ∧ (house.chan .c0).mode ≠ .auto ∧
    (house.chan .c0).pendingMode ≠ some .auto :=
  ⟨⟨rfl, rfl, rfl⟩, lawful_holding, by decide, by decide, by decide, by decide, by decide, by decide, by decide,
    fun p => by cases p <;> decide, idle_house, idle_listed, lawful_house, by decide⟩

theorem witness_ChannelTakeJudged :
    State.reset.LinkIdle ∧ listed.LinkIdle ∧ State.reset.format = none ∧ listed.format = some .f1 ∧
    3 < (4 : Byte).toNat ∧ chanIdx .c0 = (0 : Byte).toNat ∧
    (house.chan .c0).pendingMode.getD (house.chan .c0).mode = .bypass ∧
    (listed.chan .c0).pendingMode.getD (listed.chan .c0).mode ≠ .bypass ∧
    actionOf .f1 (part [0]) = .error .badField ∧ actionOf .f1 (part [3, 1, 250]) = .ok (.handover .s1 250) ∧
    actionOf .f1 (part [1, 0, 0, 0]) = .ok (.showInset none 0) ∧
    takeRefusal .c0 (.showInset none 0) (listed.hearing (.request (.chTake 0 (part [1, 0, 0, 0]))))
      = some .noHome ∧
    takeRefusal .c0 (.handover .s1 250) (listed.hearing (.request (.chTake 0 (part [3, 1, 250])))) = none ∧
    (Action.handover .s1 250).asksSpare = true ∧ (Action.handover .s1 0).asksSpare = false :=
  ⟨idle_reset, idle_listed, by decide +kernel⟩

/-- Channel 0 one step before the end of a fade of ten. -/
def fading (inset : Inset) (st : SrcState) : State :=
  card (fun ch => { onAir inset ch with cur := some ⟨.s0, 922, some ⟨0, 1024, 10, 9⟩⟩ }) (owned st)

/-- The same in a crossfade from S1. -/
def crossing : State :=
  ((fading .crossfade .taken).modSrc .s1 (owned .releasing)).modChan .c0
    (fun ch => { ch with out := some ⟨.s1, 102, some ⟨1024, 0, 10, 9⟩⟩ })

/-- The same with its outgoing source LOST. -/
def crossingLost : State := crossing.modSrc .s1 (fun x => { x with state := .lost })

/-- S1 taken by channel 1 while channel 0 shows S0. -/
def elsewhere : State := shown.modSrc .s1 (fun x => { x with state := .taken, owner := some .c1 })

theorem witness_TakeRefusalsByAction :
    (listed.chan .c0).home = none ∧ (listed.chan .c0).inset = .hidden ∧ (listed.src .s1).state = .ready ∧
    ((card (onAir .held) (owned .lost)).chan .c0).inset = .held ∧
    (((listed.modSrc .s1 (fun x => { x with state := .detecting }))).src .s1).state = .detecting ∧
    (byteAt (part [8, 5]) 0).toNat ≠ 4 ∧ (byteAt (part [1, 0, 0, 251]) 0).toNat = 1 ∧
    (byteAt (part [4, 9, 0, 1, 0xB0]) 0).toNat = 4 ∧ worked.height = some 432 ∧ 432 % 2 = 0 ∧
    (shown.chan .c0).cur = some ⟨.s0, 1024, none⟩ ∧ (listed.chan .c0).cur = none ∧
    (shown.chan .c0).inset = .shown ∧ ((fading .fadingIn .taken).chan .c0).inset = .fadingIn ∧
    ((fading .forcedOut .taken).chan .c0).inset = .forcedOut ∧ (crossing.chan .c0).inset = .crossfade ∧
    (crossing.chan .c0).out = some ⟨.s1, 102, some ⟨1024, 0, 10, 9⟩⟩ ∧
    ((fading .fadingOut .releasing).chan .c0).inset = .fadingOut ∧
    ((fading .fadingOut .releasing).src .s0).owner = some .c0 ∧
    ((fading .fadingOut .releasing).src .s0).state = .releasing ∧
    ((fading .fadingOut .lost).src .s0).state = .lost ∧ Port.s0 ≠ .s1 ∧ (shown.src .s1).state = .ready ∧
    (shown.src .s2).state = .absent ∧ (elsewhere.src .s1).state = .taken ∧
    (elsewhere.src .s1).owner ≠ some .c0 := by decide

/-- A ZONE_DEFINE of a rectangle. -/
def zoneMsg (ch zone : Byte) (x y w h : Half) (act exp : Byte) : ZoneMsg :=
  ⟨ch, zone, x, y, w, h, 0, act, exp, hostLabel 23 59 59 24⟩

theorem witness_ZoneDefineChangesOneEntry :
    State.reset.LinkIdle ∧ shown.LinkIdle ∧ State.reset.format = none ∧ shown.format = some .f1 ∧
    3 < (zoneMsg 4 0 0 0 1 1 1 0).ch.toNat ∧ chanIdx .c0 = (zoneMsg 0 11 0 0 1 1 1 0).ch.toNat ∧
    11 < (zoneMsg 0 12 0 0 1 1 1 0).zone.toNat ∧ (zoneMsg 0 11 0 0 1 1 1 0).zone.toNat ≤ 11 ∧
    zoneAfter .f1 1 (zoneMsg 0 11 1919 0 2 1 1 0) Zone.undefined = none ∧
    zoneAfter .f1 1 (zoneMsg 0 11 1919 1079 1 1 1 0) Zone.undefined
      = some ⟨true, ⟨1919, 1079, 1, 1⟩, .hard, true, none⟩ ∧
    (listed.chan .c0).inset = .hidden ∧ (shown.chan .c0).inset ≠ .hidden ∧
    (shown.chan .c0).cur = some ⟨.s0, 1024, none⟩ ∧
    activeView ((shown.chan .c0).zones.set 11 ⟨true, ⟨1919, 1079, 1, 1⟩, .hard, true, none⟩)
      ≠ activeView (shown.chan .c0).zones := ⟨idle_reset, idle_shown, by decide +kernel⟩

theorem witness_ZoneEntryByActivity :
    ZoneClass.hard.code = (zoneMsg 0 0 0 0 1 1 0 0).cls.toNat ∧ 0 < (zoneMsg 0 0 0 0 1 1 0 0).w.toNat ∧
    (zoneMsg 0 0 1919 1079 1 1 0 0).x.toNat + (zoneMsg 0 0 1919 1079 1 1 0 0).w.toNat ≤ Format.f1.width ∧
    (zoneMsg 0 0 1919 1079 1 1 0 0).y.toNat + (zoneMsg 0 0 1919 1079 1 1 0 0).h.toNat ≤ Format.f1.height ∧
    (zoneMsg 0 0 0 0 1 1 2 0).activity.toNat = 2 ∧ (zoneMsg 0 0 0 0 1 1 1 1).expPresent.toNat = 1 ∧
    hostLabelOk .f1 (zoneMsg 0 0 0 0 1 1 1 1).expiry = true ∧ (zoneMsg 0 0 0 0 0 1 0 0).w.toNat = 0 ∧
    Format.f1.width < (zoneMsg 0 0 1919 0 2 1 0 0).x.toNat + (zoneMsg 0 0 1919 0 2 1 0 0).w.toNat ∧
    1 < ({ zoneMsg 0 0 0 0 1 1 0 0 with cls := 2 } : ZoneMsg).cls.toNat ∧
    2 < (zoneMsg 0 0 0 0 1 1 3 0).activity.toNat ∧
    Format.f1.base ≤ (hostLabel 23 59 59 25).ff.toNat ∧ 1 < (2 : Byte).toNat := by decide

/-- Channel 0 after a load of one cue, the link idle again; and after one more. -/
def loaded1 : State := { after listed (.cueLoad 0 [markRec 1]) with link := listed.link }
def loaded2 : State := { after loaded1 (.cueLoad 0 [markRec 2]) with link := listed.link }

theorem witness_CueLoadAcceptsOrRefuses :
    State.reset.LinkIdle ∧ listed.LinkIdle ∧ loaded1.LinkIdle ∧ State.reset.format = none ∧
    listed.format = some .f1 ∧ 3 < (4 : Byte).toNat ∧ chanIdx .c0 = (0 : Byte).toNat ∧
    judgeCue .f1 (listed.chan .c0) (markRec 0) = .error .badField ∧
    judgeCue .f1 (listed.chan .c0) (markRec 1) = .ok (.mark 5) ∧
    exec (.cueLoad 0 [markRec 1]) listed
      = .next (loaded1.replying (.cueLoad 0 [markRec 1]) [0xC0, 0x00, BitVec.ofNat 8 1]) ∧
    judgeCue .f1 (loaded1.chan .c0) (markRec 1) = .error .dupTag ∧
    judgeCue .f1 (loaded1.chan .c0) (markRec 2) = .ok (.mark 5) ∧
    exec (.cueLoad 0 [markRec 2]) loaded1
      = .next (loaded2.replying (.cueLoad 0 [markRec 2]) [0xC0, 0x00, 0x01]) :=
  ⟨idle_reset, idle_listed, ⟨rfl, rfl, rfl⟩, by decide, by decide, by decide, by decide, by decide +kernel,
    by decide +kernel, rfl, by decide +kernel, by decide +kernel, rfl⟩

theorem witness_CueJudgedInOrder :
    (markRec 0).tag = 0 ∧ (markRec 1).tag ≠ 0 ∧ hostLabelOk .f1 (hostLabel 24 0 0 0) = false ∧
    hostLabelOk .f1 (markRec 1).label = true ∧ actionOf .f1 (markRec 1).part = .ok (.mark 5) ∧
    (∃ q ∈ (listed.chan .c0).cues, q.tag = (markRec 21).tag.toNat) ∧
    (∀ q ∈ (listed.chan .c0).cues, q.tag ≠ (markRec 1).tag.toNat) ∧
    (datedOf .f1 (hostLabel 0 59 59 0)).label + Format.f1.rate ≤ (listed.chan .c0).label ∧
    (listed.chan .c0).label < (datedOf .f1 (hostLabel 0 59 59 1)).label + Format.f1.rate ∧
    64 ≤ (List.replicate 64 (cue 1 0 false)).length ∧ (listed.chan .c0).cues.length < 64 ∧
    (part [10]).length = 20 ∧ 9 < numberAt (part [10]) 0 1 ∧ actionOf .f1 (part [10]) = .error .badField ∧
    actionOf .f1 (part [1, 2, 6]) = .error .noSuch ∧ actionOf .f1 (part [9, 2, 5]) = .error .badField ∧
    actionOf .f1 (part [1, 1, 5, 251]) = .ok (.showInset (some .s5) 250) ∧
    actionOf .f1 (part [4, 9, 0, 1, 177, 0, 5, 0, 7, 2, 8, 0]) = .ok (.place ⟨.free, some 432, 5, 7,
      [.bottomRight, .topLeft]⟩ none) ∧
    actionOf .f1 (part [5, 0, 0, 1, 177, 0, 5, 0, 7, 1, 9]) = .error .badField ∧
    actionOf .f1 (part [7, 12]) = .error .noSuch ∧ actionOf .f1 (part [7, 11, 0, 1]) = .error .badField ∧
    actionOf .f1 (part [7, 11, 1, 1, 1, 0, 0, 24, 0, 1]) = .ok (.zone 11 true (some ⟨90024, true⟩)) := by
  decide +kernel

theorem witness_CueListStaysInDatedOrder :
    (listed.chan .c0).cues.Pairwise (fun a b => a.date.le b.date = true ∧ (a.date = b.date → a.seq < b.seq)) ∧
    ∀ x ∈ (listed.chan .c0).cues, x.seq < (cue 23 90040 false).seq := by decide

theorem witness_CuesRemovedByTagAndRange :
    listed.LinkIdle ∧ State.reset.LinkIdle ∧ 3 < (4 : Byte).toNat ∧ chanIdx .c0 = (0 : Byte).toNat ∧
    (1 : Half) ≠ 0 ∧ (∀ q ∈ (listed.chan .c0).cues, q.tag ≠ (1 : Half).toNat) ∧
    cue 21 90001 true ∈ (listed.chan .c0).cues ∧ cue 22 90040 false ∈ (listed.chan .c0).cues ∧
    (listed.chan .c0).ListOk ∧ State.reset.format = none ∧ listed.format = some .f1 ∧
    hostLabelOk .f1 (hostLabel 0 0 0 25) = false ∧ hostLabelOk .f1 (hostLabel 1 0 0 1) = true ∧
    (datedOf .f1 (hostLabel 1 0 0 1)).le (datedOf .f1 (hostLabel 1 0 0 0)) = false ∧
    (datedOf .f1 (hostLabel 1 0 0 1)).le (datedOf .f1 (hostLabel 1 0 0 1)) = true :=
  ⟨idle_listed, idle_reset, by decide, by decide, by decide, by decide, by decide, by decide,
    ⟨by decide, by decide⟩, by decide⟩

theorem witness_ResetsBeginAndComplete :
    State.reset.power = true ∧ ({ State.reset with power := false } : State).power = false ∧
    (inReset { State.reset with now := 540000 } .pin true).pin = true ∧
    (inReset State.reset .pin true).resetting ≠ none ∧
    ({ inReset State.reset .pin true with now := 540000 } : State).resetDue ≤ 540000 ∧
    (inReset State.reset .pin true).now < (inReset State.reset .pin true).resetDue ∧
    State.reset.pin = false ∧
    (inReset shown .message false).resetting = some .message ∧ (inReset shown .message false).power = true ∧
    (inReset shown .message false).pin = false ∧ State.reset.resetting = none := by decide

/-- A card whose every re-arm mark is set, free-running, with programme and labels lost. -/
def rearming : State :=
  { (house.modChan .c0 (fun ch => { ch with pgm := .lost })) with
    ref := ⟨.free, 0, 0, 0, true, 0, false⟩
    notices := { Notices.reset with
      rearmRef := true, rearmTc := PerChan.fill true, rearmPgm := PerChan.fill true } }

theorem witness_NoticeLineAndRearmMarks :
    rearming.notices.rearmRef = true ∧ rearming.ref.state = .free ∧ house.ref.state ≠ .free ∧
    Chan.c1 ≠ Chan.c0 ∧ rearming.format ≠ none ∧ rearming.notices.rearmTc.get .c0 = true ∧
    ((frameStart [] rearming).chan .c0).track = .lost ∧ rearming.notices.rearmPgm.get .c0 = true ∧
    (rearming.chan .c0).pgm = .lost := by decide +kernel

theorem witness_ReferenceIntervalsCounted :
    State.reset.running = true ∧ State.reset.format = none ∧
    house.running = true ∧ house.format = some .f1 ∧ (houseReference 0).pulseSeen = false ∧
    (houseReference 0).state = .acquiring ∧ house.ref.pulseSeen = true ∧ house.ref.state = .locked ∧
    rearming.running = true ∧ rearming.format = some .f1 ∧ rearming.ref.state = .free ∧
    rearming.ref.pulseSeen = true ∧ rearming.ref.inRun < 7 ∧ rearming.ref.outRun < 2 ∧
    Format.f1.inWindow 1085400 = true ∧ Format.f1.inWindow 1085401 = false ∧
    Format.f1.inWindow 1074600 = true ∧ Format.f1.inWindow 1074599 = false ∧
    Format.f2.inWindow 905404 = true ∧ Format.f2.inWindow 905405 = false ∧ house.ref.outRun < 2 ∧
    Reference.reset.state = .idle := by decide

theorem witness_FrameStartsByPulseAndTimer :
    house.running = true ∧ house.format = some .f1 ∧ house.ref.pulseSeen = true ∧ house.ref.state = .locked ∧
    Format.f1.inWindow (house.now + 1074600 - house.ref.lastPulse) = true ∧ house.ref.outRun < 2 ∧
    house.ref.lastFrame + Format.f1.period - Format.f1.tolerance ≤ house.now + 1074600 ∧
    house.now + 1074599 < house.ref.lastFrame + Format.f1.period - Format.f1.tolerance ∧
    7 ≤ ({ rearming with ref := ⟨.free, 7, 0, 0, true, 0, false⟩ } : State).ref.inRun ∧
    rearming.ref.state = .free ∧ ({ house with ref := houseReference 0 } : State).running = true ∧
    ({ house with ref := houseReference 0 } : State).format = some .f1 ∧
    ({ house with ref := houseReference 0 } : State).ref.state = .acquiring := by decide

theorem witness_ModeChangesAtTheFrameStart :
    (changing .thru (some .bypass) none).Lawful ∧
    ((changing .thru (some .bypass) none).chan .c0).pendingMode = some .bypass ∧
    ((changing .thru (some .bypass) none).chan .c0).mode ≠ .bypass ∧
    (changing .auto (some .thru) none).Lawful ∧ ((changing .auto (some .thru) none).chan .c0).mode ≠ .thru ∧
    (changing .thru (some .auto) none).Lawful ∧ ((changing .thru (some .auto) none).chan .c0).mode = .thru ∧
    (changing .bypass (some .auto) none).Lawful ∧
    ((changing .bypass (some .auto) none).chan .c0).mode = .bypass ∧
    (changing .auto none (some [])).Lawful ∧ ((changing .auto none (some [])).chan .c0).pendingMode = none ∧
    ((changing .auto none (some [])).chan .c0).deferred = some [] ∧ house.Lawful ∧
    ∀ q ∈ (house.chan .c0).cues, q.prepared = false :=
  ⟨lawful_changing _ _ _, by decide, by decide, lawful_changing _ _ _, by decide, lawful_changing _ _ _,
    by decide, lawful_changing _ _ _, by decide, lawful_changing _ _ _, by decide, by decide, lawful_house,
    by decide⟩

/-- Channel 0 at the tenth count of a slew of one frame. -/
def slewing : State := card (fun ch => { auto ch with target := 1, slew := 9 }) id

/-- A stored frame of a serial. -/
def frame (n : Nat) : PgmFrame := ⟨n, none, ⟨2, 2, []⟩⟩

/-- A channel that has lost its programme with one frame stored, the previous selection as given. -/
def draining (prev : Option PgmFrame) (repeats : Nat) : Channel :=
  { Channel.reset none with
    pgm := .lost, store := [frame 3], sel := ⟨prev, .absent, false⟩, drainRepeats := repeats }

theorem witness_PathSlewsAndSelects :
    slewing.running = true ∧ slewing.format = some .f1 ∧ (slewing.chan .c0).mode ≠ .bypass ∧
    (slewing.chan .c0).pgm = .present ∧ (slewing.chan .c0).delay ≠ (slewing.chan .c0).target ∧
    (slewing.chan .c0).slew = 9 ∧ (house.chan .c0).mode = .bypass ∧
    (listed.chan .c0).delay = (listed.chan .c0).target ∧
    (Channel.reset none).pgm ≠ .lost ∧ [frame 1, frame 2] = [frame 1] ++ frame 2 :: [] ∧
    ([] : List PgmFrame).length = 0 ∧ (draining none 0).pgm = .lost ∧ (draining none 0).sel.frame = none ∧
    (draining none 0).drained = false ∧ (draining none 0).store = frame 3 :: [] ∧
    (draining (some (frame 2)) 0).sel.frame = some (frame 2) ∧ (frame 2).serial < (frame 3).serial ∧
    (draining (some (frame 3)) 1).drainRepeats < 2 ∧ 2 ≤ (draining (some (frame 3)) 2).drainRepeats ∧
    (∀ y ∈ (draining (some (frame 3)) 2).store, y.serial ≤ (frame 3).serial) := by decide

/-- Channel 0 in HELD at a hold count, of a hold time of 50. -/
def holdAt (n : Nat) : State := card (fun ch => { onAir .held ch with holdCount := n }) (owned .lost)

theorem witness_KeyUnitIsHandedTheSources :
    shown.format = some .f1 ∧ (shown.chan .c0).cur = some ⟨.s0, 1024, none⟩ ∧
    (shown.chan .c0).shown = some ⟨96, 54, 432⟩ ∧ (shown.chan .c0).inset = .shown ∧
    (listed.chan .c0).inset = .hidden ∧ (listed.chan .c0).shown = none ∧
    ((card (onAir .forcedOut) id).chan .c0).inset = .forcedOut ∧
    full.inset = .crossfade ∧ full.out = some ⟨.s1, 512, some ⟨1024, 0, 4, 2⟩⟩ ∧
    full.outRect = some ⟨0, 0, 2, 2⟩ ∧ (shown.src .s0).owner = some .c0 ∧ (shown.src .s1).owner ≠ some .c0 ∧
    ((house.chan .c0).mode = .bypass ∧ (shown.chan .c0).mode ≠ .bypass ∧ shown.running = true ∧
      (shown.chan .c0).inset ≠ .held ∧ (1 + 1 < 3 ∧ 3 ≤ 2 + 1) ∧
      ((fading .fadingIn .taken).chan .c0).cur = some ⟨.s0, 922, some ⟨0, 1024, 10, 9⟩⟩ ∧
      ((holdAt 48).chan .c0).inset = .held ∧
      ((holdAt 48).chan .c0).holdCount + 1 < ((holdAt 48).chan .c0).holdTime ∧
      ((holdAt 49).chan .c0).holdTime ≤ ((holdAt 49).chan .c0).holdCount + 1) ∧
    (∀ i n pic, Ring.empty.get i ≠ .complete n pic) ∧
    (⟨.complete 4 ⟨2, 2, []⟩, .writing, .empty, none, none⟩ : Ring).get .a = .complete 4 ⟨2, 2, []⟩ ∧
    ∀ j m q, j ≠ SlotId.a →
      (⟨.complete 4 ⟨2, 2, []⟩, .writing, .empty, none, none⟩ : Ring).get j = .complete m q → m < 4 :=
  ⟨by decide, by decide, by decide, by decide, by decide, by decide, by decide, by decide, by decide, by decide, by decide,
    by decide, by decide, fun i n pic h => (by cases i <;> cases h), by decide,
    fun j m q hj h => (by cases j <;> first | exact absurd rfl hj | cases h)⟩

theorem witness_CueFiresIsMissedPreparedOrReverts :
    (applyAction .c0 (.mark 5) .notAsked listed).2 = none ∧
    (applyAction .c0 (.pop none) .notAsked listed).2 = some .emptyStack ∧
    (Action.handover .s1 3) = .handover .s1 3 ∧ 0 < 3 ∧ Chan.c1 ≠ Chan.c0 ∧ [Claimant.cue 3, .crossfade].Nodup ∧
    (∀ x ∈ [Claimant.cue 3], x = .cue 3) ∧ (∃ x ∈ [Claimant.cue 3, .crossfade], x ≠ .cue 3) := by decide

/-- What a tracker at label 90,001 hands on: LOST, an owed midnight, labels passed from `a`, a jump. -/
def tracked (lost owed : Bool) (a : Option Nat) (g : Finding) : Track :=
  ⟨90001, 90000, lost, a, g, .none, owed⟩

/-- Channel 0 in AUTO with a cue whose label a LOST has passed. -/
def passing : State := card (fun ch => { auto ch with cues := [cue 7 89991 false] }) id

theorem witness_DispatchInAuto :
    (tracked true false none .continuous).lost = true ∧ (tracked false false none .continuous).lost = false ∧
    (listed.chan .c0).mode = .auto ∧ (listed.chan .c0).ListOk ∧ (listed.chan .c0).heldBack = false ∧
    (tracked false false (some 89990) .continuous).passedFrom = some 89990 ∧
    cue 7 89991 false ∈ (passing.chan .c0).cues ∧ (passing.chan .c0).mode = .auto ∧
    (cue 7 89991 false).date.label ≤ (tracked false false (some 89990) .continuous).prev ∧
    (tracked false true none .continuous).owed = true ∧ (tracked false false none .continuous).owed = false ∧
    ((listed.modChan .c0 (fun ch => { ch with heldBack := true })).chan .c0).heldBack = true ∧
    (tracked false false none .continuous).midnight = .none ∧
    (tracked false false none .continuous).finding ≠ .jumpForward ∧
    (tracked false false none .continuous).passedFrom = none :=
  ⟨by decide, by decide, by decide, ⟨by decide, by decide⟩, by decide⟩

/-- The zones whose same-day expiry is at or below 90,001; and those that a midnight there ends. -/
def expired (z : Zone) : Bool :=
  match z.expiry with
  | some d => !d.next && decide (d.label ≤ 90001)
  | none => false

def ended (z : Zone) : Bool :=
  match z.expiry with
  | some d => !d.next || decide (d.label ≤ 90001)
  | none => false

theorem witness_MidnightsAndExpiries :
    (tracked false false none .continuous).lost = false ∧ (tracked false true none .continuous).owed = true ∧
    (⟨0, 2159999, false, none, .continuous, .continuous, false⟩ : Track).midnight ≠ .none ∧
    (house.chan .c0).mode ≠ .auto ∧ (house.chan .c0).heldBack = false ∧
    (∀ z, expired z = true ↔ ∃ d, z.expiry = some d ∧ d.next = false ∧
      d.label ≤ (tracked false false none .continuous).label) ∧
    ∀ z, ended z = true ↔ ∃ d, z.expiry = some d ∧ (d.next = false ∨
      d.label ≤ (tracked false true none .continuous).label) := by
  refine ⟨by decide, by decide, by decide, by decide, by decide, fun z => ?_, fun z => ?_⟩
  · unfold expired tracked
    cases z.expiry <;> simp
  · unfold ended tracked
    cases z.expiry <;> simp

theorem witness_WaitingTakesApplied :
    ((listed.modChan .c0 (fun ch => { ch with waiting := [⟨0, .mark 9, .notAsked⟩] })).chan .c0).waiting
      = [] ++ [⟨0, .mark 9, .notAsked⟩] ∧
    ((chanFrameStart .f1 (listed.modChan .c0 (fun ch => { ch with
      waiting := [⟨0, .mark 9, .notAsked⟩] })) .c0).chan .c0).mode ≠ .bypass ∧
    (applyAction .c0 (.pop none) .notAsked listed).2 = some .emptyStack ∧
    (applyAction .c0 (.mark 9) .notAsked listed).2 = none ∧ Chan.c1 ≠ Chan.c0 := by decide +kernel

/-- Channel 0 one frame before LOST, at the last label of a day. -/
def flying : State := card (fun ch => { auto ch with track := .flywheel, flywheel := 24, label := 2159999 }) id

/-- Channel 0 with a zone whose expiry is due at its label. -/
def expiring : State :=
  card (fun ch => { onAir .shown ch with zones := [⟨true, ⟨0, 0, 2, 2⟩, .hard, true, some ⟨90000, false⟩⟩] })
    (owned .taken)

theorem witness_FlywheelExpiryGlideAndHoldRows :
    (flying.running = true ∧ flying.format = some .f1 ∧ (flying.chan .c0).track = .flywheel ∧
      Format.f1.rate ≤ (flying.chan .c0).flywheel + 1 ∧ (flying.chan .c0).sel.validWord = none) ∧
    (listed.running = true ∧ listed.format = some .f1 ∧ (listed.chan .c0).track ≠ .lost ∧
      (listed.chan .c0).inset = .hidden ∧ expiring.running = true ∧ expiring.format = some .f1 ∧
      (expiring.chan .c0).track ≠ .lost ∧ 90000 ≤ (expiring.chan .c0).label ∧
      activeView [⟨true, ⟨0, 0, 2, 2⟩, .hard, false, none⟩] ≠ activeView (expiring.chan .c0).zones) ∧
    (holdAt 49).running = true ∧ (holdAt 49).format = some .f1 ∧ ((holdAt 49).chan .c0).inset = .held ∧
    ((holdAt 49).chan .c0).cur = some ⟨.s0, 1024, none⟩ ∧ ((holdAt 49).chan .c0).out = none ∧
    ((holdAt 49).chan .c0).holdTime ≤ ((holdAt 49).chan .c0).holdCount + 1 ∧
    ((card (fun ch => { onAir .shown ch with glide := some ⟨⟨96, 54, 432⟩, ⟨98, 54, 432⟩, 8, 7⟩ }) id).chan .c0).glide
      = some ⟨⟨96, 54, 432⟩, ⟨98, 54, 432⟩, 8, 7⟩ := by decide

theorem witness_FadeEndsByInset :
    (fading .fadingIn .taken).running = true ∧ (fading .fadingIn .taken).format = some .f1 ∧
    ((fading .fadingIn .taken).chan .c0).cur = some ⟨.s0, 922, some ⟨0, 1024, 10, 9⟩⟩ ∧
    ((fading .fadingIn .taken).chan .c0).inset = .fadingIn ∧ ((fading .fadingIn .taken).chan .c0).out = none ∧
    ((fading .fadingOut .releasing).src .s0).state = .releasing ∧
    ((fading .fadingOut .releasing).src .s0).owner = some .c0 ∧
    ((fading .fadingOut .lost).src .s0).state = .lost ∧ ((fading .forcedOut .lost).src .s0).owner = some .c0 ∧
    (crossing.chan .c0).inset = .crossfade ∧ (crossing.src .s1).owner = some .c0 ∧
    (crossing.src .s1).state = .releasing ∧ (crossingLost.src .s1).state = .lost ∧
    ((fading .forcedOut .taken).chan .c0).exitMark = false ∧
    ((fading .forcedOut .taken).src .s0).state = .taken ∧
    (((fading .forcedOut .releasing).modChan .c0 (fun ch => { ch with exitMark := true })).chan .c0).exitMark
      = true := by decide

/-- Channel 0 with a programme checker as given, its latest frame start at tick 0. -/
def programme (st : PgmState) (good bad : Nat) : State :=
  card (fun ch => { auto ch with pgm := st, pgmGood := good, pgmBad := bad, pgmStart := some 0 }) id

theorem witness_ProgrammeInputJudged :
    listed.running = true ∧ listed.format = some .f1 ∧ (listed.chan .c0).pgmStart = none ∧
    ((programme .waiting 7 0).chan .c0).pgmStart = some 0 ∧ ((programme .waiting 6 0).chan .c0).pgmGood < 7 ∧
    7 ≤ ((programme .lost 7 0).chan .c0).pgmGood ∧ ((programme .present 0 1).chan .c0).pgmBad < 2 ∧
    2 ≤ ((programme .present 0 2).chan .c0).pgmBad ∧ Format.f1.inWindow (1085400 - 0) = true ∧
    (1920 : Half).toNat = Format.f1.width ∧ (1080 : Half).toNat = Format.f1.height ∧
    ¬(Format.f1.inWindow (1085401 - 0) = true) ∧
    ((card (fun ch => { auto ch with writing := true }) id).chan .c0).writing = true ∧
    (listed.chan .c0).pgm = .present ∧ (listed.chan .c0).writing = false ∧ (house.chan .c0).pgm ≠ .present ∧
    (⟨1280, 720, []⟩ : Picture).w ≠ Format.f1.width := by decide

/-- Source S0 with a checker as given, its latest port frame start at tick 0. -/
def port (st : SrcState) (inRun badRun : Nat) : State :=
  card id (fun x => { x with state := st, lastStart := some 0, measuring := true, inRun := inRun, badRun := badRun })

/-- S0 on air in channel 0, owned in a state, its checker as given. -/
def judged (inset : Inset) (st : SrcState) (goodRun badRun : Nat) : State :=
  card (onAir inset) (fun x => { owned st x with goodRun := goodRun, badRun := badRun })

theorem witness_PortFrameStartJudged :
    house.running = true ∧ (house.src .s0).state = .absent ∧ ((port .detecting 6 0).src .s0).inRun < 7 ∧
    7 ≤ ((port .detecting 7 0).src .s0).inRun ∧ ((port .detecting 7 0).src .s0).rasterMark = false ∧
    ((port .rejected 8 2).src .s0).state = .rejected ∧ ((port .ready 8 2).src .s0).state = .ready ∧
    2 ≤ ((port .ready 8 2).src .s0).badRun ∧ (house.src .s1).state = .absent ∧
    ((port .ready 8 0).src .s1).measuring = false ∧ ((port .ready 8 0).src .s1).state ≠ .absent ∧
    ((port .ready 8 2).src .s0).measuring = true ∧ ((port .ready 8 2).src .s0).lastStart = some 0 ∧
    (port .ready 8 2).now + 4294967295 - 0 < 4294967296 ∧ (port .ready 8 2).format = some .f1 ∧
    ({ port .ready 8 2 with format := none } : State).format = none ∧
    ((judged .shown .taken 0 2).src .s0).owner = some .c0 ∧
    min 3 (((judged .shown .taken 0 2).src .s0).badRun + 1) = 3 ∧
    ((judged .fadingOut .releasing 0 2).src .s0).state = .releasing ∧
    ((judged .held .lost 7 0).src .s0).state = .lost ∧
    min 8 (((judged .held .lost 7 0).src .s0).goodRun + 1) = 8 ∧
    ((judged .held .taken 8 0).chan .c0).cur = some ⟨.s0, 1024, none⟩ ∧
    ((judged .held .taken 8 0).chan .c0).inset = .held ∧
    ((card (fun ch => { onAir .held ch with paused := some .shown }) (owned .taken)).chan .c0).paused
      = some .shown ∧
    ((judged .fadingOut .taken 8 0).chan .c0).inset = .fadingOut ∧ (crossing.chan .c0).out.isSome = true ∧
    Port.s0 ≠ .s1 ∧ ((judged .forcedOut .taken 8 0).chan .c0).exitMark = false := by decide

/-- Channel 0 told of the loss of S0, with a READY standby and a hold time as given. -/
def losing (inset : Inset) (standby : Option Port) (hold : Nat) : State :=
  card (fun ch => { onAir inset ch with standby := standby, holdTime := hold }) (owned .lost)

theorem witness_SilentPortLosesItsSource :
    shown.running = true ∧ (shown.src .s0).lastStart = some 0 ∧ (shown.src .s0).owner = some .c0 ∧
    (shown.chan .c0).cur = some ⟨.s0, 1024, none⟩ ∧ (shown.src .s0).state = .taken ∧
    (shown.chan .c0).inset = .shown ∧ (shown.chan .c0).standby = none ∧ 0 < (shown.chan .c0).holdTime ∧
    ((fading .fadingOut .releasing).src .s0).lastStart = some 0 ∧
    ((port .ready 8 0).src .s0).lastStart = some 0 ∧ ((port .rejected 8 0).src .s0).state = .rejected ∧
    ((judged .held .lost 0 0).src .s0).state = .lost ∧
    ((losing .fadingIn none 0).chan .c0).inset = .fadingIn ∧ ((losing .fadingIn none 0).chan .c0).holdTime = 0 ∧
    ((losing .shown (some .s2) 5).chan .c0).standby = some .s2 ∧
    checkTake .c0 .s2 (losing .shown (some .s2) 5) ≠ none ∧
    ((losing .shown (some .s1) 5).chan .c0).standby = some .s1 ∧
    ((losing .shown (some .s1) 5).src .s1).state = .ready ∧
    ((losing .shown (some .s1) 5).src .s0).state = .lost ∧
    ((losing .shown (some .s1) 5).src .s0).owner = some .c0 ∧
    (losing .shown (some .s1) 5).format = some .f1 ∧
    (resolve .f1 ⟨0, 0, 1920, 1080⟩ Block.default (List.replicate 12 Zone.undefined) none).outcome ≠ .forcedOut ∧
    (crossing.chan .c0).out.isSome = true ∧ Port.s1 ≠ .s0 ∧ (crossing.src .s1).state = .releasing ∧ (crossingLost.src .s1).state = .lost ∧
    ((losing .forcedOut none 5).chan .c0).cur = some ⟨.s0, 1024, none⟩ ∧
    (fading .forcedOut .lost).running = true := by decide +kernel

/-- S0 on air with a frame being written to its first slot. -/
def writing : State := shown.modSrc .s0 (fun x => { x with ring := Ring.empty.begin })

/-- A ring of three COMPLETE frames, the third the newest. -/
def filled : Ring :=
  ⟨.complete 4 ⟨2, 2, []⟩, .complete 5 ⟨2, 2, []⟩, .complete 6 ⟨2, 2, []⟩, none, none⟩

theorem witness_SourceFrameIsWritten :
    writing.running = true ∧ writing.format = some .f1 ∧ (writing.src .s0).state = .taken ∧
    (writing.src .s0).ring.writingSlot = some .a ∧ (house.src .s0).state = .absent ∧
    (⟨1920, 1080, []⟩ : Picture).w = Format.f1.width ∧ (⟨1920, 1080, []⟩ : Picture).h = Format.f1.height ∧
    Ring.empty.newest ≠ some .a ∧ Ring.empty.inUse ≠ some .a ∧ Ring.empty.get .a = .empty ∧
    (∀ j, filled.newest ≠ some j ∧ filled.inUse ≠ some j → filled.get j ≠ .empty) ∧
    filled.get .a = .complete 4 ⟨2, 2, []⟩ ∧ filled.newest = some .c ∧ filled.inUse = none ∧
    ∀ i n pic, Ring.empty.get i ≠ .complete n pic :=
  ⟨by decide, by decide, by decide, by decide, by decide, by decide, by decide, by decide, by decide, by decide,
    fun j _ => (by cases j <;> decide), by decide, by decide, by decide, fun i n pic h => by cases i <;> cases h⟩

theorem witness_TakeAnsweredByStateAndOwner :
    (shown.src .s1).state = .ready ∧ (shown.src .s0).state = .taken ∧ (shown.src .s0).owner = some .c0 ∧
    (shown.src .s0).owner ≠ some .c1 ∧ ((fading .fadingOut .releasing).src .s0).state = .releasing ∧
    (shown.src .s2).state = .absent ∧ Port.s1 ≠ .s0 ∧ (listed.chan .c0).inset = .hidden ∧
    checkTake .c0 .s2 listed = some .sourceNotReady := by decide

/-- A HARD zone over the whole raster. -/
def blocked : Zone := ⟨true, ⟨0, 0, 1920, 1080⟩, .hard, true, none⟩

theorem witness_PlacementZoneMarkerActions :
    (listed.chan .c0).inset = .hidden ∧ shown.format = some .f1 ∧
    (shown.chan .c0).cur = some ⟨.s0, 1024, none⟩ ∧ (shown.chan .c0).inset ≠ .hidden ∧
    (shown.chan .c0).inset ≠ .forcedOut ∧ (shown.chan .c0).shown = some ⟨96, 54, 432⟩ ∧
    (shown.chan .c0).glide = none ∧
    (resolve .f1 ⟨0, 0, 1920, 1080⟩ Block.default (shown.chan .c0).zones (shown.chan .c0).resolved)
      = ⟨.asRequested, some ⟨1056, 594, 768, 432⟩, some ⟨1056, 594, 768, 432⟩⟩ ∧
    (⟨96, 54, 432⟩ : Shown) ≠ ⟨1056, 594, 432⟩ ∧
    ((card (fun ch => { onAir .shown ch with glide := some ⟨⟨96, 54, 432⟩, ⟨1056, 594, 432⟩, 8, 7⟩ }) id).chan .c0).glide
      = some ⟨⟨96, 54, 432⟩, ⟨1056, 594, 432⟩, 8, 7⟩ ∧
    (listed.chan .c0).stack.length < 4 ∧ (listed.chan .c0).stack = [] ∧
    4 ≤ ((card (fun ch => { ch with stack := [worked, worked, worked, worked] }) id).chan .c0).stack.length ∧
    ((card (fun ch => { ch with stack := [worked] }) id).chan .c0).stack = [] ++ [worked] ∧
    (zoneAt (listed.chan .c0).zones 3).defined = false ∧ (zoneAt (workedZones true false) 3).defined = true ∧
    activeView (workedZones true false) ≠ activeView (workedZones false false) ∧
    ((judged .forcedOut .taken 8 0).chan .c0).inset = .forcedOut ∧
    ((judged .forcedOut .taken 8 0).chan .c0).exitMark = false ∧
    ((judged .forcedOut .taken 8 0).src .s0).state = .taken ∧
    (resolve .f1 ⟨0, 0, 1920, 1080⟩ Block.default [blocked] none).outcome = .forcedOut := by decide +kernel

theorem witness_ResolutionIsHandedOn :
    (listed.chan .c0).inset = .hidden ∧ shown.format = some .f1 ∧ (shown.chan .c0).inset ≠ .hidden ∧
    (shown.chan .c0).cur = some ⟨.s0, 1024, none⟩ ∧ (shown.chan .c0).fault = none ∧
    (resolve .f1 ⟨0, 0, 1920, 1080⟩ Block.default (shown.chan .c0).zones (shown.chan .c0).resolved).outcome
      = .asRequested ∧
    (resolve .f1 ⟨0, 0, 1920, 1080⟩ Block.default [blocked] (shown.chan .c0).resolved).outcome = .forcedOut ∧
    ((card (fun ch => { onAir .shown ch with fault := some ⟨5, none, none, .forcedOut, 255⟩ }) id).chan .c0).fault
      = some ⟨5, none, none, .forcedOut, 255⟩ ∧ min 255 (255 + 1) = 255 ∧
    ((judged .held .lost 0 0).chan .c0).inset = .held ∧ (crossing.chan .c0).inset = .crossfade ∧
    (crossing.src .s1).owner = some .c0 ∧ (crossing.src .s1).state = .releasing ∧
    (crossingLost.src .s1).owner = some .c0 ∧ (crossingLost.src .s1).state = .lost ∧
    ((judged .forcedOut .taken 8 0).chan .c0).exitMark = false ∧
    ((judged .forcedOut .taken 8 0).src .s0).state = .taken ∧
    ((judged .forcedOut .lost 8 0).src .s0).state ≠ .taken ∧ blocked.isActive = true ∧
    (⟨1919, 1079, 1, 1⟩ : Rect).overlaps blocked.rect = true ∧
    (⟨1919, 1079, 1, 1⟩ : Rect).overlaps (⟨0, 0, 1919, 1080⟩ : Rect) = false := by decide +kernel

/-- A channel whose inset fades out, to take its source back. -/
def goingOut : State := judged .fadingOut .releasing 8 0

theorem witness_ShowActsByInset :
    house.format = some .f1 ∧ (listed.chan .c0).inset = .hidden ∧ (listed.src .s1).state = .ready ∧
    (house.chan .c0).home = none ∧
    ((house.modChan .c0 (fun ch => { ch with home := some .s1 })).chan .c0).home = some .s1 ∧
    (resolve .f1 (cropRect .f1 (listed.src .s1).cropForce) (listed.chan .c0).requested (listed.chan .c0).zones
      (listed.chan .c0).resolved).outcome ≠ .forcedOut ∧
    checkTake .c0 .s2 listed = some .sourceNotReady ∧ (shown.chan .c0).cur = some ⟨.s0, 1024, none⟩ ∧
    (shown.chan .c0).inset = .shown ∧ ((losing .held none 5).chan .c0).inset = .held ∧
    (goingOut.chan .c0).inset = .fadingOut ∧ (goingOut.chan .c0).cur = some ⟨.s0, 1024, none⟩ ∧ Port.s0 ≠ .s1 ∧
    (goingOut.src .s0).state = .releasing ∧ (goingOut.src .s0).owner = some .c0 ∧
    ((losing .fadingOut none 5).src .s0).state = .lost ∧ (goingOut.chan .c0).shown = some ⟨96, 54, 432⟩ ∧
    (goingOut.chan .c0).glide = none := by decide +kernel

theorem witness_HideActsByInset :
    (listed.chan .c0).inset = .hidden ∧ (shown.chan .c0).cur = some ⟨.s0, 1024, none⟩ ∧
    (shown.src .s0).owner = some .c0 ∧ (shown.chan .c0).inset = .shown ∧ (shown.src .s0).state = .taken ∧
    (goingOut.chan .c0).inset = .fadingOut ∧ ((losing .held none 5).chan .c0).inset = .held ∧
    (crossing.chan .c0).inset = .crossfade ∧
    (crossing.chan .c0).out = some ⟨.s1, 102, some ⟨1024, 0, 10, 9⟩⟩ ∧ Port.s1 ≠ .s0 ∧
    (crossing.src .s1).owner = some .c0 ∧ (crossing.src .s1).state = .releasing ∧
    (crossingLost.src .s1).state = .lost ∧ (crossingLost.chan .c0).inset = .crossfade ∧
    (crossing.src .s0).state = .taken ∧ ((losing .forcedOut none 5).chan .c0).inset = .forcedOut ∧
    ((losing .forcedOut none 5).src .s0).state = .lost := by decide

theorem witness_HandoverCrossfadesOrCuts :
    shown.format = some .f1 ∧ (shown.chan .c0).inset = .shown ∧
    (shown.chan .c0).cur = some ⟨.s0, 1024, none⟩ ∧ (shown.chan .c0).out = none ∧ Port.s0 ≠ .s1 ∧
    (shown.src .s1).state = .ready ∧ (shown.src .s0).state = .taken ∧ (shown.src .s0).owner = some .c0 ∧
    (resolve .f1 (cropRect .f1 (shown.src .s1).cropForce) (shown.chan .c0).requested (shown.chan .c0).zones
      (shown.chan .c0).resolved).outcome ≠ .forcedOut ∧ shown.spare = .free ∧
    Spare.hasIt (.held .c1 [.crossfade]) .c0 = false ∧ Spare.hasIt (.held .c0 [.take 0]) .c0 = true ∧
    checkTake .c0 .s2 shown = some .sourceNotReady ∧ ((fading .fadingIn .taken).chan .c0).inset = .fadingIn ∧
    ((fading .fadingIn .taken).src .s1).state = .ready ∧
    ((fading .fadingOut .releasing).chan .c0).inset = .fadingOut ∧
    ((fading .fadingOut .releasing).src .s0).state = .releasing ∧
    ((losing .held none 5).chan .c0).inset = .held ∧ ((losing .held none 5).src .s0).state = .lost ∧
    ((losing .held none 5).chan .c0).out = none ∧ ((judged .forcedOut .taken 8 0).chan .c0).inset = .forcedOut ∧
    (crossing.chan .c0).inset = .crossfade ∧
    (crossing.chan .c0).out = some ⟨.s1, 102, some ⟨1024, 0, 10, 9⟩⟩ ∧ Port.s1 ≠ .s0 ∧ Port.s1 ≠ .s2 ∧
    ((crossing.modSrc .s2 (fun x => { x with state := .ready })).src .s2).state = .ready ∧
    (crossing.src .s1).owner = some .c0 ∧ (crossing.src .s1).state = .releasing ∧
    (crossingLost.src .s1).state = .lost ∧
    (resolve .f1 ⟨0, 0, 1920, 1080⟩ Block.default [blocked] none).outcome = .forcedOut := by
  decide +kernel

/-- Channel 0 with a valid word of a label in its selection, or with none. -/
def tracking (st : TrackState) (label : Nat) (w : Option TcWord) : State :=
  card (fun ch => { auto ch with
    track := st, label := label
    sel := ⟨some ⟨3, w, ⟨2, 2, []⟩⟩, if w.isSome then .valid else .absent, false⟩ }) id

/-- R33, R34, R26: what the tracker hands on at a midnight, read or flywheeled, and in a catch-up past one. -/
theorem test_tracker_hands_on_midnights :
    (trackerStep .f1 .c0 (tracking .locked 2159999 (some ⟨0, 0, 0, 0, false, false⟩))).2
      = ⟨0, 2159999, false, none, .continuous, .continuous, false⟩ ∧
    (trackerStep .f1 .c0 (tracking .locked 2159999 none)).2
      = ⟨0, 2159999, false, none, .continuous, .continuous, false⟩ ∧
    (trackerStep .f1 .c0 (tracking .lost 2159998 (some ⟨0, 0, 0, 1, false, false⟩))).2
      = ⟨1, 2159998, false, some 0, .catchUp, .catchUp, false⟩ ∧
    (trackerStep .f1 .c0 (tracking .locked 5 none)).1.notices.raw.hasChan .c0 .tcFlywheel = true := by
  decide +kernel

theorem witness_TrackerStepsAndHandsOn :
    2159999 < Format.f1.day ∧ (0 : Nat) = (2159999 + 1) % Format.f1.day ∧
    2 ≤ (2 + Format.f1.day - 0) % Format.f1.day ∧ (25 + Format.f1.day - 0) % Format.f1.day ≤ Format.f1.rate ∧
    Format.f1.rate < (26 + Format.f1.day - 0) % Format.f1.day ∧
    Format.f1.rate < (0 + Format.f1.day - 1) % Format.f1.day ∧
    ((tracking .locked 5 (some ⟨0, 0, 0, 6, false, false⟩)).chan .c0).sel.validWord
      = some ⟨0, 0, 0, 6, false, false⟩ ∧
    ((tracking .locked 5 none).chan .c0).sel.validWord = none ∧
    ((tracking .locked 5 none).chan .c0).track = .locked ∧ ((tracking .lost 5 none).chan .c0).track = .lost ∧
    (flying.chan .c0).sel.validWord = none ∧ (flying.chan .c0).track = .flywheel ∧
    Format.f1.rate ≤ (flying.chan .c0).flywheel + 1 ∧
    ((tracking .flywheel 5 none).chan .c0).flywheel + 1 < Format.f1.rate := by decide

theorem witness_LabelsOfADay :
    wordValid .f3 ⟨23, 59, 59, 24, true, false⟩ = true ∧ 4319999 < Format.f3.day ∧
    wordLabel .f3 ⟨23, 59, 59, 24, true, false⟩ = 4319999 := by decide

theorem witness_ResolutionFitsOrForcesOut :
    (resolve .f1 ⟨0, 0, 1920, 1080⟩ Block.default [] none).rect = some ⟨1056, 594, 768, 432⟩ ∧
    (resolve .f1 ⟨0, 0, 1920, 1080⟩ Block.default [] none).outcome = .asRequested ∧
    placeable .f1 1920 1080 = true ∧
    fits .f1 [] false (candidateAt .f1 ⟨0, 0, 1920, 1080⟩ Block.default 0 true .bottomRight).rect = true ∧
    (resolve .f1 ⟨0, 0, 1920, 2⟩ Block.default [] none).outcome = .forcedOut ∧
    2 * ((1080 + 15) / 16) ≤ heightMax .f1 1920 1080 ∧ ¬2 * ((2 + 15) / 16) ≤ heightMax .f1 1920 2 ∧
    (resolve .f1 ⟨0, 0, 1920, 1080⟩ Block.default [{ blocked with cls := .soft }] none).outcome = .softCovered ∧
    (resolve .f1 ⟨0, 0, 1920, 1080⟩ Block.default [{ blocked with rect := ⟨1056, 594, 2, 2⟩ }] none).outcome
      = .shrunk ∧
    resolve .f1 ⟨0, 0, 1920, 1080⟩ ⟨.centre, some 432, 0, 0, []⟩ [{ blocked with rect := ⟨960, 540, 2, 2⟩ }]
      (some ⟨96, 54, 768, 432⟩) = ⟨.heldPlace, some ⟨96, 54, 768, 432⟩, some ⟨576, 324, 768, 432⟩⟩ := by
  decide +kernel

/-- One opaque source over the first two pixel pairs of two lines. -/
def presented : Presented :=
  ⟨none, ⟨0, 0, 4, 2⟩, false, 272, 240, 100, 5242, ⟨0, 0, 4, 2⟩, 1024, 0⟩

theorem witness_BlendIsLegalInsideAndNeutralOutside :
    (∀ x ∈ [presented], covers x 2 0 = false) ∧ (∃ x ∈ [presented], covers x 1 1 = true) ∧
    (⟨none, [presented, presented]⟩ : KeyIn).sources = [presented, presented] ∧
    (1024 : Nat) ≤ 1024 ∧ (house.chan .c0).relay = .bypass ∧ State.reset.format = none ∧
    (shown.chan .c0).relay = .processed ∧ shown.format = some .f1 ∧ 2 * 959 < Format.f1.width ∧
    1079 < Format.f1.height ∧ Format.f1.width ≤ 2 * 960 ∧ Format.f1.height ≤ 1080 := by decide

theorem witness_KeyAlphaAndScaling :
    presented.keyOn = false ∧ ({ presented with keyOn := true } : Presented).keyOn = true ∧
    chromaDistance 272 240 372 240 = presented.tlo ∧ chromaDistance 272 240 372 241 = presented.tlo + 1 ∧
    (1048576 : Nat) = 1048576 / 1 ∧ (1024 : Nat) = 1048576 / 1024 ∧ presented.rk = 1048576 / 200 ∧
    chromaDistance 272 240 422 390 = presented.tlo + 200 ∧ chromaDistance 272 240 422 391 = presented.tlo + 201 ∧
    covers presented 1 1 = true ∧ presented.frame = none ∧
    ({ presented with frame := some ⟨4, 2, []⟩ } : Presented).frame = some ⟨4, 2, []⟩ ∧
    covers { presented with frame := some ⟨4, 2, []⟩ } 0 0 = true := by decide

theorem witness_FadesAndGlidesReachTheirTargets : 1 ≤ 250 ∧ 250 ≤ 250 ∧ 1 < 250 := by decide

end Sys2Proof.Tests
end

