-- ==== Sys2Proof/Proofs/FrameLabels.lean ====
section
/-! PROOFS. The labels of a day (R21): the label of a valid word is below D, and the conversion back of R22
gives a valid word for every number below D. -/

namespace Sys2Proof.Machine

variable {f : Format} {w : TcWord} {n : Nat}

/-! ### The house formats -/

theorem Format.labelsPerFrame_eq_one_or_two (f : Format) : f.rate / f.base = 1 ∨ f.rate / f.base = 2 := by
  cases f <;> decide

theorem Format.base_mul_labelsPerFrame (f : Format) : f.base * (f.rate / f.base) = f.rate := by
  cases f <;> rfl

theorem Format.base_le_thirty (f : Format) : f.base ≤ 30 := by cases f <;> decide

theorem Format.rate_pos (f : Format) : 0 < f.rate := by cases f <;> decide

/-! ### From a word to its label -/

theorem wordValid_iff : wordValid f w = true ↔
    w.h.toNat < 24 ∧ w.m.toNat < 60 ∧ w.s.toNat < 60 ∧ w.ff.toNat < f.base ∧ w.drop = false := by
  simp [wordValid, timeValid, and_assoc]

/-- p of R21: the pair flag where R / Rtc is 2, and 0 where it is 1. -/
def pairPart (f : Format) (pair : Bool) : Nat :=
  if f.rate / f.base = 2 then (if pair then 1 else 0) else 0

theorem wordLabel_eq (f : Format) (w : TcWord) :
    wordLabel f w = ((w.h.toNat * 60 + w.m.toNat) * 60 + w.s.toNat) * f.rate
      + w.ff.toNat * (f.rate / f.base) + pairPart f w.pair := by
  unfold wordLabel labelOfTime pairPart
  cases w.pair <;> simp

theorem pairPart_lt (f : Format) (pair : Bool) : pairPart f pair < f.rate / f.base := by
  unfold pairPart
  rcases f.labelsPerFrame_eq_one_or_two with h | h <;> cases pair <;> simp [h]

/-- A number of two digits, the low one to base `k`, is below `b * k` when the high one is below `b`. -/
theorem mul_add_lt_mul_of_digits {a b c k : Nat} (ha : a < b) (hc : c < k) : a * k + c < b * k :=
  calc a * k + c < a * k + k := by omega
    _ = (a + 1) * k := (Nat.succ_mul a k).symm
    _ ≤ b * k := Nat.mul_le_mul_right k ha

theorem wordLabel_lt_day (hw : wordValid f w = true) : wordLabel f w < f.day := by
  obtain ⟨hh, hm, hs, hff, -⟩ := wordValid_iff.mp hw
  have inSecond : w.ff.toNat * (f.rate / f.base) + pairPart f w.pair < f.rate :=
    (mul_add_lt_mul_of_digits hff (pairPart_lt f w.pair)).trans_eq f.base_mul_labelsPerFrame
  have seconds : (w.h.toNat * 60 + w.m.toNat) * 60 + w.s.toNat < 86400 := by omega
  rw [wordLabel_eq, Nat.add_assoc]
  exact mul_add_lt_mul_of_digits seconds inSecond

/-! ### From a label to its word -/

/-- The word a label is reported as (R22): the inverse of R21, with the drop-frame flag clear. -/
def wordOfLabel (f : Format) (n : Nat) : TcWord where
  h := BitVec.ofNat 8 (n / f.rate / 3600)
  m := BitVec.ofNat 8 (n / f.rate / 60 % 60)
  s := BitVec.ofNat 8 (n / f.rate % 60)
  ff := BitVec.ofNat 8 (n % f.rate / (f.rate / f.base))
  pair := decide (n % f.rate % (f.rate / f.base) = 1)
  drop := false

theorem secondOfLabel_lt (hn : n < f.day) : n / f.rate < 86400 :=
  (Nat.div_lt_iff_lt_mul f.rate_pos).mpr hn

theorem frameOfLabel_lt (f : Format) (n : Nat) : n % f.rate / (f.rate / f.base) < f.base := by
  refine Nat.div_lt_of_lt_mul ?_
  rw [Nat.mul_comm, f.base_mul_labelsPerFrame]
  exact Nat.mod_lt n f.rate_pos

theorem toNat_ofNat_byte {n : Nat} (h : n < 256) : (BitVec.ofNat 8 n).toNat = n := by
  rw [BitVec.toNat_ofNat]; exact Nat.mod_eq_of_lt h

/-- Below D no field of the word read back is cut to its byte. -/
theorem wordOfLabel_fields (hn : n < f.day) :
    (wordOfLabel f n).h.toNat = n / f.rate / 3600 ∧
    (wordOfLabel f n).m.toNat = n / f.rate / 60 % 60 ∧
    (wordOfLabel f n).s.toNat = n / f.rate % 60 ∧
    (wordOfLabel f n).ff.toNat = n % f.rate / (f.rate / f.base) := by
  have hsec := secondOfLabel_lt hn
  have hff := frameOfLabel_lt f n
  have hbase := f.base_le_thirty
  exact ⟨toNat_ofNat_byte (by omega), toNat_ofNat_byte (by omega), toNat_ofNat_byte (by omega),
    toNat_ofNat_byte (by omega)⟩

theorem pairPart_wordOfLabel (f : Format) (n : Nat) :
    pairPart f (wordOfLabel f n).pair = n % f.rate % (f.rate / f.base) := by
  unfold pairPart wordOfLabel
  rcases f.labelsPerFrame_eq_one_or_two with h | h
  · simp [h, Nat.mod_one]
  · rcases Nat.mod_two_eq_zero_or_one (n % f.rate) with hp | hp <;> simp [h, hp]

theorem wordValid_wordOfLabel (hn : n < f.day) : wordValid f (wordOfLabel f n) = true := by
  obtain ⟨hh, hm, hs, hff⟩ := wordOfLabel_fields hn
  have hsec := secondOfLabel_lt hn
  refine wordValid_iff.mpr ⟨?_, ?_, ?_, ?_, rfl⟩
  · omega
  · omega
  · omega
  · exact hff ▸ frameOfLabel_lt f n

theorem wordLabel_wordOfLabel (hn : n < f.day) : wordLabel f (wordOfLabel f n) = n := by
  obtain ⟨hh, hm, hs, hff⟩ := wordOfLabel_fields hn
  have seconds : (n / f.rate / 3600 * 60 + n / f.rate / 60 % 60) * 60 + n / f.rate % 60 = n / f.rate := by
    omega
  rw [wordLabel_eq, pairPart_wordOfLabel, hh, hm, hs, hff, seconds, Nat.add_assoc, Nat.div_add_mod',
    Nat.div_add_mod']

/-- Settles O56: the label of a valid word is below D by its digits, and the word R22 reads a number below D
back as is valid and has that number as its label. -/
theorem labelsOfADay : Obligations.LabelsOfADay := fun f =>
  ⟨f.labelsPerFrame_eq_one_or_two, rfl, fun w hw => ⟨wordLabel_eq f w, wordLabel_lt_day hw⟩,
    fun n hn => ⟨wordOfLabel f n, wordValid_wordOfLabel hn, wordLabel_wordOfLabel hn⟩⟩

end Sys2Proof.Machine
end

