-- ==== Sys2Proof/Proofs/MidnightsAndExpiries.lean ====
section
/-! PROOFS. Midnights and zone expiries at a frame start (R33 to R36, R102 to R104): a midnight leaves no
next-day mark among the cues in any mode, and outside AUTO dispatch only clears marks and takes expiries. -/

namespace Sys2Proof.Machine

variable {c : Chan} {s t : State} {k : Track}

/-! ### The dispatcher's operations on the cue list -/

theorem cues_of_dispatcher {a b : Channel} (h : a.dispatcher = b.dispatcher) : a.cues = b.cues :=
  congrArg (fun d => d.1.1) h

theorem expireZones_cues (due : Nat → Bool) : ((expireZones c due s).chan c).cues = (s.chan c).cues :=
  cues_of_dispatcher (congrArg Prod.fst (expireZones_asked due))

theorem clearMarks_chan : (clearMarks c s).chan c = { s.chan c with
    cues := clearCueMarks (s.chan c).cues, zones := (s.chan c).zones.map Zone.clearMark } :=
  modChan_chan_same ..

theorem endDay_cues : ((endDay c s).chan c).cues = clearCueMarks (s.chan c).cues := by
  rw [endDay, clearMarks_chan, expireZones_cues]

theorem dropAnswer_chan (d : Chan) (n : Claimant) (a : SpareAns) (e : Chan) :
    (dropAnswer d n a s).chan e = s.chan e := by
  unfold dropAnswer
  split <;> rfl

theorem countFired_cues (q : Cue) (r : State × Option Reason) :
    ((countFired c q r).chan c).cues = (r.1.chan c).cues := by
  unfold countFired
  split
  · rw [modChan_chan_same]
  · simp only [writeFailure, raiseChan_chan, modChan_chan_same]

/-- A cue that fires leaves the list, and its action leaves the rest of the list alone (R152). -/
theorem fireCue_cues (q : Cue) :
    ((fireCue c s q).chan c).cues = (s.chan c).cues.filter (fun x => decide (x.tag ≠ q.tag)) := by
  rw [fireCue, countFired_cues, dropAnswer_chan, cues_of_dispatcher (applyAction_dispatcher _ _),
    modChan_chan_same, leaveList]

theorem missCue_cues (q : Cue) :
    ((missCue c s q).chan c).cues = (s.chan c).cues.filter (fun x => decide (x.tag ≠ q.tag)) := by
  rw [missCue, raiseChan_chan, dropAnswer_chan, modChan_chan_same, modChan_chan_same, leaveList]

/-- Preparing changes no dated label (R148). -/
theorem prepareCue_dates (q : Cue) :
    ((prepareCue c s q).chan c).cues.map Cue.date = (s.chan c).cues.map Cue.date := by
  rw [prepareCue, modChan_chan_same, setCue, askForCue_chan, List.map_map]
  refine List.map_congr_left (fun x _ => ?_)
  simp only [Function.comp_apply]
  split <;> rfl

/-! ### Lists without a next-day mark -/

/-- No cue of a list has its next-day mark. -/
def Unmarked (l : List Cue) : Prop := ∀ q ∈ l, q.date.next = false

theorem Unmarked.filter {l : List Cue} (h : Unmarked l) (p : Cue → Bool) : Unmarked (l.filter p) :=
  fun q hq => h q (List.mem_of_mem_filter hq)

/-- The marks of a list are read off its dated labels. -/
theorem Unmarked.of_dates {l l' : List Cue} (h : Unmarked l) (e : l'.map Cue.date = l.map Cue.date) :
    Unmarked l' := by
  intro q hq
  obtain ⟨y, hy, hd⟩ := List.mem_map.mp (e ▸ List.mem_map_of_mem hq)
  exact hd ▸ h y hy

theorem insertCleared_unmarked {day : List Cue} (l : List Cue) (h : Unmarked day) :
    Unmarked (insertCleared day l) := by
  induction l generalizing day with
  | nil => exact h
  | cons q qs ih =>
    refine ih (fun x hx => ?_)
    rcases List.mem_cons.mp ((insertCue_perm _ day).mem_iff.mp hx) with rfl | hx
    · rfl
    · exact h x hx

/-- A midnight clears every next-day mark (R33). -/
theorem clearCueMarks_unmarked (l : List Cue) : Unmarked (clearCueMarks l) :=
  insertCleared_unmarked _ (fun q hq => by simpa using List.of_mem_filter hq)

/-- A second midnight finds no mark to clear. -/
theorem clearCueMarks_of_unmarked {l : List Cue} (h : Unmarked l) : clearCueMarks l = l := by
  have marked : l.filter (fun q => q.date.next) = [] :=
    List.filter_eq_nil_iff.mpr (fun q hq => by simp [h q hq])
  have sameDay : l.filter (fun q => !q.date.next) = l :=
    List.filter_eq_self.mpr (fun q hq => by simp [h q hq])
  rw [clearCueMarks, marked, sameDay, insertCleared]

/-! ### A midnight leaves no marked cue, in any mode -/

/-- No cue of the channel has its next-day mark. -/
def NoMarks (c : Chan) (t : State) : Prop := Unmarked (t.chan c).cues

theorem NoMarks.expireZones (h : NoMarks c t) (due : Nat → Bool) : NoMarks c (expireZones c due t) := by
  unfold NoMarks
  rw [expireZones_cues]
  exact h

theorem NoMarks.fireAll (h : NoMarks c t) (due : Cue → Bool) : NoMarks c (fireAll c due t) :=
  List.foldlRecOn _ _ h (fun _ hb q _ => by
    unfold NoMarks
    rw [fireCue_cues]
    exact hb.filter _)

theorem NoMarks.missAll (h : NoMarks c t) (p : Cue → Bool) : NoMarks c (missAll c p t) :=
  List.foldlRecOn _ _ h (fun _ hb q _ => by
    unfold NoMarks
    rw [missCue_cues]
    exact hb.filter _)

theorem NoMarks.prepareAll (h : NoMarks c t) (n : Nat) : NoMarks c (prepareAll c n t) :=
  List.foldlRecOn _ _ h (fun _ hb q _ => Unmarked.of_dates hb (prepareCue_dates q))

theorem NoMarks.inAuto (h : NoMarks c t) {op : State → State} (hop : NoMarks c (op t)) :
    NoMarks c (inAuto c op t) := by
  unfold Machine.inAuto
  split
  · exact hop
  · exact h

theorem noMarks_endDay : NoMarks c (endDay c t) := by
  unfold NoMarks
  rw [endDay_cues]
  exact clearCueMarks_unmarked _

theorem noMarks_owedMidnight (held : Bool) : NoMarks c (owedMidnight c held t) := noMarks_endDay

theorem NoMarks.entryRule (h : NoMarks c t) (f : Format) (n : Nat) : NoMarks c (entryRule f c n t) := by
  unfold NoMarks Machine.entryRule
  rw [modChan_chan_same]
  exact ((h.expireZones _).missAll _).fireAll _

theorem NoMarks.jumpMisses (h : NoMarks c t) (k : Track) : NoMarks c (jumpMisses c k t) := by
  unfold Machine.jumpMisses
  split
  · exact h.inAuto (h.missAll _)
  · exact h

/-- A midnight of the frame start clears the marks, and without one a list without marks stays one. -/
theorem noMarks_midnightStep (h : k.midnight = .none → NoMarks c t) : NoMarks c (midnightStep c k t) := by
  unfold midnightStep
  split
  · next hk => exact h hk
  · exact noMarks_endDay
  · exact noMarks_endDay

theorem NoMarks.dueItems (h : NoMarks c t) (k : Track) (entry : Bool) (l : List Nat) :
    NoMarks c (dueItems c k entry l t) :=
  (h.expireZones _).inAuto ((h.expireZones _).fireAll _)

theorem NoMarks.endLost (h : NoMarks c t) (k : Track) : NoMarks c (endLost c k t) := by
  unfold Machine.endLost
  split
  · refine Unmarked.of_dates h ?_
    rw [modChan_chan_same, List.map_map]
    rfl
  · exact h

/-- A step with a midnight, an owed one or its own, leaves no cue with its mark, whatever it dispatches
(R33, R35). -/
theorem noMarks_dispatchSteps (f : Format) (entered : Bool) (h : k.owed = true ∨ k.midnight ≠ .none) :
    NoMarks c (dispatchSteps f c entered k s) := by
  unfold dispatchSteps
  dsimp only
  have afterMidnight : ∀ {u : State}, (k.midnight = .none → NoMarks c u) → ∀ (l : List Nat) (b : Bool),
      NoMarks c (inAuto c (prepareAll c k.label)
        (endLost c k (dueItems c k b l (midnightStep c k (jumpMisses c k u))))) := by
    intro u hu l b
    have due := ((noMarks_midnightStep (fun hk => (hu hk).jumpMisses k)).dueItems k b l).endLost k
    exact due.inAuto (due.prepareAll _)
  refine afterMidnight (fun hk => ?_) _ _
  have owed : k.owed = true := h.resolve_right (fun hn => hn hk)
  rw [if_pos owed]
  split
  · exact (noMarks_owedMidnight _).entryRule f _
  · exact noMarks_owedMidnight _

/-! ### Expiries of one zone -/

/-- A zone after a check of its expiry against the labels that are due (R102). -/
def Zone.lapse (due : Nat → Bool) (z : Zone) : Zone := if z.dueBy due then z.expire else z

/-- A zone after the end of a day: a same-day expiry has taken effect, and a next-day one is same-day
(R33, R104). -/
def Zone.endDay (z : Zone) : Zone := (z.lapse (fun _ => true)).clearMark

theorem Zone.dueBy_iff {z : Zone} {due : Nat → Bool} :
    z.dueBy due = true ↔ ∃ d, z.expiry = some d ∧ d.next = false ∧ due d.label = true := by
  unfold Zone.dueBy
  cases z.expiry <;> simp

/-- An expiry that has taken effect is gone, so the same check does nothing again. -/
theorem Zone.lapse_lapse (due : Nat → Bool) (z : Zone) : (z.lapse due).lapse due = z.lapse due := by
  by_cases h : z.dueBy due = true
  · rw [Zone.lapse, Zone.lapse, if_pos h]
    exact if_neg Bool.false_ne_true
  · rw [Zone.lapse, Zone.lapse, if_neg h, if_neg h]

/-- At the end of a day the expiries of that day go, and of those it makes same-day the due ones. -/
theorem Zone.lapse_endDay {gone : Bool} {due : Nat → Bool} {z : Zone}
    (h : gone = true ↔ ∃ d, z.expiry = some d ∧ (d.next = false ∨ due d.label = true)) :
    z.endDay.lapse due = if gone then { z with active := false, expiry := none }
      else { z with expiry := z.expiry.map (fun d => ⟨d.label, false⟩) } := by
  obtain ⟨defined, rect, cls, active, expiry⟩ := z
  match expiry with
  | none =>
    have stays : gone = false := by simpa using h
    simp [stays, Zone.endDay, Zone.lapse, Zone.dueBy, Zone.clearMark]
  | some ⟨l, false⟩ =>
    have goes : gone = true := by simpa using h
    simp [goes, Zone.endDay, Zone.lapse, Zone.dueBy, Zone.clearMark, Zone.expire]
  | some ⟨l, true⟩ =>
    have atLabel : gone = due l := Bool.eq_iff_iff.mpr (by simpa using h)
    simp [atLabel, Zone.endDay, Zone.lapse, Zone.dueBy, Zone.clearMark, Zone.expire]

/-! ### Dispatch outside AUTO -/

/-- From `s` to `t`, in a mode other than AUTO, the channel's list became `l` and its zone table `zs`; mode,
counters, last failure, last marker, waiting actions and requested placement stand. -/
structure Retabled (c : Chan) (s t : State) (l : List Cue) (zs : List Zone) : Prop where
  asked : (t.chan c).asked = ({ s.chan c with cues := l, zones := zs } : Channel).asked
  mode : (t.chan c).mode ≠ .auto

variable {l : List Cue} {zs : List Zone}

theorem Retabled.refl (h : (s.chan c).mode ≠ .auto) : Retabled c s s (s.chan c).cues (s.chan c).zones :=
  ⟨rfl, h⟩

theorem Retabled.cues_eq (h : Retabled c s t l zs) : (t.chan c).cues = l :=
  cues_of_dispatcher (congrArg Prod.fst h.asked)

theorem Retabled.zones_eq (h : Retabled c s t l zs) : (t.chan c).zones = zs :=
  congrArg (fun a => a.2.2.1) h.asked

/-- What a channel was asked, with a list and a zone table put in, does not read the ones it had. -/
theorem asked_retable {a b : Channel} (h : a.asked = b.asked) (l : List Cue) (zs : List Zone) :
    ({ a with cues := l, zones := zs } : Channel).asked
      = ({ b with cues := l, zones := zs } : Channel).asked := by
  simp only [Channel.asked, Channel.dispatcher, Prod.mk.injEq, true_and] at h ⊢
  obtain ⟨⟨⟨-, deferral⟩, counts⟩, marker, -, requests⟩ := h
  exact ⟨⟨deferral, counts⟩, marker, requests⟩

/-- A further operation that only changes the list and the zone table. -/
theorem Retabled.step {u : State} {l' : List Cue} {zs' : List Zone} (h : Retabled c s t l zs)
    (e : (u.chan c).asked = ({ t.chan c with cues := l', zones := zs' } : Channel).asked)
    (hm : (u.chan c).mode = (t.chan c).mode) : Retabled c s u l' zs' :=
  ⟨e.trans (asked_retable h.asked l' zs'), hm ▸ h.mode⟩

theorem Retabled.expireZones (h : Retabled c s t l zs) (due : Nat → Bool) :
    Retabled c s (expireZones c due t) l (zs.map (Zone.lapse due)) := by
  refine h.step ?_ (congrArg (fun p => p.1.1) (Keeps.rfl.expireZones due).path)
  rw [expireZones_asked, h.zones_eq, ← h.cues_eq]
  rfl

theorem Retabled.clearMarks (h : Retabled c s t l zs) :
    Retabled c s (clearMarks c t) (clearCueMarks l) (zs.map Zone.clearMark) := by
  refine h.step ?_ ?_ <;> rw [clearMarks_chan]
  rw [h.cues_eq, h.zones_eq]

theorem Retabled.endDay (h : Retabled c s t l zs) :
    Retabled c s (endDay c t) (clearCueMarks l) (zs.map Zone.endDay) := by
  have := (h.expireZones (fun _ => true)).clearMarks
  rwa [List.map_map] at this

/-- Outside AUTO no cue acts (R36). -/
theorem Retabled.inAuto (h : Retabled c s t l zs) (op : State → State) :
    Retabled c s (inAuto c op t) l zs := by
  rwa [Machine.inAuto, if_neg h.mode]

/-- A day that ends with its expiries taken beforehand ends as one that takes them then. -/
theorem Retabled.endDay_after_expiries (h : Retabled c s t l zs) (op : State → State) :
    Retabled c s (Machine.endDay c (Machine.inAuto c op (Machine.expireZones c (fun _ => true) t)))
      (clearCueMarks l) (zs.map Zone.endDay) := by
  have := ((h.expireZones (fun _ => true)).inAuto op).endDay
  have once : Zone.endDay ∘ Zone.lapse (fun _ => true) = Zone.endDay :=
    funext fun z => congrArg Zone.clearMark (z.lapse_lapse _)
  rwa [List.map_map, once] at this

theorem Retabled.owedMidnight (h : Retabled c s t l zs) :
    Retabled c s (owedMidnight c false t) (clearCueMarks l) (zs.map Zone.endDay) :=
  h.endDay_after_expiries _

theorem Retabled.jumpMisses (h : Retabled c s t l zs) (k : Track) :
    Retabled c s (jumpMisses c k t) l zs := by
  unfold Machine.jumpMisses
  split
  · exact h.inAuto _
  · exact h

theorem Retabled.midnightStep (h : Retabled c s t l zs) (hk : k.midnight ≠ .none) :
    Retabled c s (midnightStep c k t) (clearCueMarks l) (zs.map Zone.endDay) := by
  unfold Machine.midnightStep
  split
  · next none => exact absurd none hk
  · exact h.endDay
  · exact h.endDay_after_expiries _

theorem Retabled.dueItems (h : Retabled c s t l zs) (k : Track) (passed : List Nat) :
    Retabled c s (dueItems c k false passed t) l (zs.map (Zone.lapse (fun n => decide (n ≤ k.label)))) := by
  have due : dueExpiry k false = fun n => decide (n ≤ k.label) := by
    funext n
    simp [dueExpiry]
  rw [Machine.dueItems, due]
  exact (h.expireZones _).inAuto _

/-- The end of a LOST changes no tag of the list. -/
theorem Retabled.endLost (h : Retabled c s t l zs) (k : Track) :
    ∃ l', l'.map Cue.tag = l.map Cue.tag ∧ Retabled c s (endLost c k t) l' zs := by
  unfold Machine.endLost
  split
  · refine ⟨l.map (fun q => { q with lostLate := false }), ?_, h.step ?_ ?_⟩
    · rw [List.map_map]
      rfl
    · rw [modChan_chan_same, h.cues_eq, ← h.zones_eq]
    · rw [modChan_chan_same]
  · exact ⟨l, rfl, h⟩

/-- The list of a channel after the midnights of a step. -/
def Track.dayCues (k : Track) (l : List Cue) : List Cue :=
  if k.owed = true ∨ k.midnight ≠ .none then clearCueMarks l else l

/-- The zone table of a channel after the midnights of a step: an owed one, then the step's own. -/
def Track.dayZones (k : Track) (zs : List Zone) : List Zone :=
  let afterOwed := if k.owed then zs.map Zone.endDay else zs
  if k.midnight = .none then afterOwed else afterOwed.map Zone.endDay

theorem Track.dayZones_of_no_midnight (ho : k.owed = false) (hm : k.midnight = .none) :
    k.dayZones zs = zs := by
  simp [Track.dayZones, ho, hm]

theorem Track.dayZones_of_one_midnight
    (h : k.owed = true ∧ k.midnight = .none ∨ k.owed = false ∧ k.midnight ≠ .none) :
    k.dayZones zs = zs.map Zone.endDay := by
  rcases h with ⟨ho, hm⟩ | ⟨ho, hm⟩ <;> simp [Track.dayZones, ho, hm]

/-- Steps 1 to 4 of R36 outside AUTO, with nothing entered or held back: the midnights alone. -/
theorem Retabled.midnights (h : Retabled c s t l zs) (k : Track) :
    Retabled c s (Machine.midnightStep c k (Machine.jumpMisses c k
      (if k.owed = true then Machine.owedMidnight c false t else t))) (k.dayCues l) (k.dayZones zs) := by
  unfold Track.dayCues Track.dayZones
  by_cases ho : k.owed = true <;> by_cases hm : k.midnight = .none
  · simpa [ho, hm, Machine.midnightStep] using h.owedMidnight.jumpMisses k
  · simpa [ho, hm, clearCueMarks_of_unmarked (clearCueMarks_unmarked l)] using
      (h.owedMidnight.jumpMisses k).midnightStep hm
  · simpa [ho, hm, Machine.midnightStep] using h.jumpMisses k
  · simpa [ho, hm] using (h.jumpMisses k).midnightStep hm

/-- Outside AUTO a step clears the marks at a midnight and takes the expiries at or below its label, and does
nothing else to the dispatcher and the zone table (R33, R36, R102 to R104). -/
theorem dispatchSteps_retabled (f : Format) (k : Track) (hm : (s.chan c).mode ≠ .auto)
    (hh : (s.chan c).heldBack = false) :
    ∃ l', l'.map Cue.tag = (k.dayCues (s.chan c).cues).map Cue.tag ∧
      Retabled c s (dispatchSteps f c false k s) l'
        ((k.dayZones (s.chan c).zones).map (Zone.lapse (fun n => decide (n ≤ k.label)))) := by
  have due (passed : List Nat) := (((Retabled.refl hm).midnights k).dueItems k passed).endLost k
  unfold dispatchSteps
  simp only [hh, Bool.or_self, Bool.false_eq_true, if_false]
  obtain ⟨l', tags, ret⟩ := due _
  exact ⟨l', tags, ret.inAuto _⟩

theorem Track.dayCues_tags_perm (k : Track) (l : List Cue) :
    ((k.dayCues l).map Cue.tag).Perm (l.map Cue.tag) := by
  unfold Track.dayCues
  split
  · exact clearCueMarks_tags l
  · exact .refl _

/-- Settles O41: every midnight clears the marks and no later part of the step brings one back; outside AUTO
the step's effect on the list and the zone table is that of `dispatchSteps_retabled`. -/
theorem midnightsAndExpiries : Obligations.MidnightsAndExpiries := by
  intro f c entered k s t gone ht hlost
  have steps : t = dispatchSteps f c entered k s := by simpa [dispatch, hlost] using ht
  subst steps
  refine ⟨noMarks_dispatchSteps f entered, fun hm he hh => ?_⟩
  subst he
  obtain ⟨l', tags, ret⟩ := dispatchSteps_retabled f k hm hh
  obtain ⟨⟨-, ⟨fired, failed, missed, removed⟩, failure⟩, marker, -⟩ := by
    simpa only [Channel.asked, Channel.dispatcher, Prod.mk.injEq] using ret.asked
  rw [ret.cues_eq, ret.zones_eq, tags]
  refine ⟨apply_ite (List.map Cue.tag) .., k.dayCues_tags_perm _, fired, failed, missed, removed, failure,
    marker, fun ho hn hgone => ?_, fun one hgone => ?_⟩
  · rw [Track.dayZones_of_no_midnight ho hn]
    refine List.map_congr_left (fun z _ => ?_)
    have same : z.dueBy (fun n => decide (n ≤ k.label)) = gone z := by
      rw [Bool.eq_iff_iff, Zone.dueBy_iff, hgone z]
      simp only [decide_eq_true_eq]
    rw [Zone.lapse, same, Zone.expire]
  · rw [Track.dayZones_of_one_midnight one, List.map_map]
    refine List.map_congr_left (fun z _ => Zone.lapse_endDay ?_)
    simpa only [decide_eq_true_eq] using hgone z

end Sys2Proof.Machine
end

