-- ==== Sys2Proof/Proofs/ReceiverBytes.lean ====
section
/-! PROOFS. The bytes of the receiver (R165, R168): what one does in HUNT and in LENGTH, and the refusal of a
wrong LEN byte. -/

namespace Sys2Proof.Machine

variable {s : State} {b : Byte}

/-! ### A byte by the receiver's state -/

theorem exec_rxByte : exec (.rxByte b) s = .next (rxByte b s) := rfl

theorem exec_rxByte_hunt (run : s.running = true) (hunt : s.link.rx = .hunt) :
    exec (.rxByte b) s
      = .next (if b = 0x5A then { s with link := { s.link with rx := .length } } else s) := by
  simp only [exec_rxByte, rxByte, run, hunt, if_true]

theorem exec_rxByte_length (run : s.running = true) (len : s.link.rx = .length) :
    exec (.rxByte b) s = .next (rxLength b s) := by
  simp only [exec_rxByte, rxByte, run, len, if_true]

theorem exec_rxByte_hunt_sync (run : s.running = true) (hunt : s.link.rx = .hunt) :
    exec (.rxByte 0x5A) s = .next { s with link := { s.link with rx := .length } } := by
  rw [exec_rxByte_hunt run hunt, if_pos rfl]

theorem exec_rxByte_hunt_other (run : s.running = true) (hunt : s.link.rx = .hunt) (other : b ≠ 0x5A) :
    exec (.rxByte b) s = .next s := by
  rw [exec_rxByte_hunt run hunt, if_neg other]

/-! ### The LEN byte -/

@[simp] theorem countError_running (f : Link → Link) : (countError f s).running = s.running := rfl

theorem rxLength_of_wrong (wrong : b.toNat = 0 ∨ 240 < b.toNat) :
    rxLength b s = countError (fun l => { l.hunt with length := satInc l.length }) s :=
  if_neg (by omega)

/-- The refusal of R168: no more than one counted link error. -/
theorem exec_rxByte_length_wrong (run : s.running = true) (len : s.link.rx = .length)
    (wrong : b.toNat = 0 ∨ 240 < b.toNat) :
    exec (.rxByte b) s = .next (countError (fun l => { l.hunt with length := satInc l.length }) s) := by
  rw [exec_rxByte_length run len, rxLength_of_wrong wrong]

/-- Settles O7: the wrong LEN byte is one counted link error, which leaves a running card in HUNT with its slots
as they were, so that the byte after it is a byte in HUNT. -/
theorem wrongLengthByteIsCounted : Obligations.WrongLengthByteIsCounted := by
  intro s b run len wrong
  have still : ∀ f, (countError f s).running = true := fun f => (countError_running f).trans run
  exact ⟨_, exec_rxByte_length_wrong run len wrong, rfl, rfl, rfl, exec_rxByte_hunt_sync (still _) rfl,
    fun _ other => exec_rxByte_hunt_other (still _) rfl other⟩

end Sys2Proof.Machine
end

section
/-! PROOFS. What every step of the card keeps, and what one channel does by itself (R5, R171): the front
command, the laws of channels and sources, the order of the receive slots. -/

namespace Sys2Proof.Machine

variable {s t : State} {i : Instr} {r : Request}

/-! ### The rows -/

/-- A request row is the arrival of its frame (log entry 4). -/
theorem exec_request (h : i.asRequest = some r) : exec i s = .next (deliver (.request r) s) := by
  cases i with
  | linkReject | replySent | rxByte | framingError | byteGapTimeout | powerOnReset | powerLoss | pinReset
  | resetPinRelease | resetComplete | refPulse | refSilence | freeRunFrameStart | latePulseFrameStart
  | slewStep | tcLost | zoneExpiry | fadeEnd | glideEnd | holdExpired | pgmFrameStart | pgmFrameComplete
  | pgmSilence | portFrameStart | portSilence | sourceFrameComplete => cases h
  | _ => cases h; rfl

/-- What an outcome says of the state it leaves, if it leaves one. -/
def Leaves (P : State → Prop) : Host.Outcome State Fault Refusal → Prop
  | .next t => P t
  | _ => True

theorem Leaves.of_exec {P : State → Prop} (h : ∀ i, Leaves P (exec i { s with pending := s.pending.tail }))
    (hs : P s) (e : step s = .next t) : P t := by
  unfold step at e
  split at e
  · exact Host.Outcome.next.inj e ▸ hs
  · next i rest hp =>
    have hi := h i
    rwa [hp, List.tail_cons, e] at hi

/-! ### The laws of channels and sources -/

/-- Every row keeps the laws. -/
theorem exec_lawful (h : s.Lawful) (i : Instr) : Leaves State.Lawful (exec i s) := by
  cases hr : i.asRequest with
  | some r => rw [exec_request hr]; exact deliver_lawful h _
  | none =>
    cases i with
    | linkReject => exact deliverReject_lawful h
    | replySent => exact replySent_lawful h
    | rxByte b => exact rxByte_lawful h b
    | framingError => exact framingError_lawful h
    | byteGapTimeout => exact gapTimeout_lawful h
    | powerOnReset => exact powerOn_lawful h
    | powerLoss => exact powerOff_lawful h
    | pinReset => exact assertPin_lawful h
    | resetPinRelease => exact releasePin_lawful h
    | resetComplete => exact resetComplete_lawful h
    | refPulse dt order => exact refPulse_lawful (h.elapse dt) order
    | refSilence => exact refSilence_lawful h
    | freeRunFrameStart order => exact freeRunFrame_lawful h order
    | latePulseFrameStart order => exact latePulseFrame_lawful h order
    | slewStep c =>
      refine whenRunning_lawful h _ (fun _ => ?_)
      split
      · exact h.modChan c _ slewStep_fine
      · exact h
    | tcLost c =>
      refine whenRunning_lawful h _ (fun f => ?_)
      split
      · exact ((Keeps.rfl (c := c)).toKeepsLaws.trackerStep f).lawful h
      · exact h
    | zoneExpiry c =>
      refine whenRunning_lawful h _ (fun _ => ?_)
      split
      · exact h
      · exact ((Keeps.rfl (c := c)).expireZones _).lawful h
    | fadeEnd c =>
      refine whenRunning_lawful h _ (fun _ => ?_)
      split
      · exact ((Keeps.rfl (c := c)).stepFades).lawful h
      · exact h
    | glideEnd c =>
      refine whenRunning_lawful h _ (fun _ => ?_)
      split
      · exact (((Keeps.rfl (c := c)).stepGlide).lawful h).touch c _ (fun _ => by rfl)
      · exact h
    | holdExpired c =>
      refine whenRunning_lawful h _ (fun _ => ?_)
      split
      · exact ((Keeps.rfl (c := c)).stepHold).lawful h
      · exact h
    | pgmFrameStart c dt w v => exact pgmFrameStart_lawful (h.elapse dt) c w v
    | pgmFrameComplete c word pic => exact pgmFrameComplete_lawful h c word pic
    | pgmSilence c => exact pgmSilence_lawful h c
    | portFrameStart p dt w v => exact portFrameStart_lawful (h.elapse dt) p w v
    | portSilence p => exact portSilence_lawful h p
    | sourceFrameComplete p pic => exact sourceFrameComplete_lawful h p pic
    | _ => cases hr

/-- Settles O3: the front command runs on the state with the queue's rest, and every row keeps the laws. -/
theorem everyStepKeepsTheLaws : Obligations.EveryStepKeepsTheLaws :=
  fun s _ h => Leaves.of_exec (exec_lawful (s := { s with pending := s.pending.tail }) (h.of_eq rfl rfl)) h

/-! ### The receive slots -/

/-- A change of one channel, which no slot has a part in. -/
theorem whenRunning_orderly (h : s.link.Orderly) (k : Format → State) (hk : ∀ f, SameSlots s (k f)) :
    (whenRunning s k).link.Orderly := h.of_same (whenRunning_slots k hk)

/-- Every row keeps the receive slots orderly. -/
theorem exec_orderly (h : s.link.Orderly) (i : Instr) : Leaves (fun t => t.link.Orderly) (exec i s) := by
  cases hr : i.asRequest with
  | some r => rw [exec_request hr]; exact deliver_orderly h _
  | none =>
    cases i with
    | linkReject => exact deliverReject_orderly h
    | replySent => exact replySent_orderly h
    | rxByte b => exact rxByte_orderly h b
    | framingError => exact framingError_orderly h
    | byteGapTimeout => exact gapTimeout_orderly h
    | powerOnReset => exact beginReset_orderly _
    | powerLoss => exact linkStop_orderly (s := relaysToBypass s)
    | pinReset =>
      show (assertPin s).link.Orderly
      unfold assertPin
      dsimp only
      split
      · exact beginReset_orderly _
      · exact h
    | resetPinRelease =>
      show (releasePin s).link.Orderly
      unfold releasePin
      dsimp only
      split <;> exact h
    | resetComplete =>
      show (resetComplete s).link.Orderly
      unfold resetComplete
      split
      · split
        · exact linkStop_orderly (s := State.reset)
        · exact h
      · exact h
    | refPulse dt order => exact h.of_same (t := refPulse order (s.elapse dt)) (refPulse_slots order)
    | refSilence => exact h.of_same refSilence_slots
    | freeRunFrameStart order => exact h.of_same (freeRunFrame_slots order)
    | latePulseFrameStart order => exact h.of_same (latePulseFrame_slots order)
    | slewStep c =>
      refine whenRunning_orderly h _ (fun _ => ?_)
      split <;> exact .rfl
    | tcLost c =>
      refine whenRunning_orderly h _ (fun f => ?_)
      split
      · exact ((Keeps.rfl (c := c)).toKeepsLaws.trackerStep f).slots
      · exact .rfl
    | zoneExpiry c =>
      refine whenRunning_orderly h _ (fun _ => ?_)
      split
      · exact .rfl
      · exact ((Keeps.rfl (c := c)).expireZones _).slots
    | fadeEnd c =>
      refine whenRunning_orderly h _ (fun _ => ?_)
      split
      · exact ((Keeps.rfl (c := c)).stepFades).slots
      · exact .rfl
    | glideEnd c =>
      refine whenRunning_orderly h _ (fun _ => ?_)
      split <;> exact .rfl
    | holdExpired c =>
      refine whenRunning_orderly h _ (fun _ => ?_)
      split
      · exact ((Keeps.rfl (c := c)).stepHold).slots
      · exact .rfl
    | pgmFrameStart c dt w v => exact h.of_same (t := pgmFrameStart c w v (s.elapse dt)) (pgmFrameStart_slots c w v)
    | pgmFrameComplete c word pic => exact h.of_same (pgmFrameComplete_slots c word pic)
    | pgmSilence c => exact h.of_same (pgmSilence_slots c)
    | portFrameStart p dt w v =>
      exact h.of_same (t := portFrameStart p w v (s.elapse dt)) (portFrameStart_slots p w v)
    | portSilence p => exact h.of_same (portSilence_slots p)
    | sourceFrameComplete p pic => exact h.of_same (sourceFrameComplete_slots p pic)
    | _ => cases hr

/-- Settles O4: no row but the arrival of a frame and the end of a reply moves a slot, and those two keep the
order. -/
theorem everyStepKeepsTheSlotsOrderly : Obligations.EveryStepKeepsTheSlotsOrderly :=
  fun s _ h => Leaves.of_exec (P := fun t => t.link.Orderly)
    (exec_orderly (s := { s with pending := s.pending.tail }) h) h

/-- Settles O1, by the two branches of `step`. -/
theorem stepTakesTheFrontCommand : Obligations.StepTakesTheFrontCommand :=
  ⟨fun s i rest h => by rw [step, h], fun s h => by rw [step, h]⟩

/-- Settles O2: the laws hold of every block's reset value, and the reset link holds nothing. -/
theorem resetMeetsTheLaws : Obligations.ResetMeetsTheLaws :=
  ⟨State.reset_lawful, linkStop_orderly (s := State.reset)⟩

/-- Settles O5: a channel's frame start keeps what stands outside its channel. -/
theorem channelsActAlone : Obligations.ChannelsActAlone := fun f _ _ =>
  have keeps := Keeps.rfl.toKeepsLaws.chanFrameStart f
  ⟨keeps.outside, fun _ hd => keeps.chan_ne hd⟩

end Sys2Proof.Machine
end

section
/-! PROOFS. The control link (Chapter 9): the receiver byte by byte, whole frames, the request a payload spells,
the receive slots, and the requests that only report. -/

namespace Sys2Proof.Machine

variable {s t : State} {b : Byte} {i : Instr} {r : Request} {e : Entry}

/-! ### The receiver (R165 to R167) -/

theorem exec_rxByte_body (run : s.running = true) (body : s.link.rx = .body) :
    exec (.rxByte b) s = .next (rxBody b s) := by
  simp only [exec_rxByte, rxByte, run, body, if_true]

theorem exec_rxByte_check (run : s.running = true) (check : s.link.rx = .check) :
    exec (.rxByte b) s = .next (rxCheck b s) := by
  simp only [exec_rxByte, rxByte, run, check, if_true]

theorem rxLength_of_right (low : 1 ≤ b.toNat) (high : b.toNat ≤ 240) :
    rxLength b s = { s with link := { s.link with rx := .body, len := b, body := [] } } :=
  if_pos ⟨low, high⟩

theorem rxBody_eq : rxBody b s = { s with link := { s.link with
    body := s.link.body ++ [b]
    rx := if s.link.len.toNat ≤ s.link.body.length + 1 then .check else .body } } := by
  simp only [rxBody, List.length_append, List.length_singleton]

theorem gapTimeout_of_hunt (hunt : s.link.rx = .hunt) : gapTimeout s = s :=
  if_neg (by simp [hunt])

theorem gapTimeout_of_frame (run : s.running = true) (frame : s.link.rx ≠ .hunt) :
    gapTimeout s = countError (fun l => { l.hunt with timeout := satInc l.timeout }) s :=
  if_pos (by simp [run, frame])

/-- Settles O6, by the receiver's state. -/
theorem receivedByteByState : Obligations.ReceivedByteByState := by
  refine ⟨fun s b run => ⟨?_, ?_, ?_, ?_⟩, fun s run => ⟨?_, ?_, ?_⟩⟩
  · rintro hunt rfl
    exact exec_rxByte_hunt_sync run hunt
  · exact exec_rxByte_hunt_other run
  · intro len low high
    rw [exec_rxByte_length run len, rxLength_of_right low high]
  · intro body
    rw [exec_rxByte_body run body, rxBody_eq]
  · exact congrArg Host.Outcome.next (if_pos run)
  · exact fun frame => congrArg Host.Outcome.next (gapTimeout_of_frame run frame)
  · exact fun hunt => congrArg Host.Outcome.next (gapTimeout_of_hunt hunt)

/-! ### A whole frame (R164, R169) -/

/-- The LEN byte and the payload of a frame, summed. -/
def payloadSum (l : List Byte) : Nat := l.length + (l.map BitVec.toNat).sum

/-- The last byte that makes a frame's sum 0 is its CHECK byte, and no other. -/
theorem frameSum_eq_zero_iff (l : List Byte) (last : Byte) : frameSum l last = 0 ↔ last = checkOf l := by
  have sum : frameSum l last = BitVec.ofNat 8 (payloadSum l + last.toNat) := rfl
  have check : checkOf l = BitVec.ofNat 8 (256 - payloadSum l % 256) := rfl
  have bound := last.isLt
  rw [sum, check, ← BitVec.toNat_inj, ← BitVec.toNat_inj]
  have zero : (0 : Byte).toNat = 0 := rfl
  simp only [BitVec.toNat_ofNat, zero]
  constructor <;> intro h <;> omega

theorem checkOf_sum (l : List Byte) : (payloadSum l + (checkOf l).toNat) % 256 = 0 := by
  have check : checkOf l = BitVec.ofNat 8 (256 - payloadSum l % 256) := rfl
  rw [check, BitVec.toNat_ofNat]
  omega

theorem feed_cons_of_exec {l : List Byte} (h : exec (.rxByte b) s = .next t) : feed (b :: l) s = feed l t := by
  rw [feed, h]

/-- A receiver in BODY that still waits for the bytes of a list takes them and is in CHECK. -/
theorem feed_payload (l rest : List Byte) (run : s.running = true) (body : s.link.rx = .body) (more : l ≠ [])
    (len : s.link.len.toNat = s.link.body.length + l.length) :
    feed (l ++ rest) s
      = feed rest { s with link := { s.link with rx := .check, body := s.link.body ++ l } } := by
  induction l generalizing s with
  | nil => exact absurd rfl more
  | cons b l ih =>
    rw [List.length_cons] at len
    rw [List.cons_append, feed_cons_of_exec (exec_rxByte_body run body), rxBody_eq]
    cases l with
    | nil => rw [if_pos (by rw [len]; simp), List.nil_append]
    | cons b' l =>
      rw [if_neg (by rw [len, List.length_cons]; omega)]
      refine (ih (by exact run) (by rfl) (List.cons_ne_nil _ _) ?_).trans ?_
      · simp only [len, List.length_append, List.length_cons, List.length_nil]
        omega
      · simp only [List.append_assoc, List.singleton_append]

/-- A receiver with no frame in progress is as `Link.hunt` leaves it. -/
theorem hunt_of_idle {l : Link} (rx : l.rx = .hunt) (len : l.len = 0) (body : l.body = []) (x : RxState)
    (n : Byte) (p : List Byte) : ({ l with rx := x, len := n, body := p } : Link).hunt = l := by
  cases l
  simp_all [Link.hunt]

/-- SYNC, LEN and payload bring a receiver in HUNT to CHECK; the byte after them is judged with the payload. -/
theorem feed_frame (payload : List Byte) (last : Byte) (run : s.running = true) (rx : s.link.rx = .hunt)
    (len : s.link.len = 0) (body : s.link.body = []) (low : 1 ≤ payload.length) (high : payload.length ≤ 240) :
    feed (0x5A :: BitVec.ofNat 8 payload.length :: (payload ++ [last])) s
      = .next (if frameSum payload last = 0 then deliver (.request (requestOf payload)) s else deliverReject s) := by
  have lenByte : (BitVec.ofNat 8 payload.length).toNat = payload.length := toNat_ofNat_byte (by omega)
  rw [feed_cons_of_exec (exec_rxByte_hunt_sync run rx), feed_cons_of_exec (exec_rxByte_length (by exact run) rfl),
    rxLength_of_right (by omega) (by omega), feed_payload payload [last] (by exact run) rfl ?_ ?_,
    feed_cons_of_exec (exec_rxByte_check (by exact run) rfl), feed]
  · simp only [rxCheck, List.nil_append, hunt_of_idle rx len body]
  · exact List.ne_nil_of_length_pos low
  · simp [lenByte]

theorem deliverReject_of_running (run : s.running = true) : deliverReject s
    = deliver .reject (countError (fun l => { l with check := satInc l.check }) s) := if_pos run

/-- Settles O8: the frame's last byte is judged by `frameSum_eq_zero_iff`. -/
theorem wholeFrameArrives : Obligations.WholeFrameArrives := by
  intro s payload run rx len body low high
  refine ⟨?_, fun last wrong => ?_⟩
  · rw [frameOf, feed_frame payload _ run rx len body low high, if_pos ((frameSum_eq_zero_iff _ _).mpr rfl)]
  · rw [feed_frame payload _ run rx len body low high,
      if_neg (fun h => wrong ((frameSum_eq_zero_iff _ _).mp h)), deliverReject_of_running run]
    rfl

/-! ### The request a payload spells (R171) -/

theorem numberAt_one (l : List Byte) (i : Nat) : numberAt l i 1 = (byteAt l i).toNat := by
  rw [numberAt, byteAt, List.getD_eq_getElem?_getD]
  rcases Nat.lt_or_ge i l.length with h | h
  · rw [List.drop_eq_getElem_cons h, List.getElem?_eq_getElem h]
    simp only [List.take_succ_cons, List.take_zero, List.foldl_cons, List.foldl_nil, Option.getD_some,
      Nat.zero_mul, Nat.zero_add]
  · rw [List.drop_of_length_le h]
    simp [h]

theorem byteAt_eq (l : List Byte) (i : Nat) : BitVec.ofNat 8 (numberAt l i 1) = byteAt l i := by
  rw [numberAt_one, BitVec.ofNat_toNat, BitVec.setWidth_eq]

/-- Within the payload a two-byte field is the number its two bytes write. -/
theorem halfAt_eq (l : List Byte) (i : Nat) (h : i + 2 ≤ l.length) :
    BitVec.ofNat 16 (numberAt l i 2) = halfAt l i := by
  rw [numberAt, halfAt, byteAt, byteAt, List.getD_eq_getElem?_getD, List.getD_eq_getElem?_getD,
    List.drop_eq_getElem_cons (by omega), List.drop_eq_getElem_cons (by omega),
    List.getElem?_eq_getElem (by omega), List.getElem?_eq_getElem (by omega)]
  simp only [List.take_succ_cons, List.take_zero, List.foldl_cons, List.foldl_nil, Option.getD_some,
    Nat.zero_mul, Nat.zero_add]

theorem sized_of_length {l : List Byte} {n : Nat} (h : l.length = n) (r : Request) : sized l n r = r := if_pos h

theorem sized_of_length_ne {l : List Byte} {n : Nat} (h : l.length ≠ n) (r : Request) :
    sized l n r = .badLength l := if_neg h

theorem cueLoadOf_of_wrong {l : List Byte} (h : l.length ≠ 3 + 28 * (byteAt l 2).toNat ∨
    (byteAt l 2).toNat = 0 ∨ 8 < (byteAt l 2).toNat) : cueLoadOf l = .badLength l := if_neg (by omega)

/-- A row of the table of kinds: a payload of the kind spells the row's request when it has the row's length,
and for CUE_LOAD 1 to 8 records, and a BAD_LENGTH otherwise. -/
def Spells (l : List Byte) (row : Nat × Nat × Request) : Prop :=
  (byteAt l 0).toNat = row.1 →
    (l.length = row.2.1 → (row.1 = 0x40 → 1 ≤ (byteAt l 2).toNat ∧ (byteAt l 2).toNat ≤ 8) →
      requestOf l = row.2.2) ∧
    (l.length ≠ row.2.1 ∨ row.1 = 0x40 ∧ ((byteAt l 2).toNat = 0 ∨ 8 < (byteAt l 2).toNat) →
      requestOf l = .badLength l)

/-- A kind of one length, whose request's fields are those of the row within a payload of that length. -/
theorem Spells.sized {l : List Byte} {k n : Nat} {r r' : Request} (other : k ≠ 0x40)
    (kind : (byteAt l 0).toNat = k → requestOf l = Machine.sized l n r') (fields : l.length = n → r' = r) :
    Spells l (k, n, r) := fun h =>
  ⟨fun len _ => (kind h).trans ((sized_of_length len r').trans (fields len)),
    fun wrong => (kind h).trans (sized_of_length_ne (wrong.resolve_right (fun w => other w.1)) r')⟩

theorem spells_cueLoad {l : List Byte} {recs : List CueRec}
    (fields : l.length = 3 + 28 * (byteAt l 2).toNat →
      (List.range (byteAt l 2).toNat).map (fun i => cueRecAt l (3 + 28 * i)) = recs) :
    Spells l (0x40, 3 + 28 * (byteAt l 2).toNat, .cueLoad (byteAt l 1) recs) := fun (kind : _ = 0x40) => by
  have load : requestOf l = cueLoadOf l := by simp only [requestOf, kind]
  refine ⟨fun len records => ?_, fun wrong => ?_⟩
  · obtain ⟨low, high⟩ := records rfl
    rw [load, ← fields len]
    exact if_pos ⟨low, high, len⟩
  · rw [load]
    exact cueLoadOf_of_wrong (wrong.imp id And.right)

theorem requestOf_of_unknown {l : List Byte} (h : ∀ k ∈ [0x01, 0x02, 0x03, 0x04, 0x05, 0x06, 0x07, 0x10, 0x11,
    0x20, 0x21, 0x22, 0x23, 0x24, 0x25, 0x30, 0x31, 0x40, 0x41, 0x42, 0x50, 0x51], (byteAt l 0).toNat ≠ k) :
    requestOf l = .unknownKind l := by
  simp only [List.forall_mem_cons] at h
  unfold requestOf
  split <;> first | rfl | (exfalso; omega)

/-- Settles O9: the table row by row; within a payload of the kind's length every field lies inside it. -/
theorem payloadSpellsItsRequest : Obligations.PayloadSpellsItsRequest := by
  intro l b w label set kinds hb hw hlabel hset hkinds
  have hb' : b = byteAt l := by rw [hb]; exact funext (byteAt_eq l)
  have hw' : ∀ i, i + 2 ≤ l.length → halfAt l i = w i := fun i h => by rw [hw]; exact (halfAt_eq l i h).symm
  subst hb' hlabel hset
  simp only [numberAt_one]
  refine ⟨?_, fun other => requestOf_of_unknown (fun k mem => ?_)⟩
  · suffices rows : ∀ row ∈ _, Spells l row from fun k n r mem => rows (k, n, r) mem
    rw [hkinds]
    simp only [List.forall_mem_cons, numberAt_one]
    refine ⟨.sized (by decide) (fun k => by rw [requestOf, k]; rfl) (fun _ => rfl),
      .sized (by decide) (fun k => by rw [requestOf, k]; rfl) (fun _ => rfl),
      .sized (by decide) (fun k => by rw [requestOf, k]; rfl) (fun _ => rfl),
      .sized (by decide) (fun k => by rw [requestOf, k]; rfl) (fun len => ?_),
      .sized (by decide) (fun k => by rw [requestOf, k]; rfl) (fun _ => rfl),
      .sized (by decide) (fun k => by rw [requestOf, k]; rfl) (fun len => ?_),
      .sized (by decide) (fun k => by rw [requestOf, k]; rfl) (fun _ => rfl),
      .sized (by decide) (fun k => by rw [requestOf, k]; rfl) (fun _ => rfl),
      .sized (by decide) (fun k => by rw [requestOf, k]; rfl) (fun len => ?_),
      .sized (by decide) (fun k => by rw [requestOf, k]; rfl) (fun _ => rfl),
      .sized (by decide) (fun k => by rw [requestOf, k]; rfl) (fun _ => rfl),
      .sized (by decide) (fun k => by rw [requestOf, k]; rfl) (fun _ => rfl),
      .sized (by decide) (fun k => by rw [requestOf, k]; rfl) (fun _ => rfl),
      .sized (by decide) (fun k => by rw [requestOf, k]; rfl) (fun _ => rfl),
      .sized (by decide) (fun k => by rw [requestOf, k]; rfl) (fun len => ?_),
      .sized (by decide) (fun k => by rw [requestOf, k]; rfl) (fun len => ?_),
      .sized (by decide) (fun k => by rw [requestOf, k]; rfl) (fun _ => rfl),
      spells_cueLoad (fun len => ?_),
      .sized (by decide) (fun k => by rw [requestOf, k]; rfl) (fun len => ?_),
      .sized (by decide) (fun k => by rw [requestOf, k]; rfl) (fun _ => rfl),
      .sized (by decide) (fun k => by rw [requestOf, k]; rfl) (fun _ => rfl),
      .sized (by decide) (fun k => by rw [requestOf, k]; rfl) (fun _ => rfl), nofun⟩
    · simp (disch := omega) only [noticeBitsAt, hw']
    · simp (disch := omega) only [noticeBitsAt, hw']
    · simp (disch := omega) only [hw']
    · rw [List.take_of_length_le (by simp [len])]
    · simp (disch := omega) only [hw']; rfl
    · refine List.map_congr_left (fun i hi => ?_)
      have := List.mem_range.mp hi
      have offset : ∀ n, 3 + 28 * i + n = n + 3 + 28 * i := fun n => by omega
      rw [cueRecAt, hw' _ (by omega), hostLabelAt]
      simp only [offset, Nat.reduceAdd]
    · simp (disch := omega) only [hw']; rfl
  · have codes : kinds.map Prod.fst = [0x01, 0x02, 0x03, 0x04, 0x05, 0x06, 0x07, 0x10, 0x11, 0x20, 0x21, 0x22,
        0x23, 0x24, 0x25, 0x30, 0x31, 0x40, 0x41, 0x42, 0x50, 0x51] := by rw [hkinds]; rfl
    obtain ⟨row, hrow, rfl⟩ := List.mem_map.mp (codes ▸ mem)
    exact other _ _ _ hrow

/-! ### The receive slots (R169 to R171) -/

theorem placeEntry_of_full (h1 : s.link.slot1 ≠ .empty) (h2 : s.link.slot2 ≠ .empty) :
    placeEntry e s = countError (fun l => { l with overrun := satInc l.overrun }) s := by
  rw [placeEntry, if_neg h1, if_neg h2]

/-- While a reply is being sent nothing is taken. -/
theorem takeOldest_of_answering (h : s.link.slot1.isAnswering = true ∨ s.link.slot2.isAnswering = true) :
    takeOldest s = s := if_pos (by simpa using h)

section Busy

variable {w : Entry} {n : Nat} {reply : List Byte}

theorem deliver_beside_slot1 (run : s.running = true) (h1 : s.link.slot1 = .answering w n reply)
    (h2 : s.link.slot2 = .empty) :
    deliver e s = { s with link := { s.link with slot2 := .waiting e (n + 1) } } := by
  have place : placeEntry e s = { s with link := { s.link with slot2 := .waiting e (n + 1) } } := by
    simp [placeEntry, h1, h2, Slot.nextSeq]
  rw [deliver, if_pos run, place, takeOldest_of_answering (.inl (by simp [h1, Slot.isAnswering]))]

theorem deliver_beside_slot2 (run : s.running = true) (h2 : s.link.slot2 = .answering w n reply)
    (h1 : s.link.slot1 = .empty) :
    deliver e s = { s with link := { s.link with slot1 := .waiting e (n + 1) } } := by
  have place : placeEntry e s = { s with link := { s.link with slot1 := .waiting e (n + 1) } } := by
    simp [placeEntry, h1, h2, Slot.nextSeq]
  rw [deliver, if_pos run, place, takeOldest_of_answering (.inr (by simp [h2, Slot.isAnswering]))]

theorem Slot.ne_empty_of_isWaiting {x : Slot} (h : x.isWaiting = true) : x ≠ .empty := by
  rintro rfl
  cases h

/-- With one slot ANSWERING and the other WAITING what arrives is overrun. -/
theorem deliver_overrun (run : s.running = true)
    (full : s.link.slot1 = .answering w n reply ∧ s.link.slot2.isWaiting = true ∨
      s.link.slot2 = .answering w n reply ∧ s.link.slot1.isWaiting = true) :
    deliver e s = countError (fun l => { l with overrun := satInc l.overrun }) s := by
  rw [deliver, if_pos run]
  rcases full with ⟨h1, h2⟩ | ⟨h2, h1⟩
  · rw [placeEntry_of_full (by simp [h1]) (Slot.ne_empty_of_isWaiting h2),
      takeOldest_of_answering (.inl (by simp [countError, h1, Slot.isAnswering]))]
  · rw [placeEntry_of_full (Slot.ne_empty_of_isWaiting h1) (by simp [h2]),
      takeOldest_of_answering (.inr (by simp [countError, h2, Slot.isAnswering]))]

end Busy

theorem exec_request_of_not_running (run : s.running = false) (h : i.asRequest = some r) :
    exec i s = .next s := by
  rw [exec_request h, deliver, if_neg (by simp [run])]

/-- Settles O10: both rows are the arrival of an entry, which is placed by the state of the two slots. -/
theorem framesRejectedWaitingOrUnheard : Obligations.FramesRejectedWaitingOrUnheard := by
  refine ⟨fun s idle => ?_, fun i arrives s counted w n reply run arrival => ?_, fun s run => ?_⟩
  · refine congrArg Host.Outcome.next ?_
    have counted : (countError (fun l => { l with check := satInc l.check }) s).LinkIdle :=
      ⟨idle.running, idle.slot1, idle.slot2⟩
    rw [deliverReject_of_running idle.running, deliver_idle counted]
    rfl
  · have delivered : exec i s = .next (deliver arrives counted) := by
      rcases arrival with ⟨r, row, rfl, rfl⟩ | ⟨rfl, rfl, rfl⟩
      · exact exec_request row
      · exact congrArg Host.Outcome.next (deliverReject_of_running run)
    have same : counted.running = s.running ∧ counted.link.slot1 = s.link.slot1 ∧
        counted.link.slot2 = s.link.slot2 ∧ counted.link.overrun = s.link.overrun := by
      rcases arrival with ⟨r, row, rfl, rfl⟩ | ⟨rfl, rfl, rfl⟩ <;> exact ⟨rfl, rfl, rfl, rfl⟩
    obtain ⟨sameRun, same1, same2, sameOverrun⟩ := same
    rw [delivered, ← same1, ← same2, ← sameOverrun]
    exact ⟨fun h1 h2 => congrArg _ (deliver_beside_slot1 (sameRun.trans run) h1 h2),
      fun h2 h1 => congrArg _ (deliver_beside_slot2 (sameRun.trans run) h2 h1),
      fun full => congrArg _ (deliver_overrun (sameRun.trans run) full)⟩
  · have off : ¬s.running = true := by simp [run]
    refine ⟨fun i row => ?_, congrArg _ (if_neg off), congrArg _ (if_neg off),
      fun b => congrArg _ (if_neg off), congrArg _ (if_neg off), congrArg _ (if_neg (by simp [run]))⟩
    obtain ⟨r, hr⟩ := Option.ne_none_iff_exists'.mp row
    exact exec_request_of_not_running run hr

/-! ### A reply sent in full (R164, R170, R196) -/

theorem Slot.frame_of_not_answering {x : Slot} (h : x.isAnswering = false) : x.frame = [] := by
  cases x <;> first | rfl | cases h

/-- With one slot ANSWERING alone the card transmits that slot's frame. -/
theorem transmitting_one {w : Entry} {n : Nat} {reply : List Byte} (run : s.running = true)
    (one : s.link.slot1 = .answering w n reply ∧ s.link.slot2.isAnswering = false ∨
      s.link.slot2 = .answering w n reply ∧ s.link.slot1.isAnswering = false) :
    s.transmitting = frameOf reply := by
  rw [State.transmitting, if_pos run]
  rcases one with ⟨h, other⟩ | ⟨h, other⟩
  · rw [h, Slot.frame_of_not_answering other, Slot.frame, List.append_nil]
  · rw [h, Slot.frame_of_not_answering other, Slot.frame, List.nil_append]

theorem replyLeft_of_other {k : SlotNo} (h : e ≠ .request .reset) :
    replyLeft k e s = takeOldest (freeSlot k s) := if_neg h

theorem takeOldest_of_empty (h1 : s.link.slot1 = .empty) (h2 : s.link.slot2 = .empty) : takeOldest s = s := by
  simp [takeOldest, h1, h2, Slot.isAnswering, Link.oldest, Slot.waitingEntry]

theorem takeOldest_slot2 {m : Nat} (h1 : s.link.slot1 = .empty) (h2 : s.link.slot2 = .waiting e m) :
    takeOldest s = (let r := answerEntry e s
      { r.1 with link := { r.1.link with slot2 := .answering e m r.2 } }) := by
  simp [takeOldest, h1, h2, Slot.isAnswering, Link.oldest, Slot.waitingEntry, Link.setSlot]

theorem takeOldest_slot1 {m : Nat} (h1 : s.link.slot1 = .waiting e m) (h2 : s.link.slot2 = .empty) :
    takeOldest s = (let r := answerEntry e s
      { r.1 with link := { r.1.link with slot1 := .answering e m r.2 } }) := by
  simp [takeOldest, h1, h2, Slot.isAnswering, Link.oldest, Slot.waitingEntry, Link.setSlot]

section Sent

variable {w : Entry} {n m : Nat} {reply : List Byte}

theorem replySent_slot1 (run : s.running = true) (h : s.link.slot1 = .answering w n reply) :
    replySent s = replyLeft .one w s := by
  simp only [replySent, run, if_true, h]

theorem replySent_slot2 (run : s.running = true) (h : s.link.slot2 = .answering w n reply)
    (other : s.link.slot1.isAnswering = false) : replySent s = replyLeft .two w s := by
  have : ∀ x y z, s.link.slot1 ≠ .answering x y z := fun x y z hx => by simp [hx, Slot.isAnswering] at other
  simp only [replySent, run, if_true, h]

/-- The waiting entry of slot 2 is answered once slot 1 is free. -/
theorem replySent_slot1_waiting (run : s.running = true) (h1 : s.link.slot1 = .answering w n reply)
    (other : w ≠ .request .reset) (h2 : s.link.slot2 = .waiting e m) :
    replySent s = (let r := answerEntry e { s with link := { s.link with slot1 := .empty } }
      { r.1 with link := { r.1.link with slot2 := .answering e m r.2 } }) := by
  rw [replySent_slot1 run h1, replyLeft_of_other other]
  exact takeOldest_slot2 rfl h2

end Sent

/-- Settles O11: the reply that has left frees its slot, or begins the reset, by the entry of its slot. -/
theorem sentReplyFreesItsSlot : Obligations.SentReplyFreesItsSlot := by
  intro s w n reply run
  refine ⟨fun one => ⟨checkOf reply, transmitting_one run one, checkOf_sum reply⟩, fun h1 => ?_, fun h2 alone => ?_⟩
  · refine ⟨fun other h2 => congrArg Host.Outcome.next ?_, fun x m r other h2 hr => congrArg Host.Outcome.next ?_, fun m other h2 => congrArg Host.Outcome.next ?_,
      fun m other h2 => congrArg Host.Outcome.next ?_, fun reset => congrArg Host.Outcome.next ?_⟩
    · rw [replySent_slot1 run h1, replyLeft_of_other other]
      exact takeOldest_of_empty rfl h2
    · rw [replySent_slot1_waiting run h1 other h2, hr]
    · rw [replySent_slot1_waiting run h1 other h2]
      rfl
    · rw [replySent_slot1_waiting run h1 other h2]
      rfl
    · rw [replySent_slot1 run h1]
      exact if_pos reset
  · refine ⟨fun other h1 => congrArg Host.Outcome.next ?_, fun x m r other h1 hr => congrArg Host.Outcome.next ?_, fun reset => congrArg Host.Outcome.next ?_⟩
    · rw [replySent_slot2 run h2 alone, replyLeft_of_other other]
      exact takeOldest_of_empty h1 rfl
    · rw [replySent_slot2 run h2 alone, replyLeft_of_other other, hr]
      exact takeOldest_slot1 h1 rfl
    · rw [replySent_slot2 run h2 alone]
      exact if_pos reset

/-! ### A request on an idle link -/

/-- A request that leaves the state `t` and its slot alone is answered from slot 1 at once (R170, R171). -/
theorem exec_idle {code : ResultCode} {fields : List Byte} (idle : s.LinkIdle) (row : i.asRequest = some r)
    (h : act r (s.hearing (.request r)) = (t.hearing (.request r), code, fields)) :
    exec i s = .next (t.replying r (replyPayload (kindOf r) code fields)) := by
  rw [exec_request row, deliver_idle idle]
  simp only [answerEntry, answer, h]
  rfl

/-- A refused request changes nothing but its slot. -/
theorem exec_idle_refused {code : ResultCode} (idle : s.LinkIdle) (row : i.asRequest = some r)
    (h : act r (s.hearing (.request r)) = refuse code (s.hearing (.request r))) :
    exec i s = .next (s.replying r (replyPayload (kindOf r) code [])) := exec_idle idle row h

theorem asRequest_unknownKind {l : List Byte} (h : unknownOk l = true) :
    (Instr.unknownKind l).asRequest = some (.unknownKind l) := by
  simp only [unknownOk, Bool.and_eq_true, decide_eq_true_eq] at h
  rw [Instr.asRequest, h.2]

theorem asRequest_badLength {l : List Byte} (h : badLengthOk l = true) :
    (Instr.badLength l).asRequest = some (.badLength l) := by
  simp only [badLengthOk, Bool.and_eq_true, decide_eq_true_eq] at h
  rw [Instr.asRequest, h.2]

/-- IDENT's fields byte by byte (R177, R195). -/
theorem identFields_eq (s : State) : identFields s = [0x0E, 0x1C, 0x04, 0xC7, 0x03,
    (match s.cause with
      | .power => 0x01#8
      | .pin => 0x02#8
      | .message => 0x03#8),
    (match s.format with
      | none => 0x00#8
      | some f => BitVec.ofNat 8 f.code),
    (match s.ref.state with
      | .idle => 0x00#8
      | .acquiring => 0x01#8
      | .locked => 0x02#8
      | .free => 0x03#8)] := by
  have cause : BitVec.ofNat 8 s.cause.code = match s.cause with
      | .power => 0x01#8
      | .pin => 0x02#8
      | .message => 0x03#8 := by cases s.cause <;> rfl
  have format : BitVec.ofNat 8 (formatCode s.format) = match s.format with
      | none => 0x00#8
      | some f => BitVec.ofNat 8 f.code := by cases s.format <;> rfl
  have ref : BitVec.ofNat 8 s.ref.state.code = match s.ref.state with
      | .idle => 0x00#8
      | .acquiring => 0x01#8
      | .locked => 0x02#8
      | .free => 0x03#8 := by cases s.ref.state <;> rfl
  rw [← cause, ← format, ← ref]
  rfl

/-- Settles O12: each is answered at once, and only LINK_COUNTS changes more than its slot. -/
theorem smallRequestsReply : Obligations.SmallRequestsReply := by
  intro s idle
  refine ⟨?_, exec_idle (t := s) (r := .reset) (code := .ok) (fields := []) idle rfl rfl, ?_, fun l => ⟨fun ok => ?_, fun ok => ?_⟩⟩
  · rw [exec_idle (t := s) idle rfl rfl]
    exact congrArg (fun x => Host.Outcome.next (s.replying .ident (0x81 :: 0x00 :: x))) (identFields_eq s)
  · exact exec_idle (r := .linkCounts) (code := .ok) (fields := countFields s.link) idle rfl rfl
  · exact exec_idle_refused idle (asRequest_unknownKind ok) rfl
  · exact exec_idle_refused idle (asRequest_badLength ok) rfl

end Sys2Proof.Machine
end

section
/-! PROOFS. The layouts of replies (R164, R176): what stands at an offset of a concatenation, the byte of a
channel, a source and a notice kind, and the requests of the card and the sources (R177 to R180). -/

namespace Sys2Proof.Machine

variable {s t : State}

/-! ### Numbers at offsets -/

theorem numberAt_append_right {l₁ l₂ : List Byte} {off : Nat} (n : Nat) (h : l₁.length ≤ off) :
    numberAt (l₁ ++ l₂) off n = numberAt l₂ (off - l₁.length) n := by
  rw [numberAt, List.drop_append, List.drop_of_length_le h, List.nil_append, numberAt]

theorem numberAt_append_left {l₁ l₂ : List Byte} {off n : Nat} (h : off + n ≤ l₁.length) :
    numberAt (l₁ ++ l₂) off n = numberAt l₁ off n := by
  rw [numberAt, List.drop_append_of_le_length (by omega), List.take_append_of_le_length (by simp; omega),
    numberAt]

theorem numberAt_cons_zero (b : Byte) (l : List Byte) : numberAt (b :: l) 0 1 = b.toNat := by
  simp [numberAt]

@[simp] theorem length_be8 (n : Nat) : (be8 n).length = 1 := by simp [be8]
@[simp] theorem length_be16 (n : Nat) : (be16 n).length = 2 := by simp [be16]
@[simp] theorem length_be32 (n : Nat) : (be32 n).length = 4 := by simp [be32]
@[simp] theorem length_flag (b : Bool) : (flag b).length = 1 := by simp [flag]
@[simp] theorem length_chanByte (c : Option Chan) : (chanByte c).length = 1 := by cases c <;> simp [chanByte]
@[simp] theorem length_portByte (p : Option Port) : (portByte p).length = 1 := by cases p <;> simp [portByte]
@[simp] theorem length_modeByte (m : Option Mode) : (modeByte m).length = 1 := by cases m <;> simp [modeByte]

@[simp] theorem length_timeBytes (fmt : Option Format) (n : Nat) : (timeBytes fmt n).length = 5 := by
  cases fmt <;> rfl

@[simp] theorem length_labelBytes (fmt : Option Format) (n : Nat) : (labelBytes fmt n).length = 9 := by
  simp [labelBytes]

@[simp] theorem length_rectBytes (r : Option Rect) : (rectBytes r).length = 8 := by cases r <;> rfl

theorem numberAt_be8 (n : Nat) : numberAt (be8 n) 0 1 = n % 256 := by
  simp [numberAt, be8]

theorem numberAt_be16 (n : Nat) : numberAt (be16 n) 0 2 = n % 65536 := by
  simp [numberAt, be16]
  omega

theorem numberAt_be32 (n : Nat) : numberAt (be32 n) 0 4 = n % 4294967296 := by
  simp [numberAt, be32]
  omega

theorem numberAt_flag (b : Bool) : numberAt (flag b) 0 1 = if b then 1 else 0 := by
  cases b <;> rfl

theorem numberAt_chanByte (c : Option Chan) : numberAt (chanByte c) 0 1 = (match c with
    | none => 255 | some .c0 => 0 | some .c1 => 1 | some .c2 => 2 | some .c3 => 3) := by
  cases c with
  | none => rfl
  | some c => cases c <;> rfl

/-- The fields of a rectangle that is reported. -/
theorem numberAt_rectBytes (r : Rect) : numberAt (rectBytes (some r)) 0 2 = r.x % 65536 ∧
    numberAt (rectBytes (some r)) 2 2 = r.y % 65536 ∧ numberAt (rectBytes (some r)) 4 2 = r.w % 65536 ∧
    numberAt (rectBytes (some r)) 6 2 = r.h % 65536 := by
  simp (disch := simp) only [rectBytes, numberAt_append_right, numberAt_append_left, numberAt_be16,
    length_be16, List.length_append, Nat.reduceAdd, Nat.reduceSub, and_self]

/-! ### Indices of messages -/

theorem chanOf_idx {b : Byte} {c : Chan} (h : chanIdx c = b.toNat) : chanOf b = some c := by
  rw [chanOf, ← h]
  cases c <;> rfl

theorem chanOf_none {b : Byte} (h : 3 < b.toNat) : chanOf b = none := by
  unfold chanOf
  split <;> first | omega | rfl

theorem exists_chanOf {b : Byte} (h : b.toNat ≤ 3) : ∃ c, chanIdx c = b.toNat := by
  have : b.toNat = 0 ∨ b.toNat = 1 ∨ b.toNat = 2 ∨ b.toNat = 3 := by omega
  rcases this with h | h | h | h
  · exact ⟨.c0, h.symm⟩
  · exact ⟨.c1, h.symm⟩
  · exact ⟨.c2, h.symm⟩
  · exact ⟨.c3, h.symm⟩

theorem portOf_idx {b : Byte} {p : Port} (h : portIdx p = b.toNat) : portOf b = some p := by
  rw [portOf, ← h]
  cases p <;> rfl

theorem portOf_none {b : Byte} (h : 5 < b.toNat) : portOf b = none := by
  unfold portOf
  split <;> first | omega | rfl

theorem exists_portOf {b : Byte} (h : b.toNat ≤ 5) : ∃ p, portIdx p = b.toNat := by
  have : b.toNat = 0 ∨ b.toNat = 1 ∨ b.toNat = 2 ∨ b.toNat = 3 ∨ b.toNat = 4 ∨ b.toNat = 5 := by omega
  rcases this with h | h | h | h | h | h
  · exact ⟨.s0, h.symm⟩
  · exact ⟨.s1, h.symm⟩
  · exact ⟨.s2, h.symm⟩
  · exact ⟨.s3, h.symm⟩
  · exact ⟨.s4, h.symm⟩
  · exact ⟨.s5, h.symm⟩

theorem withChan_of_idx {b : Byte} {c : Chan} (h : chanIdx c = b.toNat) (s : State) (k : Chan → Answer) :
    withChan b s k = k c := by
  rw [withChan, chanOf_idx h]

theorem withChan_of_gt {b : Byte} (h : 3 < b.toNat) (s : State) (k : Chan → Answer) :
    withChan b s k = refuse .badField s := by
  rw [withChan, chanOf_none h]

/-! ### Notice sets (R176, R190, R191) -/

/-- The place of a card kind in its part of a set. -/
def CardKind.place : CardKind → Nat
  | .sourceChange => 0
  | .refLoss => 1
  | .linkError => 2
  | .resetDone => 3

/-- The place of a channel kind in its part of a set. -/
def ChanKind.place : ChanKind → Nat
  | .mark => 0
  | .cueFailed => 1
  | .cueMissed => 2
  | .placeFault => 3
  | .forcedOut => 4
  | .degraded => 5
  | .sourceLost => 6
  | .holdExpired => 7
  | .tcFlywheel => 8
  | .tcLost => 9
  | .pgmLoss => 10
  | .stackSpill => 11
  | .modeDone => 12

theorem CardKind.bit_eq (k : CardKind) : k.bit = BitVec.twoPow 8 k.place := by cases k <;> rfl

theorem ChanKind.bit_eq (k : ChanKind) : k.bit = BitVec.twoPow 16 k.place := by cases k <;> rfl

theorem CardKind.place_inj {j k : CardKind} : j.place = k.place ↔ j = k := by
  cases j <;> cases k <;> decide

theorem ChanKind.place_inj {j k : ChanKind} : j.place = k.place ↔ j = k := by
  cases j <;> cases k <;> decide

theorem CardKind.place_lt (k : CardKind) : k.place < 8 := by cases k <;> decide

theorem ChanKind.place_lt (k : ChanKind) : k.place < 16 := by cases k <;> decide

theorem and_twoPow_ne_zero {w : Nat} (x : BitVec w) {i : Nat} (h : i < w) :
    (x &&& BitVec.twoPow w i != 0) = x.getLsbD i := by
  rw [BitVec.and_twoPow]
  cases hx : x.getLsbD i with
  | false => simp
  | true =>
    have : BitVec.twoPow w i ≠ 0#w := fun hz => by
      simpa [BitVec.getLsbD_twoPow, h] using congrArg (fun y => y.getLsbD i) hz
    simpa using this

/-- A set holds a card kind when it holds the bit at the kind's place. -/
theorem hasCard_eq (n : NoticeBits) (k : CardKind) : n.hasCard k = n.card.getLsbD k.place := by
  rw [NoticeBits.hasCard, k.bit_eq, and_twoPow_ne_zero _ k.place_lt]

theorem hasChan_eq (n : NoticeBits) (c : Chan) (k : ChanKind) :
    n.hasChan c k = (n.chan.get c).getLsbD k.place := by
  rw [NoticeBits.hasChan, k.bit_eq, and_twoPow_ne_zero _ k.place_lt]

theorem inter_chan (a b : NoticeBits) (c : Chan) :
    (a.inter b).chan.get c = a.chan.get c &&& b.chan.get c := by cases c <;> rfl

theorem diff_chan (a b : NoticeBits) (c : Chan) :
    (a.diff b).chan.get c = a.chan.get c &&& ~~~b.chan.get c := by cases c <;> rfl

theorem inter_hasCard (a b : NoticeBits) (k : CardKind) :
    (a.inter b).hasCard k = (a.hasCard k && b.hasCard k) := by
  simp only [hasCard_eq, NoticeBits.inter, BitVec.getLsbD_and]

theorem inter_hasChan (a b : NoticeBits) (c : Chan) (k : ChanKind) :
    (a.inter b).hasChan c k = (a.hasChan c k && b.hasChan c k) := by
  simp only [hasChan_eq, inter_chan, BitVec.getLsbD_and]

theorem diff_hasCard (a b : NoticeBits) (k : CardKind) :
    (a.diff b).hasCard k = (a.hasCard k && !b.hasCard k) := by
  simp [hasCard_eq, NoticeBits.diff, k.place_lt]

theorem diff_hasChan (a b : NoticeBits) (c : Chan) (k : ChanKind) :
    (a.diff b).hasChan c k = (a.hasChan c k && !b.hasChan c k) := by
  simp [hasChan_eq, diff_chan, k.place_lt]

theorem addCard_hasCard (n : NoticeBits) (j k : CardKind) :
    (n.addCard k).hasCard j = true ↔ n.hasCard j = true ∨ j = k := by
  simp [hasCard_eq, NoticeBits.addCard, k.bit_eq, j.place_lt, CardKind.place_inj]

theorem addChan_hasChan (n : NoticeBits) (c d : Chan) (j k : ChanKind) :
    (n.addChan c k).hasChan d j = true ↔ n.hasChan d j = true ∨ d = c ∧ j = k := by
  rw [hasChan_eq, hasChan_eq, NoticeBits.addChan, PerChan.get_set]
  by_cases h : d = c
  · subst h
    simp [k.bit_eq, j.place_lt, ChanKind.place_inj]
  · simp [h]

/-- The bits above the low `k` ones are clear exactly below 2 ^ k. -/
theorem and_not_lowOnes_eq_zero {w : Nat} (x m : BitVec w) {k : Nat}
    (hm : m.toNat = 2 ^ k - 1) : x &&& ~~~m = 0#w ↔ x.toNat < 2 ^ k := by
  have high : ∀ i, m.getLsbD i = decide (i < k) := fun i => by
    rw [BitVec.getLsbD, hm, Nat.testBit_two_pow_sub_one]
  constructor
  · intro h
    refine Nat.lt_pow_two_of_testBit _ (fun i hi => ?_)
    rcases Nat.lt_or_ge i w with hw | hw
    · have := congrArg (fun y => y.getLsbD i) h
      have clear : x.getLsbD i = false := by
        simpa only [BitVec.getLsbD_and, BitVec.getLsbD_not, high, hw, Nat.not_lt.mpr hi, decide_true,
          decide_false, Bool.not_false, Bool.and_true, Bool.true_and, BitVec.getLsbD_zero] using this
      exact clear
    · exact BitVec.getLsbD_of_ge x i hw
  · intro h
    refine BitVec.eq_of_getLsbD_eq (fun i hi => ?_)
    rcases Nat.lt_or_ge i k with hik | hik
    · simp [high, hik]
    · have : x.getLsbD i = false := Nat.testBit_lt_two_pow (lt_of_lt_of_le h (Nat.pow_le_pow_right (by decide) hik))
      simp [this]

/-- A legal set holds no bit but those of the four card and thirteen channel kinds (R176). -/
theorem legal_iff (n : NoticeBits) : n.legal = true ↔
    n.card.toNat < 16 ∧ ∀ c, (n.chan.get c).toNat < 8192 := by
  have card : n.card &&& ~~~0x0F#8 = 0#8 ↔ n.card.toNat < 16 :=
    and_not_lowOnes_eq_zero (k := 4) _ _ rfl
  have chan : ∀ x : BitVec 16, x &&& ~~~0x1FFF#16 = 0#16 ↔ x.toNat < 8192 := fun x =>
    and_not_lowOnes_eq_zero (k := 13) _ _ rfl
  have every : (∀ c, (n.chan.get c).toNat < 8192) ↔ n.chan.v0.toNat < 8192 ∧ n.chan.v1.toNat < 8192 ∧
      n.chan.v2.toNat < 8192 ∧ n.chan.v3.toNat < 8192 :=
    ⟨fun h => ⟨h .c0, h .c1, h .c2, h .c3⟩, fun ⟨h0, h1, h2, h3⟩ c => by cases c <;> assumption⟩
  rw [every, ← card, ← chan, ← chan, ← chan, ← chan, NoticeBits.legal, decide_eq_true_eq]
  simp [NoticeBits.diff, NoticeBits.empty, NoticeBits.kinds, PerChan.fill]

@[simp] theorem length_noticeBytes (n : NoticeBits) : (noticeBytes n).length = 9 := by simp [noticeBytes]

theorem numberAt_noticeBytes_card (n : NoticeBits) : numberAt (noticeBytes n) 0 1 = n.card.toNat := by
  simp [noticeBytes, numberAt_cons_zero]

theorem numberAt_noticeBytes_chan (n : NoticeBits) (c : Chan) :
    numberAt (noticeBytes n) (1 + 2 * chanIdx c) 2 = (n.chan.get c).toNat := by
  have bound : ∀ x : BitVec 16, x.toNat % 65536 = x.toNat := fun x => Nat.mod_eq_of_lt x.isLt
  cases c <;> simp (disch := simp) only [noticeBytes, chanIdx, PerChan.get, numberAt_append_right, numberAt_append_left, numberAt_be16, bound, length_be16, List.length_append, List.length_cons,
    List.length_nil, Nat.reduceAdd, Nat.reduceSub, Nat.reduceMul]

/-! ### NOTICE_ENABLE, NOTICE_READ and NOTICE_ACK (O14) -/

theorem getLsbD_iff {w : Nat} (x : BitVec w) (i : Nat) : x.getLsbD i = true ↔ x.toNat / 2 ^ i % 2 = 1 := by
  rw [BitVec.getLsbD, Nat.testBit_eq_decide_div_mod_eq, decide_eq_true_eq]

theorem hasCard_iff_bit (n : NoticeBits) (k : CardKind) :
    n.hasCard k = true ↔ numberAt (noticeBytes n) 0 1 / 2 ^ k.place % 2 = 1 := by
  rw [hasCard_eq, getLsbD_iff, numberAt_noticeBytes_card]

theorem hasChan_iff_bit (n : NoticeBits) (c : Chan) (k : ChanKind) : n.hasChan c k = true ↔
    numberAt (noticeBytes n) (1 + 2 * chanIdx c) 2 / 2 ^ k.place % 2 = 1 := by
  rw [hasChan_eq, getLsbD_iff, numberAt_noticeBytes_chan]

theorem legal_iff_numberAt (n : NoticeBits) : n.legal = true ↔ numberAt (noticeBytes n) 0 1 < 16 ∧
    ∀ d, numberAt (noticeBytes n) (1 + 2 * chanIdx d) 2 < 8192 := by
  simp only [legal_iff, numberAt_noticeBytes_card, numberAt_noticeBytes_chan]

theorem addCard_hasChan (n : NoticeBits) (k : CardKind) (c : Chan) (j : ChanKind) :
    (n.addCard k).hasChan c j = n.hasChan c j := rfl

theorem addChan_hasCard (n : NoticeBits) (c : Chan) (j : ChanKind) (k : CardKind) :
    (n.addChan c j).hasCard k = n.hasCard k := rfl

/-- The re-arm mark of each channel after NOTICE_ACK (R194). -/
theorem ack_rearm (n : Notices) (set : NoticeBits) (c : Chan) :
    (n.ack set).rearmTc.get c = (n.rearmTc.get c || set.hasChan c .tcLost) ∧
    (n.ack set).rearmPgm.get c = (n.rearmPgm.get c || set.hasChan c .pgmLoss) := by
  cases c <;> exact ⟨rfl, rfl⟩

/-- Settles O14: effect and reply of the three requests, then the bits of a carried set and of a raise. -/
theorem noticeRequestsReply : Obligations.NoticeRequestsReply := by
  refine ⟨fun s set idle => ⟨fun legal => ?_, fun bad => ?_, ?_, fun bad => ?_, fun legal => ?_⟩, ?_, ?_⟩
  · exact exec_idle (r := .noticeEnable set) (t := { s with notices := { s.notices with enable := set } }) idle rfl
      (if_pos legal)
  · exact exec_idle_refused (r := .noticeEnable set) idle rfl (if_neg (by simp [bad]))
  · exact exec_idle (r := .noticeRead) (t := s) idle rfl rfl
  · exact exec_idle_refused (r := .noticeAck set) idle rfl (if_neg (by simp [bad]))
  · exact ⟨s.notices.ack set, exec_idle (r := .noticeAck set) (t := { s with notices := s.notices.ack set }) idle rfl
      (if_pos legal), rfl, rfl, rfl, ack_rearm s.notices set⟩
  · rintro a b k c j _ rfl
    refine ⟨length_noticeBytes a, ?_, ?_, legal_iff_numberAt a, inter_hasCard a b k, inter_hasChan a b c j,
      diff_hasCard a b k, diff_hasChan a b c j⟩
    · cases k <;> exact hasCard_iff_bit a _
    · cases j <;> exact hasChan_iff_bit a c _
  · exact fun s c d k i j h => ⟨addCard_hasCard _ i k, addCard_hasChan _ k d h, addChan_hasCard _ c j i,
      addChan_hasChan _ c d h j⟩

/-! ### CH_DELAY, CH_SETUP and FAULT_CLEAR (O19) -/

/-- The standby byte of 6 to 254 names nothing (R181). -/
theorem standbyOf_none {e : Byte} (high : 5 < e.toNat) (ne : e ≠ 0xFF) : standbyOf e = none := by
  have : e.toNat ≠ 255 := fun h => ne (BitVec.eq_of_toNat_eq h)
  rw [standbyOf, if_neg this, portOf_none high, Option.map_none]

theorem standbyOf_portByte {e : Byte} {p : Option Port} (h : portByte p = [e]) : standbyOf e = some p := by
  obtain rfl : e = BitVec.ofNat 8 ((p.map portIdx).getD 255) := by simpa [portByte, be8] using h.symm
  cases p with
  | none => rfl
  | some p => cases p <;> rfl

theorem actChDelay_eq {ch : Byte} {c : Chan} (h : chanIdx c = ch.toNat) (target : Byte) (s : State) :
    actChDelay ch target s = (s.modChan c (fun x => { x with target := min 20 target.toNat }),
      okOr (decide (20 < target.toNat)), be8 (min 20 target.toNat) ++ be8 (s.chan c).delay) :=
  withChan_of_idx h s _

theorem actChSetup_eq {ch : Byte} {c : Chan} (h : chanIdx c = ch.toNat) (a b : Byte) {e : Byte} {p : Option Port}
    (known : standbyOf e = some p) (s : State) : actChSetup ch a b e s
      = (s.modChan c (fun x => { x with defaultGlide := cap250 a, holdTime := cap250 b, standby := p }),
        okOr (decide (250 < a.toNat) || decide (250 < b.toNat)),
        be8 (cap250 a) ++ be8 (cap250 b) ++ portByte p) := by
  rw [actChSetup, withChan_of_idx h, known]

/-- Settles O19. -/
theorem channelValuesStored : Obligations.ChannelValuesStored := by
  intro s ch a b e idle
  refine ⟨fun gt => ⟨?_, ?_, ?_⟩, fun c hc => ⟨?_, fun le => ?_, fun gt => ?_, fun high ne => ?_, fun p hp => ?_⟩⟩
  · exact exec_idle_refused (r := .chDelay ch a) idle rfl (withChan_of_gt gt _ _)
  · exact exec_idle_refused (r := .chSetup ch a b e) idle rfl (withChan_of_gt gt _ _)
  · exact exec_idle_refused (r := .faultClear ch) idle rfl (withChan_of_gt gt _ _)
  · exact exec_idle (r := .faultClear ch) (t := s.modChan c (fun x => { x with fault := none })) idle rfl
      (withChan_of_idx hc _ _)
  · refine exec_idle (r := .chDelay ch a) (code := .ok) (fields := [a, BitVec.ofNat 8 (s.chan c).delay])
      (t := s.modChan c (fun x => { x with target := a.toNat })) idle rfl ((actChDelay_eq hc _ _).trans ?_)
    rw [Nat.min_eq_right le, decide_eq_false (by omega), be8, BitVec.ofNat_toNat, BitVec.setWidth_eq]
    rfl
  · refine exec_idle (r := .chDelay ch a) (code := .okClamped) (fields := [20, BitVec.ofNat 8 (s.chan c).delay])
      (t := s.modChan c (fun x => { x with target := 20 })) idle rfl ((actChDelay_eq hc _ _).trans ?_)
    rw [Nat.min_eq_left (by omega), decide_eq_true gt]
    rfl
  · refine exec_idle_refused (r := .chSetup ch a b e) (code := .noSuch) idle rfl
      ((withChan_of_idx hc _ _).trans ?_)
    rw [standbyOf_none high ne]
  · refine ⟨(okOr (decide (250 < a.toNat) || decide (250 < b.toNat))).value, ?_, ?_⟩
    · refine exec_idle (r := .chSetup ch a b e)
        (code := okOr (decide (250 < a.toNat) || decide (250 < b.toNat)))
        (fields := be8 (cap250 a) ++ be8 (cap250 b) ++ [e])
        (t := s.modChan c (fun x => { x with
          defaultGlide := min 250 a.toNat, holdTime := min 250 b.toNat, standby := p })) idle rfl
        ((actChSetup_eq hc a b (standbyOf_portByte hp) _).trans ?_)
      rw [hp]
      rfl
    · by_cases clamped : 250 < a.toNat ∨ 250 < b.toNat
      · exact .inr ⟨by rw [← Bool.decide_or, decide_eq_true clamped]; rfl, clamped⟩
      · exact .inl ⟨by rw [← Bool.decide_or, decide_eq_false clamped]; rfl, by omega, by omega⟩

/-! ### SRC_READ and SRC_SET (O15, O16) -/

/-- A port has signal while its latest frame start is less than the silence limit ago (R39). -/
theorem hasSignal_iff (s : State) (p : Port) : s.hasSignal p = true ↔
    ∃ m, (s.src p).lastStart = some m ∧ s.now - m < s.silenceLimit := by
  rw [State.hasSignal]
  cases (s.src p).lastStart <;> simp

@[simp] theorem length_cropFields (fmt : Option Format) (k : Crop) : (cropFields fmt k).length = 9 := by
  cases k <;> simp [cropFields]

@[simp] theorem length_standingFields (s : State) (p : Port) : (standingFields s p).length = 18 := by
  simp [standingFields]

@[simp] theorem length_paramFields (fmt : Option Format) (x : Source) : (paramFields fmt x).length = 22 := by
  simp [paramFields]

theorem completeCount_eq (r : Ring) : r.completeCount = ([r.a, r.b, r.c].filter RingSlot.isComplete).length := by
  rw [Ring.completeCount]
  cases ha : r.a.isComplete <;> cases hb : r.b.isComplete <;> cases hc : r.c.isComplete <;> simp [ha, hb, hc]

theorem completeCount_le (r : Ring) : r.completeCount ≤ 3 := by
  rw [completeCount_eq]
  exact List.length_filter_le _ _

/-- The standing of a source, offset by offset (R59, R180). -/
theorem numberAt_standingFields (s : State) (p : Port) (l : List Byte) (h : l = standingFields s p) :
    numberAt l 0 1 = (s.src p).state.code % 256 ∧ numberAt l 1 1 = numberAt (chanByte (s.src p).owner) 0 1 ∧
    numberAt l 2 4 = (s.src p).lastInterval.toNat % 4294967296 ∧
    numberAt l 6 2 = (s.src p).lastW.toNat % 65536 ∧ numberAt l 8 2 = (s.src p).lastH.toNat % 65536 ∧
    numberAt l 10 1 = (s.src p).inRun % 256 ∧ numberAt l 11 1 = (s.src p).outRun % 256 ∧
    numberAt l 12 1 = (s.src p).goodRun % 256 ∧ numberAt l 13 1 = (s.src p).badRun % 256 ∧
    numberAt l 14 1 = (if (s.src p).rasterMark then 1 else 0) ∧
    numberAt l 15 1 = (if s.hasSignal p = true then 1 else 0) ∧
    numberAt l 16 1 = (s.src p).ring.completeCount % 256 ∧
    numberAt l 17 1 = (if (s.src p).ring.frozen.isSome then 1 else 0) := by
  subst h
  simp (disch := simp) only [standingFields, numberAt_append_right, numberAt_append_left, numberAt_be8, numberAt_be16,
    numberAt_be32, numberAt_flag, length_be8, length_be16, length_be32, length_flag, length_chanByte,
    List.length_append, Nat.reduceAdd, Nat.reduceSub, and_self]

/-- The parameters of a source, offset by offset after the crop (R180). -/
theorem numberAt_paramFields (fmt : Option Format) (x : Source) (l : List Byte) (h : l = paramFields fmt x) :
    numberAt l 0 1 = numberAt (cropFields fmt x.crop) 0 1 ∧ numberAt l 1 2 = numberAt (cropFields fmt x.crop) 1 2 ∧
    numberAt l 3 2 = numberAt (cropFields fmt x.crop) 3 2 ∧ numberAt l 5 2 = numberAt (cropFields fmt x.crop) 5 2 ∧
    numberAt l 7 2 = numberAt (cropFields fmt x.crop) 7 2 ∧
    numberAt l 9 1 = (if x.keyOn then 1 else 0) ∧ numberAt l 10 2 = x.kb % 65536 ∧
    numberAt l 12 2 = x.kr % 65536 ∧ numberAt l 14 2 = x.tlo % 65536 ∧ numberAt l 16 2 = x.wk % 65536 ∧
    numberAt l 18 4 = x.rk % 4294967296 := by
  subst h
  simp (disch := simp) only [paramFields, numberAt_append_right, numberAt_append_left, numberAt_be16,
    numberAt_be32, numberAt_flag, length_be16, length_flag, length_cropFields,
    List.length_append, Nat.reduceAdd, Nat.reduceSub, and_self]

/-- A rectangle as a crop is reported with kind 1. -/
theorem numberAt_cropFields_rect (fmt : Option Format) (r : Rect) (l : List Byte) (h : l = cropFields fmt (.rect r)) :
    numberAt l 0 1 = 1 ∧ numberAt l 1 2 = r.x % 65536 ∧ numberAt l 3 2 = r.y % 65536 ∧
    numberAt l 5 2 = r.w % 65536 ∧ numberAt l 7 2 = r.h % 65536 := by
  subst h
  obtain ⟨x, y, w, h⟩ := numberAt_rectBytes r
  simp (disch := simp) only [cropFields, numberAt_append_right, numberAt_append_left, numberAt_be8, x, y, w, h,
    length_be8, Nat.reduceSub, Nat.reduceMod, and_self]

/-- FULL is reported with kind 0 and the raster it stands for. -/
theorem numberAt_cropFields_full (fmt : Option Format) (l : List Byte) (h : l = cropFields fmt .full) :
    numberAt l 0 1 = 0 ∧ numberAt l 1 2 = 0 ∧ numberAt l 3 2 = 0 ∧
    (fmt = none → numberAt l 5 2 = 0 ∧ numberAt l 7 2 = 0) ∧
    ∀ f, fmt = some f → numberAt l 5 2 = f.width ∧ numberAt l 7 2 = f.height := by
  subst h
  cases fmt with
  | none => exact ⟨rfl, rfl, rfl, fun _ => ⟨rfl, rfl⟩, fun f hf => nomatch hf⟩
  | some f =>
    cases f <;> exact ⟨rfl, rfl, rfl, (nomatch ·), fun f' hf => Option.some.inj hf ▸ ⟨rfl, rfl⟩⟩

/-- A request that names no source is refused; one that names one goes on with it. -/
theorem actSrcRead_eq {src : Byte} {p : Port} (h : portIdx p = src.toNat) (s : State) :
    actSrcRead src s = (s, .ok, standingFields s p ++ paramFields s.format (s.src p)) := by
  rw [actSrcRead, portOf_idx h]

/-- Settles O15. -/
theorem sourceReadReports : Obligations.SourceReadReports := by
  refine ⟨?_, fun s src idle => ⟨fun gt => ?_, ?_⟩⟩
  · rintro s p _ rfl
    rw [hasSignal_iff, State.silenceLimit]
    cases s.format <;> rfl
  · refine exec_idle_refused (r := .srcRead src) (code := .noSuch) idle rfl ?_
    rw [act, actSrcRead, portOf_none gt]
  · rintro p _ hp rfl
    have shift : ∀ off n, off + n ≤ 18 → numberAt ([0x90, 0x00] ++ standingFields s p ++
        paramFields s.format (s.src p)) (off + 2) n = numberAt (standingFields s p) off n := fun off n h => by
      rw [numberAt_append_left (by simp; omega), numberAt_append_right n (by simp), List.length_cons,
        List.length_singleton, Nat.add_sub_cancel]
    have shiftParam : ∀ off n, numberAt ([0x90, 0x00] ++ standingFields s p ++
        paramFields s.format (s.src p)) (off + 20) n = numberAt (paramFields s.format (s.src p)) off n :=
      fun off n => by
        rw [numberAt_append_right n (by simp)]
        simp
    obtain ⟨state, owner, interval, lastW, lastH, inRun, outRun, goodRun, badRun, raster, signal, complete, frozen⟩ :=
      numberAt_standingFields s p _ rfl
    obtain ⟨kind, x, y, w, h, key, kb, kr, tlo, wk, rk⟩ := numberAt_paramFields s.format (s.src p) _ rfl
    refine ⟨exec_idle (r := .srcRead src) (t := s) idle rfl (actSrcRead_eq hp _), by simp,
      (shift 0 1 (by decide)).trans (state.trans ?_), (shift 1 1 (by decide)).trans (owner.trans (numberAt_chanByte _)),
      (shift 2 4 (by decide)).trans (interval.trans (Nat.mod_eq_of_lt (BitVec.isLt _))),
      (shift 6 2 (by decide)).trans (lastW.trans (Nat.mod_eq_of_lt (BitVec.isLt _))),
      (shift 8 2 (by decide)).trans (lastH.trans (Nat.mod_eq_of_lt (BitVec.isLt _))),
      (shift 10 1 (by decide)).trans inRun, (shift 11 1 (by decide)).trans outRun,
      (shift 12 1 (by decide)).trans goodRun, (shift 13 1 (by decide)).trans badRun,
      (shift 14 1 (by decide)).trans raster, (shift 15 1 (by decide)).trans signal,
      (shift 16 1 (by decide)).trans (complete.trans ?_), (shift 17 1 (by decide)).trans (frozen.trans ?_),
      fun full => ?_, fun r rect => ?_, (shiftParam 9 1).trans key, (shiftParam 10 2).trans kb,
      (shiftParam 12 2).trans kr, (shiftParam 14 2).trans tlo, (shiftParam 16 2).trans wk,
      (shiftParam 18 4).trans rk⟩
    · cases (s.src p).state <;> rfl
    · rw [Nat.mod_eq_of_lt (Nat.lt_of_le_of_lt (completeCount_le _) (by decide)), completeCount_eq]
    · cases (s.src p).ring.frozen <;> rfl
    · rw [shiftParam 0 1, shiftParam 1 2, shiftParam 3 2, shiftParam 5 2, shiftParam 7 2, kind, x, y, w, h]
      exact numberAt_cropFields_full _ _ (by rw [full])
    · rw [shiftParam 0 1, shiftParam 1 2, shiftParam 3 2, shiftParam 5 2, shiftParam 7 2, kind, x, y, w, h]
      exact numberAt_cropFields_rect s.format r _ (by rw [rect])

/-- The fields that R55 and R180 refuse with BAD_FIELD. -/
theorem srcBadField_iff (m : SrcMsg) : srcBadField m = true ↔ 1 < m.cropKind.toNat ∨ 1 < m.keyOn.toNat ∨
    m.cropKind.toNat = 1 ∧ (m.w.toNat < 2 ∨ m.h.toNat < 2) := by
  simp only [srcBadField, Bool.or_eq_true, Bool.and_eq_true, decide_eq_true_eq, or_assoc]

theorem actSrcSet_eq {m : SrcMsg} {p : Port} {k : Crop} {s : State} (h : portIdx p = m.src.toNat)
    (good : ¬ srcBadField m = true) (crop : srcCrop s.format m = some k) :
    actSrcSet m s = (s.modSrc p (storeParams m k), okOr (cropClamped m k || keyClamped m),
      paramFields s.format ((s.modSrc p (storeParams m k)).src p)) := by
  rw [actSrcSet, portOf_idx h]
  simp only [good, crop]
  rfl

/-- The two crops that SRC_SET stores without changing the value given. -/
theorem cropClamped_eq_false_iff (m : SrcMsg) (k : Crop) : cropClamped m k = false ↔
    k = .full ∨ k = .rect ⟨m.x.toNat, m.y.toNat, m.w.toNat, m.h.toNat⟩ := by
  cases k with
  | full => simp [cropClamped]
  | rect r =>
    rw [cropClamped, decide_eq_false_iff_not, ne_eq, not_not, srcRect, Crop.rect.injEq]
    exact ⟨.inr, fun h => h.resolve_left (nomatch ·)⟩

theorem clampTo_eq_iff {lo hi n : Nat} (h : lo ≤ hi) : clampTo lo hi n = n ↔ lo ≤ n ∧ n ≤ hi := by
  rw [clampTo]
  omega

theorem keyClamped_eq_false_iff (m : SrcMsg) : keyClamped m = false ↔
    64 ≤ m.kb.toNat ∧ m.kb.toNat ≤ 960 ∧ 64 ≤ m.kr.toNat ∧ m.kr.toNat ≤ 960 ∧ m.tlo.toNat ≤ 1791 ∧
    1 ≤ m.wk.toNat ∧ m.wk.toNat ≤ 1024 := by
  rw [keyClamped]
  simp only [Bool.or_eq_false_iff, decide_eq_false_iff_not, not_not, not_lt, clampTo_eq_iff (by decide : 64 ≤ 960),
    clampTo_eq_iff (by decide : 1 ≤ 1024), and_assoc]

theorem okOr_value_eq_ok_iff (b : Bool) : (okOr b).value = 0x00 ↔ b = false := by
  cases b <;> decide

/-- The crop a SRC_SET stores, its field cases being good (R55, R56). -/
theorem srcCrop_of_kind {fmt : Option Format} {m : SrcMsg} {k : Crop}
    (h : m.cropKind.toNat = 0 ∧ k = .full ∨ m.cropKind.toNat = 1 ∧ 2 ≤ m.w.toNat ∧ 2 ≤ m.h.toNat ∧
      ∃ f, fmt = some f ∧ k = .rect ⟨min (m.x.toNat / 2 * 2) (f.width - 2), min m.y.toNat (f.height - 2),
        min (m.w.toNat / 2 * 2) (f.width - min (m.x.toNat / 2 * 2) (f.width - 2)),
        min m.h.toNat (f.height - min m.y.toNat (f.height - 2))⟩) : srcCrop fmt m = some k := by
  rcases h with ⟨kind, rfl⟩ | ⟨kind, -, -, f, rfl, rfl⟩
  · rw [srcCrop, if_neg (by omega)]
  · rw [srcCrop, if_pos kind]
    rfl

/-- Settles O16. -/
theorem sourceSetStoresClamped : Obligations.SourceSetStoresClamped := by
  refine ⟨fun s m idle => ⟨fun gt => ?_, fun le bad => ?_, fun le key kind w h none => ?_, fun p k hp key crop => ?_⟩,
    by decide, by decide, by decide, fun x cb cr off => by rw [keyAlpha, if_neg (by simp [off])]⟩
  · refine exec_idle_refused (r := .srcSet m) (code := .noSuch) idle rfl ?_
    rw [act, actSrcSet, portOf_none gt]
  · obtain ⟨p, hp⟩ := exists_portOf le
    refine exec_idle_refused (r := .srcSet m) (code := .badField) idle rfl ?_
    rw [act, actSrcSet, portOf_idx hp]
    exact if_pos ((srcBadField_iff m).mpr bad)
  · obtain ⟨p, hp⟩ := exists_portOf le
    refine exec_idle_refused (r := .srcSet m) (code := .noFormat) idle rfl ?_
    have noCrop : srcCrop (s.hearing (.request (.srcSet m))).format m = .none := by
      show srcCrop s.format m = .none
      rw [srcCrop, if_pos kind, none, Option.map_none]
    rw [act, actSrcSet, portOf_idx hp]
    simp only [noCrop]
    exact if_neg (fun h => by rw [srcBadField_iff] at h; omega)
  · have good : ¬ srcBadField m = true := by
      rw [srcBadField_iff]
      omega
    refine ⟨(okOr (cropClamped m k || keyClamped m)).value, _, rfl, ?_, ?_, ?_⟩
    · exact exec_idle (r := .srcSet m) (t := s.modSrc p (storeParams m k)) idle rfl
        (actSrcSet_eq hp good (srcCrop_of_kind crop))
    · cases cropClamped m k || keyClamped m
      · exact .inl rfl
      · exact .inr rfl
    · rw [okOr_value_eq_ok_iff, Bool.or_eq_false_iff, cropClamped_eq_false_iff, keyClamped_eq_false_iff]

end Sys2Proof.Machine
end

section
/-! PROOFS. The layouts of the reading replies: what stands at an offset, the reply of CH_READ, and the records of
zones, cues, faults, blocks and action parts (R174, R175, R182, R186, R188, R189). -/

namespace Sys2Proof.Machine

variable {s t : State}

/-! ### What stands at an offset -/

/-- The list `m` stands in `l` at offset `k`. -/
def StandsAt (l : List Byte) (k : Nat) (m : List Byte) : Prop := (l.drop k).take m.length = m

theorem StandsAt.whole (l : List Byte) : StandsAt l 0 l := by
  rw [StandsAt, List.drop_zero, List.take_length]

theorem StandsAt.right {x : List Byte} {k : Nat} (y : List Byte) (h : x.length = k) : StandsAt (x ++ y) k y := by
  rw [StandsAt, List.drop_left' h, List.take_length]

theorem StandsAt.length_le {l m : List Byte} {k : Nat} (h : StandsAt l k m) : m.length ≤ l.length - k := by
  have := congrArg List.length h
  rw [List.length_take, List.length_drop] at this
  omega

theorem StandsAt.left {x m : List Byte} {k : Nat} (h : StandsAt x k m) (y : List Byte) : StandsAt (x ++ y) k m := by
  rcases Nat.le_total k x.length with hk | hk
  · have bound := h.length_le
    rw [StandsAt, List.drop_append_of_le_length hk,
      List.take_append_of_le_length (by rw [List.length_drop]; exact bound)]
    exact h
  · obtain rfl : m = [] := List.eq_nil_of_length_eq_zero (by have := h.length_le; omega)
    rfl

theorem StandsAt.after {m y : List Byte} {k : Nat} (h : StandsAt y k m) (x : List Byte) :
    StandsAt (x ++ y) (x.length + k) m := by
  rw [StandsAt, List.drop_append, List.drop_of_length_le (by omega), List.nil_append, Nat.add_sub_cancel_left]
  exact h

/-- A slice within what stands at an offset. -/
theorem StandsAt.slice {l m : List Byte} {k : Nat} (h : StandsAt l k m) {off n : Nat} (fit : off + n ≤ m.length) :
    (l.drop (k + off)).take n = (m.drop off).take n := by
  conv_rhs => rw [← (h : (l.drop k).take m.length = m)]
  rw [List.drop_take, List.take_take, List.drop_drop, Nat.min_eq_left (by omega)]

/-- A number within what stands at an offset. -/
theorem StandsAt.number {l m : List Byte} {k : Nat} (h : StandsAt l k m) {off n : Nat} (fit : off + n ≤ m.length) :
    numberAt l (k + off) n = numberAt m off n := by
  rw [numberAt, h.slice fit, numberAt]

/-- A part of what stands at an offset. -/
theorem StandsAt.trans {l m q : List Byte} {k off : Nat} (h : StandsAt l k m) (part : StandsAt m off q) :
    StandsAt l (k + off) q := by
  rcases Nat.le_total off m.length with hk | hk
  · have bound := part.length_le
    rw [StandsAt, h.slice (by omega)]
    exact part
  · obtain rfl : q = [] := List.eq_nil_of_length_eq_zero (by have := part.length_le; omega)
    rfl

/-! ### Lengths -/

@[simp] theorem length_padTo (n : Nat) (l : List Byte) : (padTo n l).length = n := by
  simp [padTo]

@[simp] theorem length_blockBytes (fmt : Option Format) (b : Block) : (blockBytes fmt b).length = 12 := by
  cases b with
  | mk anchor height fx fy fallbacks => cases height <;> simp [blockBytes]

@[simp] theorem length_datedBytes (fmt : Option Format) (d : Dated) : (datedBytes fmt d).length = 6 := by
  simp [datedBytes]

@[simp] theorem length_actionBytes (fmt : Option Format) (a : Action) : (actionBytes fmt a).length = 20 := by
  simp [actionBytes]

@[simp] theorem length_onAirFields (o : Option OnAir) : (onAirFields o).length = 8 := by
  cases o with
  | none => simp [onAirFields]
  | some o =>
    cases o with
    | mk src level fade => cases fade <;> simp [onAirFields]

@[simp] theorem length_pathFields (fmt : Option Format) (ch : Channel) : (pathFields fmt ch).length = 22 := by
  simp [pathFields]

@[simp] theorem length_wordFields (x : Selection) : (wordFields x).length = 7 := by
  rw [wordFields]
  cases x.frame.bind PgmFrame.word <;> simp

@[simp] theorem length_requestedFields (fmt : Option Format) (ch : Channel) :
    (requestedFields fmt ch).length = 61 := by
  simp [requestedFields]

@[simp] theorem length_resolvedFields (ch : Channel) : (resolvedFields ch).length = 10 := by
  simp [resolvedFields]

@[simp] theorem length_shownFields (ch : Channel) : (shownFields ch).length = 19 := by
  rw [shownFields]
  cases ch.glide <;> simp

@[simp] theorem length_insetFields (s : State) (c : Chan) : (insetFields s c).length = 33 := by
  simp [insetFields]

@[simp] theorem length_listFields (ch : Channel) : (listFields ch).length = 25 := by
  rw [listFields]
  cases ch.lastFailure <;> cases ch.lastMarker <;> simp

@[simp] theorem length_channelFields (s : State) (c : Chan) : (channelFields s c).length = 178 := by
  simp [channelFields]

/-- The groups of CH_READ's reply stand one after another (R182). -/
theorem standsAt_channelFields (s : State) (c : Chan) (l : List Byte) (h : l = [0xA3, 0x00] ++ channelFields s c) :
    StandsAt l 2 (be8 (chanIdx c)) ∧ StandsAt l 3 (pathFields s.format (s.chan c)) ∧
    StandsAt l 25 (wordFields (s.chan c).sel) ∧ StandsAt l 32 (requestedFields s.format (s.chan c)) ∧
    StandsAt l 93 (resolvedFields (s.chan c)) ∧ StandsAt l 103 (shownFields (s.chan c)) ∧
    StandsAt l 122 (insetFields s c) ∧ StandsAt l 155 (listFields (s.chan c)) := by
  subst h
  refine ⟨.after (k := 0) ?_ [0xA3, 0x00], .after (k := 1) ?_ [0xA3, 0x00], .after (k := 23) ?_ [0xA3, 0x00],
    .after (k := 30) ?_ [0xA3, 0x00], .after (k := 91) ?_ [0xA3, 0x00], .after (k := 101) ?_ [0xA3, 0x00],
    .after (k := 120) ?_ [0xA3, 0x00], .after (k := 153) ?_ [0xA3, 0x00]⟩
  · exact (((((((StandsAt.whole _).left _).left _).left _).left _).left _).left _).left _
  · exact ((((((StandsAt.right _ (by simp)).left _).left _).left _).left _).left _).left _
  · exact (((((StandsAt.right _ (by simp)).left _).left _).left _).left _).left _
  · exact ((((StandsAt.right _ (by simp)).left _).left _).left _).left _
  · exact (((StandsAt.right _ (by simp)).left _).left _).left _
  · exact ((StandsAt.right _ (by simp)).left _).left _
  · exact (StandsAt.right _ (by simp)).left _
  · exact StandsAt.right _ (by simp)

/-! ### The groups of CH_READ's reply (R182) -/

/-- A mode or none, as an index. -/
theorem numberAt_modeByte (m : Option Mode) : numberAt (modeByte m) 0 1 = (match m with
    | none => 255 | some .bypass => 0 | some .thru => 1 | some .auto => 2) := by
  cases m with
  | none => rfl
  | some m => cases m <;> rfl

theorem numberAt_portByte (p : Option Port) : (p = none → numberAt (portByte p) 0 1 = 255) ∧
    ∀ q, p = some q → numberAt (portByte p) 0 1 = portIdx q := by
  cases p with
  | none => exact ⟨fun _ => rfl, nofun⟩
  | some p => exact ⟨nofun, fun q h => by cases h; cases p <;> rfl⟩

section groups
variable {l : List Byte} {k : Nat} {fmt : Option Format} {ch : Channel}

theorem pathFields_laidOut (h : StandsAt l k (pathFields fmt ch)) :
    numberAt l k 1 = ch.mode.code % 256 ∧
    numberAt l (k + 1) 1 = numberAt (modeByte ch.pendingMode) 0 1 ∧
    numberAt l (k + 2) 1 = (if ch.deferred.isSome then 1 else 0) ∧
    numberAt l (k + 3) 1 = (ch.deferred.getD []).length % 256 ∧
    numberAt l (k + 4) 1 = ch.relay.code % 256 ∧ numberAt l (k + 5) 1 = ch.pgm.code % 256 ∧
    numberAt l (k + 6) 1 = ch.target % 256 ∧ numberAt l (k + 7) 1 = ch.delay % 256 ∧
    numberAt l (k + 8) 1 = ch.slew % 256 ∧ numberAt l (k + 9) 4 = ch.label % 4294967296 ∧
    numberAt l (k + 18) 1 = ch.track.code % 256 ∧ numberAt l (k + 19) 2 = ch.flywheel % 65536 ∧
    numberAt l (k + 21) 1 = (if ch.owed then 1 else 0) := by
  have num : ∀ {off n}, off + n ≤ 22 → numberAt l (k + off) n = numberAt (pathFields fmt ch) off n :=
    fun fit => h.number (by simpa using fit)
  have first : numberAt l k 1 = numberAt (pathFields fmt ch) 0 1 := num (off := 0) (n := 1) (by decide)
  simp (disch := simp) only [first, num, pathFields, labelBytes, numberAt_append_right, numberAt_append_left,
    numberAt_be8, numberAt_be16, numberAt_be32, numberAt_flag, length_be8, length_be16, length_be32, length_flag,
    length_modeByte, length_timeBytes, List.length_append, Nat.reduceAdd, Nat.reduceSub, and_self]

theorem pathFields_timecode (h : StandsAt l k (pathFields fmt ch)) :
    (l.drop (k + 13)).take 5 = timeBytes fmt ch.label := by
  have time : StandsAt (pathFields fmt ch) 13 (timeBytes fmt ch.label) :=
    (((((StandsAt.right _ rfl).after _ : StandsAt (_ ++ labelBytes fmt ch.label) (9 + 4) _)).left _).left _).left _
  simpa [StandsAt] using h.trans time

theorem wordFields_laidOut {x : Selection} (h : StandsAt l k (wordFields x)) :
    numberAt l k 1 = x.status.code % 256 ∧
    ((∀ q, x.frame = some q → q.word = none) → numberAt l (k + 1) 6 = 0) ∧
    ∀ q w, x.frame = some q → q.word = some w → (l.drop (k + 1)).take 6
      = [w.h, w.m, w.s, w.ff, if w.pair then 1 else 0, if w.drop then 1 else 0] := by
  have num : ∀ {off n}, off + n ≤ 7 → numberAt l (k + off) n = numberAt (wordFields x) off n :=
    fun fit => h.number (by simpa using fit)
  refine ⟨(num (off := 0) (n := 1) (by decide)).trans ?_, fun none => (num (by decide)).trans ?_,
    fun q w frame word => ?_⟩
  · rw [wordFields, numberAt_append_left (by simp), numberAt_be8]
  · have noWord : x.frame.bind PgmFrame.word = .none := by
      cases hx : x.frame with
      | none => rfl
      | some q => exact none q hx
    rw [wordFields, noWord]
    rfl
  · rw [h.slice (by simp), wordFields, frame, Option.bind_some, word]
    rfl

/-- A rectangle after its present byte. -/
theorem presentRect_laidOut {r : Option Rect} (h : StandsAt l k (flag r.isSome ++ rectBytes r)) :
    (r = none → numberAt l k 9 = 0) ∧
    ∀ q, r = some q → numberAt l k 1 = 1 ∧ numberAt l (k + 1) 2 = q.x % 65536 ∧
      numberAt l (k + 3) 2 = q.y % 65536 ∧ numberAt l (k + 5) 2 = q.w % 65536 ∧
      numberAt l (k + 7) 2 = q.h % 65536 := by
  have num : ∀ {off n}, off + n ≤ 9 → numberAt l (k + off) n = numberAt (flag r.isSome ++ rectBytes r) off n :=
    fun fit => h.number (by simpa using fit)
  refine ⟨?_, ?_⟩
  · rintro rfl
    exact num (off := 0) (by decide)
  · rintro q rfl
    have first : numberAt l k 1 = 1 := num (off := 0) (n := 1) (by decide)
    obtain ⟨x, y, w, h⟩ := numberAt_rectBytes q
    simp (disch := simp) only [first, num, numberAt_append_right, length_flag, Nat.reduceSub, x, y, w, h, and_self]

theorem resolvedFields_laidOut (h : StandsAt l k (resolvedFields ch)) :
    (ch.resolved = none → numberAt l k 9 = 0) ∧
    (∀ q, ch.resolved = some q → numberAt l k 1 = 1 ∧ numberAt l (k + 1) 2 = q.x % 65536 ∧
      numberAt l (k + 3) 2 = q.y % 65536 ∧ numberAt l (k + 5) 2 = q.w % 65536 ∧
      numberAt l (k + 7) 2 = q.h % 65536) ∧
    numberAt l (k + 9) 1 = outcomeCode ch.outcome % 256 := by
  obtain ⟨none, some⟩ := presentRect_laidOut (h.trans ((StandsAt.whole _).left _))
  refine ⟨none, some, ?_⟩
  rw [h.number (by simp), resolvedFields, numberAt_append_right _ (by simp)]
  simp [numberAt_be8]

theorem shownFields_laidOut (h : StandsAt l k (shownFields ch)) :
    (ch.displayed = none → numberAt l k 9 = 0) ∧
    (∀ q, ch.displayed = some q → numberAt l k 1 = 1 ∧ numberAt l (k + 1) 2 = q.x % 65536 ∧
      numberAt l (k + 3) 2 = q.y % 65536 ∧ numberAt l (k + 5) 2 = q.w % 65536 ∧
      numberAt l (k + 7) 2 = q.h % 65536) ∧
    (ch.glide = none → numberAt l (k + 9) 9 = 0) ∧
    (∀ g, ch.glide = some g → numberAt l (k + 9) 1 = 1 ∧ numberAt l (k + 10) 2 = g.target.x % 65536 ∧
      numberAt l (k + 12) 2 = g.target.y % 65536 ∧ numberAt l (k + 14) 2 = g.target.h % 65536 ∧
      numberAt l (k + 16) 1 = g.count % 256 ∧ numberAt l (k + 17) 1 = g.step % 256) ∧
    numberAt l (k + 18) 1 = ch.defaultGlide % 256 := by
  obtain ⟨none, some⟩ := presentRect_laidOut (h.trans (((StandsAt.whole _).left _).left _))
  have num : ∀ {off n}, off + n ≤ 19 → numberAt l (k + off) n = numberAt (shownFields ch) off n :=
    fun fit => h.number (by simpa using fit)
  refine ⟨none, some, fun noGlide => ?_, fun g glide => ?_, ?_⟩
  · rw [num (by decide), shownFields, noGlide, numberAt_append_left (by simp), numberAt_append_right _ (by simp)]
    simp [numberAt]
  · simp (disch := simp) only [num, shownFields, glide, numberAt_append_right, numberAt_append_left,
      numberAt_be8, numberAt_be16, length_be8, length_be16, length_flag, length_rectBytes,
      List.length_append, Nat.reduceAdd, Nat.reduceSub, Nat.reduceMod, and_self]
  · rw [num (by decide), shownFields]
    cases ch.glide <;>
    · rw [numberAt_append_right _ (by simp)]
      simp [numberAt_be8]

/-- An entry of records of equal length, and the zeros after the last one. -/
theorem slice_flatMap {α : Type} {n : Nat} (g : α → List Byte) (len : ∀ a, (g a).length = n) (z : List Byte) :
    ∀ (as : List α) (i : Nat) (a : α), as[i]? = some a → ((as.flatMap g ++ z).drop (n * i)).take n = g a
  | a :: as, 0, _, h => by
    cases h
    rw [List.flatMap_cons, List.append_assoc, Nat.mul_zero, List.drop_zero, List.take_left' (len a)]
  | a :: as, i + 1, b, h => by
    rw [List.flatMap_cons, List.append_assoc, Nat.mul_succ, Nat.add_comm, ← List.drop_drop, List.drop_left' (len a)]
    exact slice_flatMap g len z as i b h

theorem length_flatMap_of_length {α : Type} {n : Nat} (g : α → List Byte) (len : ∀ a, (g a).length = n) (as : List α) :
    (as.flatMap g).length = n * as.length := by
  induction as with
  | nil => rfl
  | cons a as ih => rw [List.flatMap_cons, List.length_append, len, ih, List.length_cons, Nat.mul_succ, Nat.add_comm]

theorem slice_flatMap_zeros {α : Type} {n m : Nat} (g : α → List Byte) (len : ∀ a, (g a).length = n) (as : List α)
    {i : Nat} (past : as.length ≤ i) (fit : n * i + n ≤ m) :
    ((as.flatMap g ++ List.replicate m 0).drop (n * i)).take n = List.replicate n 0 := by
  have bound : n * as.length ≤ n * i := Nat.mul_le_mul_left n past
  rw [List.drop_append, List.drop_of_length_le (by rw [length_flatMap_of_length g len]; exact bound), List.nil_append,
    length_flatMap_of_length g len, List.drop_replicate, List.take_replicate, Nat.min_eq_left (by omega)]

theorem requestedFields_laidOut (h : StandsAt l k (requestedFields fmt ch)) :
    (l.drop k).take 12 = blockBytes fmt ch.requested ∧ numberAt l (k + 12) 1 = ch.stack.length % 256 ∧
    (∀ i b, i < 4 → ch.stack[i]? = some b → (l.drop (k + 13 + 12 * i)).take 12 = blockBytes fmt b) ∧
    ∀ i, ch.stack.length ≤ i → i < 4 → (l.drop (k + 13 + 12 * i)).take 12 = List.replicate 12 0 := by
  have place : ∀ i, i < 4 → (l.drop (k + 13 + 12 * i)).take 12
      = ((ch.stack.flatMap (blockBytes fmt) ++ List.replicate 48 0).drop (12 * i)).take 12 := fun i hi => by
    have stack : StandsAt (requestedFields fmt ch) 13 (padTo 48 (ch.stack.flatMap (blockBytes fmt))) :=
      .right _ (by simp)
    rw [(h.trans stack).slice (by simp; omega), padTo, List.drop_take, List.take_take, Nat.min_eq_left (by omega)]
  refine ⟨?_, ?_, fun i b hi hb => ?_, fun i past hi => ?_⟩
  · simpa [StandsAt] using h.trans (((StandsAt.whole _).left _).left _)
  · rw [h.number (by simp), requestedFields, numberAt_append_left (by simp), numberAt_append_right _ (by simp)]
    simp [numberAt_be8]
  · rw [place i hi, slice_flatMap _ (length_blockBytes fmt) _ _ _ _ hb]
  · rw [place i hi, slice_flatMap_zeros _ (length_blockBytes fmt) _ past (by omega)]

theorem onAirFields_laidOut {on : Option OnAir} (h : StandsAt l k (onAirFields on)) :
    (on = none → numberAt l k 1 = 255 ∧ numberAt l (k + 1) 7 = 0) ∧
    ∀ o, on = some o → numberAt l k 1 = portIdx o.src ∧ numberAt l (k + 1) 2 = o.level % 65536 ∧
      (o.fade = none → numberAt l (k + 3) 5 = 0) ∧
      ∀ fd, o.fade = some fd → numberAt l (k + 3) 1 = 1 ∧ numberAt l (k + 4) 2 = fd.target % 65536 ∧
        numberAt l (k + 6) 1 = fd.count % 256 ∧ numberAt l (k + 7) 1 = fd.step % 256 := by
  have num : ∀ {off n}, off + n ≤ 8 → numberAt l (k + off) n = numberAt (onAirFields on) off n :=
    fun fit => h.number (by simpa using fit)
  have first : numberAt l k 1 = numberAt (onAirFields on) 0 1 := num (off := 0) (n := 1) (by decide)
  refine ⟨?_, ?_⟩
  · rintro rfl
    exact ⟨first, num (off := 1) (n := 7) (by decide)⟩
  · rintro o rfl
    have src : numberAt (be8 (portIdx o.src)) 0 1 = portIdx o.src := by cases o.src <;> rfl
    refine ⟨?_, ?_, fun noFade => ?_, fun fd fade => ?_⟩
    · rw [first, onAirFields, numberAt_append_left (by simp), numberAt_append_left (by simp), src]
    · rw [num (by decide), onAirFields, numberAt_append_left (by simp), numberAt_append_right _ (by simp)]
      simp [numberAt_be16]
    · rw [num (by decide), onAirFields, noFade]
      rfl
    · simp (disch := simp) only [num, onAirFields, fade, numberAt_append_right, numberAt_append_left, numberAt_be8,
        numberAt_be16, length_be8, length_be16, List.length_append, Nat.reduceAdd, Nat.reduceSub,
        Nat.reduceMod, and_self]

theorem insetFields_laidOut {s : State} {c : Chan} (h : StandsAt l k (insetFields s c)) :
    numberAt l k 1 = (s.chan c).inset.code % 256 ∧ numberAt l (k + 1) 1 = pausedCode (s.chan c).paused % 256 ∧
    numberAt l (k + 2) 1 = (if (s.chan c).exitMark then 1 else 0) ∧
    StandsAt l (k + 3) (onAirFields (s.chan c).cur) ∧ StandsAt l (k + 11) (onAirFields (s.chan c).out) ∧
    StandsAt l (k + 19) (rectBytes (s.chan c).outRect) ∧
    numberAt l (k + 27) 1 = (s.chan c).holdCount % 256 ∧ numberAt l (k + 28) 1 = (s.chan c).holdTime % 256 ∧
    numberAt l (k + 29) 1 = numberAt (portByte (s.chan c).home) 0 1 ∧
    numberAt l (k + 30) 1 = numberAt (portByte (s.chan c).standby) 0 1 ∧
    numberAt l (k + 31) 1 = spareCode s.spare c % 256 ∧
    numberAt l (k + 32) 1 = (s.spare.claimants c).length % 256 := by
  have num : ∀ {off n}, off + n ≤ 33 → numberAt l (k + off) n = numberAt (insetFields s c) off n :=
    fun fit => h.number (by simpa using fit)
  have first : numberAt l k 1 = numberAt (insetFields s c) 0 1 := num (off := 0) (n := 1) (by decide)
  have cur : StandsAt l (k + 3) (onAirFields (s.chan c).cur) := h.trans
    (((((((((StandsAt.right _ (by simp)).left _).left _).left _).left _).left _).left _).left _).left _)
  have out : StandsAt l (k + 11) (onAirFields (s.chan c).out) := h.trans
    ((((((((StandsAt.right _ (by simp)).left _).left _).left _).left _).left _).left _).left _)
  have rect : StandsAt l (k + 19) (rectBytes (s.chan c).outRect) := h.trans
    (((((((StandsAt.right _ (by simp)).left _).left _).left _).left _).left _).left _)
  simp (disch := simp) only [cur, out, rect, first, num, insetFields, numberAt_append_right, numberAt_append_left,
    numberAt_be8, numberAt_flag, length_be8, length_flag, length_onAirFields, length_rectBytes, length_portByte,
    List.length_append, Nat.reduceAdd, Nat.reduceSub, and_self]

theorem rectBytes_laidOut {r : Option Rect} (h : StandsAt l k (rectBytes r)) :
    (r = none → numberAt l k 8 = 0) ∧ ∀ q, r = some q → numberAt l k 2 = q.x % 65536 ∧
      numberAt l (k + 2) 2 = q.y % 65536 ∧ numberAt l (k + 4) 2 = q.w % 65536 ∧ numberAt l (k + 6) 2 = q.h % 65536 := by
  have num : ∀ {off n}, off + n ≤ 8 → numberAt l (k + off) n = numberAt (rectBytes r) off n :=
    fun fit => h.number (by simpa using fit)
  refine ⟨?_, ?_⟩
  · rintro rfl
    exact num (off := 0) (n := 8) (by decide)
  · rintro q rfl
    have first : numberAt l k 2 = numberAt (rectBytes (some q)) 0 2 := num (off := 0) (n := 2) (by decide)
    obtain ⟨x, y, w, h⟩ := numberAt_rectBytes q
    simp (disch := simp) only [first, num, x, y, w, h, and_self]

/-- The spare's code and the number of claimants (R176). -/
theorem spareCode_eq (sp : Spare) (c : Chan) :
    (sp.hasIt c = false → spareCode sp c = 0 ∧ (sp.claimants c).length = 0) ∧
    ∀ q, sp = .held c q → spareCode sp c = (if Claimant.crossfade ∈ q then 2 else 1) ∧ sp.claimants c = q := by
  refine ⟨fun without => ⟨by rw [spareCode, if_neg (by simp [without])], ?_⟩, ?_⟩
  · cases sp with
    | free => rfl
    | held d q =>
      have ne : ¬ d = c := by simpa [Spare.hasIt] using without
      rw [Spare.claimants, if_neg ne, List.length_nil]
  · rintro q rfl
    simp [spareCode, Spare.hasIt, Spare.inUse, Spare.claimants]

/-- The counters of the dispatcher, its last failure and its last marker as `listFields` writes them. -/
def listCounts (ch : Channel) : List Byte :=
  be8 ch.cues.length ++ be8 (preparedTags ch.cues).length ++ be16 ch.fired.toNat ++ be16 ch.failed.toNat ++
  be16 ch.missed.toNat ++ be16 ch.removed.toNat

def failureFields : Option Failure → List Byte
  | some x => be8 1 ++ be16 x.tag ++ [x.reason.value] ++ be8 x.action.code ++ be32 x.label
  | none => [0, 0, 0, 0, 0, 0, 0, 0, 0]

def markerFields : Option Marker → List Byte
  | some x => be8 1 ++ be8 x.code ++ be32 x.label
  | none => [0, 0, 0, 0, 0, 0]

theorem listFields_eq (ch : Channel) :
    listFields ch = listCounts ch ++ failureFields ch.lastFailure ++ markerFields ch.lastMarker := by
  rw [listFields, listCounts]
  cases ch.lastFailure <;> cases ch.lastMarker <;> rfl

@[simp] theorem length_listCounts (ch : Channel) : (listCounts ch).length = 10 := by simp [listCounts]

@[simp] theorem length_failureFields (f : Option Failure) : (failureFields f).length = 9 := by
  cases f <;> simp [failureFields]

@[simp] theorem length_markerFields (m : Option Marker) : (markerFields m).length = 6 := by
  cases m <;> simp [markerFields]

theorem listFields_standsAt (h : StandsAt l k (listFields ch)) : StandsAt l k (listCounts ch) ∧
    StandsAt l (k + 10) (failureFields ch.lastFailure) ∧ StandsAt l (k + 19) (markerFields ch.lastMarker) := by
  rw [listFields_eq] at h
  exact ⟨h.trans (((StandsAt.whole _).left _).left _), h.trans ((StandsAt.right _ (by simp)).left _),
    h.trans (StandsAt.right _ (by simp))⟩

theorem listCounts_laidOut (h : StandsAt l k (listCounts ch)) : numberAt l k 1 = ch.cues.length % 256 ∧
    numberAt l (k + 1) 1 = (ch.cues.filter (fun q => q.prepared)).length % 256 ∧
    numberAt l (k + 2) 2 = ch.fired.toNat ∧ numberAt l (k + 4) 2 = ch.failed.toNat ∧
    numberAt l (k + 6) 2 = ch.missed.toNat ∧ numberAt l (k + 8) 2 = ch.removed.toNat := by
  have num : ∀ {off n}, off + n ≤ 10 → numberAt l (k + off) n = numberAt (listCounts ch) off n :=
    fun fit => h.number (by simpa using fit)
  have first : numberAt l k 1 = numberAt (listCounts ch) 0 1 := num (off := 0) (n := 1) (by decide)
  have half : ∀ x : Half, x.toNat % 65536 = x.toNat := fun x => Nat.mod_eq_of_lt x.isLt
  simp (disch := simp) only [first, num, listCounts, preparedTags, List.length_map, numberAt_append_right,
    numberAt_append_left, numberAt_be8, numberAt_be16, half, length_be8, length_be16, List.length_append,
    Nat.reduceAdd, Nat.reduceSub, and_self]

theorem failureFields_laidOut {f : Option Failure} (h : StandsAt l k (failureFields f)) :
    (f = none → numberAt l k 9 = 0) ∧ ∀ x, f = some x → numberAt l k 1 = 1 ∧ numberAt l (k + 1) 2 = x.tag % 65536 ∧
      numberAt l (k + 3) 1 = x.reason.value.toNat ∧ numberAt l (k + 4) 1 = x.action.code ∧
      numberAt l (k + 5) 4 = x.label % 4294967296 := by
  have num : ∀ {off n}, off + n ≤ 9 → numberAt l (k + off) n = numberAt (failureFields f) off n :=
    fun fit => h.number (by simpa using fit)
  refine ⟨?_, ?_⟩
  · rintro rfl
    exact num (off := 0) (n := 9) (by decide)
  · rintro x rfl
    have first : numberAt l k 1 = 1 := num (off := 0) (n := 1) (by decide)
    have action : x.action.code % 256 = x.action.code := by cases x.action <;> rfl
    simp (disch := simp) only [first, num, failureFields, numberAt_append_right, numberAt_append_left, numberAt_be8,
      numberAt_be16, numberAt_be32, numberAt_cons_zero, action, length_be8, length_be16, List.length_append,
      List.length_cons, List.length_nil, Nat.reduceAdd, Nat.reduceSub, and_self]

theorem markerFields_laidOut {m : Option Marker} (h : StandsAt l k (markerFields m)) :
    (m = none → numberAt l k 6 = 0) ∧ ∀ x, m = some x → numberAt l k 1 = 1 ∧ numberAt l (k + 1) 1 = x.code % 256 ∧
      numberAt l (k + 2) 4 = x.label % 4294967296 := by
  have num : ∀ {off n}, off + n ≤ 6 → numberAt l (k + off) n = numberAt (markerFields m) off n :=
    fun fit => h.number (by simpa using fit)
  refine ⟨?_, ?_⟩
  · rintro rfl
    exact num (off := 0) (n := 6) (by decide)
  · rintro x rfl
    have first : numberAt l k 1 = 1 := num (off := 0) (n := 1) (by decide)
    simp (disch := simp) only [first, num, markerFields, numberAt_append_right, numberAt_append_left, numberAt_be8,
      numberAt_be32, length_be8, List.length_append, Nat.reduceAdd, Nat.reduceSub, and_self]

end groups

/-- Settles O21: the groups stand one after another, each with its fields at their offsets. -/
theorem channelReportLaidOut : Obligations.ChannelReportLaidOut := by
  intro s c l hl
  obtain ⟨chan, path, word, requested, resolved, shown, inset, list⟩ := standsAt_channelFields s c l hl
  obtain ⟨mode, pending, deferred, tags, relay, pgm, target, delay, slew, label, track, flywheel, owed⟩ :=
    pathFields_laidOut path
  obtain ⟨status, noWord, received⟩ := wordFields_laidOut word
  obtain ⟨block, depth, places, above⟩ := requestedFields_laidOut requested
  obtain ⟨noResolved, resolvedRect, outcome⟩ := resolvedFields_laidOut resolved
  obtain ⟨noShown, shownRect, noGlide, glide, defaultGlide⟩ := shownFields_laidOut shown
  obtain ⟨state, paused, exitMark, cur, out, outRect, holdCount, holdTime, home, standby, spare, claimants⟩ :=
    insetFields_laidOut inset
  obtain ⟨counts, failure, marker⟩ := listFields_standsAt list
  obtain ⟨cues, prepared, fired, failed, missed, removed⟩ := listCounts_laidOut counts
  obtain ⟨noFailure, lastFailure⟩ := failureFields_laidOut failure
  obtain ⟨noMarker, lastMarker⟩ := markerFields_laidOut marker
  obtain ⟨noRect, rect⟩ := rectBytes_laidOut outRect
  obtain ⟨without, held⟩ := spareCode_eq s.spare c
  refine ⟨by rw [hl]; simp, (chan.number (off := 0) (n := 1) (by simp)).trans ?_, mode.trans ?_,
    pending.trans (numberAt_modeByte _), fun none => ?_, fun l some => ?_, relay.trans ?_, pgm.trans ?_,
    target, delay, slew, label, pathFields_timecode path, track.trans ?_, flywheel, owed, status.trans ?_, noWord,
    received, block, depth, places, above, noResolved, resolvedRect, outcome.trans ?_, noShown, shownRect, noGlide,
    glide, defaultGlide, state.trans ?_, paused.trans ?_, exitMark, ?_, noRect, rect, holdCount, holdTime, ?_,
    fun none => ?_, fun k hk => ?_, cues, prepared, fired, failed, missed, removed, noFailure, fun x hx => ?_,
    noMarker, lastMarker⟩
  · rw [numberAt_be8]
    cases c <;> rfl
  · cases (s.chan c).mode <;> rfl
  · rw [none] at deferred tags
    exact ⟨deferred, tags⟩
  · rw [some] at deferred tags
    exact ⟨deferred, tags⟩
  · cases (s.chan c).relay <;> rfl
  · cases (s.chan c).pgm <;> rfl
  · cases (s.chan c).track <;> rfl
  · cases (s.chan c).sel.status <;> rfl
  · cases (s.chan c).outcome with
    | none => rfl
    | some o => cases o <;> rfl
  · cases (s.chan c).inset <;> rfl
  · cases (s.chan c).paused with
    | none => rfl
    | some p => cases p <;> rfl
  · rintro k on (⟨rfl, rfl⟩ | ⟨rfl, rfl⟩)
    · exact onAirFields_laidOut cur
    · exact onAirFields_laidOut out
  · rintro k on (⟨rfl, rfl⟩ | ⟨rfl, rfl⟩)
    · exact ⟨fun h => home.trans ((numberAt_portByte _).1 h), fun p h => home.trans ((numberAt_portByte _).2 p h)⟩
    · exact ⟨fun h => standby.trans ((numberAt_portByte _).1 h),
        fun p h => standby.trans ((numberAt_portByte _).2 p h)⟩
  · exact ⟨spare.trans (by rw [(without none).1]), claimants.trans (by rw [(without none).2])⟩
  · obtain ⟨code, list⟩ := held k hk
    exact ⟨spare.trans (by rw [code]; split <;> rfl), claimants.trans (by rw [list])⟩
  · obtain ⟨present, tag, reason, action, label⟩ := lastFailure x hx
    exact ⟨present, tag, reason.trans (by cases x.reason <;> rfl), action, label⟩

/-! ### Faults and the reading requests (O20) -/

section records
variable {l : List Byte} {k : Nat} {fmt : Option Format}

theorem blockingFields_laidOut {b : Option (Nat × ZoneClass)} (h : StandsAt l k (blockingFields b)) :
    (b = none → numberAt l k 1 = 1 ∧ numberAt l (k + 1) 2 = 0) ∧
    ∀ i cls, b = some (i, cls) → numberAt l k 1 = 0 ∧ numberAt l (k + 1) 1 = i % 256 ∧
      numberAt l (k + 2) 1 = cls.code % 256 := by
  have length : (blockingFields b).length = 3 := by cases b <;> simp [blockingFields]
  have num : ∀ {off n}, off + n ≤ 3 → numberAt l (k + off) n = numberAt (blockingFields b) off n :=
    fun fit => h.number (by rw [length]; exact fit)
  refine ⟨?_, ?_⟩
  · rintro rfl
    exact ⟨num (off := 0) (n := 1) (by decide), num (off := 1) (n := 2) (by decide)⟩
  · rintro i cls rfl
    have first : numberAt l k 1 = 0 := num (off := 0) (n := 1) (by decide)
    simp (disch := simp) only [first, num, blockingFields, numberAt_append_right, numberAt_append_left, numberAt_be8,
      length_be8, List.length_append, Nat.reduceAdd, Nat.reduceSub, and_self]

@[simp] theorem length_blockingFields (b : Option (Nat × ZoneClass)) : (blockingFields b).length = 3 := by
  cases b <;> simp [blockingFields]

/-- The fields of an occupied fault record (R189). -/
theorem faultFields_laidOut {r : FaultRec} (h : StandsAt l k (faultFields fmt (some r))) :
    numberAt l k 1 = 1 ∧ numberAt l (k + 1) 4 = r.label % 4294967296 ∧
    (l.drop (k + 5)).take 5 = timeBytes fmt r.label ∧
    StandsAt l (k + 10) (flag r.requested.isSome ++ rectBytes r.requested) ∧
    StandsAt l (k + 19) (blockingFields r.blocking) ∧
    numberAt l (k + 22) 1 = r.outcome.code % 256 ∧ numberAt l (k + 23) 1 = r.more % 256 := by
  have num : ∀ {off n}, off + n ≤ 24 → numberAt l (k + off) n = numberAt (faultFields fmt (some r)) off n :=
    fun fit => h.number (by simpa [faultFields] using fit)
  have first : numberAt l k 1 = 1 := num (off := 0) (n := 1) (by decide)
  have time : StandsAt (faultFields fmt (some r)) 5 (timeBytes fmt r.label) := by
    have inLabel : StandsAt (be8 1 ++ labelBytes fmt r.label) (1 + 4) (timeBytes fmt r.label) :=
      (StandsAt.right _ rfl : StandsAt (labelBytes fmt r.label) 4 _).after _
    exact ((((inLabel.left _).left _).left _).left _).left _
  have rect : StandsAt (faultFields fmt (some r)) 10 (flag r.requested.isSome ++ rectBytes r.requested) := by
    rw [faultFields, List.append_assoc (be8 1 ++ labelBytes fmt r.label)]
    exact (((StandsAt.right _ (by simp)).left _).left _).left _
  have blocking : StandsAt (faultFields fmt (some r)) 19 (blockingFields r.blocking) :=
    ((StandsAt.right _ (by simp)).left _).left _
  have timecode : (l.drop (k + 5)).take 5 = timeBytes fmt r.label := by
    simpa [StandsAt] using h.trans time
  simp (disch := simp) only [first, timecode, h.trans rect, h.trans blocking, num, faultFields, labelBytes,
    numberAt_append_right, numberAt_append_left, numberAt_be8, numberAt_be32, length_be8, length_be32, length_flag,
    length_timeBytes, length_rectBytes, length_blockingFields, List.length_append, Nat.reduceAdd, Nat.reduceSub,
    and_self]

/-- A removal list's positions are those of CUE_READ's reply (R188): its length and count are one byte each. -/
theorem actCueRead_eq {ch pos count : Byte} {c : Chan} (h : chanIdx c = ch.toNat) (s : State) :
    actCueRead ch pos count s = if 63 < pos.toNat ∨ count.toNat = 0 ∨ 8 < count.toNat then refuse .badField s
      else (s, .ok, cueReadFields s c pos.toNat count.toNat) := withChan_of_idx h s _

theorem ofNat_chanIdx {ch : Byte} {c : Chan} (h : chanIdx c = ch.toNat) : BitVec.ofNat 8 (chanIdx c) = ch := by
  rw [h, BitVec.ofNat_toNat, BitVec.setWidth_eq]

/-- Settles O20. -/
theorem readingRequestsChangeNothing : Obligations.ReadingRequestsChangeNothing := by
  intro s ch pos count idle
  refine ⟨fun gt => ⟨?_, ?_, ?_, ?_⟩, fun c hc => ⟨?_, ?_, fun bad => ?_, fun low one eight => ?_, fun none => ?_,
    fun r fault => ?_⟩⟩
  · exact exec_idle_refused (r := .chRead ch) idle rfl (withChan_of_gt gt _ _)
  · exact exec_idle_refused (r := .zoneRead ch) idle rfl (withChan_of_gt gt _ _)
  · exact exec_idle_refused (r := .cueRead ch pos count) idle rfl (withChan_of_gt gt _ _)
  · exact exec_idle_refused (r := .faultRead ch) idle rfl (withChan_of_gt gt _ _)
  · exact exec_idle (r := .chRead ch) (t := s) idle rfl (withChan_of_idx hc _ _)
  · rw [← ofNat_chanIdx hc]
    exact exec_idle (r := .zoneRead _) (t := s) idle rfl
      (withChan_of_idx (by rw [ofNat_chanIdx hc]; exact hc) _ _)
  · exact exec_idle_refused (r := .cueRead ch pos count) (code := .badField) idle rfl
      ((actCueRead_eq hc _).trans (if_pos bad))
  · exact exec_idle (r := .cueRead ch pos count) (t := s) (code := .ok) idle rfl
      ((actCueRead_eq hc _).trans (if_neg (by omega)))
  · refine exec_idle (r := .faultRead ch) (t := s) (code := .ok) idle rfl ((withChan_of_idx hc _ _).trans ?_)
    show (_, _, faultFields s.format (s.chan c).fault) = _
    rw [none]
    rfl
  · refine ⟨[0xD0, 0x00] ++ faultFields s.format (some r), ?_, by simp [faultFields], rfl, rfl, ?_⟩
    · refine exec_idle (r := .faultRead ch) (t := s) (code := .ok) idle rfl ((withChan_of_idx hc _ _).trans ?_)
      show (_, _, faultFields s.format (s.chan c).fault) = _
      rw [fault]
      rfl
    · obtain ⟨occupied, label, time, requested, blocking, outcome, more⟩ :=
        faultFields_laidOut (l := [0xD0, 0x00] ++ faultFields s.format (some r)) (k := 2) (.right _ rfl)
      obtain ⟨noRect, rect⟩ := presentRect_laidOut requested
      obtain ⟨safeArea, zone⟩ := blockingFields_laidOut blocking
      refine ⟨occupied, label, time, noRect, rect, safeArea, fun i cls h => ?_, outcome.trans ?_, more⟩
      · obtain ⟨is, index, code⟩ := zone i cls h
        exact ⟨is, index, code.trans (by cases cls <;> rfl)⟩
      · cases r.outcome <;> rfl

/-! ### The records (O22) -/

theorem zoneFields_laidOut (fmt : Option Format) (z : Zone) (h : l = zoneFields fmt z) : l.length = 19 ∧
    numberAt l 0 1 = z.standing % 256 ∧ numberAt l 1 1 = z.cls.code % 256 ∧
    numberAt l 2 2 = z.rect.x % 65536 ∧ numberAt l 4 2 = z.rect.y % 65536 ∧
    numberAt l 6 2 = z.rect.w % 65536 ∧ numberAt l 8 2 = z.rect.h % 65536 ∧
    (z.expiry = none → numberAt l 10 9 = 0) ∧
    ∀ d, z.expiry = some d → numberAt l 10 4 = d.label % 4294967296 ∧ (l.drop 14).take 5 = timeBytes fmt d.label := by
  subst h
  obtain ⟨x, y, w, h⟩ := numberAt_rectBytes z.rect
  refine ⟨by cases he : z.expiry <;> simp [zoneFields, he], ?_, ?_, ?_, ?_, ?_, ?_, fun none => ?_, fun d some => ⟨?_, ?_⟩⟩
  · rw [zoneFields, numberAt_append_left (by simp), numberAt_append_left (by simp), numberAt_append_left (by simp),
      numberAt_be8]
  · rw [zoneFields, numberAt_append_left (by simp), numberAt_append_left (by simp), numberAt_append_right _ (by simp)]
    exact numberAt_be8 _
  · rw [zoneFields, numberAt_append_left (by simp), numberAt_append_right _ (by simp)]
    exact x
  · rw [zoneFields, numberAt_append_left (by simp), numberAt_append_right _ (by simp)]
    exact y
  · rw [zoneFields, numberAt_append_left (by simp), numberAt_append_right _ (by simp)]
    exact w
  · rw [zoneFields, numberAt_append_left (by simp), numberAt_append_right _ (by simp)]
    exact h
  · rw [zoneFields, none, numberAt_append_right _ (by simp)]
    simp [numberAt]
  · rw [zoneFields, some, numberAt_append_right _ (by simp)]
    simp only [List.length_append, length_be8, length_rectBytes, labelBytes, Nat.reduceAdd, Nat.reduceSub]
    rw [numberAt_append_left (by simp), numberAt_be32]
  · have time : StandsAt (zoneFields fmt z) (10 + 4) (timeBytes fmt d.label) := by
      rw [zoneFields, some]
      exact (StandsAt.right (labelBytes fmt d.label) (by simp)).trans (.right _ rfl)
    simpa [StandsAt] using time

theorem cueFields_laidOut (fmt : Option Format) (q : Cue) (h : l = cueFields fmt q) : l.length = 35 ∧
    numberAt l 0 2 = q.tag % 65536 ∧ (l.drop 2).take 5 = timeBytes fmt q.date.label ∧
    numberAt l 7 1 = (if q.date.next then 1 else 0) ∧ (l.drop 8).take 20 = actionBytes fmt q.action ∧
    numberAt l 28 4 = q.date.label % 4294967296 ∧ numberAt l 32 1 = (if q.prepared then 1 else 0) ∧
    numberAt l 33 1 = (if q.late then 1 else 0) ∧ numberAt l 34 1 = q.claim.code % 256 := by
  subst h
  have time : StandsAt (cueFields fmt q) (2 + 0) (timeBytes fmt q.date.label) :=
    (((((((StandsAt.right (datedBytes fmt q.date) (by simp)).trans ((StandsAt.whole _).left _)).left _).left _).left
      _).left _).left _)
  have action : StandsAt (cueFields fmt q) 8 (actionBytes fmt q.action) :=
    (((((StandsAt.right _ (by simp)).left _).left _).left _).left _)
  refine ⟨by simp [cueFields], ?_, by simpa [StandsAt] using time, ?_, by simpa [StandsAt] using action, ?_⟩
  all_goals
    simp (disch := simp) only [cueFields, datedBytes, numberAt_append_right, numberAt_append_left, numberAt_be8,
      numberAt_be16, numberAt_be32, numberAt_flag, length_be16, length_be32, length_flag,
      length_timeBytes, length_actionBytes, List.length_append, Nat.reduceAdd, Nat.reduceSub, and_self]

/-- A list filled up with zeros to a length it does not exceed. -/
theorem padTo_eq {n m : Nat} {l : List Byte} (h : l.length + m = n) : padTo n l = l ++ List.replicate m 0 := by
  rw [padTo, List.take_append, List.take_of_length_le (by omega), List.take_replicate]
  congr 2
  omega

theorem anchorOf_code_iff (a b : Anchor) : anchorOf (a.code % 256) = some b ↔ b = a := by
  have code : anchorOf (a.code % 256) = some a := by cases a <;> rfl
  rw [code, Option.some.injEq, eq_comm]

/-- The byte of an optional fallback among the three of a block. -/
theorem numberAt_fallbacks (as : List Anchor) {i : Nat} (h : i < 3) :
    numberAt (padTo 3 (as.map (fun a => BitVec.ofNat 8 a.code))) i 1
      = ((as.map (fun a => BitVec.ofNat 8 a.code))[i]?.getD 0).toNat := by
  rw [numberAt_one, byteAt, padTo, List.getD_eq_getElem?_getD, List.getElem?_take_of_lt h]
  rcases Nat.lt_or_ge i as.length with hi | hi
  · rw [List.getElem?_append_left (by simpa using hi)]
  · rw [List.getElem?_append_right (by simpa using hi), List.getElem?_replicate,
      List.getElem?_eq_none (by simpa using hi)]
    split <;> rfl

theorem blockBytes_fallbacks (fmt : Option Format) (b : Block) :
    StandsAt (blockBytes fmt b) 9 (padTo 3 (b.fallbacks.map (fun a => BitVec.ofNat 8 a.code))) := by
  refine StandsAt.right _ ?_
  cases b.height <;> simp

theorem blockBytes_laidOut (fmt : Option Format) (b : Block) (h : l = blockBytes fmt b) :
    numberAt l 0 1 = b.anchor.code % 256 ∧ (∀ h, b.height = some h → numberAt l 1 1 = 0 ∧ numberAt l 2 2 = h % 65536) ∧
    (b.height = none → numberAt l 1 1 = 1 ∧ numberAt l 2 2 = (fmt.map Format.defaultHeight).getD 0 % 65536) ∧
    numberAt l 4 2 = b.fx % 65536 ∧ numberAt l 6 2 = b.fy % 65536 ∧ numberAt l 8 1 = b.fallbacks.length % 256 ∧
    ∀ i, i < 3 → numberAt l (9 + i) 1
      = ((b.fallbacks.map (fun a => BitVec.ofNat 8 a.code))[i]?.getD 0).toNat := by
  subst h
  refine ⟨?_, fun h given => ?_, fun marker => ?_, ?_, ?_, ?_, fun i hi => ?_⟩
  · cases h : b.height <;>
    simp (disch := simp) only [blockBytes, h, numberAt_append_left, numberAt_be8]
  · simp (disch := simp) only [blockBytes, given, numberAt_append_right, numberAt_append_left, numberAt_be8,
      numberAt_be16, length_be8, Nat.reduceSub, Nat.reduceMod,
      and_self]
  · simp (disch := simp) only [blockBytes, marker, numberAt_append_right, numberAt_append_left, numberAt_be8,
      numberAt_be16, length_be8, Nat.reduceSub, Nat.reduceMod,
      true_and]
    cases fmt <;> rfl
  iterate 3
    · cases h : b.height <;>
      simp (disch := simp) only [blockBytes, h, numberAt_append_right, numberAt_append_left, numberAt_be8,
        numberAt_be16, length_be8, length_be16, List.length_append, Nat.reduceAdd, Nat.reduceSub]
  · rw [← numberAt_fallbacks b.fallbacks hi]
    exact (blockBytes_fallbacks fmt b).number (by simp; omega)

/-- Each action's code and fields, zeros after them (R175). -/
theorem actionBytes_eq (fmt : Option Format) (n : Nat) (p : Port) (b : Block) (g : Nat) (d : Dated) :
    actionBytes fmt (.showInset none n) = [1, 0, 0, BitVec.ofNat 8 n] ++ List.replicate 16 0 ∧
    actionBytes fmt (.showInset (some p) n)
      = [1, 1, BitVec.ofNat 8 (portIdx p), BitVec.ofNat 8 n] ++ List.replicate 16 0 ∧
    actionBytes fmt (.hide n) = [2, BitVec.ofNat 8 n] ++ List.replicate 18 0 ∧
    actionBytes fmt (.handover p n)
      = [3, BitVec.ofNat 8 (portIdx p), BitVec.ofNat 8 n] ++ List.replicate 17 0 ∧
    actionBytes fmt (.place b none) = [4] ++ blockBytes fmt b ++ List.replicate 7 0 ∧
    actionBytes fmt (.place b (some g))
      = [4] ++ blockBytes fmt b ++ [1, BitVec.ofNat 8 g] ++ List.replicate 5 0 ∧
    actionBytes fmt (.push b none) = [5] ++ blockBytes fmt b ++ List.replicate 7 0 ∧
    actionBytes fmt (.push b (some g))
      = [5] ++ blockBytes fmt b ++ [1, BitVec.ofNat 8 g] ++ List.replicate 5 0 ∧
    actionBytes fmt (.pop none) = [6] ++ List.replicate 19 0 ∧
    actionBytes fmt (.pop (some g)) = [6, 1, BitVec.ofNat 8 g] ++ List.replicate 17 0 ∧
    actionBytes fmt (.zone n false none) = [7, BitVec.ofNat 8 n] ++ List.replicate 18 0 ∧
    actionBytes fmt (.zone n true none) = [7, BitVec.ofNat 8 n, 1] ++ List.replicate 17 0 ∧
    actionBytes fmt (.zone n true (some d)) = [7, BitVec.ofNat 8 n, 1, 1] ++ timeBytes fmt d.label ++
      [if d.next then 1 else 0] ++ List.replicate 10 0 ∧
    actionBytes fmt (.mark n) = [8, BitVec.ofNat 8 n] ++ List.replicate 18 0 ∧
    actionBytes fmt (.standby none) = [9] ++ List.replicate 19 0 ∧
    actionBytes fmt (.standby (some p)) = [9, 1, BitVec.ofNat 8 (portIdx p)] ++ List.replicate 17 0 := by
  refine ⟨rfl, rfl, rfl, rfl, ?_, ?_, ?_, ?_, rfl, rfl, rfl, rfl, ?_, rfl, rfl, rfl⟩
  · rw [actionBytes, padTo_eq (m := 5) (by simp [optByte]), ← List.append_assoc, List.append_assoc _ (optByte _)]
    rfl
  · rw [actionBytes, padTo_eq (m := 5) (by simp [optByte]), ← List.append_assoc]
    rfl
  · rw [actionBytes, padTo_eq (m := 5) (by simp [optByte]), ← List.append_assoc, List.append_assoc _ (optByte _)]
    rfl
  · rw [actionBytes, padTo_eq (m := 5) (by simp [optByte]), ← List.append_assoc]
    rfl
  · rw [actionBytes, padTo_eq (m := 10) (by simp)]
    simp [be8, flag, datedBytes, Action.code]

theorem Format.labelsPerFrame_pos (f : Format) : 0 < f.rate / f.base := by
  rcases f.labelsPerFrame_eq_one_or_two with h | h <;> omega

theorem Format.labelsPerFrame_le (f : Format) : f.rate / f.base ≤ 2 := by
  rcases f.labelsPerFrame_eq_one_or_two with h | h <;> omega

/-- Where a frame has one label its words carry no pair flag. -/
theorem wordOfLabel_pair_eq_false {f : Format} (n : Nat) (h : f.rate / f.base = 1) :
    (wordOfLabel f n).pair = false := by
  rw [wordOfLabel, h, Nat.mod_one]
  rfl

/-- The timecode a label is reported as is that of its word. -/
theorem timeBytes_eq_word (f : Format) (n : Nat) : timeBytes (some f) n = [(wordOfLabel f n).h,
    (wordOfLabel f n).m, (wordOfLabel f n).s, (wordOfLabel f n).ff, if (wordOfLabel f n).pair then 1 else 0] := by
  have hours : n / (3600 * f.rate) = n / f.rate / 3600 := by rw [Nat.div_div_eq_div_mul, Nat.mul_comm]
  have minutes : n % (3600 * f.rate) / (60 * f.rate) = n / f.rate / 60 % 60 := by
    rw [show 3600 * f.rate = 60 * (60 * f.rate) by omega, Nat.mod_mul_left_div_self, Nat.mul_comm 60 f.rate,
      Nat.div_div_eq_div_mul]
  have seconds : n % (60 * f.rate) / f.rate = n / f.rate % 60 := Nat.mod_mul_left_div_self n f.rate 60
  have pair : BitVec.ofNat 8 (n % f.rate % (f.rate / f.base))
      = if (wordOfLabel f n).pair then 1 else 0 := by
    have bound : n % f.rate % (f.rate / f.base) < 2 :=
      Nat.lt_of_lt_of_le (Nat.mod_lt _ f.labelsPerFrame_pos) f.labelsPerFrame_le
    rw [wordOfLabel]
    generalize n % f.rate % (f.rate / f.base) = part at bound
    have : part = 0 ∨ part = 1 := by omega
    rcases this with rfl | rfl <;> rfl
  rw [timeBytes, timeOfLabel, hours, minutes, seconds]
  simp only [List.map_cons, List.map_nil, pair]
  rfl

theorem Zone.standing_eq (z : Zone) : (z.defined = false → z.standing = 0) ∧
    (z.defined = true → z.active = false → z.standing = 1) ∧
    (z.defined = true → z.active = true → (z.expiry = none → z.standing = 2) ∧
      ∀ d, z.expiry = some d → z.standing = if d.next then 4 else 3) := by
  refine ⟨fun h => ?_, fun d a => ?_, fun d a => ⟨fun e => ?_, fun x e => ?_⟩⟩
  · simp [Zone.standing, h]
  · simp [Zone.standing, d, a]
  · simp [Zone.standing, d, a, e]
  · simp [Zone.standing, d, a, e]

/-- Settles O22. -/
theorem recordsLaidOut : Obligations.RecordsLaidOut := by
  refine ⟨fun fmt z l h => ?_, fun fmt q l h => ?_, actionBytes_eq, fun fmt b l h => ?_, fun f n => ⟨rfl, fun hn => ?_⟩⟩
  · obtain ⟨length, state, cls, x, y, w, height, noExpiry, expiry⟩ := zoneFields_laidOut fmt z h
    obtain ⟨undefined, inactive, active⟩ := z.standing_eq
    refine ⟨length, fun d => by rw [state, undefined d], fun d a => by rw [state, inactive d a],
      fun d a => ⟨fun e => by rw [state, (active d a).1 e], fun x e => ?_⟩, cls.trans ?_, x, y, w, height, noExpiry,
      expiry⟩
    · rw [state, (active d a).2 x e]
      split <;> rfl
    · cases z.cls <;> rfl
  · obtain ⟨length, tag, time, next, action, label, prepared, late, claim⟩ := cueFields_laidOut fmt q h
    exact ⟨length, tag, time, next, action, label, prepared, late, claim.trans (by cases q.claim <;> rfl)⟩
  · obtain ⟨anchor, given, marker, fx, fy, count, fallback⟩ := blockBytes_laidOut fmt b h
    refine ⟨by rw [h, length_blockBytes], fun a => by rw [anchor, anchorOf_code_iff], given, fun none => ?_, fx, fy,
      count, fun i a hi ha => ?_, fun i past hi => ?_⟩
    · obtain ⟨kind, height⟩ := marker none
      refine ⟨kind, fun h => by rw [height, h]; rfl, fun f h => ?_⟩
      rw [height, h]
      cases f <;> rfl
    · rw [fallback i hi, List.getElem?_map, ha]
      exact (anchorOf_code_iff a a).mpr rfl
    · rw [fallback i hi, List.getElem?_eq_none (by simpa using past)]
      rfl
  · exact ⟨wordOfLabel f n, wordValid_wordOfLabel hn, wordLabel_wordOfLabel hn, wordOfLabel_pair_eq_false n,
      timeBytes_eq_word f n⟩

end records

end Sys2Proof.Machine
end

section
/-! PROOFS. The rules of the source requests: what a state change, a take, a release and a let-go make of the
sources, the channels, the spare and the notices (R45 to R49); HOUSE, CH_CLEAR and the take's answer. -/

namespace Sys2Proof.Machine

variable {s t : State} {c d : Chan} {p q : Port}

/-! ### Notices by kind -/

theorem raiseChan_hasChan (c d : Chan) (k j : ChanKind) (s : State) : (raiseChan c k s).notices.raw.hasChan d j
    = (s.notices.raw.hasChan d j || decide (d = c ∧ j = k)) := by
  rw [Bool.eq_iff_iff, Bool.or_eq_true, decide_eq_true_eq]
  exact addChan_hasChan _ c d j k

theorem raiseCard_hasCard (k j : CardKind) (s : State) :
    (raiseCard k s).notices.raw.hasCard j = (s.notices.raw.hasCard j || decide (j = k)) := by
  rw [Bool.eq_iff_iff, Bool.or_eq_true, decide_eq_true_eq]
  exact addCard_hasCard _ j k

@[simp] theorem raiseCard_hasChan (k : CardKind) (c : Chan) (j : ChanKind) (s : State) :
    (raiseCard k s).notices.raw.hasChan c j = s.notices.raw.hasChan c j := rfl

@[simp] theorem raiseChan_hasCard (c : Chan) (k : ChanKind) (j : CardKind) (s : State) :
    (raiseChan c k s).notices.raw.hasCard j = s.notices.raw.hasCard j := rfl

/-- A notice raised twice is raised once. -/
theorem raiseCard_raiseCard (k : CardKind) (s : State) : raiseCard k (raiseCard k s) = raiseCard k s := by
  simp only [raiseCard, NoticeBits.addCard, BitVec.or_assoc, BitVec.or_self]

/-! ### A changed source -/

theorem modSrc_id (h : ∀ x, x = s.src p → f x = x) : s.modSrc p f = s := by
  have : s.sources.set p (f (s.src p)) = s.sources := by
    rw [h _ rfl]
    cases p <;> rfl
  rw [State.modSrc]
  exact congrArg (fun v => { s with sources := v }) this

theorem changeSource_of_ne {f : Source → Source} (h : (f (s.src p)).state ≠ (s.src p).state) :
    changeSource p f s = raiseCard .sourceChange (s.modSrc p f) := by
  rw [changeSource]
  simp only [modSrc_src_same, if_neg h]

theorem changeSource_of_eq {f : Source → Source} (h : (f (s.src p)).state = (s.src p).state) :
    changeSource p f s = s.modSrc p f := by
  rw [changeSource]
  simp only [modSrc_src_same, if_pos h]

/-- A changed source changes the sources and the notices, nothing else. -/
theorem changeSource_rest (p : Port) (f : Source → Source) (s : State) : changeSource p f s
    = { s with sources := (s.modSrc p f).sources, notices := (changeSource p f s).notices } := by
  rcases eq_or_ne (f (s.src p)).state (s.src p).state with h | h
  · rw [changeSource_of_eq h]
    rfl
  · rw [changeSource_of_ne h]
    rfl

theorem changeSource_src (p q : Port) (f : Source → Source) (s : State) :
    (changeSource p f s).src q = if q = p then f (s.src p) else s.src q := by
  rw [changeSource_rest]
  exact modSrc_src s p f q

theorem changeSource_notices (p : Port) (f : Source → Source) (s : State) : (changeSource p f s).notices
    = if (f (s.src p)).state = (s.src p).state then s.notices else (raiseCard .sourceChange s).notices := by
  split
  next h => rw [changeSource_of_eq h]; rfl
  next h => rw [changeSource_of_ne h]; rfl

@[simp] theorem changeSource_format (p : Port) (f : Source → Source) : (changeSource p f s).format = s.format := by
  rw [changeSource_rest]
@[simp] theorem changeSource_now (p : Port) (f : Source → Source) : (changeSource p f s).now = s.now := by
  rw [changeSource_rest]
@[simp] theorem changeSource_spare (p : Port) (f : Source → Source) : (changeSource p f s).spare = s.spare := by
  rw [changeSource_rest]
@[simp] theorem changeSource_hasChan (p : Port) (f : Source → Source) (c : Chan) (k : ChanKind) :
    (changeSource p f s).notices.raw.hasChan c k = s.notices.raw.hasChan c k := by
  rw [changeSource_notices]
  split <;> rfl

/-- Sources changed one after another, each once. -/
theorem foldl_changeSource_src (g : Port → Source → Source) (l : List Port) (once : l.Nodup) (s : State) (q : Port) :
    (l.foldl (fun t p => changeSource p (g p) t) s).src q = if q ∈ l then g q (s.src q) else s.src q := by
  induction l generalizing s with
  | nil => simp
  | cons p l ih =>
    rw [List.nodup_cons] at once
    rw [List.foldl_cons, ih once.2, changeSource_src]
    by_cases h : q = p
    · subst h
      simp [once.1]
    · simp [h]

/-- SOURCE_CHANGE is raised where one of them changes its state (R45). -/
theorem foldl_changeSource_notices (g : Port → Source → Source) (l : List Port) (once : l.Nodup) (s : State) :
    (l.foldl (fun t p => changeSource p (g p) t) s).notices
      = if ∃ p ∈ l, (g p (s.src p)).state ≠ (s.src p).state then (raiseCard .sourceChange s).notices
        else s.notices := by
  induction l generalizing s with
  | nil => simp
  | cons p l ih =>
    rw [List.nodup_cons] at once
    have others : (∃ q ∈ l, (g q ((changeSource p (g p) s).src q)).state ≠ ((changeSource p (g p) s).src q).state) ↔
        ∃ q ∈ l, (g q (s.src q)).state ≠ (s.src q).state := by
      refine exists_congr (fun q => and_congr_right (fun hq => ?_))
      rw [changeSource_src, if_neg (fun h : q = p => once.1 (h ▸ hq))]
    rw [List.foldl_cons, ih once.2]
    simp only [others, List.mem_cons, exists_eq_or_imp]
    by_cases hp : (g p (s.src p)).state = (s.src p).state
    · simp only [changeSource_of_eq hp, ne_eq, hp, not_true_eq_false, false_or]
      rfl
    · rw [changeSource_of_ne hp, raiseCard_raiseCard, ite_self, if_pos (.inl hp)]
      rfl

theorem foldl_changeSource_rest (g : Port → Source → Source) (l : List Port) (s : State) :
    l.foldl (fun t p => changeSource p (g p) t) s
      = { s with sources := (l.foldl (fun t p => changeSource p (g p) t) s).sources
                 notices := (l.foldl (fun t p => changeSource p (g p) t) s).notices } := by
  induction l generalizing s with
  | nil => rfl
  | cons p l ih =>
    rw [List.foldl_cons, ih, changeSource_rest]

/-! ### Letting go (R49) -/

/-- A source of a channel when that channel lets it go: ready again from TAKEN and RELEASING, back to detection
from LOST; another source stands. -/
def Source.letGone (c : Chan) (signal : Bool) (x : Source) : Source :=
  if x.owner = some c then
    match x.state with
    | .taken => { x with state := .ready, owner := none, cropReport := false, ring := { x.ring with inUse := none } }
    | .releasing =>
      { x with state := .ready, owner := none, cropReport := false, ring := { x.ring with inUse := none } }
    | .lost => x.unqualified (if signal then .detecting else .absent)
    | _ => x
  else x

theorem changeSource_congr {f g : Source → Source} (h : f (s.src p) = g (s.src p)) :
    changeSource p f s = changeSource p g s := by
  have same : s.modSrc p f = s.modSrc p g := congrArg (fun x => { s with sources := s.sources.set p x }) h
  unfold changeSource
  rw [same]

theorem changeSource_id {f : Source → Source} (h : f (s.src p) = s.src p) : changeSource p f s = s := by
  rw [changeSource_of_eq (by rw [h]), modSrc_id (fun x hx => by rw [hx, h])]

/-- A let-go as a change of its source. -/
theorem letGo_eq (c : Chan) (p : Port) (s : State) :
    letGo c p s = changeSource p (Source.letGone c (s.hasSignal p)) s := by
  unfold letGo
  by_cases own : (s.src p).owner = some c
  · rw [if_pos own]
    cases st : (s.src p).state with
    | taken => exact changeSource_congr (by rw [Source.letGone, if_pos own, st])
    | releasing => exact changeSource_congr (by rw [Source.letGone, if_pos own, st])
    | lost => exact changeSource_congr (by rw [Source.letGone, if_pos own, st])
    | absent => exact (changeSource_id (by rw [Source.letGone, if_pos own, st])).symm
    | detecting => exact (changeSource_id (by rw [Source.letGone, if_pos own, st])).symm
    | rejected => exact (changeSource_id (by rw [Source.letGone, if_pos own, st])).symm
    | ready => exact (changeSource_id (by rw [Source.letGone, if_pos own, st])).symm
  · rw [if_neg own]
    exact (changeSource_id (if_neg own)).symm

theorem letGone_of_ne {x : Source} {b : Bool} (h : x.owner ≠ some c) : x.letGone c b = x := if_neg h

theorem letGone_of_taken {x : Source} {b : Bool} (own : x.owner = some c) (h : x.state = .taken ∨ x.state = .releasing) :
    x.letGone c b
      = { x with state := .ready, owner := none, cropReport := false, ring := { x.ring with inUse := none } } := by
  rw [Source.letGone, if_pos own]
  rcases h with h | h <;> rw [h]

theorem letGone_of_lost {x : Source} {b : Bool} (own : x.owner = some c) (h : x.state = .lost) :
    x.letGone c b = { x with
      state := if b then .detecting else .absent, owner := none, cropReport := false, ring := Ring.empty
      inRun := 0, outRun := 0, goodRun := 0, badRun := 0, rasterMark := false } := by
  rw [Source.letGone, if_pos own, h]
  rfl

@[simp] theorem letGone_lastStart (x : Source) (b : Bool) : (x.letGone c b).lastStart = x.lastStart := by
  unfold Source.letGone
  split
  · split <;> rfl
  · rfl

@[simp] theorem letGone_cropForce (x : Source) (b : Bool) : (x.letGone c b).cropForce = x.cropForce := by
  unfold Source.letGone
  split
  · split <;> rfl
  · rfl

theorem letGo_src (c : Chan) (p q : Port) (s : State) :
    (letGo c p s).src q = if q = p then (s.src p).letGone c (s.hasSignal p) else s.src q := by
  rw [letGo_eq, changeSource_src]

theorem letGo_src_same (c : Chan) (p : Port) (s : State) :
    (letGo c p s).src p = (s.src p).letGone c (s.hasSignal p) := by rw [letGo_src, if_pos rfl]

theorem letGo_src_ne (c : Chan) {p q : Port} (h : q ≠ p) (s : State) : (letGo c p s).src q = s.src q := by
  rw [letGo_src, if_neg h]

@[simp] theorem letGo_chan (c d : Chan) (p : Port) (s : State) : (letGo c p s).chan d = s.chan d := by
  rw [letGo_eq, changeSource_chan]
@[simp] theorem letGo_format (c : Chan) (p : Port) (s : State) : (letGo c p s).format = s.format := by
  rw [letGo_eq, changeSource_format]
@[simp] theorem letGo_now (c : Chan) (p : Port) (s : State) : (letGo c p s).now = s.now := by
  rw [letGo_eq, changeSource_now]
@[simp] theorem letGo_spare (c : Chan) (p : Port) (s : State) : (letGo c p s).spare = s.spare := by
  rw [letGo_eq, changeSource_spare]
@[simp] theorem letGo_hasChan (c d : Chan) (p : Port) (k : ChanKind) (s : State) :
    (letGo c p s).notices.raw.hasChan d k = s.notices.raw.hasChan d k := by
  rw [letGo_eq, changeSource_hasChan]

theorem hasSignal_congr {t s : State} {p : Port} (start : (t.src p).lastStart = (s.src p).lastStart)
    (now : t.now = s.now) (format : t.format = s.format) : t.hasSignal p = s.hasSignal p := by
  unfold State.hasSignal State.silenceLimit
  rw [start, now, format]

@[simp] theorem letGo_hasSignal (c : Chan) (p q : Port) (s : State) : (letGo c p s).hasSignal q = s.hasSignal q := by
  refine hasSignal_congr ?_ (letGo_now c p s) (letGo_format c p s)
  rw [letGo_src]
  split
  next h => rw [letGone_lastStart, h]
  next => rfl

/-! ### Every source of a channel let go (R132) -/

theorem letGoAll_eq (c : Chan) (s : State) : letGoAll c s
    = Port.all.foldl (fun t p => changeSource p (Source.letGone c (s.hasSignal p)) t) s := by
  have fold : ∀ (l : List Port) (t : State), (∀ p, t.hasSignal p = s.hasSignal p) →
      l.foldl (fun t p => letGo c p t) t
        = l.foldl (fun t p => changeSource p (Source.letGone c (s.hasSignal p)) t) t := fun l => by
    induction l with
    | nil => exact fun _ _ => rfl
    | cons p l ih =>
      intro t signal
      have first : letGo c p t = changeSource p (Source.letGone c (s.hasSignal p)) t := by rw [letGo_eq, signal]
      rw [List.foldl_cons, List.foldl_cons, ih _ (fun q => by rw [letGo_hasSignal, signal]), first]
  exact fold Port.all s (fun _ => rfl)

theorem mem_portAll (p : Port) : p ∈ Port.all := by cases p <;> decide

theorem portAll_nodup : Port.all.Nodup := by decide

theorem letGoAll_src (c : Chan) (s : State) (p : Port) :
    (letGoAll c s).src p = (s.src p).letGone c (s.hasSignal p) := by
  rw [letGoAll_eq, foldl_changeSource_src _ _ portAll_nodup, if_pos (mem_portAll p)]

theorem letGoAll_rest (c : Chan) (s : State) :
    letGoAll c s = { s with sources := (letGoAll c s).sources, notices := (letGoAll c s).notices } := by
  rw [letGoAll_eq, foldl_changeSource_rest]

/-- A source that its channel owns, and that may have an owner, is let go into another state. -/
theorem letGone_state_ne {x : Source} {b : Bool} (law : x.owner.isSome = x.state.isOwned) :
    (x.letGone c b).state ≠ x.state ↔ x.owner = some c := by
  by_cases own : x.owner = some c
  · rw [own] at law
    refine iff_of_true ?_ own
    cases st : x.state with
    | taken => simp [letGone_of_taken own (.inl st)]
    | releasing => simp [letGone_of_taken own (.inr st)]
    | lost => cases b <;> simp [letGone_of_lost own st]
    | absent => simp [st, SrcState.isOwned] at law
    | detecting => simp [st, SrcState.isOwned] at law
    | rejected => simp [st, SrcState.isOwned] at law
    | ready => simp [st, SrcState.isOwned] at law
  · exact iff_of_false (by rw [letGone_of_ne own]; exact fun h => h rfl) own

theorem letGone_owner {x : Source} {b : Bool} (law : x.owner.isSome = x.state.isOwned) :
    (x.letGone c b).owner ≠ some c := by
  by_cases own : x.owner = some c
  · rw [own] at law
    cases st : x.state with
    | taken => simp [letGone_of_taken own (.inl st)]
    | releasing => simp [letGone_of_taken own (.inr st)]
    | lost => simp [letGone_of_lost own st]
    | absent => simp [st, SrcState.isOwned] at law
    | detecting => simp [st, SrcState.isOwned] at law
    | rejected => simp [st, SrcState.isOwned] at law
    | ready => simp [st, SrcState.isOwned] at law
  · rw [letGone_of_ne own]
    exact own

/-- SOURCE_CHANGE is raised exactly where a channel that lets go owned a source (R45). -/
theorem letGoAll_notices (law : ∀ p, (s.src p).owner.isSome = (s.src p).state.isOwned) (c : Chan) :
    ((∃ p, (s.src p).owner = some c) → (letGoAll c s).notices = (raiseCard .sourceChange s).notices) ∧
    ((∀ p, (s.src p).owner ≠ some c) → (letGoAll c s).notices = s.notices) := by
  rw [letGoAll_eq, foldl_changeSource_notices _ _ portAll_nodup]
  refine ⟨fun ⟨p, own⟩ => if_pos ⟨p, mem_portAll p, (letGone_state_ne (law p)).mpr own⟩, fun none => if_neg ?_⟩
  rintro ⟨p, -, changed⟩
  exact none p ((letGone_state_ne (law p)).mp changed)

/-! ### What a take answers (O49) -/

theorem grantTake_src (c : Chan) (p q : Port) (s : State) : (grantTake c p s).src q
    = if q = p then { s.src p with state := .taken, owner := some c } else s.src q := changeSource_src p q _ s

theorem doShow_hidden (h : (s.chan c).inset = .hidden) (p : Port) (n : Nat) :
    doShow c (some p) n s = showFromHidden c p n s := by
  unfold doShow
  simp only [Option.some_or, h]

theorem showFromHidden_refused {e : Reason} (h : checkTake c p s = some e) (n : Nat) :
    showFromHidden c p n s = (s, some e) := by
  unfold showFromHidden
  rw [h]

/-- Settles O49. -/
theorem takeAnsweredByStateAndOwner : Obligations.TakeAnsweredByStateAndOwner := by
  intro s c p n
  refine ⟨fun st => ?_, fun st own => ?_, fun st own => ?_, fun st own => ?_, fun st => ?_, ?_, fun q h => ?_,
    fun e hidden refused => ?_⟩
  · rw [checkTake, takeAnswer, st]
  · rw [checkTake, takeAnswer, st]
    exact if_pos own
  · rcases st with st | st | st <;>
    · rw [checkTake, takeAnswer, st]
      exact if_neg own
  · rcases st with st | st <;>
    · rw [checkTake, takeAnswer, st]
      exact if_pos own
  · rcases st with st | st | st <;> rw [checkTake, takeAnswer, st]
  · rw [grantTake_src, if_pos rfl]
  · rw [grantTake_src, if_neg h]
  · rw [doShow_hidden hidden, showFromHidden_refused refused]

/-! ### CH_CLEAR (O23) -/

theorem dropInset_eq (c : Chan) (s : State) : dropInset c s = { s.modChan c Channel.hide with
    sources := (letGoAll c s).sources, notices := (letGoAll c s).notices, spare := s.spare.leaveAll c } := by
  unfold dropInset
  dsimp only
  rw [letGoAll_rest]
  rfl

theorem leaveAll_eq (sp : Spare) (c : Chan) : sp.leaveAll c = if sp.hasIt c then .free else sp := by
  cases sp with
  | free => rfl
  | held d l => simp [Spare.leaveAll, Spare.hasIt]

theorem leaveAll_hasIt (sp : Spare) (c : Chan) : (sp.leaveAll c).hasIt c = false := by
  rw [leaveAll_eq]
  split
  · rfl
  next h => exact Bool.not_eq_true _ ▸ h

theorem actChClear_eq {ch : Byte} (h : chanIdx c = ch.toNat) (s : State) : actChClear ch s
    = if (s.chan c).mode = .auto ∨ (s.chan c).pendingMode = some .auto then refuse .wrongMode s
      else ((dropInset c s).modChan c clearChannel, .ok, []) := withChan_of_idx h s _

/-- On an idle link a request whose effect leaves the slots alone is answered from slot 1. -/
theorem exec_idle_of_act {i : Instr} {r : Request} {u : State} {code : ResultCode} {fields : List Byte}
    (idle : s.LinkIdle) (row : i.asRequest = some r) (h : act r (s.hearing (.request r)) = (u, code, fields)) :
    exec i s = .next (u.replying r (replyPayload (kindOf r) code fields)) := by
  rw [exec_request row, deliver_idle idle]
  simp only [answerEntry, answer, h]
  rfl

/-- Settles O23. -/
theorem channelClearDropsEverything : Obligations.ChannelClearDropsEverything := by
  refine ⟨fun x => rfl, fun s ch idle => ⟨fun gt => ?_, fun c hc => ⟨fun auto => ?_, fun mode pending law => ?_⟩⟩⟩
  · exact exec_idle_refused (r := .chClear ch) idle rfl (withChan_of_gt gt _ _)
  · exact exec_idle_refused (r := .chClear ch) (code := .wrongMode) idle rfl
      ((actChClear_eq hc _).trans (if_pos auto))
  · have owner : ∀ p, (s.src p).owner.isSome = (s.src p).state.isOwned := fun p => (law.source p).owner
    have spare := leaveAll_eq s.spare c
    have src : ∀ p, (letGoAll c (s.hearing (.request (.chClear ch)))).src p
        = (s.src p).letGone c (s.hasSignal p) := letGoAll_src c _
    obtain ⟨raised, silent⟩ := letGoAll_notices (s := s.hearing (.request (.chClear ch))) owner c
    refine ⟨_, exec_idle_of_act (r := .chClear ch) (code := .ok) (fields := []) idle rfl
      ((actChClear_eq hc _).trans (if_neg (by rintro (h | h) <;> contradiction))), ?_⟩
    rw [dropInset_eq]
    refine ⟨rfl, ?_, fun d hd => ?_, fun p => ?_, fun p own => ?_, fun p own => ⟨fun st => ?_, fun st => ?_⟩,
      spare, leaveAll_hasIt s.spare c, raised, silent, rfl, rfl, rfl, rfl⟩
    · exact (modChan_chan_same _ c clearChannel).trans (congrArg clearChannel (modChan_chan_same s c Channel.hide))
    · exact (modChan_chan_ne _ hd clearChannel).trans (modChan_chan_ne s hd Channel.hide)
    · exact src p ▸ letGone_owner (owner p)
    · exact (src p).trans (letGone_of_ne own)
    · exact (src p).trans (letGone_of_taken own st)
    · exact (src p).trans (letGone_of_lost own st)

/-! ### HOUSE (O13) -/

theorem formatOf_none {b : Byte} (h : b.toNat < 1 ∨ 6 < b.toNat) : formatOf b = none := by
  unfold formatOf
  split <;> first | omega | rfl

theorem formatOf_code {b : Byte} {f : Format} (h : f.code = b.toNat) : formatOf b = some f := by
  rw [formatOf, ← h]
  cases f <;> rfl

theorem houseAllowed_iff (s : State) : houseAllowed s = true ↔
    ∀ c, (s.chan c).mode = .bypass ∧ (s.chan c).pendingMode = none ∧ (s.chan c).deferred = none := by
  have every : (∀ c ∈ Chan.all, ((s.chan c).mode = .bypass ∧ (s.chan c).pendingMode = none) ∧
      (s.chan c).deferred = none) ↔
      ∀ c, (s.chan c).mode = .bypass ∧ (s.chan c).pendingMode = none ∧ (s.chan c).deferred = none := by
    refine ⟨fun h c => ?_, fun h c _ => ?_⟩
    · obtain ⟨⟨m, p⟩, d⟩ := h c (by cases c <;> decide)
      exact ⟨m, p, d⟩
    · obtain ⟨m, p, d⟩ := h c
      exact ⟨⟨m, p⟩, d⟩
  rw [← every]
  simp only [houseAllowed, List.all_eq_true, Bool.and_eq_true, decide_eq_true_eq, Option.isNone_iff_eq_none]

theorem actHouse_eq {code : Byte} {f : Format} (h : f.code = code.toNat) (s : State) :
    actHouse code s = if houseAllowed s then (takeHouse f s, .ok, []) else refuse .wrongMode s := by
  rw [actHouse, formatOf_code h]

/-- HOUSE changes the state of a source outside ABSENT and DETECTING, and of no other (R44). -/
theorem houseSource_state_ne (x : Source) : (houseSource x).state ≠ x.state ↔ x.state ≠ .absent ∧ x.state ≠ .detecting := by
  have after : (houseSource x).state = if x.state = .absent then .absent else .detecting := rfl
  rw [after]
  cases x.state <;> decide

theorem takeHouse_notices (f : Format) (s : State) :
    ((∃ p, (s.src p).state ≠ .absent ∧ (s.src p).state ≠ .detecting) →
      (takeHouse f s).notices = (raiseCard .sourceChange s).notices) ∧
    ((∀ p, (s.src p).state = .absent ∨ (s.src p).state = .detecting) → (takeHouse f s).notices = s.notices) := by
  unfold takeHouse
  rw [foldl_changeSource_notices _ _ portAll_nodup]
  refine ⟨fun ⟨p, other⟩ => if_pos ⟨p, mem_portAll p, (houseSource_state_ne _).mpr other⟩, fun all => if_neg ?_⟩
  rintro ⟨p, -, changed⟩
  obtain ⟨notAbsent, notDetecting⟩ := (houseSource_state_ne _).mp changed
  exact (all p).elim notAbsent notDetecting

theorem takeHouse_src (f : Format) (s : State) (p : Port) : (takeHouse f s).src p = houseSource (s.src p) := by
  unfold takeHouse
  rw [foldl_changeSource_src _ _ portAll_nodup, if_pos (mem_portAll p)]
  rfl

theorem takeHouse_rest (f : Format) (s : State) : takeHouse f s = { s with
    format := some f, ref := houseReference s.now, channels := s.channels.map houseChannel
    sources := (takeHouse f s).sources, notices := (takeHouse f s).notices } := by
  unfold takeHouse
  rw [foldl_changeSource_rest]

/-- Settles O13. -/
theorem houseSetsTheFormat : Obligations.HouseSetsTheFormat := by
  intro s code idle
  refine ⟨fun bad => ?_, fun f hf => ?_, fun f hf bypass => ?_⟩
  · refine exec_idle_refused (r := .house code) (code := .badField) idle rfl ?_
    rw [act, actHouse, formatOf_none bad]
  · rintro ⟨c, other⟩
    refine exec_idle_refused (r := .house code) (code := .wrongMode) idle rfl
      ((actHouse_eq hf _).trans (if_neg (fun h => ?_)))
    obtain ⟨mode, pending, deferred⟩ := (houseAllowed_iff _).mp h c
    exact other.elim (fun h => h mode) (fun h => h.elim (fun h => h pending) (fun h => h deferred))
  · have effect := exec_idle_of_act (i := .house code) (r := .house code) (code := .ok) (fields := []) idle rfl
      ((actHouse_eq hf _).trans (if_pos ((houseAllowed_iff _).mpr bypass)))
    have rest := takeHouse_rest f (s.hearing (.request (.house code)))
    have src : ∀ p, _ = houseSource (s.src p) := takeHouse_src f (s.hearing (.request (.house code)))
    have notices : (_ → _ = (raiseCard .sourceChange s).notices) ∧ (_ → _ = s.notices) :=
      takeHouse_notices f (s.hearing (.request (.house code)))
    generalize takeHouse f (s.hearing (.request (.house code))) = u at effect rest src notices
    obtain ⟨raised, silent⟩ := notices
    refine ⟨_, effect, ?_, ?_, ?_, ?_, ?_, raised, silent, fun c => ?_, src⟩
    case refine_6 => rw [replying_chan, rest]; exact PerChan.get_map houseChannel s.channels c
    all_goals
      rw [rest]
      rfl

end Sys2Proof.Machine
end

section
/-! PROOFS. The rules of the transition engine's operations: what a resolution stores and how the engine takes its
outcome (R83 to R86, R105 to R108, R124, R125), the ends of crossfades and fades (R114, R116). -/

namespace Sys2Proof.Machine

variable {s t : State} {c d : Chan} {p q : Port} {f : Format} {res : Resolution} {o u : OnAir}

/-! ### Searches -/

/-- A search that finds nothing is FORCED_OUT exactly where nothing is held. -/
theorem holdOrForce_forcedOut_iff (f : Format) (crop : Rect) (zones : List Zone) (held req : Option Rect) :
    (holdOrForce f crop zones held req).outcome = .forcedOut ↔ (holdOrForce f crop zones held req).rect = none := by
  unfold holdOrForce
  split
  · split <;> simp
  · simp

theorem passAOutcome_ne_forcedOut (x : Candidate) : passAOutcome x ≠ .forcedOut := by
  unfold passAOutcome
  split
  · split <;> decide
  · decide

/-- A resolution is FORCED_OUT exactly where it has no rectangle (R83, R84). -/
theorem resolve_forcedOut_iff (f : Format) (crop : Rect) (b : Block) (zones : List Zone) (held : Option Rect) :
    (resolve f crop b zones held).outcome = .forcedOut ↔ (resolve f crop b zones held).rect = none := by
  unfold resolve
  split
  · dsimp only
    split
    next x _ => simp [passAOutcome_ne_forcedOut]
    next =>
      split
      · simp
      · exact holdOrForce_forcedOut_iff _ _ _ _ _
  · exact holdOrForce_forcedOut_iff _ _ _ _ _

/-! ### A resolution stored (R85, R106 to R108) -/

/-- The resolution of a channel for a placement source. -/
def resolutionFor (f : Format) (c : Chan) (p : Port) (s : State) : Resolution :=
  resolve f (cropRect f (s.src p).cropForce) (s.chan c).requested (s.chan c).zones (s.chan c).resolved

/-- A channel with a resolution stored and its fault recorded. -/
def Channel.storing (res : Resolution) (ch : Channel) : Channel :=
  { ch with resolved := res.rect, outcome := some res.outcome, fault := recordFault res ch }

theorem resolveFor_eq (hf : s.format = some f) (c : Chan) (p : Port) : resolveFor c p s
    = (raiseFault c (resolutionFor f c p s) (s.chan c).fault.isNone
        (s.modChan c (Channel.storing (resolutionFor f c p s))), (resolutionFor f c p s).outcome) := by
  have store : s.modChan c (Channel.storing (resolutionFor f c p s)) = s.modChan c (fun x => { x with
      resolved := (resolutionFor f c p s).rect, outcome := some (resolutionFor f c p s).outcome
      fault := recordFault (resolutionFor f c p s) (s.chan c) }) := rfl
  rw [store]
  unfold resolveFor
  rw [hf]
  rfl

/-- Raising a fault's notices changes the notices alone. -/
theorem raiseFault_rest (c : Chan) (res : Resolution) (b : Bool) (s : State) :
    raiseFault c res b s = { s with notices := (raiseFault c res b s).notices } := by
  unfold raiseFault
  dsimp only
  split <;> split <;> rfl

theorem ite_raiseChan_hasChan (P : Prop) [Decidable P] (c d : Chan) (k j : ChanKind) (s : State) :
    (if P then raiseChan c k s else s).notices.raw.hasChan d j = true ↔
      s.notices.raw.hasChan d j = true ∨ P ∧ d = c ∧ j = k := by
  split
  next h => simp [raiseChan_hasChan, h]
  next h => simp [h]

theorem raiseFault_hasChan (c d : Chan) (res : Resolution) (b : Bool) (s : State) (k : ChanKind) :
    (raiseFault c res b s).notices.raw.hasChan d k = true ↔ s.notices.raw.hasChan d k = true ∨
      (b = true ∧ res.outcome ≠ .asRequested) ∧ d = c ∧ k = .placeFault ∨
      res.outcome = .forcedOut ∧ d = c ∧ k = .forcedOut := by
  unfold raiseFault
  rw [ite_raiseChan_hasChan, ite_raiseChan_hasChan, Bool.and_eq_true, decide_eq_true_eq, or_assoc]

section resolveFor

theorem resolveFor_snd (hf : s.format = some f) (c : Chan) (p : Port) :
    (resolveFor c p s).2 = (resolutionFor f c p s).outcome := by rw [resolveFor_eq hf]

theorem resolveFor_chan (hf : s.format = some f) (c : Chan) (p : Port) :
    (resolveFor c p s).1.chan c = (s.chan c).storing (resolutionFor f c p s) := by
  rw [resolveFor_eq hf, raiseFault_rest]
  exact modChan_chan_same s c _

theorem resolveFor_rest (c : Chan) (p : Port) (s : State) : (resolveFor c p s).1
    = { s with channels := (resolveFor c p s).1.channels, notices := (resolveFor c p s).1.notices } := by
  rcases Option.eq_none_or_eq_some s.format with hf | ⟨f, hf⟩
  · have same : resolveFor c p s = (s, .heldPlace) := by
      unfold resolveFor
      rw [hf]
    rw [same]
  · rw [resolveFor_eq hf, raiseFault_rest]
    rfl

@[simp] theorem resolveFor_src (c : Chan) (p q : Port) (s : State) : (resolveFor c p s).1.src q = s.src q := by
  rw [resolveFor_rest]
  rfl
@[simp] theorem resolveFor_spare (c : Chan) (p : Port) (s : State) : (resolveFor c p s).1.spare = s.spare := by
  rw [resolveFor_rest]
@[simp] theorem resolveFor_format (c : Chan) (p : Port) (s : State) : (resolveFor c p s).1.format = s.format := by
  rw [resolveFor_rest]
@[simp] theorem resolveFor_now (c : Chan) (p : Port) (s : State) : (resolveFor c p s).1.now = s.now := by
  rw [resolveFor_rest]

@[simp] theorem resolveFor_hasSignal (c : Chan) (p q : Port) (s : State) :
    (resolveFor c p s).1.hasSignal q = s.hasSignal q :=
  hasSignal_congr (by rw [resolveFor_src]) (resolveFor_now c p s) (resolveFor_format c p s)

theorem resolveFor_hasChan (hf : s.format = some f) (c : Chan) (p : Port) (k : ChanKind) :
    (resolveFor c p s).1.notices.raw.hasChan c k = true ↔ s.notices.raw.hasChan c k = true ∨
      k = .placeFault ∧ (resolutionFor f c p s).outcome ≠ .asRequested ∧ (s.chan c).fault = none ∨
      k = .forcedOut ∧ (resolutionFor f c p s).outcome = .forcedOut := by
  rw [resolveFor_eq hf, raiseFault_hasChan, modChan_notices, Option.isNone_iff_eq_none]
  tauto

theorem resolveFor_hasCard (hf : s.format = some f) (c : Chan) (p : Port) (k : CardKind) :
    (resolveFor c p s).1.notices.raw.hasCard k = s.notices.raw.hasCard k := by
  rw [resolveFor_eq hf]
  unfold raiseFault
  dsimp only
  split <;> split <;> rfl

end resolveFor

/-- The fault record after a resolution (R106). -/
theorem recordFault_of_asRequested (ch : Channel) (h : res.outcome = .asRequested) : recordFault res ch = ch.fault := by
  unfold recordFault
  rw [h]

theorem recordFault_of_empty {ch : Channel} (h : res.outcome ≠ .asRequested) (empty : ch.fault = none) :
    recordFault res ch = some ⟨ch.label, res.requested, blockingOf ch.zones res.requested, res.outcome, 0⟩ := by
  unfold recordFault
  rw [empty]
  split
  next as => exact absurd as h
  next => rfl

theorem recordFault_of_written {ch : Channel} {r : FaultRec} (h : res.outcome ≠ .asRequested)
    (written : ch.fault = some r) : recordFault res ch = some { r with more := min 255 (r.more + 1) } := by
  unfold recordFault
  rw [written]
  split
  next as => exact absurd as h
  next => rfl

/-! ### The end of a crossfade (R116, R124) -/

theorem fadeTo_of_pos (o : OnAir) (target : Nat) {n : Nat} (h : 0 < n) :
    o.fadeTo target n = { o with fade := some ⟨o.level, target, n, 0⟩ } := if_neg (by omega)

theorem endCrossfade_of_some (h : (s.chan c).out = some u) : endCrossfade c s = dropClaim c .crossfade
    ((letGo c u.src s).modChan c (fun ch => { ch with out := none, outRect := none })) := by
  unfold endCrossfade
  rw [h]

theorem endCrossfade_of_none (h : (s.chan c).out = none) : endCrossfade c s
    = dropClaim c .crossfade (s.modChan c (fun ch => { ch with outRect := none })) := by
  unfold endCrossfade
  rw [h]

theorem endCrossfade_chan (c : Chan) (s : State) :
    (endCrossfade c s).chan c = { s.chan c with out := none, outRect := none } := by
  cases h : (s.chan c).out with
  | none =>
    rw [endCrossfade_of_none h, dropClaim_chan, modChan_chan_same, ← h]
  | some u =>
    rw [endCrossfade_of_some h, dropClaim_chan, modChan_chan_same, letGo_chan]

theorem endCrossfade_src (h : (s.chan c).out = some u) (q : Port) :
    (endCrossfade c s).src q = (letGo c u.src s).src q := by
  rw [endCrossfade_of_some h, dropClaim_src, modChan_src]

@[simp] theorem endCrossfade_spare (c : Chan) (s : State) :
    (endCrossfade c s).spare = s.spare.leave c .crossfade := by
  cases h : (s.chan c).out with
  | none =>
    rw [endCrossfade_of_none h]
    rfl
  | some u =>
    rw [endCrossfade_of_some h, dropClaim, modChan_spare, letGo_spare]

@[simp] theorem endCrossfade_hasChan (c d : Chan) (k : ChanKind) (s : State) :
    (endCrossfade c s).notices.raw.hasChan d k = s.notices.raw.hasChan d k := by
  cases h : (s.chan c).out with
  | none =>
    rw [endCrossfade_of_none h]
    rfl
  | some u =>
    rw [endCrossfade_of_some h, dropClaim_notices, modChan_notices, letGo_hasChan]

/-! ### An outcome handed on (R85, R124, R125) -/

/-- What a forced fade-out makes of its channel (R124). -/
def Channel.forcedOut (ch : Channel) : Channel :=
  { ch with
    inset := .forcedOut, glide := none, paused := none, holdCount := if ch.inset = .held then 0 else ch.holdCount
    cur := ch.cur.map (fun o => o.fadeTo 0 6) }

theorem forceOut_eq (c : Chan) (s : State) : forceOut c s = s.modChan c Channel.forcedOut := rfl

theorem reactForcedOut_of_forcedOut (h : (s.chan c).inset = .forcedOut) : reactForcedOut c s = s := by
  unfold reactForcedOut
  rw [h]

theorem reactForcedOut_of_crossfade (h : (s.chan c).inset = .crossfade) :
    reactForcedOut c s = (endCrossfade c s).modChan c Channel.forcedOut := by
  unfold reactForcedOut
  rw [h]
  rfl

theorem reactForcedOut_of_visible (hidden : (s.chan c).inset ≠ .hidden) (forced : (s.chan c).inset ≠ .forcedOut)
    (crossfade : (s.chan c).inset ≠ .crossfade) : reactForcedOut c s = s.modChan c Channel.forcedOut := by
  unfold reactForcedOut
  cases h : (s.chan c).inset <;> first | contradiction | rfl

theorem reactFitting_of_ne (h : (s.chan c).inset ≠ .forcedOut) (n : Nat) :
    reactFitting c n s = s.modChan c (fun ch => ch.glideToResolved n) := if_neg h

/-- FORCED_OUT with the exit mark clear and the source TAKEN: back on air over 6 frames (R125). -/
theorem reactFitting_back (h : (s.chan c).inset = .forcedOut) (exit : (s.chan c).exitMark = false)
    (cur : (s.chan c).cur = some o) (taken : (s.src o.src).state = .taken) (n : Nat) :
    reactFitting c n s = fadeIn c 6 (s.modChan c Channel.showDirect) := by
  have back : (!(s.chan c).exitMark && currentIs c .taken s) = true := by
    rw [exit, currentIs, cur]
    simpa using taken
  unfold reactFitting
  rw [if_pos h, if_pos back]

theorem reactFitting_stays (h : (s.chan c).inset = .forcedOut) (cur : (s.chan c).cur = some o)
    (kept : (s.chan c).exitMark = true ∨ (s.src o.src).state ≠ .taken) (n : Nat) : reactFitting c n s = s := by
  have off : ¬ (!(s.chan c).exitMark && currentIs c .taken s) = true := by
    rw [currentIs, cur]
    rcases kept with h | h <;> simp [h]
  unfold reactFitting
  rw [if_pos h, if_neg off]

/-- The engine's part of a resolution, after the resolution is stored. -/
def handOn (c : Chan) (n : Nat) (outcome : PlaceOutcome) (s : State) : State :=
  if outcome = .forcedOut then reactForcedOut c s
  else if outcome = .heldPlace ∧ (s.chan c).inset ≠ .forcedOut then s
  else reactFitting c n s

theorem resolveVisible_eq (hf : s.format = some f) (hidden : (s.chan c).inset ≠ .hidden)
    (cur : (s.chan c).cur = some o) (n : Nat) : resolveVisible c n s
      = (handOn c n (resolutionFor f c o.src s).outcome (resolveFor c o.src s).1,
          some (resolutionFor f c o.src s).outcome) := by
  unfold resolveVisible
  rw [if_neg hidden, cur]
  dsimp only
  rw [resolveFor_snd hf]
  rfl

theorem resolveVisible_hidden (h : (s.chan c).inset = .hidden) (n : Nat) : resolveVisible c n s = (s, none) := if_pos h

/-! ### What handing on leaves alone -/

/-- What the engine leaves alone of its channel as it takes an outcome. -/
def Channel.stored (ch : Channel) : Option Rect × Option PlaceOutcome × Option FaultRec × Option Rect × Bool :=
  (ch.resolved, ch.outcome, ch.fault, ch.displayed, ch.exitMark)

theorem showDirect_stored (ch : Channel) : ch.showDirect.stored = ch.stored := by
  unfold Channel.showDirect
  split <;> rfl

theorem glideToResolved_stored (ch : Channel) (n : Nat) : (ch.glideToResolved n).stored = ch.stored := by
  unfold Channel.glideToResolved
  split
  · dsimp only
    split <;> split <;> rfl
  · exact showDirect_stored ch
  · rfl

theorem fadeIn_chan (c : Chan) (n : Nat) (s : State) : (fadeIn c n s).chan c = { s.chan c with
    inset := if n = 0 then .shown else .fadingIn, cur := (s.chan c).cur.map (fun o => o.fadeTo 1024 n) } :=
  modChan_chan_same s c _

theorem reactForcedOut_stored (c : Chan) (s : State) :
    ((reactForcedOut c s).chan c).stored = (s.chan c).stored := by
  cases h : (s.chan c).inset with
  | hidden => simp only [reactForcedOut, h]
  | forcedOut => rw [reactForcedOut_of_forcedOut h]
  | crossfade =>
    rw [reactForcedOut_of_crossfade h, modChan_chan_same, endCrossfade_chan]
    rfl
  | _ =>
    rw [reactForcedOut_of_visible (by simp [h]) (by simp [h]) (by simp [h]), modChan_chan_same]
    rfl

theorem reactFitting_stored (c : Chan) (n : Nat) (s : State) :
    ((reactFitting c n s).chan c).stored = (s.chan c).stored := by
  unfold reactFitting
  split
  · split
    · rw [fadeIn_chan, modChan_chan_same]
      exact showDirect_stored _
    · rfl
  · rw [modChan_chan_same]
    exact glideToResolved_stored _ n

theorem handOn_stored (c : Chan) (n : Nat) (outcome : PlaceOutcome) (s : State) :
    ((handOn c n outcome s).chan c).stored = (s.chan c).stored := by
  unfold handOn
  split
  · exact reactForcedOut_stored c s
  · split
    · rfl
    · exact reactFitting_stored c n s

theorem handOn_hasChan (c d : Chan) (n : Nat) (outcome : PlaceOutcome) (k : ChanKind) (s : State) :
    (handOn c n outcome s).notices.raw.hasChan d k = s.notices.raw.hasChan d k := by
  unfold handOn reactFitting reactForcedOut
  split
  · split <;> first | rfl | exact endCrossfade_hasChan c d k s
  · split
    · rfl
    · split
      · split <;> rfl
      · rfl

/-! ### A resolution handed on (O54) -/

section handOn
variable {s t : State} {n : Nat}

/-- FORCED_OUT in a channel that is neither HIDDEN nor already off air (R124). -/
theorem reactForcedOut_chan (hidden : (s.chan c).inset ≠ .hidden) (forced : (s.chan c).inset ≠ .forcedOut) :
    (reactForcedOut c s).chan c = { (s.chan c).forcedOut with
      out := if (s.chan c).inset = .crossfade then none else (s.chan c).out
      outRect := if (s.chan c).inset = .crossfade then none else (s.chan c).outRect } := by
  by_cases crossfade : (s.chan c).inset = .crossfade
  · rw [reactForcedOut_of_crossfade crossfade, modChan_chan_same, endCrossfade_chan, if_pos crossfade, if_pos crossfade]
    rfl
  · rw [reactForcedOut_of_visible hidden forced crossfade, modChan_chan_same, if_neg crossfade, if_neg crossfade]
    rfl

/-- The outgoing source of a crossfade that FORCED_OUT ends (R49, R124). -/
theorem reactForcedOut_crossfade_src (crossfade : (s.chan c).inset = .crossfade) (out : (s.chan c).out = some u) (q : Port) :
    (reactForcedOut c s).src q = (letGo c u.src s).src q := by
  rw [reactForcedOut_of_crossfade crossfade, modChan_src, endCrossfade_src out]

theorem reactForcedOut_crossfade_spare (crossfade : (s.chan c).inset = .crossfade) :
    (reactForcedOut c s).spare = s.spare.leave c .crossfade := by
  rw [reactForcedOut_of_crossfade crossfade, modChan_spare, endCrossfade_spare]

end handOn

theorem mem_activeView {zones : List Zone} {v : Nat × Rect × ZoneClass} :
    v ∈ activeView zones ↔ ∃ z, zones[v.1]? = some z ∧ z.isActive = true ∧ v.2 = (z.rect, z.cls) := by
  obtain ⟨i, w⟩ := v
  rw [activeView, List.mem_map]
  constructor
  · rintro ⟨⟨z, j⟩, hp, heq⟩
    rw [List.mem_filter, List.mem_zipIdx_iff_getElem?] at hp
    obtain ⟨rfl, rfl⟩ := Prod.mk.inj heq
    exact ⟨z, hp.1, hp.2, rfl⟩
  · rintro ⟨z, hz, active, rfl⟩
    exact ⟨(z, i), List.mem_filter.mpr ⟨List.mem_zipIdx_iff_getElem?.mpr hz, active⟩, rfl⟩

theorem blockingOf_none {zones : List Zone} {r : Rect}
    (h : ∀ z ∈ zones, z.isActive = true → r.overlaps z.rect = false) : blockingOf zones (some r) = none := by
  rw [blockingOf, Option.map_eq_none_iff, List.find?_eq_none]
  intro v hv
  obtain ⟨z, hz, active, rect⟩ := mem_activeView.mp hv
  rw [rect, h z (List.mem_of_getElem? hz) active]
  exact Bool.false_ne_true

theorem blockingOf_first {before after : List Zone} {z : Zone} {r : Rect} (active : z.isActive = true)
    (overlap : r.overlaps z.rect = true) (first : ∀ y ∈ before, y.isActive = true → r.overlaps y.rect = false) :
    blockingOf (before ++ z :: after) (some r) = some (before.length, z.cls) := by
  have none : (((before.zipIdx.filter (fun p => p.1.isActive)).map (fun p => (p.2, p.1.rect, p.1.cls))).find?
      (fun v => r.overlaps v.2.1)) = none := by
    have := blockingOf_none first
    rwa [blockingOf, Option.map_eq_none_iff, activeView] at this
  rw [blockingOf, activeView, List.zipIdx_append, List.filter_append, List.map_append, List.find?_append, none,
    Option.none_or, List.zipIdx_cons, List.filter_cons_of_pos (by exact active), List.map_cons, List.find?_cons_of_pos (by exact overlap),
    Option.map_some, Nat.zero_add]

/-- Settles O54: the resolution is stored, its fault recorded, and the outcome handed on by inset state. -/
theorem resolutionIsHandedOn : Obligations.ResolutionIsHandedOn := by
  refine ⟨fun s c n hidden => resolveVisible_hidden hidden n, ?_,
    fun zones r => ⟨rfl, blockingOf_none, fun before after z split active overlap first => ?_⟩⟩
  · rintro s t f c o n res hf hidden cur hres ht
    have hres : res = resolutionFor f c o.src s := hres
    replace ht : t = handOn c n res.outcome (resolveFor c o.src s).1 := by
      rw [ht, resolveVisible_eq hf hidden cur, ← hres]
    have stored := resolveFor_chan hf c o.src
    have notices := resolveFor_hasChan hf c o.src
    rw [← hres] at stored notices
    have spare := resolveFor_spare c o.src s
    have src := fun q => resolveFor_src c o.src q s
    have signal := fun q => resolveFor_hasSignal c o.src q s
    generalize (resolveFor c o.src s).1 = w at ht stored notices spare src signal
    have kept : (t.chan c).stored = ((s.chan c).storing res).stored := by
      rw [ht, ← stored]
      exact handOn_stored c n _ w
    simp only [Channel.stored, Channel.storing, Prod.mk.injEq] at kept
    obtain ⟨resolved, outcome, fault, displayed, exit⟩ := kept
    have inset : (w.chan c).inset = (s.chan c).inset := by rw [stored]; rfl
    have onAir : (w.chan c).cur = some o := by rw [stored]; exact cur
    refine ⟨by rw [resolveVisible_eq hf hidden cur, ← hres], resolved, outcome, displayed, fun as => ?_,
      fun other => ⟨fun empty => ?_, fun r written => ?_⟩, fun k => ?_, fun forced => ?_, fun r fits found off => ?_⟩
    · rw [fault, recordFault_of_asRequested _ as]
    · rw [fault, recordFault_of_empty other empty]
    · rw [fault, recordFault_of_written other written]
    · rw [ht, handOn_hasChan, notices]
    · rw [handOn, if_pos forced] at ht
      by_cases off : (s.chan c).inset = .forcedOut
      · have same : t.chan c = (s.chan c).storing res := by
          rw [ht, reactForcedOut_of_forcedOut (inset.trans off), stored]
        refine ⟨by rw [same]; exact off, by rw [same]; rfl, exit, fun _ => ⟨by rw [same]; exact cur, by rw [same]; rfl⟩,
          fun h => absurd off h, fun h => by simp [off] at h, fun u h => by simp [off] at h⟩
      · have chan := reactForcedOut_chan (s := w) (c := c) (by rw [inset]; exact hidden) (by rw [inset]; exact off)
        rw [← ht, stored] at chan
        refine ⟨by rw [chan]; rfl, by rw [chan]; rfl, exit, fun h => absurd h off,
          fun _ => ⟨?_, by rw [chan]; rfl, by rw [chan]; rfl⟩, fun held => ?_, fun u crossfade out own => ⟨?_, ?_, ?_, ?_⟩⟩
        · rw [chan]
          exact congrArg (Option.map _) cur
        · rw [chan]
          exact if_pos held
        · rw [chan]
          exact if_pos crossfade
        · rw [chan]
          exact if_pos crossfade
        · rw [ht, reactForcedOut_crossfade_spare (inset.trans crossfade), spare]
        · have gone : t.src u.src = (s.src u.src).letGone c (s.hasSignal u.src) := by
            rw [ht, reactForcedOut_crossfade_src (inset.trans crossfade) (by rw [stored]; exact out), letGo_src_same,
              src, signal]
          exact ⟨fun st => gone.trans (letGone_of_taken own (.inr st)), fun st => gone.trans (letGone_of_lost own st)⟩
    · have fitting : t = reactFitting c n w := by
        rw [ht, handOn, if_neg fits, if_neg (fun h => h.2 (inset.trans off))]
      refine ⟨fun clear taken => ?_, fun kept => ?_⟩
      · have back : t.chan c = _ := (congrArg (fun v => v.chan c) (fitting.trans (reactFitting_back (inset.trans off)
          (by rw [stored]; exact clear) onAir (by rw [src]; exact taken) n))).trans (fadeIn_chan c 6 _)
        rw [modChan_chan_same, stored] at back
        have direct : ((s.chan c).storing res).showDirect
            = { (s.chan c).storing res with shown := some ⟨r.x, r.y, r.h⟩, glide := none } := by
          unfold Channel.showDirect Channel.storing
          rw [found]
        rw [back, direct]
        exact ⟨rfl, rfl, rfl, congrArg (Option.map _) cur⟩
      · have same : t.chan c = (s.chan c).storing res := by
          rw [fitting, reactFitting_stays (inset.trans off) onAir ?_, stored]
          rw [src, stored]
          exact kept
        rw [same]
        exact ⟨off, rfl, cur, rfl⟩
  · rw [split]
    exact blockingOf_first active overlap first

end Sys2Proof.Machine
end

section
/-! PROOFS. What every operation of a channel between its tracker step and its re-arm marks leaves alone: the enables
and re-arm marks, the notices of the path and the tracker, the other channels' notices, the crops, and the change marks
of the sources, which are only cleared. -/

namespace Sys2Proof.Machine

/-- From `s` to `t` channel `c` touched of the notices only its own kinds of Chapters 3 to 8 and SOURCE_CHANGE, left
every crop as it was, marked no changed crop, and let no source with its mark go. -/
structure Quiet (c : Chan) (s t : State) : Prop where
  marks : ({ t.notices with raw := s.notices.raw } : Notices) = s.notices
  card : ∀ k, k ≠ .sourceChange → t.notices.raw.hasCard k = s.notices.raw.hasCard k
  other : ∀ d k, d ≠ c → t.notices.raw.hasChan d k = s.notices.raw.hasChan d k
  own : ∀ k, k = .tcFlywheel ∨ k = .tcLost ∨ k = .pgmLoss → t.notices.raw.hasChan c k = s.notices.raw.hasChan c k
  crop : ∀ p, (t.src p).crop = (s.src p).crop ∧ (t.src p).cropForce = (s.src p).cropForce
  report : ∀ p, (t.src p).cropReport = true → (s.src p).cropReport = true
  owned : ∀ p, (s.src p).owner = some c → (t.src p).owner = some c ∨ (t.src p).cropReport = false

/-- A source that kept its crops, and its owner `c` or no change mark. -/
structure CropKept (c : Chan) (x y : Source) : Prop where
  crop : y.crop = x.crop ∧ y.cropForce = x.cropForce
  report : y.cropReport = true → x.cropReport = true
  owned : x.owner = some c → y.owner = some c ∨ y.cropReport = false

namespace Quiet

variable {c : Chan} {s t : State} {f : Format}

theorem refl : Quiet c s s :=
  ⟨rfl, fun _ _ => rfl, fun _ _ _ => rfl, fun _ _ => rfl, fun _ => ⟨rfl, rfl⟩,
    fun _ h => h, fun _ h => .inl h⟩

theorem trans {u : State} (h : Quiet c s t) (k : Quiet c t u) : Quiet c s u where
  marks := by
    rw [← h.marks, ← k.marks]
  card j hj := (k.card j hj).trans (h.card j hj)
  other d j hd := (k.other d j hd).trans (h.other d j hd)
  own j hj := (k.own j hj).trans (h.own j hj)
  crop p := ⟨(k.crop p).1.trans (h.crop p).1, (k.crop p).2.trans (h.crop p).2⟩
  report p hp := h.report p (k.report p hp)
  owned p hp := (h.owned p hp).elim (k.owned p) (fun clear => .inr (by
    cases e : (u.src p).cropReport with
    | false => rfl
    | true => rw [k.report p e] at clear; cases clear))

/-! ### The state's operations -/

/-- A change that touches neither notices nor sources. -/
theorem of_eq (h : Quiet c s t) {u : State} (notices : u.notices = t.notices) (sources : u.sources = t.sources) :
    Quiet c s u := by
  obtain ⟨marks, card, other, own, crop, report, owned⟩ := h
  have src : ∀ p, u.src p = t.src p := fun p => congrArg (fun v => PerPort.get v p) sources
  refine ⟨?_, ?_, ?_, ?_, ?_, ?_, ?_⟩
  all_goals simpa only [notices, src]

theorem modChan (h : Quiet c s t) (d : Chan) (g : Channel → Channel) : Quiet c s (t.modChan d g) :=
  h.of_eq (rfl) (rfl)

theorem spare (h : Quiet c s t) (sp : Spare) : Quiet c s { t with spare := sp } := h.of_eq (rfl) (rfl)

theorem dropClaim (h : Quiet c s t) (k : Claimant) : Quiet c s (dropClaim c k t) := h.spare _

theorem askSpare (h : Quiet c s t) (k : Claimant) : Quiet c s (askSpare c k t).1 := h.spare _

theorem dropAnswer (h : Quiet c s t) (k : Claimant) (a : SpareAns) : Quiet c s (dropAnswer c k a t) := by
  unfold Machine.dropAnswer
  split
  · exact h.dropClaim k
  · exact h

theorem raiseChan (h : Quiet c s t) (k : ChanKind) (hk : k ≠ .tcFlywheel ∧ k ≠ .tcLost ∧ k ≠ .pgmLoss) :
    Quiet c s (raiseChan c k t) :=
  h.trans ⟨rfl, fun _ _ => rfl, fun d j hd => by simp [raiseChan_hasChan, hd],
    fun j hj => by
      have : j ≠ k := by
        rintro rfl
        obtain ⟨a, b, d⟩ := hk
        rcases hj with h | h | h <;> contradiction
      simp [raiseChan_hasChan, this],
    fun _ => ⟨rfl, rfl⟩, fun _ h => h, fun _ h => .inl h⟩

theorem raiseSourceChange (h : Quiet c s t) : Quiet c s (raiseCard .sourceChange t) :=
  h.trans ⟨rfl, fun k hk => by simp [raiseCard_hasCard, hk], fun _ _ _ => rfl, fun _ _ => rfl,
    fun _ => ⟨rfl, rfl⟩, fun _ h => h, fun _ h => .inl h⟩

theorem modSrc_kept (p : Port) (g : Source → Source) (kept : ∀ x, CropKept c x (g x)) (q : Port) :
    CropKept c (t.src q) ((t.modSrc p g).src q) := by
  rw [modSrc_src]
  split
  next hq => exact hq ▸ kept _
  next => exact ⟨⟨rfl, rfl⟩, id, .inl⟩


theorem modSrc (h : Quiet c s t) (p : Port) (g : Source → Source)
    (kept : ∀ x, CropKept c x (g x)) :
    Quiet c s (t.modSrc p g) :=
  h.trans ⟨rfl, fun _ _ => rfl, fun _ _ _ => rfl, fun _ _ => rfl,
    fun q => (modSrc_kept p g kept q).crop, fun q => (modSrc_kept p g kept q).report,
    fun q => (modSrc_kept p g kept q).owned⟩

theorem changeSource (h : Quiet c s t) (p : Port) (g : Source → Source)
    (kept : ∀ x, CropKept c x (g x)) :
    Quiet c s (changeSource p g t) := by
  rcases eq_or_ne (g (t.src p)).state (t.src p).state with same | ne
  · rw [changeSource_of_eq same]
    exact h.modSrc p g kept
  · rw [changeSource_of_ne ne]
    exact (h.modSrc p g kept).raiseSourceChange

theorem grantTake (h : Quiet c s t) (p : Port) : Quiet c s (grantTake c p t) :=
  h.changeSource p _ (fun _ => ⟨⟨rfl, rfl⟩, id, fun _ => .inl rfl⟩)

theorem beginRelease (h : Quiet c s t) (p : Port) : Quiet c s (beginRelease c p t) := by
  unfold Machine.beginRelease
  split
  · exact h.changeSource p _ (fun _ => ⟨⟨rfl, rfl⟩, id, .inl⟩)
  · exact h

theorem letGo (h : Quiet c s t) (p : Port) : Quiet c s (letGo c p t) := by
  rw [letGo_eq]
  refine h.changeSource p _ (fun x => ?_)
  unfold Source.letGone
  split
  · split
    · exact ⟨⟨rfl, rfl⟩, nofun, fun _ => .inr rfl⟩
    · exact ⟨⟨rfl, rfl⟩, nofun, fun _ => .inr rfl⟩
    · exact ⟨⟨rfl, rfl⟩, nofun, fun _ => .inr rfl⟩
    · exact ⟨⟨rfl, rfl⟩, id, .inl⟩
  · exact ⟨⟨rfl, rfl⟩, id, .inl⟩

theorem foldl {α : Type} (g : State → α → State) (step : ∀ {t a}, Quiet c s t → Quiet c s (g t a)) (l : List α)
    (h : Quiet c s t) : Quiet c s (l.foldl g t) := by
  induction l generalizing t with
  | nil => exact h
  | cons a l ih => exact ih (step h)

theorem letGoAll (h : Quiet c s t) : Quiet c s (letGoAll c t) := foldl _ (fun h => h.letGo _) _ h

/-! ### The engine -/

theorem forceOut (h : Quiet c s t) : Quiet c s (forceOut c t) := h.modChan _ _

theorem fadeIn (h : Quiet c s t) (n : Nat) : Quiet c s (fadeIn c n t) := h.modChan _ _

theorem resolveFor (h : Quiet c s t) (p : Port) : Quiet c s (resolveFor c p t).1 := by
  rcases hf : t.format with _ | f
  · rw [Machine.resolveFor, hf]
    exact h
  · rw [resolveFor_eq hf]
    have stored := h.modChan c (Channel.storing (resolutionFor f c p t))
    unfold raiseFault
    dsimp only
    split <;> split
    · exact (stored.raiseChan _ (by decide)).raiseChan _ (by decide)
    · exact stored.raiseChan _ (by decide)
    · exact stored.raiseChan _ (by decide)
    · exact stored

theorem letGoAndHide (h : Quiet c s t) : Quiet c s (letGoAndHide c t) := by
  unfold Machine.letGoAndHide
  split
  · exact (h.letGo _).modChan _ _
  · exact h.modChan _ _

theorem endCrossfade (h : Quiet c s t) : Quiet c s (endCrossfade c t) := by
  unfold Machine.endCrossfade
  split
  · exact ((h.letGo _).modChan _ _).dropClaim _
  · exact (h.modChan _ _).dropClaim _

theorem fadeOut (h : Quiet c s t) (n : Nat) : Quiet c s (fadeOut c n t) := by
  unfold Machine.fadeOut
  split
  · exact h.letGoAndHide
  · exact h.modChan _ _

theorem reactForcedOut (h : Quiet c s t) : Quiet c s (reactForcedOut c t) := by
  unfold Machine.reactForcedOut
  split
  · exact h
  · exact h.forceOut
  · exact h.forceOut
  · exact h.forceOut
  · exact h.forceOut
  · exact h.endCrossfade.forceOut
  · exact h

theorem reactFitting (h : Quiet c s t) (n : Nat) : Quiet c s (reactFitting c n t) := by
  unfold Machine.reactFitting
  split
  · split
    · exact (h.modChan _ _).fadeIn _
    · exact h
  · exact h.modChan _ _

theorem resolveVisible (h : Quiet c s t) (n : Nat) : Quiet c s (resolveVisible c n t).1 := by
  unfold Machine.resolveVisible
  split
  · exact h
  · split
    · exact h
    · dsimp only
      split
      · exact (h.resolveFor _).reactForcedOut
      · split
        · exact h.resolveFor _
        · exact (h.resolveFor _).reactFitting _

theorem showFromHidden (h : Quiet c s t) (p : Port) (n : Nat) : Quiet c s (showFromHidden c p n t).1 := by
  unfold Machine.showFromHidden
  split
  · exact h
  · have taken := ((h.grantTake p).modChan c (fun ch => { ch with
      home := some p, cur := some ⟨p, 0, none⟩, exitMark := false, inset := .forcedOut })).resolveFor p
    dsimp only
    split
    · exact taken
    · exact (taken.modChan _ _).fadeIn _

theorem showAgain (h : Quiet c s t) (p : Port) (n : Nat) : Quiet c s (showAgain c p n t).1 := by
  unfold Machine.showAgain
  split
  · exact h
  · have taken := ((h.grantTake p).modChan c (fun ch => { ch with exitMark := false })).resolveFor p
    dsimp only
    split
    · exact taken.forceOut
    · refine fadeIn ?_ n
      split
      · exact taken
      · exact taken.modChan _ _

theorem doShow (h : Quiet c s t) (p : Option Port) (n : Nat) : Quiet c s (doShow c p n t).1 := by
  unfold Machine.doShow
  split
  · exact h
  · dsimp only
    split
    case h_1 => exact h.showFromHidden _ n
    case h_4 =>
      split
      · exact h.showAgain _ n
      · exact h
    all_goals exact h

theorem releaseCurrent (h : Quiet c s t) : Quiet c s (releaseCurrent c t) := by
  unfold Machine.releaseCurrent
  split
  · exact h.beginRelease _
  · exact h

theorem doHide (h : Quiet c s t) (n : Nat) : Quiet c s (doHide c n t) := by
  unfold Machine.doHide
  split
  · exact h
  · exact h.releaseCurrent.fadeOut n
  · exact h.releaseCurrent.fadeOut n
  · exact h.fadeOut n
  · exact h.endCrossfade.releaseCurrent.fadeOut n
  · exact (h.modChan _ _).fadeOut n
  · exact h.letGoAndHide

theorem cutOver (h : Quiet c s t) (p : Port) (n : Nat) (o : OnAir) : Quiet c s (cutOver c p n o t) := by
  unfold Machine.cutOver
  have cut := ((h.letGo o.src).dropClaim .crossfade).modChan c (fun ch => { ch with
    inset := .shown, out := none, outRect := none, cur := some ⟨p, 1024, none⟩,
    exitMark := false, holdCount := 0, paused := none })
  dsimp only
  split
  · exact cut
  · exact cut.raiseChan _ (by decide)

theorem handOver (h : Quiet c s t) (p : Port) (n : Nat) (k : SpareAns) (o : OnAir) :
    Quiet c s (handOver c p n k o t) := by
  unfold Machine.handOver
  have resolved := (h.modChan c (fun ch => { ch with home := some p, glide := none })).resolveFor p
  dsimp only
  split
  · exact ((resolved.letGo _).modChan _ _).dropClaim _
  · split
    · unfold beginCrossfade
      exact (((resolved.modChan _ _).beginRelease _).askSpare _).modChan _ _
    · exact (resolved.modChan _ _).cutOver _ _ _

theorem completeForHandover (h : Quiet c s t) : Quiet c s (completeForHandover c t) := by
  unfold Machine.completeForHandover
  dsimp only
  split
  · exact (h.letGo _).modChan _ _
  · exact h.modChan _ _

theorem handOverFrom (h : Quiet c s t) (p : Port) (n : Nat) (k : SpareAns) :
    Quiet c s (handOverFrom c p n k t).1 := by
  unfold Machine.handOverFrom
  split
  · exact h
  · exact h
  · exact (h.grantTake _).handOver _ _ _ _

theorem handOverInCrossfade (h : Quiet c s t) (p : Port) (n : Nat) (k : SpareAns) :
    Quiet c s (handOverInCrossfade c p n k t).1 := by
  unfold Machine.handOverInCrossfade
  split
  · exact h
  · dsimp only
    split
    · exact (h.grantTake _).completeForHandover.handOver _ _ _ _
    · exact (h.grantTake _).completeForHandover

theorem handOverForcedOut (h : Quiet c s t) (p : Port) : Quiet c s (handOverForcedOut c p t).1 := by
  unfold Machine.handOverForcedOut
  split
  · exact h
  · exact h
  next old _ _ =>
    have taken := (((h.grantTake p).letGo old.src).modChan c (fun ch => { ch with
      home := some p, exitMark := false, cur := some { old with src := p } })).resolveFor p
    dsimp only
    split
    · exact taken
    · exact (taken.modChan _ _).fadeIn _

theorem doHandover (h : Quiet c s t) (p : Port) (n : Nat) (k : SpareAns) : Quiet c s (doHandover c p n k t).1 := by
  unfold Machine.doHandover
  dsimp only
  split
  · exact h.showFromHidden _ n
  case h_6 =>
    split
    · exact h
    · exact h.handOverInCrossfade _ _ _
  case h_7 =>
    split
    · exact h
    · exact h.handOverForcedOut _
  all_goals
    split
    · exact h
    · exact h.handOverFrom _ _ _

theorem expireHold (h : Quiet c s t) : Quiet c s (expireHold c t) := (h.modChan _ _).raiseChan _ (by decide)

theorem settleFade (h : Quiet c s t) : Quiet c s (settleFade c t) := by
  unfold Machine.settleFade endForcedFade
  split
  · exact h.modChan _ _
  · exact h.letGoAndHide
  · exact h.endCrossfade.modChan _ _
  · split
    · exact h.letGoAndHide
    · exact h
  · exact h

theorem stepFades (h : Quiet c s t) : Quiet c s (stepFades c t) := by
  unfold Machine.stepFades
  split
  · dsimp only
    split
    · exact h.modChan _ _
    · exact (h.modChan _ _).settleFade
  · exact h

theorem stepEngine (h : Quiet c s t) : Quiet c s (stepEngine c t) := by
  unfold Machine.stepEngine stepHold
  split
  · exact h
  · have stepped := h.stepFades.modChan c Channel.stepGlide
    split
    · dsimp only
      split
      · exact (stepped.modChan _ _).expireHold.stepFades
      · exact stepped.modChan _ _
    · exact stepped

/-! ### Actions -/

theorem changeZones (h : Quiet c s t) (l : List Zone) : Quiet c s (changeZones c l t).1 := by
  have stored := h.modChan c (fun ch => { ch with zones := l })
  unfold Machine.changeZones
  dsimp only
  split
  · exact stored
  · exact stored.resolveVisible _

theorem expireZones (h : Quiet c s t) (due : Nat → Bool) : Quiet c s (expireZones c due t) := h.changeZones _

theorem doPush (h : Quiet c s t) (b : Block) (g : Option Nat) : Quiet c s (doPush c b g t) := by
  unfold Machine.doPush
  dsimp only
  split
  · exact ((h.modChan _ _).raiseChan _ (by decide)).resolveVisible _
  · exact (h.modChan _ _).resolveVisible _

theorem doPop (h : Quiet c s t) (g : Option Nat) : Quiet c s (doPop c g t).1 := by
  unfold Machine.doPop
  split
  · exact h.raiseChan _ (by decide)
  · exact (h.modChan _ _).resolveVisible _

theorem doZone (h : Quiet c s t) (i : Nat) (a : Bool) (e : Option Dated) : Quiet c s (doZone c i a e t).1 := by
  unfold Machine.doZone
  dsimp only
  split
  · split
    · exact h.changeZones _
    · exact h
  · exact h.changeZones _

theorem applyAction (h : Quiet c s t) (a : Action) (k : SpareAns) : Quiet c s (applyAction c a k t).1 := by
  cases a with
  | showInset p n => exact h.doShow p n
  | hide n => exact h.doHide n
  | handover p n => exact h.doHandover p n k
  | place b g => exact (h.modChan _ _).resolveVisible _
  | push b g => exact h.doPush b g
  | pop g => exact h.doPop g
  | zone i a e => exact h.doZone i a e
  | mark n => exact (h.modChan _ _).raiseChan _ (by decide)
  | standby p => exact h.modChan c (fun ch => { ch with standby := p })

theorem writeFailure (h : Quiet c s t) (tag : Nat) (a : Action) (r : Reason) : Quiet c s (writeFailure c tag a r t) :=
  (h.modChan _ _).raiseChan _ (by decide)

/-! ### The dispatcher -/

theorem fireCue (h : Quiet c s t) (q : Cue) : Quiet c s (fireCue c t q) := by
  unfold Machine.fireCue countFired
  have acted := ((h.modChan c (leaveList q.tag)).applyAction q.action q.claim).dropAnswer (.cue q.tag) q.claim
  dsimp only
  split
  · exact acted.modChan _ _
  · exact (acted.modChan _ _).writeFailure _ _ _

theorem fireAll (h : Quiet c s t) (due : Cue → Bool) : Quiet c s (fireAll c due t) := foldl _ (fun h => h.fireCue _) _ h

theorem missAll (h : Quiet c s t) (missed : Cue → Bool) : Quiet c s (missAll c missed t) :=
  foldl _ (fun h => (((h.modChan _ _).modChan _ _).dropAnswer _ _).raiseChan _ (by decide)) _ h

theorem prepareAll (h : Quiet c s t) (n : Nat) : Quiet c s (prepareAll c n t) := by
  refine foldl _ (fun {t q} h => ?_) _ h
  unfold prepareCue askForCue
  dsimp only
  split
  · exact (h.askSpare _).modChan _ _
  · exact h.modChan _ _

theorem revertCues (h : Quiet c s t) : Quiet c s (revertCues c t) :=
  foldl _ (fun h => (h.dropAnswer _ _).modChan _ _) _ h

theorem inAuto {k : State → State} (h : Quiet c s t) (hk : Quiet c s (k t)) : Quiet c s (inAuto c k t) := by
  unfold Machine.inAuto
  split
  · exact hk
  · exact h

theorem endDay (h : Quiet c s t) : Quiet c s (endDay c t) := 
  (h.expireZones _).modChan c (fun ch => { ch with cues := clearCueMarks ch.cues, zones := ch.zones.map Zone.clearMark })

theorem owedMidnight (h : Quiet c s t) (held : Bool) : Quiet c s (owedMidnight c held t) := by
  unfold Machine.owedMidnight
  dsimp only
  split
  · have missed := (h.inAuto (h.missAll (missedCue (fun _ => true)))).expireZones (fun _ => true)
    exact (missed.inAuto (missed.fireAll _)).endDay
  · have expired := h.expireZones (fun _ => true)
    exact (expired.inAuto (expired.fireAll _)).endDay

theorem midnightStep (h : Quiet c s t) (k : Track) : Quiet c s (midnightStep c k t) := by
  unfold Machine.midnightStep
  split
  · exact h
  · exact h.endDay
  · have expired := h.expireZones (fun _ => true)
    exact (expired.inAuto (expired.fireAll _)).endDay

theorem endLost (h : Quiet c s t) (k : Track) : Quiet c s (endLost c k t) := by
  unfold Machine.endLost
  split
  · exact h.modChan _ _
  · exact h

theorem jumpMisses (h : Quiet c s t) (k : Track) : Quiet c s (jumpMisses c k t) := by
  unfold Machine.jumpMisses
  split
  · exact h.inAuto (h.missAll _)
  · exact h

theorem dueItems (h : Quiet c s t) (k : Track) (e : Bool) (l : List Nat) : Quiet c s (dueItems c k e l t) :=
  (h.expireZones _).inAuto ((h.expireZones _).fireAll _)

theorem entryRule (h : Quiet c s t) (n : Nat) : Quiet c s (entryRule f c n t) :=
  (((h.expireZones _).missAll _).fireAll _).modChan c (fun ch => { ch with heldBack := false })

theorem dispatch (h : Quiet c s t) (entered : Bool) (k : Track) : Quiet c s (dispatch f c entered k t) := by
  unfold Machine.dispatch
  split
  · split
    · exact h.modChan _ _
    · exact h
  · unfold dispatchSteps
    dsimp only
    have owed : Quiet c s (if k.owed = true then Machine.owedMidnight c (t.chan c).heldBack t else t) := by
      split
      · exact h.owedMidnight _
      · exact h
    generalize (if k.owed = true then Machine.owedMidnight c (t.chan c).heldBack t else t) = v at owed
    have entry : Quiet c s (if (entered || (t.chan c).heldBack) = true then Machine.entryRule f c k.label v else v) := by
      split
      · exact owed.entryRule _
      · exact owed
    refine inAuto (endLost (dueItems ((entry.jumpMisses k).midnightStep k) k _ _) k) ?_
    exact prepareAll (endLost (dueItems ((entry.jumpMisses k).midnightStep k) k _ _) k) _

theorem applyTakes (h : Quiet c s t) : Quiet c s (applyTakes c t) := by
  refine (foldl _ (fun {t w} h => ?_) _ h).modChan _ _
  unfold applyTake
  have acted := (h.applyAction w.action w.claim).dropAnswer (.take w.id) w.claim
  dsimp only
  split
  · exact acted
  · exact acted.writeFailure _ _ _

/-! ### A frame start's other parts -/

theorem enterBypass (h : Quiet c s t) : Quiet c s (enterBypass c t) := by
  unfold Machine.enterBypass dropInset
  exact (((h.letGoAll.modChan _ _).spare _).revertCues).modChan _ _

theorem enterThru (h : Quiet c s t) : Quiet c s (enterThru c t) := h.revertCues.modChan _ _

theorem takePending (h : Quiet c s t) (m : Mode) : Quiet c s (takePending c m t).1 := by
  unfold Machine.takePending
  have taken := h.modChan c (fun ch => { ch with pendingMode := none })
  dsimp only
  split
  · exact taken
  · split
    · exact taken.enterBypass
    · exact taken.enterThru
    · exact taken.modChan c (fun ch => { leaveBypass ch with mode := .auto, deferred := none })

theorem discardWaiting (h : Quiet c s t) : Quiet c s (discardWaiting c t) :=
  (foldl _ (fun h => h.dropAnswer _ _) _ h).modChan _ _

theorem takeDeferred (h : Quiet c s t) : Quiet c s (takeDeferred c t) := by
  unfold Machine.takeDeferred
  split
  · exact h.enterThru.raiseChan _ (by decide)
  · exact h

theorem modeChange (h : Quiet c s t) : Quiet c s (modeChange c t).1 := by
  unfold Machine.modeChange
  split <;> dsimp only <;> split
  · exact (h.takePending _).discardWaiting
  · exact h.takePending _
  · exact h.takeDeferred.discardWaiting
  · exact h.takeDeferred

theorem reportCrop (h : Quiet c s t) (p : Port) : Quiet c s (reportCrop c t p) := by
  unfold Machine.reportCrop
  split
  · have seen := h.modSrc p (fun x => { x with cropReport := false }) (fun _ => ⟨⟨rfl, rfl⟩, nofun, fun _ => .inr rfl⟩)
    dsimp only
    split
    · exact seen.resolveVisible _
    · exact seen
  · exact h

theorem reportCrops (h : Quiet c s t) : Quiet c s (reportCrops c t) := foldl _ (fun h => h.reportCrop _) _ h

theorem markInUse (h : Quiet c s t) (used : List Port) : Quiet c s (markInUse c used t) := by
  refine foldl _ (fun {t p} h => ?_) _ h
  split
  · exact h.modSrc p _ (fun _ => ⟨⟨rfl, rfl⟩, id, .inl⟩)
  · exact h

theorem present (h : Quiet c s t) : Quiet c s (present f c t) := by
  unfold Machine.present
  exact (h.markInUse _).modChan _ _

end Quiet

end Sys2Proof.Machine
end

section
/-! PROOFS. A frame start of the card, channel by channel: crops, notices and re-arm marks, and when frame starts come
(R5, R26, R27, R58, R191, R194). -/

namespace Sys2Proof.Machine

variable {c d : Chan} {s t : State} {f : Format}

/-! ### The tracker step -/

/-- What the tracker step leaves alone. -/
theorem trackerStep_rest (f : Format) (c : Chan) (t : State) :
    { (trackerStep f c t).1 with channels := t.channels, notices := t.notices } = t := by
  unfold trackerStep
  dsimp only
  split
  · rfl
  · split <;> split <;> rfl

theorem trackerStep_src (p : Port) : (trackerStep f c t).1.src p = t.src p :=
  (congrArg (fun u => u.src p) (trackerStep_rest f c t) :)

theorem trackerStep_marks : ({ (trackerStep f c t).1.notices with raw := t.notices.raw } : Notices) = t.notices := by
  unfold trackerStep
  dsimp only
  split
  · rfl
  · split <;> split <;> rfl

/-- The tracker raises TC_FLYWHEEL as it leaves LOCKED and TC_LOST as it enters LOST (R26, R27). -/
theorem trackerStep_hasChan (d : Chan) (k : ChanKind) :
    (trackerStep f c t).1.notices.raw.hasChan d k = (t.notices.raw.hasChan d k ||
      decide (d = c ∧ (t.chan c).sel.validWord = none ∧ (k = .tcFlywheel ∧ (t.chan c).track = .locked ∨
        k = .tcLost ∧ (t.chan c).track = .flywheel ∧ f.rate ≤ (t.chan c).flywheel + 1))) := by
  unfold trackerStep
  dsimp only
  cases (t.chan c).sel.validWord with
  | some w => simp
  | none =>
    unfold flywheelStep
    cases (t.chan c).track with
    | locked => simp [raiseChan_hasChan]
    | lost => simp
    | flywheel =>
      rcases Nat.lt_or_ge ((t.chan c).flywheel + 1) f.rate with few | run
      · simp [few]
      · simp [run, raiseChan_hasChan]

/-! ### The re-arm marks -/

theorem rearmChannel_rest (c : Chan) (t : State) : { rearmChannel c t with notices := t.notices } = t := by
  unfold rearmChannel
  dsimp only
  split <;> split <;> rfl

theorem rearmChannel_chan (c d : Chan) (t : State) : (rearmChannel c t).chan d = t.chan d :=
  (congrArg (fun u => u.chan d) (rearmChannel_rest c t) :)

theorem rearmChannel_src (c : Chan) (t : State) (p : Port) : (rearmChannel c t).src p = t.src p :=
  (congrArg (fun u => u.src p) (rearmChannel_rest c t) :)

/-- The re-arm marks of a channel are cleared, the rest of the marks and the enables stand. -/
theorem rearmChannel_marks (c : Chan) (t : State) :
    ({ (rearmChannel c t).notices with raw := t.notices.raw } : Notices) = { t.notices with
      rearmTc := t.notices.rearmTc.set c false, rearmPgm := t.notices.rearmPgm.set c false } := by
  unfold rearmChannel
  dsimp only
  split <;> split <;> rfl

theorem rearmChannel_hasChan (c d : Chan) (t : State) (k : ChanKind) :
    (rearmChannel c t).notices.raw.hasChan d k = (t.notices.raw.hasChan d k ||
      decide (d = c ∧ (k = .tcLost ∧ t.notices.rearmTc.get c = true ∧ (t.chan c).track = .lost ∨
        k = .pgmLoss ∧ t.notices.rearmPgm.get c = true ∧ (t.chan c).pgm = .lost))) := by
  unfold rearmChannel
  dsimp only
  cases t.notices.rearmTc.get c <;> cases t.notices.rearmPgm.get c <;> by_cases ht : (t.chan c).track = .lost <;>
    by_cases hp : (t.chan c).pgm = .lost <;> simp [ht, hp, raiseChan_hasChan]
  by_cases hd : d = c <;> simp [hd, Bool.or_assoc]

/-! ### A channel's frame start around its tracker step -/

/-- The card as a channel's tracker step finds it. -/
def beforeTracker (f : Format) (c : Chan) (s : State) : State :=
  (modeChange c s).1.modChan c (fun ch => selectOutput f (slewStep ch))

theorem beforeTracker_quiet : Quiet c s (beforeTracker f c s) := Quiet.refl.modeChange.modChan c _

/-- Between tracker step and re-arm marks a channel's frame start is quiet, and keeps path and tracker. -/
theorem chanFrameStart_split (f : Format) (s : State) (c : Chan) :
    ∃ u, Quiet c (reportCrops c (trackerStep f c (beforeTracker f c s)).1) u ∧
      Quiet c (trackerStep f c (beforeTracker f c s)).1 u ∧ chanFrameStart f s c = rearmChannel c u ∧
      (u.chan c).path = ((trackerStep f c (beforeTracker f c s)).1.chan c).path := by
  have kept := (Keeps.rfl (c := c) (s := (trackerStep f c (beforeTracker f c s)).1)).afterTracker f (modeChange c s).2
    (trackerStep f c (beforeTracker f c s)).2
  have reported := (Quiet.refl (c := c) (s := (trackerStep f c (beforeTracker f c s)).1)).reportCrops
  have after : ∀ v, Quiet c (reportCrops c (trackerStep f c (beforeTracker f c s)).1) v →
      Quiet c (trackerStep f c (beforeTracker f c s)).1 v := fun _ h => reported.trans h
  refine ⟨_, ?quiet, after _ ?quiet, rfl, ?_⟩
  · refine Quiet.present (f := f) (Quiet.stepEngine ?_)
    have dispatched := Quiet.refl.dispatch (c := c) (s := reportCrops c (trackerStep f c (beforeTracker f c s)).1)
      (f := f) (modeChange c s).2 (trackerStep f c (beforeTracker f c s)).2
    split
    · exact dispatched
    · exact dispatched.applyTakes
  · have path := kept.path
    rwa [rearmChannel_chan] at path

/-! ### Crops (R58) -/

theorem chanFrameStart_crop (p : Port) : ((chanFrameStart f s c).src p).crop = (s.src p).crop ∧
    ((chanFrameStart f s c).src p).cropForce = (s.src p).cropForce := by
  obtain ⟨u, _, quiet, e, _⟩ := chanFrameStart_split f s c
  obtain ⟨crop, force⟩ := quiet.crop p
  obtain ⟨crop₀, force₀⟩ := (beforeTracker_quiet (f := f) (c := c) (s := s)).crop p
  rw [trackerStep_src] at crop force
  rw [e, rearmChannel_src]
  exact ⟨crop.trans crop₀, force.trans force₀⟩

theorem foldl_chanFrameStart_crop (l : List Chan) (s : State) (p : Port) :
    ((l.foldl (chanFrameStart f) s).src p).crop = (s.src p).crop ∧
    ((l.foldl (chanFrameStart f) s).src p).cropForce = (s.src p).cropForce := by
  induction l generalizing s with
  | nil => exact ⟨rfl, rfl⟩
  | cons c l ih =>
    obtain ⟨crop, force⟩ := ih (chanFrameStart f s c)
    obtain ⟨crop₀, force₀⟩ := chanFrameStart_crop (f := f) (s := s) (c := c) p
    exact ⟨crop.trans crop₀, force.trans force₀⟩

theorem rearmRefLoss_src (s : State) (p : Port) : (rearmRefLoss s).src p = s.src p := by
  unfold rearmRefLoss
  dsimp only
  split <;> rfl

theorem latchCrops_src (s : State) (p : Port) :
    (latchCrops s).src p = { s.src p with cropForce := (s.src p).crop } := by
  unfold latchCrops State.src
  rw [PerPort.get_map]

theorem reportCrop_unseen {p : Port} (h : (s.src p).owner ≠ some c ∨ (s.src p).cropReport = false) :
    reportCrop c s p = s := by
  unfold reportCrop
  rw [if_neg]
  rintro ⟨owner, mark⟩
  rcases h with h | h
  · exact h owner
  · rw [h] at mark
    cases mark

/-- A source with a mark that its channel looks at is without one after it. -/
theorem reportCrop_clears {p : Port} (owner : (s.src p).owner = some c) : ((reportCrop c s p).src p).cropReport = false := by
  cases mark : (s.src p).cropReport with
  | false => rwa [reportCrop_unseen (.inr mark)]
  | true =>
    unfold reportCrop
    rw [if_pos ⟨owner, mark⟩]
    dsimp only
    have clear : ((s.modSrc p (fun x => { x with cropReport := false })).src p).cropReport = false := by
      rw [modSrc_src_same]
    split
    · have quiet := (Quiet.refl (c := c) (s := s.modSrc p (fun x => { x with cropReport := false }))).resolveVisible
        ((s.modSrc p (fun x => { x with cropReport := false })).chan c).defaultGlide
      exact Bool.eq_false_iff.mpr (fun set => Bool.eq_false_iff.mp clear (quiet.report p set))
    · exact clear

/-- After the crop reports a source that the channel owned before has no mark. -/
theorem foldl_reportCrop_clears {p : Port} (l : List Port) (hp : p ∈ l)
    (h : (s.src p).owner = some c ∨ (s.src p).cropReport = false) :
    ((l.foldl (reportCrop c) s).src p).cropReport = false := by
  induction l generalizing s with
  | nil => cases hp
  | cons q l ih =>
    have stays {t : State} (clear : (t.src p).cropReport = false) : ((l.foldl (reportCrop c) t).src p).cropReport = false :=
      Bool.eq_false_iff.mpr (fun set => Bool.eq_false_iff.mp clear
        ((Quiet.foldl _ (fun h => h.reportCrop _) l (Quiet.refl (c := c))).report p set))
    have quiet := (Quiet.refl (c := c) (s := s)).reportCrop q
    rw [List.foldl_cons]
    have seen : ((reportCrop c s q).src p).owner = some c ∨ ((reportCrop c s q).src p).cropReport = false := by
      rcases h with owner | clear
      · exact quiet.owned p owner
      · exact .inr (Bool.eq_false_iff.mpr (fun set => Bool.eq_false_iff.mp clear (quiet.report p set)))
    rcases List.mem_cons.mp hp with rfl | later
    · rcases h with owner | clear
      · exact stays (reportCrop_clears owner)
      · rw [reportCrop_unseen (.inr clear)]
        exact stays clear
    · exact ih later seen

theorem chanFrameStart_clears {p : Port} (owner : (s.src p).owner = some c) :
    ((chanFrameStart f s c).src p).cropReport = false := by
  obtain ⟨u, quiet, _, e, _⟩ := chanFrameStart_split f s c
  rw [e, rearmChannel_src]
  refine Bool.eq_false_iff.mpr (fun set => Bool.eq_false_iff.mp ?_ (quiet.report p set))
  refine foldl_reportCrop_clears Port.all (mem_portAll p) ?_
  rw [trackerStep_src]
  exact beforeTracker_quiet.owned p owner

/-- Settles O17: a frame start brings the stored crops into force and nothing in it changes a crop; the crop reports
go through the ports in order, each by its case. -/
theorem cropInForceAndReported : Obligations.CropInForceAndReported := by
  refine ⟨fun s order hf p => ?_, fun _ _ => rfl, fun s c p => ⟨reportCrop_unseen, fun owner mark => ⟨?_, ?_⟩⟩,
    fun f s c p => chanFrameStart_clears⟩
  · obtain ⟨f, hf⟩ := Option.ne_none_iff_exists'.mp hf
    obtain ⟨crop, force⟩ := foldl_chanFrameStart_crop (f := f) (channelOrder order) (latchCrops s) p
    unfold frameStart
    rw [hf]
    dsimp only
    rw [rearmRefLoss_src, crop, force, latchCrops_src]
    exact ⟨rfl, rfl⟩
  · rintro o cur rfl
    unfold reportCrop
    rw [if_pos ⟨owner, mark⟩]
    simp [cur]
  · intro other
    unfold reportCrop
    rw [if_pos ⟨owner, mark⟩]
    refine if_neg (fun cur => ?_)
    obtain ⟨o, current, src⟩ := Option.map_eq_some_iff.mp cur
    exact other o current src

/-! ### One channel's turn in the card's frame start -/

/-- From `s` to `t` channel `c` stands, and with it its notices and re-arm marks. -/
structure Aside (c : Chan) (s t : State) : Prop where
  chan : t.chan c = s.chan c
  raw : ∀ k, t.notices.raw.hasChan c k = s.notices.raw.hasChan c k
  rearmTc : t.notices.rearmTc.get c = s.notices.rearmTc.get c
  rearmPgm : t.notices.rearmPgm.get c = s.notices.rearmPgm.get c

theorem Aside.refl : Aside c s s := ⟨rfl, fun _ => rfl, rfl, rfl⟩

theorem Aside.trans {u : State} (h : Aside c s t) (k : Aside c t u) : Aside c s u :=
  ⟨k.chan.trans h.chan, fun j => (k.raw j).trans (h.raw j), k.rearmTc.trans h.rearmTc, k.rearmPgm.trans h.rearmPgm⟩

/-- The marks and enables after a channel's frame start: its own re-arm marks are clear. -/
theorem chanFrameStart_marks (f : Format) (s : State) (c : Chan) :
    ({ (chanFrameStart f s c).notices with raw := s.notices.raw } : Notices) = { s.notices with
      rearmTc := s.notices.rearmTc.set c false, rearmPgm := s.notices.rearmPgm.set c false } := by
  obtain ⟨u, _, quiet, e, _⟩ := chanFrameStart_split f s c
  have before := (beforeTracker_quiet (f := f) (c := c) (s := s)).marks
  have marks : ({ u.notices with raw := s.notices.raw } : Notices) = s.notices := calc
    _ = { (trackerStep f c (beforeTracker f c s)).1.notices with raw := s.notices.raw } :=
      congrArg (fun n : Notices => { n with raw := s.notices.raw }) quiet.marks
    _ = { (beforeTracker f c s).notices with raw := s.notices.raw } :=
      congrArg (fun n : Notices => { n with raw := s.notices.raw }) trackerStep_marks
    _ = s.notices := before
  rw [e]
  exact (congrArg (fun n : Notices => { n with raw := s.notices.raw }) (rearmChannel_marks c u)).trans
    (congrArg (fun n : Notices => { n with rearmTc := n.rearmTc.set c false, rearmPgm := n.rearmPgm.set c false }) marks)

theorem chanFrameStart_rearmRef (f : Format) (s : State) (c : Chan) :
    (chanFrameStart f s c).notices.rearmRef = s.notices.rearmRef :=
  (congrArg Notices.rearmRef (chanFrameStart_marks f s c) :)

theorem chanFrameStart_rearmTc (f : Format) (s : State) (c d : Chan) :
    (chanFrameStart f s c).notices.rearmTc.get d = if d = c then false else s.notices.rearmTc.get d := by
  rw [show (chanFrameStart f s c).notices.rearmTc = s.notices.rearmTc.set c false from
    (congrArg Notices.rearmTc (chanFrameStart_marks f s c) :), PerChan.get_set]

theorem chanFrameStart_rearmPgm (f : Format) (s : State) (c d : Chan) :
    (chanFrameStart f s c).notices.rearmPgm.get d = if d = c then false else s.notices.rearmPgm.get d := by
  rw [show (chanFrameStart f s c).notices.rearmPgm = s.notices.rearmPgm.set c false from
    (congrArg Notices.rearmPgm (chanFrameStart_marks f s c) :), PerChan.get_set]

/-- Another channel's frame start leaves a channel aside. -/
theorem chanFrameStart_aside (f : Format) (s : State) (h : c ≠ d) : Aside c s (chanFrameStart f s d) where
  chan := (Keeps.rfl.toKeepsLaws.chanFrameStart f).chan_ne h
  raw k := by
    obtain ⟨u, _, quiet, e, _⟩ := chanFrameStart_split f s d
    have before := (beforeTracker_quiet (f := f) (c := d) (s := s)).other c k h
    rw [e, rearmChannel_hasChan, quiet.other c k h, trackerStep_hasChan, before]
    simp [h]
  rearmTc := by rw [chanFrameStart_rearmTc, if_neg h]
  rearmPgm := by rw [chanFrameStart_rearmPgm, if_neg h]

theorem foldl_aside (f : Format) (l : List Chan) (h : c ∉ l) (s : State) :
    Aside c s (l.foldl (chanFrameStart f) s) := by
  induction l generalizing s with
  | nil => exact .refl
  | cons d l ih =>
    rw [List.mem_cons, not_or] at h
    exact (chanFrameStart_aside f s h.1).trans (ih h.2 _)

/-- In the card's frame start each channel has one turn, before and after which it stands aside. -/
theorem foldl_turn (f : Format) (l : List Chan) (hc : c ∈ l) (nodup : l.Nodup) (s : State) :
    ∃ v, Aside c s v ∧ Aside c (chanFrameStart f v c) (l.foldl (chanFrameStart f) s) := by
  induction l generalizing s with
  | nil => cases hc
  | cons d l ih =>
    rw [List.nodup_cons] at nodup
    rw [List.foldl_cons]
    by_cases h : c = d
    · subst h
      exact ⟨s, .refl, foldl_aside f l nodup.1 _⟩
    · obtain ⟨v, first, turn⟩ := ih ((List.mem_cons.mp hc).resolve_left h) nodup.2 (chanFrameStart f s d)
      exact ⟨v, (chanFrameStart_aside f s h).trans first, turn⟩

theorem rearmRefLoss_aside : Aside c s (rearmRefLoss s) := by
  unfold rearmRefLoss
  dsimp only
  split
  · exact ⟨rfl, fun k => by simp [NoticeBits.hasChan, NoticeBits.addCard, raiseCard], rfl, rfl⟩
  · exact ⟨rfl, fun _ => rfl, rfl, rfl⟩

theorem frameStart_turn (hf : s.format = some f) (order : List Chan) (c : Chan) :
    ∃ v, Aside c s v ∧ Aside c (chanFrameStart f v c) (frameStart order s) := by
  obtain ⟨v, first, turn⟩ := foldl_turn f (channelOrder order) (mem_channelOrder order c) (channelOrder_nodup order)
    (latchCrops s)
  have latched : Aside c s (latchCrops s) := ⟨rfl, fun _ => rfl, rfl, rfl⟩
  refine ⟨v, latched.trans first, ?_⟩
  unfold frameStart
  rw [hf]
  exact turn.trans rearmRefLoss_aside

/-! ### The notices of a channel's own turn -/

theorem revertCues_path : ((revertCues c t).chan c).path = (t.chan c).path := Keeps.rfl.revertCues.path

theorem dropInset_path : ((dropInset c t).chan c).path = (t.chan c).path := Keeps.rfl.dropInset.path

/-- Programme checker and store, and the label tracker: the part of a path that no mode change touches. -/
def Channel.inputs (ch : Channel) := (ch.path.2.1, ch.path.2.2.2)

theorem leaveBypass_inputs (ch : Channel) : (leaveBypass ch).inputs = ch.inputs := by
  unfold leaveBypass
  split <;> rfl

theorem enterThru_inputs : ((enterThru c t).chan c).inputs = (t.chan c).inputs := by
  unfold enterThru
  rw [modChan_chan_same]
  have reverted : ((revertCues c t).chan c).inputs = (t.chan c).inputs := by
    unfold Channel.inputs
    rw [revertCues_path]
  exact (leaveBypass_inputs _).trans reverted

theorem enterBypass_inputs : ((enterBypass c t).chan c).inputs = (t.chan c).inputs := by
  unfold enterBypass
  rw [modChan_chan_same]
  have reverted : ((revertCues c (dropInset c t)).chan c).inputs = (t.chan c).inputs := by
    unfold Channel.inputs
    rw [revertCues_path, dropInset_path]
  exact reverted

theorem takePending_inputs (m : Mode) : ((takePending c m t).1.chan c).inputs = (t.chan c).inputs := by
  have pending : ((t.modChan c (fun ch => { ch with pendingMode := none })).chan c).inputs = (t.chan c).inputs := by
    rw [modChan_chan_same]
    rfl
  unfold takePending
  dsimp only
  split
  · exact pending
  · cases m with
    | bypass => exact enterBypass_inputs.trans pending
    | thru => exact enterThru_inputs.trans pending
    | auto =>
      refine Eq.trans ?_ pending
      show ((enterAuto c _).chan c).inputs = _
      unfold enterAuto
      rw [modChan_chan_same]
      exact leaveBypass_inputs _

theorem takeDeferred_inputs : ((takeDeferred c t).chan c).inputs = (t.chan c).inputs := by
  unfold takeDeferred
  split
  · rw [raiseChan_chan]
    exact enterThru_inputs
  · rfl

theorem discardWaiting_inputs : ((discardWaiting c t).chan c).inputs = (t.chan c).inputs := by
  rw [discardWaiting_chan]
  rfl

theorem modeChange_inputs : ((modeChange c t).1.chan c).inputs = (t.chan c).inputs := by
  unfold modeChange
  split <;> dsimp only <;> split
  · exact discardWaiting_inputs.trans (takePending_inputs _)
  · exact takePending_inputs _
  · exact discardWaiting_inputs.trans takeDeferred_inputs
  · exact takeDeferred_inputs

theorem slewStep_inputs (ch : Channel) : (slewStep ch).inputs = ch.inputs := by
  unfold slewStep
  split
  · rfl
  · split
    · rfl
    · split <;> rfl

theorem selectOutput_inputs (f : Format) (ch : Channel) : (selectOutput f ch).inputs = ch.inputs := by
  unfold selectOutput
  split <;> rfl

theorem beforeTracker_inputs : ((beforeTracker f c s).chan c).inputs = (s.chan c).inputs := by
  unfold beforeTracker
  rw [modChan_chan_same, selectOutput_inputs, slewStep_inputs, modeChange_inputs]

theorem tracked_sel (f : Format) (ch : Channel) : (ch.tracked f).sel = ch.sel := by
  unfold Channel.tracked
  split <;> rfl

theorem tracked_pgm (f : Format) (ch : Channel) : (ch.tracked f).pgm = ch.pgm := by
  unfold Channel.tracked
  split <;> rfl

/-- The raw flags of path and tracker kinds after a channel's frame start: those its tracker step and its re-arm marks
raise. -/
theorem chanFrameStart_hasChan (f : Format) (s : State) (c : Chan) {k : ChanKind}
    (hk : k = .tcFlywheel ∨ k = .tcLost ∨ k = .pgmLoss) :
    (chanFrameStart f s c).notices.raw.hasChan c k = true ↔ s.notices.raw.hasChan c k = true ∨
      ((chanFrameStart f s c).chan c).sel.validWord = none ∧ (k = .tcFlywheel ∧ (s.chan c).track = .locked ∨
        k = .tcLost ∧ (s.chan c).track = .flywheel ∧ f.rate ≤ (s.chan c).flywheel + 1) ∨
      k = .tcLost ∧ s.notices.rearmTc.get c = true ∧ ((chanFrameStart f s c).chan c).track = .lost ∨
      k = .pgmLoss ∧ s.notices.rearmPgm.get c = true ∧ (s.chan c).pgm = .lost := by
  obtain ⟨u, _, quiet, e, path⟩ := chanFrameStart_split f s c
  rw [trackerStep_chan] at path
  have before := beforeTracker_quiet (f := f) (c := c) (s := s)
  have marks : ({ u.notices with raw := s.notices.raw } : Notices) = s.notices := calc
    _ = { (trackerStep f c (beforeTracker f c s)).1.notices with raw := s.notices.raw } :=
      congrArg (fun n : Notices => { n with raw := s.notices.raw }) quiet.marks
    _ = { (beforeTracker f c s).notices with raw := s.notices.raw } :=
      congrArg (fun n : Notices => { n with raw := s.notices.raw }) trackerStep_marks
    _ = s.notices := before.marks
  have rearmTc : u.notices.rearmTc = s.notices.rearmTc := (congrArg Notices.rearmTc marks :)
  have rearmPgm : u.notices.rearmPgm = s.notices.rearmPgm := (congrArg Notices.rearmPgm marks :)
  have track : ((beforeTracker f c s).chan c).track = (s.chan c).track :=
    congrArg (fun i => i.2.2.1) (beforeTracker_inputs (f := f) (c := c) (s := s))
  have flywheel : ((beforeTracker f c s).chan c).flywheel = (s.chan c).flywheel :=
    congrArg (fun i => i.2.2.2.1) (beforeTracker_inputs (f := f) (c := c) (s := s))
  have sel : (u.chan c).sel = ((beforeTracker f c s).chan c).sel :=
    (congrArg (fun p => p.2.2.1.2.2.2.1) path).trans (tracked_sel f _)
  have pgm : (u.chan c).pgm = (s.chan c).pgm :=
    (congrArg (fun p => p.2.1.1) path).trans ((tracked_pgm f _).trans
      (congrArg (fun i => i.1.1) (beforeTracker_inputs (f := f) (c := c) (s := s))))
  rw [e, rearmChannel_chan, rearmChannel_hasChan, quiet.own k hk, trackerStep_hasChan, before.own k hk, rearmTc, rearmPgm,
    track, flywheel, sel, pgm]
  simp only [Bool.or_eq_true, decide_eq_true_eq, true_and, or_assoc]

/-! ### The notice line -/

theorem pending_ne_empty (n : Notices) : n.pending ≠ NoticeBits.empty ↔ n.raw.card &&& n.enable.card ≠ 0 ∨
    ∃ c, n.raw.chan.get c &&& n.enable.chan.get c ≠ 0 := by
  have empty : n.pending = NoticeBits.empty ↔ n.raw.card &&& n.enable.card = 0 ∧
      ∀ c, n.raw.chan.get c &&& n.enable.chan.get c = 0 := by
    unfold Notices.pending NoticeBits.inter NoticeBits.empty
    rw [NoticeBits.mk.injEq, PerChan.mk.injEq]
    refine and_congr_right fun _ => ⟨fun ⟨h0, h1, h2, h3⟩ c => ?_, fun h => ⟨h .c0, h .c1, h .c2, h .c3⟩⟩
    cases c
    exacts [h0, h1, h2, h3]
  rw [Ne, empty, not_and_or, not_forall]

theorem rearmChannel_raw (c : Chan) (s : State) :
    (rearmChannel c s).notices.raw = { s.notices.raw with chan := s.notices.raw.chan.set c (s.notices.raw.chan.get c |||
      (if s.notices.rearmTc.get c = true ∧ (s.chan c).track = .lost then 0x0200#16 else 0) |||
      (if s.notices.rearmPgm.get c = true ∧ (s.chan c).pgm = .lost then 0x0400#16 else 0)) } := by
  have same : s.notices.raw.chan.set c (s.notices.raw.chan.get c) = s.notices.raw.chan := by cases c <;> rfl
  unfold rearmChannel raiseChan NoticeBits.addChan
  dsimp only
  cases s.notices.rearmTc.get c <;> cases s.notices.rearmPgm.get c <;> by_cases ht : (s.chan c).track = .lost <;>
    by_cases hp : (s.chan c).pgm = .lost <;> simp [ht, hp, same, ChanKind.bit, PerChan.get_set]

theorem rearmRefLoss_pos (set : s.notices.rearmRef = true) (free : s.ref.state = .free) :
    rearmRefLoss s = raiseCard .refLoss { s with notices := { s.notices with rearmRef := false } } := by
  simp [rearmRefLoss, set, free]

theorem rearmRefLoss_neg (h : s.notices.rearmRef = false ∨ s.ref.state ≠ .free) :
    rearmRefLoss s = { s with notices := { s.notices with rearmRef := false } } := by
  rcases h with h | h <;> simp [rearmRefLoss, h]

theorem rearmRefLoss_rearmRef : (rearmRefLoss s).notices.rearmRef = false := by
  unfold rearmRefLoss
  dsimp only
  split <;> rfl

theorem foldl_chanFrameStart_ref (f : Format) (l : List Chan) (s : State) :
    (l.foldl (chanFrameStart f) s).ref = s.ref ∧
    (l.foldl (chanFrameStart f) s).notices.rearmRef = s.notices.rearmRef := by
  induction l generalizing s with
  | nil => exact ⟨rfl, rfl⟩
  | cons c l ih =>
    obtain ⟨ref, rearm⟩ := ih (chanFrameStart f s c)
    exact ⟨ref.trans (card_ref ((Keeps.rfl (c := c)).toKeepsLaws.chanFrameStart f).card),
      rearm.trans (chanFrameStart_rearmRef f s c)⟩

/-- Settles O33: the line by the pending set, the marks by their cases, and a frame start by each channel's turn. -/
theorem noticeLineAndRearmMarks : Obligations.NoticeLineAndRearmMarks := by
  refine ⟨fun s => ?_, fun s => ⟨rearmRefLoss_pos, rearmRefLoss_neg⟩, fun s c => ?_, fun s order hf => ?_⟩
  · unfold State.noticeLine State.running
    rw [Bool.and_eq_true, Bool.and_eq_true, decide_eq_true_iff, Option.isNone_iff_eq_none, pending_ne_empty, and_assoc]
  · have marks := rearmChannel_marks c s
    have raw := rearmChannel_raw c s
    refine ⟨(rearmChannel c s).notices, (congrArg (fun t => { t with notices := (rearmChannel c s).notices })
      (rearmChannel_rest c s) :), (congrArg Notices.enable marks :), (congrArg Notices.rearmRef marks :), ?_, ?_, ?_, ?_,
      fun d hd => ⟨?_, ?_, ?_⟩⟩
    · rw [raw]
    · rw [raw]
      simp [PerChan.get_set]
    · rw [show (rearmChannel c s).notices.rearmTc = _ from (congrArg Notices.rearmTc marks :)]
      simp [PerChan.get_set]
    · rw [show (rearmChannel c s).notices.rearmPgm = _ from (congrArg Notices.rearmPgm marks :)]
      simp [PerChan.get_set]
    · rw [raw]
      simp [PerChan.get_set, hd]
    · rw [show (rearmChannel c s).notices.rearmTc = _ from (congrArg Notices.rearmTc marks :)]
      simp [PerChan.get_set, hd]
    · rw [show (rearmChannel c s).notices.rearmPgm = _ from (congrArg Notices.rearmPgm marks :)]
      simp [PerChan.get_set, hd]
  · obtain ⟨f, hf⟩ := Option.ne_none_iff_exists'.mp hf
    have start : frameStart order s = rearmRefLoss ((channelOrder order).foldl (chanFrameStart f) (latchCrops s)) := by
      rw [frameStart, hf]
    refine ⟨start ▸ rearmRefLoss_rearmRef, fun c => ?_⟩
    obtain ⟨v, first, turn⟩ := frameStart_turn hf order c
    refine ⟨?_, ?_, fun set free => ?_, fun set lost => ?_, fun set lost => ?_⟩
    · rw [turn.rearmTc, chanFrameStart_rearmTc, if_pos rfl]
    · rw [turn.rearmPgm, chanFrameStart_rearmPgm, if_pos rfl]
    · obtain ⟨ref, rearm⟩ := foldl_chanFrameStart_ref f (channelOrder order) (latchCrops s)
      rw [start, rearmRefLoss_pos (rearm.trans set) (by rw [ref]; exact free), raiseCard_hasCard]
      simp
    · rw [turn.chan] at lost
      rw [turn.raw, chanFrameStart_hasChan f v c (.inr (.inl rfl)), first.rearmTc]
      exact .inr (.inr (.inl ⟨rfl, set, lost⟩))
    · rw [turn.raw, chanFrameStart_hasChan f v c (.inr (.inr rfl)), first.rearmPgm, first.chan]
      exact .inr (.inr (.inr ⟨rfl, set, lost⟩))

/-! ### What a frame start makes of every channel -/

theorem midnightOf_flywheel (f : Format) (l : Nat) (isRepeat : Bool) :
    midnightOf f l (flywheelLabel f l isRepeat) .continuous = .continuous ↔ isRepeat = false ∧ l + 1 = f.day := by
  have day : f.day ≠ 1 := by cases f <;> decide
  unfold midnightOf flywheelLabel
  cases isRepeat with
  | true =>
    have : ¬(l + 1 = f.day ∧ l = 0) := by omega
    simp [this]
  | false =>
    by_cases h : l + 1 = f.day
    · simp [h]
    · simp [h]

/-- The tracker step as `State.Framed` spells it. -/
theorem tracked_eq_trackedAs (f : Format) (ch : Channel) :
    ((ch.tracked f).label, (ch.tracked f).track, (ch.tracked f).flywheel, (ch.tracked f).owed, (ch.tracked f).lostFrom)
      = trackedAs f ch ch.sel := by
  unfold Channel.tracked trackedAs
  cases ch.sel.validWord with
  | some w => rfl
  | none =>
    have owed : decide (midnightOf f ch.label (flywheelLabel f ch.label ch.sel.isRepeat) .continuous
        = Midnight.continuous) = (!ch.sel.isRepeat && decide (ch.label + 1 = f.day)) := by
      rw [Bool.eq_iff_iff, decide_eq_true_iff, midnightOf_flywheel]
      simp
    dsimp only
    rw [owed]
    unfold flywheelStep lostFromAfter
    cases track : ch.track with
    | locked => simp [flywheelLabel]
    | lost => simp [flywheelLabel]
    | flywheel =>
      rcases Nat.lt_or_ge (ch.flywheel + 1) f.rate with few | run
      · simp [flywheelLabel, Nat.not_le.mpr few]
      · simp [flywheelLabel, run]

theorem trackedAs_congr (f : Format) {a b : Channel} (h : a.inputs = b.inputs) (x : Selection) :
    trackedAs f a x = trackedAs f b x := by
  have label : a.label = b.label := congrArg (fun i => i.2.1) h
  have track : a.track = b.track := congrArg (fun i => i.2.2.1) h
  have flywheel : a.flywheel = b.flywheel := congrArg (fun i => i.2.2.2.1) h
  have owed : a.owed = b.owed := congrArg (fun i => i.2.2.2.2.1) h
  have lostFrom : a.lostFrom = b.lostFrom := congrArg (fun i => i.2.2.2.2.2) h
  unfold trackedAs
  rw [label, track, flywheel, owed, lostFrom]

/-- Slew, selection and tracker step leave the mode, the programme and the target; the tracker step leaves delay, slew
and selection, the selection delay and slew. -/
theorem slewed_path (f : Format) (ch : Channel) :
    ((selectOutput f (slewStep ch)).tracked f).path.1 = ch.path.1 ∧
    ((selectOutput f (slewStep ch)).tracked f).path.2.1 = ch.path.2.1 ∧
    ((selectOutput f (slewStep ch)).tracked f).target = ch.target ∧
    ((selectOutput f (slewStep ch)).tracked f).delay = (slewStep ch).delay ∧
    ((selectOutput f (slewStep ch)).tracked f).slew = (slewStep ch).slew := by
  have slewed : (slewStep ch).path.1 = ch.path.1 ∧ (slewStep ch).path.2.1 = ch.path.2.1 ∧
      (slewStep ch).target = ch.target := by
    unfold slewStep
    split
    · exact ⟨rfl, rfl, rfl⟩
    · split
      · exact ⟨rfl, rfl, rfl⟩
      · split <;> exact ⟨rfl, rfl, rfl⟩
  have selected (x : Channel) : (selectOutput f x).path.1 = x.path.1 ∧ (selectOutput f x).path.2.1 = x.path.2.1 ∧
      (selectOutput f x).target = x.target ∧ (selectOutput f x).delay = x.delay ∧ (selectOutput f x).slew = x.slew := by
    unfold selectOutput
    split <;> exact ⟨rfl, rfl, rfl, rfl, rfl⟩
  have tracked (x : Channel) : (x.tracked f).path.1 = x.path.1 ∧ (x.tracked f).path.2.1 = x.path.2.1 ∧
      (x.tracked f).target = x.target ∧ (x.tracked f).delay = x.delay ∧ (x.tracked f).slew = x.slew := by
    unfold Channel.tracked
    split <;> exact ⟨rfl, rfl, rfl, rfl, rfl⟩
  obtain ⟨mode, programme, target⟩ := slewed
  obtain ⟨mode₁, programme₁, target₁, delay₁, slew₁⟩ := selected (slewStep ch)
  obtain ⟨mode₂, programme₂, target₂, delay₂, slew₂⟩ := tracked (selectOutput f (slewStep ch))
  exact ⟨mode₂.trans (mode₁.trans mode), programme₂.trans (programme₁.trans programme),
    target₂.trans (target₁.trans target), delay₂.trans delay₁, slew₂.trans slew₁⟩

theorem still_of_card (h : t.card = s.card) : t.still = s.still :=
  (congrArg (fun u : State => { u with now := 0, ref := Reference.reset }) h :)

/-- A frame start of the card frames it (R5, R9 to R12, R24 to R28). -/
theorem frameStart_framed (hf : s.format = some f) (order : List Chan) : State.Framed f s (frameStart order s) where
  rest := still_of_card (frameStart_card order)
  path c pending deferred := by
    have path := frameStart_path order f hf pending deferred
    generalize (frameStart order s).chan c = ch at path ⊢
    obtain ⟨mode, programme, target, delay, slew⟩ := slewed_path f (s.chan c)
    rw [← path] at mode programme
    refine ⟨congrArg (·.1) mode, congrArg (·.2.2) mode, congrArg (·.2.2.2.2.1) programme,
      (congrArg (·.2.2.1.1) path).trans target, (congrArg (·.2.2.1.2.1) path).trans delay,
      (congrArg (·.2.2.1.2.2.1) path).trans slew, (congrArg (·.2.2.1.2.2.2.1) path).trans (tracked_sel f _), ?_⟩
    calc (ch.label, ch.track, ch.flywheel, ch.owed, ch.lostFrom)
      _ = ch.path.2.2.2 := rfl
      _ = ((selectOutput f (slewStep (s.chan c))).tracked f).path.2.2.2 := congrArg (fun p => p.2.2.2) path
      _ = trackedAs f (selectOutput f (slewStep (s.chan c))) _ := tracked_eq_trackedAs f _
      _ = _ := trackedAs_congr f ((selectOutput_inputs f _).trans (slewStep_inputs _)) _
  raised c pending deferred := by
    obtain ⟨v, first, turn⟩ := frameStart_turn hf order c
    have sel : ((frameStart order s).chan c).sel = (selectOutput f (slewStep (s.chan c))).sel :=
      (congrArg (fun p => p.2.2.1.2.2.2.1) (frameStart_path order f hf pending deferred)).trans (tracked_sel f _)
    rw [turn.raw, turn.raw, chanFrameStart_hasChan f v c (.inl rfl), chanFrameStart_hasChan f v c (.inr (.inl rfl)),
      ← turn.chan, first.raw, first.raw, first.rearmTc, first.chan, sel]
    constructor
    · simp [and_comm]
    · simp [and_comm, and_assoc]

/-- A frame start of the card with another clock and reference. -/
theorem State.Framed.of_clock (hf : s.format = some f) (order : List Chan) (now : Nat) (ref : Reference) :
    State.Framed f s (frameStart order { s with now := now, ref := ref }) := by
  obtain ⟨rest, path, raised⟩ := frameStart_framed (s := { s with now := now, ref := ref }) hf order
  exact ⟨rest, path, raised⟩

theorem frameStart_now (order : List Chan) : (frameStart order s).now = s.now := card_now (frameStart_card order)

theorem frameStart_ref (order : List Chan) : (frameStart order s).ref = s.ref := card_ref (frameStart_card order)

/-! ### When frame starts come -/

/-- A pulse that leaves the checker LOCKED is judged against the moment of the preceding frame start. -/
theorem refPulse_locked {dt : Nat} {inW : Bool} (order : List Chan) (running : s.running = true)
    (hf : s.format = some f) (seen : s.ref.pulseSeen = true) (window : inW = f.inWindow (s.now + dt - s.ref.lastPulse))
    (locked : (s.ref.state = .acquiring ∨ s.ref.state = .free) ∧ 7 ≤ s.ref.inRun ∧ inW = true ∨
      s.ref.state = .locked ∧ (inW = true ∨ s.ref.outRun < 2)) :
    refPulse order (s.elapse dt) = pulseFrame f order { s with
      now := s.now + dt
      ref := { s.ref with
        state := .locked, lastPulse := s.now + dt
        inRun := if inW then min 8 (s.ref.inRun + 1) else 0, outRun := if inW then 0 else s.ref.outRun + 1 } } := by
  have running' : (s.elapse dt).running = true := running
  have hf' : (s.elapse dt).format = some f := hf
  have seen' : (s.elapse dt).ref.pulseSeen = true := seen
  have notIdle : (s.elapse dt).ref.state ≠ .idle := by
    intro idle
    have idle : s.ref.state = .idle := idle
    rw [idle] at locked
    simp at locked
  have window' : f.inWindow ((s.elapse dt).now - (s.elapse dt).ref.lastPulse) = inW := window.symm
  unfold refPulse
  rw [running', hf']
  dsimp only
  rw [if_neg notIdle, if_pos seen', window']
  unfold judgePulse Reference.count
  rcases locked with ⟨acquiring | free, long, rfl⟩ | ⟨locked, good⟩
  · have full : min 8 (s.ref.inRun + 1) = 8 := by omega
    simp [State.elapse, acquiring, full, seen, hf]
  · have full : min 8 (s.ref.inRun + 1) = 8 := by omega
    simp [State.elapse, free, full, seen, hf]
  · cases inW with
    | true => simp [State.elapse, locked, seen, hf]
    | false =>
      have few : s.ref.outRun < 2 := good.resolve_left Bool.false_ne_true
      have third : min 3 (s.ref.outRun + 1) = s.ref.outRun + 1 := by omega
      have short : s.ref.outRun ≠ 2 := by omega
      simp [State.elapse, locked, third, short, seen, hf]

/-- Settles O35: a pulse that leaves the checker LOCKED, and the card's own timers, make their frame starts by the
moment of the preceding one; each frames the card. -/
theorem frameStartsByPulseAndTimer : Obligations.FrameStartsByPulseAndTimer := by
  intro s f order running hf
  refine ⟨fun dt inW r seen window hr locked => ?_, fun free => ?_, fun locked => ?_⟩
  · have pulse : exec (.refPulse dt order) s = .next (refPulse order (s.elapse dt)) := rfl
    rw [pulse, refPulse_locked order running hf seen window locked]
    subst hr
    unfold pulseFrame
    dsimp only
    constructor
    · intro due
      rw [if_pos due]
      exact ⟨_, rfl, State.Framed.of_clock hf order _ _, frameStart_now order, frameStart_ref order⟩
    · intro early
      rw [if_neg (Nat.not_le.mpr early)]
  · have own : exec (.freeRunFrameStart order) s = .next (freeRunFrame order s) := rfl
    rw [own, freeRunFrame, running, hf]
    dsimp only
    rw [if_pos free]
    exact ⟨_, rfl, State.Framed.of_clock hf order _ _, frameStart_now order, frameStart_ref order⟩
  · have own : exec (.latePulseFrameStart order) s = .next (latePulseFrame order s) := rfl
    rw [own, latePulseFrame, running, hf]
    dsimp only
    rw [if_pos locked]
    exact ⟨_, _, rfl, State.Framed.of_clock hf order _ _, rfl, frameStart_now order, frameStart_ref order⟩

end Sys2Proof.Machine
end

section
/-! PROOFS. The integer functions of fades, glides, key and blend, step by step, and the order of the cue list
(Chapters 4, 5, 7 and 8). -/

namespace Sys2Proof.Machine

/-! ### Moving between two values (R91, R114) -/

theorem moveBetween_zero (a b n : Nat) : moveBetween a b 0 n = a := by
  unfold moveBetween
  split <;> simp

theorem moveBetween_full (a b : Nat) {n : Nat} (h : 0 < n) : moveBetween a b n n = b := by
  unfold moveBetween
  rw [Nat.mul_div_cancel _ h, Nat.mul_div_cancel _ h]
  split <;> omega

/-- The fraction truncates toward zero in either direction. -/
theorem moveBetween_eq_tdiv {a b t n : Nat} (h : t ≤ n) :
    (moveBetween a b t n : Int) = a + Int.tdiv (((b : Int) - a) * t) n := by
  unfold moveBetween
  split
  case isTrue up =>
    have way : ((b : Int) - a) * t = (((b - a) * t : Nat) : Int) := by
      rw [Nat.cast_mul, Nat.cast_sub up]
    rw [way, ← Int.ofNat_tdiv, ← Nat.cast_add]
  case isFalse down =>
    have back : b ≤ a := Nat.le_of_not_le down
    have way : ((b : Int) - a) * t = -(((a - b) * t : Nat) : Int) := by
      rw [Nat.cast_mul, Nat.cast_sub back]
      ring
    have part : (a - b) * t / n ≤ a := by
      rcases Nat.eq_zero_or_pos n with rfl | pos
      · simp
      · exact (Nat.div_le_of_le_mul (by rw [Nat.mul_comm n]; exact Nat.mul_le_mul_left _ h)).trans (Nat.sub_le a b)
    rw [way, Int.neg_tdiv, ← Int.ofNat_tdiv, Nat.cast_sub part]
    ring

theorem moveBetween_bounds {a b t n : Nat} (h : t ≤ n) :
    min a b ≤ moveBetween a b t n ∧ moveBetween a b t n ≤ max a b := by
  have part (d : Nat) : d * t / n ≤ d := by
    rcases Nat.eq_zero_or_pos n with rfl | pos
    · simp
    · exact Nat.div_le_of_le_mul (by rw [Nat.mul_comm n]; exact Nat.mul_le_mul_left _ h)
  have up := part (b - a)
  have down := part (a - b)
  unfold moveBetween
  generalize (b - a) * t / n = rise at up
  generalize (a - b) * t / n = fall at down
  rcases Nat.le_total a b with h | h
  · rw [if_pos h, min_eq_left h, max_eq_right h]
    omega
  · rw [min_eq_right h, max_eq_left h]
    split <;> omega

/-! ### Fades (R114) -/

/-- A fade before its last step. -/
theorem stepFade_iterate {o : OnAir} {ft n t : Nat} (h : t < n) :
    OnAir.stepFade^[t] (o.fadeTo ft n) = { o with
      level := moveBetween o.level ft t n, fade := some ⟨o.level, ft, n, t⟩ } := by
  induction t with
  | zero =>
    rw [moveBetween_zero]
    unfold OnAir.fadeTo
    rw [if_neg (by omega)]
    rfl
  | succ t ih =>
    rw [Function.iterate_succ_apply', ih (by omega)]
    unfold OnAir.stepFade
    dsimp only
    rw [if_neg (by omega)]

theorem stepFade_iterate_last {o : OnAir} {ft n : Nat} (h : 0 < n) :
    OnAir.stepFade^[n] (o.fadeTo ft n) = { o with level := ft, fade := none } := by
  obtain ⟨k, rfl⟩ := Nat.exists_eq_add_of_lt h
  rw [Nat.zero_add, Function.iterate_succ_apply', stepFade_iterate (Nat.lt_succ_self k)]
  unfold OnAir.stepFade
  dsimp only
  rw [if_pos (le_refl _)]

/-! ### Glides (R91, R92) -/

/-- A glide before its last step; before its first it has moved nothing. -/
theorem stepGlide_iterate {ch : Channel} {a b : Shown} {n t : Nat} (h : t < n) :
    Channel.stepGlide^[t] (ch.startGlide a b n) = { ch with
      shown := if t = 0 then ch.shown else some (glideAt ⟨a, b, n, t - 1⟩ t), glide := some ⟨a, b, n, t⟩ } := by
  induction t with
  | zero => rfl
  | succ t ih =>
    rw [Function.iterate_succ_apply', ih (by omega)]
    unfold Channel.stepGlide
    dsimp only
    rw [if_neg (by omega), if_neg (by omega)]
    rfl

theorem stepGlide_iterate_last {ch : Channel} {a b : Shown} {n : Nat} (h : 0 < n) :
    Channel.stepGlide^[n] (ch.startGlide a b n) = { ch with shown := some b, glide := none } := by
  obtain ⟨k, rfl⟩ := Nat.exists_eq_add_of_lt h
  rw [Nat.zero_add, Function.iterate_succ_apply', stepGlide_iterate (Nat.lt_succ_self k)]
  unfold Channel.stepGlide
  dsimp only
  rw [if_pos (le_refl _)]

theorem evenFloor_moveBetween {a b t n : Nat} (h : t ≤ n) :
    (evenFloor (moveBetween a b t n) : Int) = 2 * ((a + Int.tdiv (((b : Int) - a) * t) n) / 2) := by
  rw [← moveBetween_eq_tdiv h]
  unfold evenFloor
  push_cast
  ring

/-- Settles O60: every step of a fade and of a glide in closed form, the last one on the target. -/
theorem fadesAndGlidesReachTheirTargets : Obligations.FadesAndGlidesReachTheirTargets := by
  refine ⟨fun o ft n => ⟨rfl, rfl, fun t first last => ?_⟩, fun ch a b n => ⟨rfl, rfl, rfl, fun t first last => ?_⟩⟩
  · have level : (OnAir.stepFade^[t] (o.fadeTo ft n)).level = moveBetween o.level ft t n := by
      rcases Nat.lt_or_eq_of_le last with h | rfl
      · rw [stepFade_iterate h]
      · rw [stepFade_iterate_last first, moveBetween_full _ _ first]
    obtain ⟨low, high⟩ := moveBetween_bounds (a := o.level) (b := ft) last
    rw [level]
    refine ⟨moveBetween_eq_tdiv last, low, high, ?_, fun full => by rw [full, moveBetween_full _ _ (by omega)]⟩
    rcases Nat.lt_or_eq_of_le last with h | rfl
    · rw [stepFade_iterate h]
      simp [h.ne]
    · rw [stepFade_iterate_last first]
      simp
  · rcases Nat.lt_or_eq_of_le last with h | rfl
    · rw [stepGlide_iterate h]
      refine ⟨glideAt ⟨a, b, n, t - 1⟩ t, if_neg (by omega), fun _ => ⟨rfl, ?_, ?_, ?_⟩, fun full => absurd full h.ne⟩
      · exact evenFloor_moveBetween last
      · exact moveBetween_eq_tdiv last
      · exact evenFloor_moveBetween last
    · rw [stepGlide_iterate_last first]
      exact ⟨b, rfl, fun h => absurd h (Nat.lt_irrefl _), fun _ => ⟨rfl, rfl⟩⟩

/-! ### Dated order with entry sequence (R139) -/

/-- A list in order of dated label and, within one, of entry sequence. -/
def InOrder (l : List Cue) : Prop :=
  l.Pairwise (fun a b => a.date.le b.date = true ∧ (a.date = b.date → a.seq < b.seq))

theorem Dated.le_refl (a : Dated) : a.le a = true := by simp [Dated.le]

/-- A cue with a greater sequence enters at its dated place. -/
theorem insertCue_inOrder {q : Cue} {l : List Cue} (h : InOrder l) (new : ∀ x ∈ l, x.seq < q.seq) :
    InOrder (insertCue q l) := by
  induction l with
  | nil => exact List.pairwise_singleton _ _
  | cons x xs ih =>
    obtain ⟨first, rest⟩ := List.pairwise_cons.mp h
    unfold insertCue
    split
    case isTrue after =>
      refine List.pairwise_cons.mpr ⟨fun y hy => ?_, ih rest (fun y hy => new y (List.mem_cons_of_mem x hy))⟩
      rcases List.mem_cons.mp ((insertCue_perm q xs).mem_iff.mp hy) with rfl | hy
      · exact ⟨after, fun _ => new x List.mem_cons_self⟩
      · exact first y hy
    case isFalse before =>
      have earlier : q.date.le x.date = true := (Dated.le_total _ _).resolve_right before
      refine List.pairwise_cons.mpr ⟨fun y hy => ?_, h⟩
      have later : x.date.le y.date = true := by
        rcases List.mem_cons.mp hy with rfl | hy
        · exact Dated.le_refl _
        · exact (first y hy).1
      exact ⟨Dated.le_trans earlier later, fun same => absurd (same ▸ later) before⟩

theorem lt_nextSeq {l : List Cue} {x : Cue} (h : x ∈ l) : x.seq < nextSeq l := by
  have grows (l : List Cue) (m : Nat) : m ≤ l.foldl (fun m q => max m (q.seq + 1)) m := by
    induction l generalizing m with
    | nil => exact Nat.le_refl m
    | cons y l ih => exact (Nat.le_max_left ..).trans (ih _)
  have key (l : List Cue) (m : Nat) (h : x ∈ l) : x.seq < l.foldl (fun m q => max m (q.seq + 1)) m := by
    induction l generalizing m with
    | nil => cases h
    | cons y l ih =>
      rcases List.mem_cons.mp h with rfl | h
      · exact (Nat.le_max_right m (x.seq + 1)).trans (grows l _)
      · exact ih _ h
  exact key l 0 h

theorem insertCleared_inOrder {day : List Cue} (l : List Cue) (h : InOrder day) : InOrder (insertCleared day l) := by
  induction l generalizing day with
  | nil => exact h
  | cons q qs ih => exact ih (insertCue_inOrder h (fun _ hx => lt_nextSeq hx))

/-- Settles O30: each cue, accepted or cleared at a midnight, enters with a sequence above the list's. -/
theorem cueListStaysInDatedOrder : Obligations.CueListStaysInDatedOrder := fun l q order new =>
  ⟨insertCue_perm q l, insertCue_inOrder order new, insertCleared_inOrder _ (order.filter _), clearCueMarks_tags l,
    clearCueMarks_unmarked l⟩

end Sys2Proof.Machine
end

section
/-! PROOFS. The key and blend unit: cover, order, legal ranges, footprints, means, key alpha and blend (Chapter 4). -/

namespace Sys2Proof.Machine

/-! ### Cover and order (R61, R72) -/

theorem covers_iff (x : Presented) (k y : Nat) : covers x k y = true ↔
    x.rect.x ≤ 2 * k ∧ 2 * k < x.rect.x + x.rect.w ∧ x.rect.y ≤ y ∧ y < x.rect.y + x.rect.h := by
  simp [covers, and_assoc]

theorem blendSource_of_not_covers {x : Presented} {k y : Nat} (h : covers x k y = false) (p : Samples) :
    blendSource k y p x = p := by
  rw [blendSource, h]
  rfl

/-- Only the covering sources touch a pair. -/
theorem composePair_eq_filter (kin : KeyIn) (k y : Nat) :
    composePair kin k y = (kin.sources.filter (fun x => covers x k y)).foldl (fun p x => blendSource k y p x)
      (programmePair kin.pgm k y) := by
  rw [composePair, List.foldl_filter]
  congr 1
  funext p x
  split
  next => rfl
  next h => exact blendSource_of_not_covers (Bool.eq_false_iff.mpr h) p

theorem composePair_of_uncovered {kin : KeyIn} {k y : Nat} (h : ∀ x ∈ kin.sources, covers x k y = false) :
    composePair kin k y = programmePair kin.pgm k y := by
  rw [composePair_eq_filter, List.filter_eq_nil_iff.mpr (fun x hx => by simp [h x hx])]
  rfl

/-! ### Legal ranges (R4, R71) -/

/-- Samples in the legal ranges of luma and chroma. -/
def Samples.Legal (p : Samples) : Prop :=
  64 ≤ p.y0 ∧ p.y0 ≤ 940 ∧ 64 ≤ p.y1 ∧ p.y1 ≤ 940 ∧ 64 ≤ p.cb ∧ p.cb ≤ 960 ∧ 64 ≤ p.cr ∧ p.cr ≤ 960

theorem clampY_bounds (n : Nat) : 64 ≤ clampY n ∧ clampY n ≤ 940 := by
  unfold clampY clampTo
  omega

theorem clampC_bounds (n : Nat) : 64 ≤ clampC n ∧ clampC n ≤ 960 := by
  unfold clampC clampTo
  omega

theorem blendPair_legal (s p : Samples) (alpha : Nat) : (blendPair s p alpha).Legal :=
  ⟨(clampY_bounds _).1, (clampY_bounds _).2, (clampY_bounds _).1, (clampY_bounds _).2,
    (clampC_bounds _).1, (clampC_bounds _).2, (clampC_bounds _).1, (clampC_bounds _).2⟩

theorem blendSource_legal {x : Presented} {k y : Nat} (h : covers x k y = true) (p : Samples) :
    (blendSource k y p x).Legal := by
  rw [blendSource, if_pos h]
  split
  · exact blendPair_legal _ _ _
  · exact blendPair_legal _ _ _

/-- Sources over a pair: legal from the first covering one on. -/
theorem foldl_blendSource_legal (k y : Nat) (l : List Presented) (p : Samples)
    (h : p.Legal ∨ ∃ x ∈ l, covers x k y = true) : (l.foldl (blendSource k y) p).Legal := by
  induction l generalizing p with
  | nil => exact h.resolve_right (by simp)
  | cons x l ih =>
    refine ih _ ?_
    cases cover : covers x k y with
    | true => exact .inl (blendSource_legal cover p)
    | false =>
      rw [blendSource_of_not_covers cover]
      refine h.imp_right (fun ⟨z, hz, hc⟩ => ?_)
      rcases List.mem_cons.mp hz with rfl | hz
      · rw [cover] at hc
        cases hc
      · exact ⟨z, hz, hc⟩

theorem blendSample_full (a p : Nat) : blendSample a p 1024 = a := by
  unfold blendSample
  omega

theorem blendSample_zero (a p : Nat) : blendSample a p 0 = p := by
  unfold blendSample
  omega

theorem fadedAlpha_le {ka level : Nat} (hk : ka ≤ 1024) (hl : level ≤ 1024) : fadedAlpha ka level ≤ 1024 := by
  have product : ka * level ≤ 1024 * 1024 := Nat.mul_le_mul hk hl
  unfold fadedAlpha
  omega

theorem outputPair_processed {s : State} {c : Chan} {f : Format} (relay : (s.chan c).relay = .processed)
    (hf : s.format = some f) (k y : Nat) : outputPair s c k y = renderPair f (s.chan c).keyIn k y := by
  rw [outputPair, relay, hf]

/-- Settles O58: only covering sources blend, each blend is clamped, and the raster bounds the port. -/
theorem blendIsLegalInsideAndNeutralOutside : Obligations.BlendIsLegalInsideAndNeutralOutside := by
  refine ⟨fun _ _ _ => composePair_of_uncovered, fun kin k y h => foldl_blendSource_legal k y _ _ (.inr h),
    fun kin k y => ⟨composePair_eq_filter kin k y, fun u o two => ?_⟩, covers_iff,
    fun a p => ⟨blendSample_full a p, blendSample_zero a p⟩,
    fun ka level => ⟨?_, ?_, fadedAlpha_le⟩, fun s c k y => ⟨fun h => ?_, fun f relay hf => ⟨fun hx hy => ?_, fun h => ?_⟩⟩⟩
  · have both : composePair kin k y = blendSource k y (blendSource k y (programmePair kin.pgm k y) u) o := by
      rw [composePair, two]
      rfl
    rw [both]
    refine ⟨fun _ _ => rfl, fun _ ho => blendSource_of_not_covers ho _, fun hu _ => ?_⟩
    rw [blendSource_of_not_covers hu]
  · rw [fadedAlpha]
    omega
  · rw [fadedAlpha]
    omega
  · unfold outputPair
    rcases h with relay | unset
    · rw [relay]
    · rw [unset]
      split <;> simp_all
  · rw [outputPair_processed relay hf, renderPair, if_pos ⟨hx, hy⟩]
  · rw [outputPair_processed relay hf, renderPair, if_neg (by omega)]

/-! ### Footprints (R63, R64) -/

theorem mem_footprint (cols rows : Nat × Nat) (q : Nat × Nat) : q ∈ footprint cols rows ↔
    cols.1 ≤ q.1 ∧ q.1 < cols.1 + cols.2 ∧ rows.1 ≤ q.2 ∧ q.2 < rows.1 + rows.2 := by
  obtain ⟨x, y⟩ := q
  simp only [footprint, List.mem_flatMap, List.mem_map, List.mem_range'_1, Prod.mk.injEq]
  constructor
  · rintro ⟨_, hy, _, hx, rfl, rfl⟩
    exact ⟨hx.1, hx.2, hy.1, hy.2⟩
  · rintro ⟨hx, hx', hy, hy'⟩
    exact ⟨y, ⟨hy, hy'⟩, x, ⟨hx, hx'⟩, rfl, rfl⟩

theorem length_footprint (cols rows : Nat × Nat) : (footprint cols rows).length = cols.2 * rows.2 := by
  simp [footprint, List.length_flatMap, Nat.mul_comm]

/-- Each source pixel of a footprint counts once. -/
theorem footprint_nodup (cols rows : Nat × Nat) : (footprint cols rows).Nodup := by
  rw [footprint, List.nodup_flatMap]
  constructor
  · intro y _
    exact List.Nodup.map (fun a b h => (Prod.mk.inj h).1) List.nodup_range'
  · refine List.Pairwise.imp (fun {a b} ne => ?_) (List.nodup_range' (s := rows.1) (n := rows.2))
    intro q ha hb
    obtain ⟨_, _, rfl⟩ := List.mem_map.mp ha
    obtain ⟨_, _, h⟩ := List.mem_map.mp hb
    exact ne (Prod.mk.inj h).2.symm

theorem footprintOf_ne_nil (x : Presented) (i j : Nat) : footprintOf x i j ≠ [] := by
  intro h
  have length := congrArg List.length h
  rw [footprintOf, length_footprint] at length
  simp [span] at length

/-! ### Means (R65) -/

/-- A rounded mean lies in the range of its samples. -/
theorem roundedMean_bounds {l : List Nat} {lo hi : Nat} (ne : l ≠ []) (h : ∀ n ∈ l, lo ≤ n ∧ n ≤ hi) :
    lo ≤ roundedMean l ∧ roundedMean l ≤ hi := by
  have pos : 0 < l.length := List.length_pos_iff.mpr ne
  have low : l.length * lo ≤ l.sum := by simpa using List.card_nsmul_le_sum l lo (fun n hn => (h n hn).1)
  have high : l.sum ≤ l.length * hi := by simpa using List.sum_le_card_nsmul l hi (fun n hn => (h n hn).2)
  unfold roundedMean
  constructor
  · rw [Nat.le_div_iff_mul_le pos, Nat.mul_comm]
    omega
  · refine Nat.le_of_lt_succ ((Nat.div_lt_iff_lt_mul pos).mpr ?_)
    rw [Nat.succ_mul, Nat.mul_comm]
    omega

theorem mean_bounds (x : Presented) (i j : Nat) {lo hi : Nat} (g : Nat → Nat → Nat)
    (h : ∀ a b, lo ≤ g a b ∧ g a b ≤ hi) :
    lo ≤ roundedMean ((footprintOf x i j).map (fun q => g q.1 q.2)) ∧
    roundedMean ((footprintOf x i j).map (fun q => g q.1 q.2)) ≤ hi := by
  refine roundedMean_bounds (fun nil => footprintOf_ne_nil x i j (List.map_eq_nil_iff.mp nil)) (fun n hn => ?_)
  obtain ⟨q, _, rfl⟩ := List.mem_map.mp hn
  exact h _ _

theorem scaledPair_legal (x : Presented) (pic : Picture) (m j : Nat) : (scaledPair x pic m j).Legal := by
  have luma (i : Nat) := mean_bounds x i j (sourceLuma pic) (fun _ _ => clampY_bounds _)
  have blue := mean_bounds x (2 * m) j (sourceCb pic) (fun _ _ => clampC_bounds _)
  have red := mean_bounds x (2 * m) j (sourceCr pic) (fun _ _ => clampC_bounds _)
  exact ⟨(luma _).1, (luma _).2, (luma _).1, (luma _).2, blue.1, blue.2, red.1, red.2⟩

/-! ### Key alpha (R67 to R69) -/

theorem keyAlphaOf_near {tlo rk d : Nat} (h : d ≤ tlo) : keyAlphaOf tlo rk d = 0 := if_pos h

theorem keyAlphaOf_far {tlo rk d : Nat} (h : tlo < d) :
    keyAlphaOf tlo rk d = min 1024 ((d - tlo) * rk / 1024) := if_neg (Nat.not_le.mpr h)

/-- Settles O59: footprints are products of spans, means stay in the clamped range, and the key alpha rises with Rk
above Tlo. -/
theorem keyAlphaAndScaling : Obligations.KeyAlphaAndScaling := by
  refine ⟨?_, ?_, ?_, ?_, ?_⟩
  · rintro x i j a e b d rfl rfl rfl rfl
    exact ⟨footprint_nodup _ _, length_footprint _ _, mem_footprint _ _⟩
  · rintro pic q y u rfl
    have even : 2 * q / 2 = q := by omega
    have odd : (2 * q + 1) / 2 = q := by omega
    simp [sourceLuma, sourceCb, sourceCr, even, odd, clampY, clampC, clampTo]
  · rintro x pic m j mean sc rfl rfl
    have same (g : Nat → Nat → Nat) (i : Nat) : roundedMean ((footprintOf x i j).map (fun q => g q.1 q.2))
        = (((footprintOf x i j).map (fun q => g q.1 q.2)).sum + (footprintOf x i j).length / 2)
          / (footprintOf x i j).length := by
      rw [roundedMean, List.length_map]
    exact ⟨same _ _, same _ _, same _ _, same _ _, scaledPair_legal x pic m j⟩
  · rintro x cb cr d rfl
    refine ⟨fun off => if_neg (by simp [off]), fun on => ?_⟩
    have key : keyAlpha x cb cr = keyAlphaOf x.tlo x.rk ((cb - x.kb) + (x.kb - cb) + ((cr - x.kr) + (x.kr - cr))) :=
      if_pos on
    generalize (cb - x.kb) + (x.kb - cb) + ((cr - x.kr) + (x.kr - cr)) = d at key
    rw [key]
    refine ⟨keyAlphaOf_near, keyAlphaOf_far, fun far hr => ?_, fun far hr => ?_, fun hr => ⟨fun at_ => ?_, fun past => ?_⟩⟩
    · rw [keyAlphaOf_far far, hr]
      omega
    · rw [keyAlphaOf_far far, hr]
      omega
    · rw [keyAlphaOf_far (by omega), hr]
      omega
    · rw [keyAlphaOf_far (by omega), hr]
      omega
  · intro x p k y cover
    refine ⟨fun noFrame => ?_, ?_⟩
    · rw [blendSource, if_pos cover, noFrame]
      simp [blendPair, blendSample_zero, clampY, clampC, clampTo]
    · rintro pic sc alpha mix frame rfl rfl rfl
      rw [blendSource, if_pos cover, frame]
      rfl

end Sys2Proof.Machine
end

section
/-! PROOFS. A channel's programme path and tracker step, and a source's frame ring (Chapters 1 to 3). -/

namespace Sys2Proof.Machine

variable {f : Format} {s : State} {c : Chan}

/-- A change of a channel counts by what it makes of that channel. -/
theorem modChan_congr {g h : Channel → Channel} (e : g (s.chan c) = h (s.chan c)) : s.modChan c g = s.modChan c h := by
  unfold State.modChan
  rw [show s.channels.get c = s.chan c from rfl, e]

/-! ### The slew (R11) -/

theorem slewStep_still {ch : Channel} (h : ch.mode = .bypass ∨ ch.pgm ≠ .present) : slewStep ch = ch := if_pos h

section
variable {ch : Channel} (mode : ch.mode ≠ .bypass) (pgm : ch.pgm = .present)
include mode pgm

theorem slewStep_at_target (h : ch.delay = ch.target) : slewStep ch = { ch with slew := 0 } := by
  rw [slewStep, if_neg (by simp [mode, pgm]), if_pos h]

theorem slewStep_counts (h : ch.delay ≠ ch.target) (few : ch.slew < 9) :
    slewStep ch = { ch with slew := ch.slew + 1 } := by
  rw [slewStep, if_neg (by simp [mode, pgm]), if_neg h, if_pos (by omega)]

theorem slewStep_moves (h : ch.delay ≠ ch.target) (full : 9 ≤ ch.slew) : slewStep ch = { ch with
    slew := 0, delay := if ch.delay < ch.target then ch.delay + 1 else ch.delay - 1 } := by
  rw [slewStep, if_neg (by simp [mode, pgm]), if_neg h, if_neg (by omega)]

end

theorem whenRunning_of {k : Format → State} (running : s.running = true) (hf : s.format = some f) :
    whenRunning s k = k f := by
  rw [whenRunning, running, hf]

/-- The row SLEW_STEP at the tenth count (log entry 6). -/
theorem exec_slewStep (running : s.running = true) (hf : s.format = some f) (mode : (s.chan c).mode ≠ .bypass)
    (pgm : (s.chan c).pgm = .present) (way : (s.chan c).delay ≠ (s.chan c).target) (full : (s.chan c).slew = 9) :
    exec (.slewStep c) s = .next (s.modChan c (fun x => { x with
      slew := 0, delay := if (s.chan c).delay < (s.chan c).target then x.delay + 1 else x.delay - 1 })) := by
  have reached : slewReached (s.chan c) = true := by simp [slewReached, mode, pgm, way, full]
  have moved := slewStep_moves mode pgm way (by omega)
  have row : exec (.slewStep c) s = .next (slewEvent c s) := rfl
  rw [row, slewEvent, whenRunning_of running hf, if_pos reached]
  exact congrArg _ (modChan_congr moved)

/-! ### The output selection (R9, R12) -/

theorem selectionOf_isRepeat (prev : Selection) (x : Option PgmFrame) : (selectionOf f prev x).isRepeat = true ↔
    ∃ a b, x = some a ∧ prev.frame = some b ∧ a.serial = b.serial := by
  unfold selectionOf
  cases x with
  | none => simp
  | some a =>
    cases prev.frame with
    | none => simp
    | some b => simp

/-- A selection shows how the word of its frame was found (R20). -/
theorem selectOutput_sel (f : Format) (ch : Channel) : ∃ x, (selectOutput f ch).sel = selectionOf f ch.sel x := by
  unfold selectOutput
  split <;> exact ⟨_, rfl⟩

theorem selectOutput_of_ne {ch : Channel} (h : ch.pgm ≠ .lost) :
    selectOutput f ch = { ch with sel := selectionOf f ch.sel (frameBehind ch.store ch.delay) } := if_neg h

theorem selectOutput_of_lost {ch : Channel} (h : ch.pgm = .lost) : selectOutput f ch = { ch with
    sel := selectionOf f ch.sel (drainSelect ch).1, drainRepeats := (drainSelect ch).2.1
    drained := (drainSelect ch).2.2 } := if_pos h

theorem frameBehind_of_newer {store older newer : List PgmFrame} {x : PgmFrame} {delay : Nat}
    (h : store = older ++ x :: newer) (length : newer.length = delay) : frameBehind store delay = some x := by
  have place : store.length - 1 - delay = older.length := by
    rw [h]
    simp
    omega
  rw [frameBehind, place, h]
  simp

theorem frameBehind_of_few {store newer : List PgmFrame} {x : PgmFrame} {delay : Nat}
    (h : store = x :: newer) (few : newer.length < delay) : frameBehind store delay = some x := by
  have place : store.length - 1 - delay = 0 := by
    rw [h, List.length_cons]
    omega
  rw [frameBehind, place, h]
  rfl

theorem nextNewer_of_first {older newer : List PgmFrame} {x p : PgmFrame} (old : ∀ y ∈ older, y.serial ≤ p.serial)
    (new : p.serial < x.serial) : nextNewer (older ++ x :: newer) (some p) = some x := by
  rw [nextNewer, List.find?_append, List.find?_eq_none.mpr (fun y hy => by simp [old y hy]), Option.none_or]
  exact List.find?_cons_of_pos (by simp [new])

theorem nextNewer_none {store : List PgmFrame} {p : PgmFrame} (old : ∀ y ∈ store, y.serial ≤ p.serial) :
    nextNewer store (some p) = none := List.find?_eq_none.mpr (fun y hy => by simp [old y hy])

theorem drainSelect_of_drained {ch : Channel} (h : ch.drained = true ∨ ch.store = []) :
    drainSelect ch = (none, 0, true) := by
  rcases h with h | h <;> simp [drainSelect, h]

theorem drainSelect_of_newer {ch : Channel} {x : PgmFrame} (drained : ch.drained = false) (ne : ch.store ≠ [])
    (h : nextNewer ch.store ch.sel.frame = some x) : drainSelect ch = (some x, 0, false) := by
  simp [drainSelect, drained, ne, h]

theorem drainSelect_of_none {ch : Channel} (drained : ch.drained = false) (ne : ch.store ≠ [])
    (h : nextNewer ch.store ch.sel.frame = none) : drainSelect ch =
      if ch.drainRepeats < 2 then (ch.sel.frame, ch.drainRepeats + 1, false) else (none, 0, true) := by
  simp [drainSelect, drained, ne, h]

theorem selectOutput_rest (f : Format) (ch : Channel) : { selectOutput f ch with
    sel := ch.sel, drainRepeats := ch.drainRepeats, drained := ch.drained } = ch := by
  unfold selectOutput
  split <;> rfl

/-- Settles O37: the slew by its count, the selection by the delay, and in LOST by what is newer than the frame selected
before. -/
theorem pathSlewsAndSelects : Obligations.PathSlewsAndSelects := by
  refine ⟨fun s f c => exec_slewStep, fun ch => ⟨slewStep_still, fun mode pgm => ⟨slewStep_at_target mode pgm,
    slewStep_counts mode pgm, fun h full => ?_, fun h full => ?_⟩⟩, ?_⟩
  · rw [slewStep_moves mode pgm h.ne full, if_pos h]
  · rw [slewStep_moves mode pgm h.ne' full, if_neg (by omega)]
  · rintro f ch t rfl
    obtain ⟨x, sel⟩ := selectOutput_sel f ch
    refine ⟨selectOutput_rest f ch, ?_, ?_, ?_, fun live => ?_, fun lost => ?_⟩
    · rw [sel]
      rintro (rfl : x = none)
      rfl
    · rw [sel]
      rintro y (rfl : x = some y)
      exact ⟨fun none => by simp [selectionOf, statusOf, none], fun w word => by simp [selectionOf, statusOf, word]⟩
    · rw [sel]
      exact selectionOf_isRepeat ch.sel x
    · rw [selectOutput_of_ne live]
      refine ⟨rfl, rfl, fun nil => ?_, fun older x newer h length => frameBehind_of_newer h length,
        fun x newer h few => frameBehind_of_few h few⟩
      simp [selectionOf, frameBehind, nil]
    · rw [selectOutput_of_lost lost]
      refine ⟨fun h => ?_, fun drained => ⟨fun x newer black store => ?_, fun p older x newer before store old new => ?_,
        fun p before ne old => ?_⟩⟩
      · rw [drainSelect_of_drained h]
        exact ⟨rfl, rfl⟩
      · have ne : ch.store ≠ [] := by simp [store]
        rw [drainSelect_of_newer (x := x) drained ne (by simp [nextNewer, store, black])]
        exact ⟨rfl, rfl⟩
      · have ne : ch.store ≠ [] := by simp [store]
        rw [drainSelect_of_newer drained ne (by rw [store, before]; exact nextNewer_of_first old new)]
        exact ⟨rfl, rfl, rfl⟩
      · rw [drainSelect_of_none drained ne (by rw [before]; exact nextNewer_none old)]
        refine ⟨fun few => ?_, fun twice => ?_⟩
        · rw [if_pos few]
          exact ⟨before, rfl, rfl⟩
        · rw [if_neg (Nat.not_lt.mpr twice)]
          exact ⟨rfl, rfl⟩

/-! ### The label tracker (R24 to R36) -/

theorem validWord_eq_some_iff (x : Selection) (w : TcWord) : x.validWord = some w ↔
    x.status = .valid ∧ ∃ fr, x.frame = some fr ∧ fr.word = some w := by
  unfold Selection.validWord
  split
  next status frame => simp [status, frame]
  next h =>
    simp only [reduceCtorEq, false_iff, not_and, not_exists]
    exact fun status fr frame => absurd frame (h fr status)

theorem trackerStep_of_word {w : TcWord} (h : (s.chan c).sel.validWord = some w) : trackerStep f c s =
    (s.modChan c (fun x => { x with label := wordLabel f w, track := .locked, flywheel := 0, owed := false }),
      trackWord f w (s.chan c)) := by
  unfold trackerStep
  dsimp only
  rw [h]
  rfl

theorem trackerStep_of_none_snd (h : (s.chan c).sel.validWord = none) :
    (trackerStep f c s).2 = trackFlywheel f (s.chan c) := by
  unfold trackerStep
  dsimp only
  rw [h]

/-- Whether a flywheel step goes from D - 1 to 0 (R33). -/
def flywheelMidnight (f : Format) (ch : Channel) : Bool := !ch.sel.isRepeat && decide (ch.label + 1 = f.day)

theorem decide_midnightOf (f : Format) (ch : Channel) : decide (midnightOf f ch.label
    (flywheelLabel f ch.label ch.sel.isRepeat) .continuous = .continuous) = flywheelMidnight f ch := by
  rw [flywheelMidnight, Bool.eq_iff_iff, decide_eq_true_iff, midnightOf_flywheel]
  simp

theorem midnightOf_continuous (f : Format) (l n : Nat) :
    midnightOf f l n .continuous = .continuous ∨ midnightOf f l n .continuous = .none := by
  unfold midnightOf
  dsimp only
  split
  · exact .inl rfl
  · exact .inr rfl

theorem midnightOf_flywheel_eq (f : Format) (ch : Channel) : midnightOf f ch.label
    (flywheelLabel f ch.label ch.sel.isRepeat) .continuous = if flywheelMidnight f ch then .continuous else .none := by
  rw [← decide_midnightOf]
  rcases midnightOf_continuous f ch.label (flywheelLabel f ch.label ch.sel.isRepeat) with h | h <;> simp [h]

theorem trackFlywheel_lost (f : Format) (ch : Channel) :
    (trackFlywheel f ch).lost = decide ((flywheelStep f ch).1 = .lost) := rfl

theorem midnightOf_eq_continuous_iff (f : Format) (l n : Nat) :
    midnightOf f l n (findingOf f l n) = .continuous ↔ l + 1 = f.day ∧ n = 0 := by
  constructor
  · intro h
    unfold midnightOf at h
    split at h
    · by_contra no
      rw [if_neg no] at h
      cases h
    · split at h <;> cases h
    · cases h
  · rintro ⟨last, rfl⟩
    have finding : findingOf f l 0 = .continuous := if_pos (.inr (by simp [last]))
    rw [finding]
    exact if_pos ⟨last, rfl⟩

theorem midnightOf_eq_catchUp_iff (f : Format) (l n : Nat) (g : Finding) :
    midnightOf f l n g = .catchUp ↔ g = .catchUp ∧ n < l := by
  unfold midnightOf
  cases g with
  | continuous =>
    dsimp only
    split <;> simp
  | _ => simp

theorem findingOf_cases {f : Format} {l n : Nat} (near : n ≠ l) (next : n ≠ (l + 1) % f.day) :
    ((n + f.day - l) % f.day ≤ f.rate → findingOf f l n = .catchUp) ∧
    (f.rate < (n + f.day - l) % f.day → (l < n → findingOf f l n = .jumpForward) ∧
      (n < l → findingOf f l n = .jumpBack)) := by
  have jump : ¬(n = l ∨ n = (l + 1) % f.day) := not_or.mpr ⟨near, next⟩
  unfold findingOf
  rw [if_neg jump]
  refine ⟨fun close => if_pos close, fun far => ?_⟩
  rw [if_neg (Nat.not_le.mpr far)]
  exact ⟨fun h => if_pos h, fun h => if_neg (Nat.lt_asymm h)⟩

section
variable (none : (s.chan c).sel.validWord = none)
include none

/-- Without a valid word LOCKED leads to FLYWHEEL with count 1 (R26). -/
theorem trackerStep_locked (locked : (s.chan c).track = .locked) : (trackerStep f c s).1 =
    raiseChan c .tcFlywheel (s.modChan c (fun x => { x with
      label := flywheelLabel f (s.chan c).label (s.chan c).sel.isRepeat, track := .flywheel, flywheel := 1 })) := by
  unfold trackerStep
  dsimp only
  rw [none]
  simp only [locked, reduceCtorEq, false_and, ite_false, ite_true]
  refine congrArg (raiseChan c .tcFlywheel) (modChan_congr ?_)
  simp [flywheelStep, lostFromAfter, trackFlywheel, locked]

/-- In FLYWHEEL the count goes on, short of R (R26). -/
theorem trackerStep_flywheel (track : (s.chan c).track = .flywheel) (few : (s.chan c).flywheel + 1 < f.rate) :
    (trackerStep f c s).1 = s.modChan c (fun x => { x with
      label := flywheelLabel f (s.chan c).label (s.chan c).sel.isRepeat, flywheel := x.flywheel + 1 }) := by
  have still : ¬f.rate ≤ (s.chan c).flywheel + 1 := Nat.not_le.mpr few
  unfold trackerStep
  dsimp only
  rw [none]
  simp only [track, flywheelStep, still, reduceCtorEq, and_false, ite_false]
  refine modChan_congr ?_
  simp [lostFromAfter, trackFlywheel, flywheelStep, track, still]

/-- At R the count leads to LOST (R27, R35). -/
theorem trackerStep_lost (track : (s.chan c).track = .flywheel) (run : f.rate ≤ (s.chan c).flywheel + 1) :
    (trackerStep f c s).1 = raiseChan c .tcLost (s.modChan c (fun x => { x with
      label := flywheelLabel f (s.chan c).label (s.chan c).sel.isRepeat, track := .lost, flywheel := x.flywheel + 1
      owed := x.owed || flywheelMidnight f (s.chan c)
      lostFrom := flywheelLabel f (s.chan c).label (s.chan c).sel.isRepeat })) := by
  unfold trackerStep
  dsimp only
  rw [none]
  simp only [track, flywheelStep, run, reduceCtorEq, ite_false, ite_true, and_self]
  refine congrArg (raiseChan c .tcLost) (modChan_congr ?_)
  simp [lostFromAfter, trackFlywheel, flywheelStep, track, run, ← decide_midnightOf]

/-- LOST goes on counting (R28, R35). -/
theorem trackerStep_stays_lost (track : (s.chan c).track = .lost) :
    (trackerStep f c s).1 = s.modChan c (fun x => { x with
      label := flywheelLabel f (s.chan c).label (s.chan c).sel.isRepeat, flywheel := min 65535 (x.flywheel + 1)
      owed := x.owed || flywheelMidnight f (s.chan c) }) := by
  unfold trackerStep
  dsimp only
  rw [none]
  simp only [track, flywheelStep, reduceCtorEq, false_and, ite_false]
  refine modChan_congr ?_
  simp [lostFromAfter, trackFlywheel, flywheelStep, track, ← decide_midnightOf]

end

theorem trackFlywheel_midnight (f : Format) (ch : Channel) : (trackFlywheel f ch).midnight =
    if (trackFlywheel f ch).lost = false ∧ flywheelMidnight f ch = true then .continuous else .none := by
  show (if decide ((flywheelStep f ch).1 = .lost) = true then Midnight.none else _) = _
  rw [trackFlywheel_lost, midnightOf_flywheel_eq]
  cases decide ((flywheelStep f ch).1 = .lost) <;> simp

/-- Settles O55: the finding by the distance, the step with a word by the word, without one by the tracker's state. -/
theorem trackerStepsAndHandsOn : Obligations.TrackerStepsAndHandsOn := by
  refine ⟨fun f l n _ _ => ⟨fun h => if_pos (.inl h), fun h => if_pos (.inr h), fun near next => ?_⟩,
    validWord_eq_some_iff, fun f s t c k n midnight step => ⟨?_, ?_⟩⟩
  · obtain ⟨close, far⟩ := findingOf_cases near next
    exact ⟨fun _ => close, fun h => (far h).1, fun h => (far h).2⟩
  · rintro w word rfl
    rw [trackerStep_of_word word, Prod.mk.injEq] at step
    obtain ⟨rfl, rfl⟩ := step
    refine ⟨rfl, rfl, rfl, rfl, rfl, rfl, midnightOf_eq_continuous_iff f _ _, midnightOf_eq_catchUp_iff f _ _ _,
      fun h => if_neg h, fun h => if_pos h⟩
  · rintro none rfl rfl
    have hk : k = trackFlywheel f (s.chan c) := (congrArg Prod.snd step).trans (trackerStep_of_none_snd none)
    have ht : t = (trackerStep f c s).1 := congrArg Prod.fst step
    subst hk ht
    refine ⟨rfl, rfl, rfl, rfl, rfl, fun locked => ⟨?_, trackerStep_locked none locked⟩,
      fun track few => ⟨?_, trackerStep_flywheel none track few⟩, fun track run => ⟨?_, trackerStep_lost none track run⟩,
      fun lost => ⟨?_, trackerStep_stays_lost none lost⟩, trackFlywheel_midnight f (s.chan c)⟩
    · simp [trackFlywheel_lost, flywheelStep, locked]
    · simp [trackFlywheel_lost, flywheelStep, track, Nat.not_le.mpr few]
    · simp [trackFlywheel_lost, flywheelStep, track, run]
    · simp [trackFlywheel_lost, flywheelStep, lost]

end Sys2Proof.Machine
end

section
/-! PROOFS. A source's frame ring: its newest slot, the slot a frame takes, freeze and resume (section 3.6). -/

namespace Sys2Proof.Machine

variable {r : Ring} {i j : SlotId}

/-! ### The slots -/

theorem Ring.get_set (r : Ring) (i j : SlotId) (v : RingSlot) : (r.set i v).get j = if j = i then v else r.get j := by
  cases i <;> cases j <;> rfl

theorem Ring.get_cut (r : Ring) (i : SlotId) : r.cut.get i = (r.get i).cut := by cases i <;> rfl

theorem RingSlot.age_cut (v : RingSlot) : v.cut.age = v.age := by cases v <;> rfl

theorem RingSlot.cut_ne_writing (v : RingSlot) : v.cut ≠ .writing := by cases v <;> nofun

theorem RingSlot.age_eq_zero_iff (v : RingSlot) : v.age = 0 ↔ ∀ n pic, v ≠ .complete n pic := by
  cases v with
  | complete n pic => exact ⟨nofun, fun h => absurd rfl (h n pic)⟩
  | _ => exact ⟨fun _ => nofun, fun _ => rfl⟩

/-! ### The newest COMPLETE slot -/

theorem Ring.newest_of_greatest (pos : 0 < (r.get i).age) (h : ∀ j, j ≠ i → (r.get j).age < (r.get i).age) :
    r.newest = some i := by
  cases i with
  | a =>
    have b : r.b.age < r.a.age := h .b nofun
    have c : r.c.age < r.a.age := h .c nofun
    have max : max r.a.age (max r.b.age r.c.age) = r.a.age := by omega
    have pos : r.a.age ≠ 0 := Nat.ne_of_gt pos
    simp [Ring.newest, max, pos]
  | b =>
    have a : r.a.age < r.b.age := h .a nofun
    have c : r.c.age < r.b.age := h .c nofun
    have max : max r.a.age (max r.b.age r.c.age) = r.b.age := by omega
    have pos : r.b.age ≠ 0 := Nat.ne_of_gt pos
    simp [Ring.newest, max, pos, a.ne]
  | c =>
    have a : r.a.age < r.c.age := h .a nofun
    have b : r.b.age < r.c.age := h .b nofun
    have max : max r.a.age (max r.b.age r.c.age) = r.c.age := by omega
    have pos : r.c.age ≠ 0 := Nat.ne_of_gt pos
    simp [Ring.newest, max, pos, a.ne, b.ne]

theorem Ring.newest_none (h : ∀ i, (r.get i).age = 0) : r.newest = none := by
  have a : r.a.age = 0 := h .a
  have b : r.b.age = 0 := h .b
  have c : r.c.age = 0 := h .c
  simp [Ring.newest, a, b, c]

theorem Ring.newest_congr {t : Ring} (h : ∀ i, (t.get i).age = (r.get i).age) : t.newest = r.newest := by
  have a : t.a.age = r.a.age := h .a
  have b : t.b.age = r.b.age := h .b
  have c : t.c.age = r.c.age := h .c
  unfold Ring.newest
  rw [a, b, c]

theorem Ring.newest_cut (r : Ring) : r.cut.newest = r.newest :=
  newest_congr (fun i => by rw [get_cut, RingSlot.age_cut])

/-! ### A frame completes (R52) -/

theorem Ring.finish_of_writing (h : r.writingSlot = some i) (pic : Picture) :
    r.finish pic = r.set i (.complete (max r.a.age (max r.b.age r.c.age)) pic) := by
  rw [Ring.finish, h]

/-- The slot that completes is newer than every other. -/
theorem Ring.finish_newest (h : r.writingSlot = some i) (pic : Picture) :
    ((r.finish pic).get i).picture = some pic ∧ (r.finish pic).newest = some i := by
  have slot : (r.finish pic).get i = .complete (max r.a.age (max r.b.age r.c.age)) pic := by
    rw [finish_of_writing h, get_set, if_pos rfl]
  refine ⟨by rw [slot]; rfl, newest_of_greatest (by rw [slot]; exact Nat.succ_pos _) (fun j hj => ?_)⟩
  have older : (r.get j).age ≤ max r.a.age (max r.b.age r.c.age) := by
    cases j with
    | a => exact Nat.le_max_left _ _
    | b => exact (Nat.le_max_left _ _).trans (Nat.le_max_right _ _)
    | c => exact (Nat.le_max_right _ _).trans (Nat.le_max_right _ _)
  rw [slot, finish_of_writing h, get_set, if_neg hj]
  exact Nat.lt_succ_of_le older

/-! ### A frame begins (R52) -/

theorem Ring.mem_choices : i ∈ r.choices ↔ r.newest ≠ some i ∧ r.inUse ≠ some i := by
  have all : i ∈ [SlotId.a, SlotId.b, SlotId.c] := by cases i <;> decide
  simp [Ring.choices, List.mem_filter, all]

/-- Two slots at most are barred, so one is left. -/
theorem Ring.choices_ne_nil (r : Ring) : r.choices ≠ [] := by
  have left : ∃ i ∈ [SlotId.a, SlotId.b, SlotId.c], r.newest ≠ some i ∧ r.inUse ≠ some i := by
    generalize r.newest = x
    generalize r.inUse = y
    rcases x with _ | _ | _ | _ <;> rcases y with _ | _ | _ | _ <;> decide
  obtain ⟨i, _, h⟩ := left
  exact List.ne_nil_of_mem (mem_choices.mpr h)

/-- The older slot of a list is in it, and no slot of it is older. -/
theorem Ring.foldl_older (r : Ring) (l : List SlotId) (i : SlotId) : l.foldl r.older i ∈ i :: l ∧
    ∀ j ∈ i :: l, (r.get (l.foldl r.older i)).age ≤ (r.get j).age := by
  induction l generalizing i with
  | nil => simp
  | cons j l ih =>
    obtain ⟨mem, least⟩ := ih (r.older i j)
    have either : r.older i j = i ∨ r.older i j = j := by
      unfold Ring.older
      split
      · exact .inr rfl
      · exact .inl rfl
    have both : (r.get (r.older i j)).age ≤ (r.get i).age ∧ (r.get (r.older i j)).age ≤ (r.get j).age := by
      unfold Ring.older
      split <;> omega
    have start := least _ List.mem_cons_self
    refine ⟨?_, fun k hk => ?_⟩
    · rcases List.mem_cons.mp mem with h | h
      · rw [List.foldl_cons, h]
        rcases either with e | e <;> simp [e]
      · exact List.mem_cons_of_mem _ (List.mem_cons_of_mem _ h)
    · rcases List.mem_cons.mp hk with rfl | hk
      · exact start.trans both.1
      · rcases List.mem_cons.mp hk with rfl | hk
        · exact start.trans both.2
        · exact least k (List.mem_cons_of_mem _ hk)

/-- The slot the writer chooses: an EMPTY one if there is one, else one that completed before the others. -/
theorem Ring.exists_choose (r : Ring) : ∃ i ∈ r.choices, r.choose = some i ∧
    ((∃ j ∈ r.choices, r.get j = .empty) → r.get i = .empty) ∧
    ((∀ j ∈ r.choices, r.get j ≠ .empty) → ∀ j ∈ r.choices, (r.get i).age ≤ (r.get j).age) := by
  unfold Ring.choose
  cases found : r.choices.find? (fun i => decide (r.get i = .empty)) with
  | some i =>
    have empty : r.get i = .empty := by simpa using List.find?_some found
    exact ⟨i, List.mem_of_find?_eq_some found, rfl, fun _ => empty,
      fun none => absurd empty (none i (List.mem_of_find?_eq_some found))⟩
  | none =>
    have none : ∀ j ∈ r.choices, r.get j ≠ .empty := by simpa using List.find?_eq_none.mp found
    dsimp only
    cases e : r.choices with
    | nil => exact absurd e (choices_ne_nil r)
    | cons i is =>
      obtain ⟨mem, least⟩ := r.foldl_older is i
      exact ⟨_, mem, rfl, fun ⟨j, hj, empty⟩ => absurd empty (none j (e ▸ hj)), fun _ => least⟩

theorem Ring.exists_begin (r : Ring) : ∃ i, (r.cut.newest ≠ some i ∧ r.inUse ≠ some i) ∧
    r.begin = r.cut.set i .writing ∧
    ((∃ j, (r.cut.newest ≠ some j ∧ r.inUse ≠ some j) ∧ r.cut.get j = .empty) → r.cut.get i = .empty) ∧
    ((∀ j, r.cut.newest ≠ some j ∧ r.inUse ≠ some j → r.cut.get j ≠ .empty) →
      ∀ j, r.cut.newest ≠ some j ∧ r.inUse ≠ some j → (r.cut.get i).age ≤ (r.cut.get j).age) := by
  obtain ⟨i, mem, choose, empty, oldest⟩ := r.cut.exists_choose
  have free (j : SlotId) : j ∈ r.cut.choices ↔ r.cut.newest ≠ some j ∧ r.inUse ≠ some j := mem_choices
  simp only [free] at mem empty oldest
  refine ⟨i, mem, ?_, empty, oldest⟩
  unfold Ring.begin
  dsimp only
  rw [choose]

theorem Ring.writingSlot_set (r : Ring) (i : SlotId) : (r.cut.set i .writing).writingSlot = some i := by
  have other (j : SlotId) (h : j ≠ i) : (r.cut.set i .writing).get j ≠ .writing := by
    rw [get_set, if_neg h, get_cut]
    exact RingSlot.cut_ne_writing _
  have own : (r.cut.set i .writing).get i = .writing := by rw [get_set, if_pos rfl]
  unfold Ring.writingSlot
  cases i with
  | a => simp [own]
  | b => simp [own, other .a nofun]
  | c => simp [own, other .a nofun, other .b nofun]

theorem Ring.set_rest (r : Ring) (i : SlotId) (v : RingSlot) : (r.set i v).inUse = r.inUse ∧
    (r.set i v).frozen = r.frozen := by
  cases i <;> exact ⟨rfl, rfl⟩

/-! ### Freeze and resume (R54) -/

/-- A slot is COMPLETE and completed after every other. -/
def Ring.Greatest (r : Ring) (i : SlotId) : Prop :=
  0 < (r.get i).age ∧ ∀ j, j ≠ i → (r.get j).age < (r.get i).age

theorem Ring.greatest_of_complete {n : Nat} {pic : Picture} (slot : r.get i = .complete n pic)
    (older : ∀ j m q, j ≠ i → r.get j = .complete m q → m < n) : r.Greatest i := by
  refine ⟨by rw [slot]; exact Nat.succ_pos n, fun j hj => ?_⟩
  rw [slot]
  cases other : r.get j with
  | complete m q => exact Nat.succ_lt_succ (older j m q hj other)
  | _ => exact Nat.succ_pos n

theorem Ring.freeze_of_greatest (h : r.Greatest i) : r.freeze = { Ring.empty.set i (r.get i) with
    inUse := r.inUse, frozen := some i } := by
  rw [Ring.freeze, newest_cut, newest_of_greatest h.1 h.2]

theorem Ring.freeze_of_none (h : ∀ i n pic, r.get i ≠ .complete n pic) :
    r.freeze = ⟨.empty, .empty, .empty, r.inUse, none⟩ := by
  rw [Ring.freeze, newest_cut, newest_none (fun i => (RingSlot.age_eq_zero_iff _).mpr (h i))]
  rfl

/-- A frozen ring holds its newest COMPLETE slot alone. -/
theorem Ring.get_freeze (h : r.Greatest i) (j : SlotId) :
    r.freeze.get j = if j = i then r.get i else .empty := by
  have slots : r.freeze.get j = (Ring.empty.set i (r.get i)).get j := by
    rw [freeze_of_greatest h]
    cases j <;> rfl
  rw [slots, get_set]
  cases j <;> rfl

theorem Ring.freeze_newest (h : r.Greatest i) : r.freeze.newest = some i := by
  refine newest_of_greatest ?_ (fun j hj => ?_)
  · rw [get_freeze h, if_pos rfl]
    exact h.1
  · rw [get_freeze h, get_freeze h, if_neg hj, if_pos rfl]
    exact h.1

/-- A frame that begins leaves the slot that completed last, and which is in use or frozen. -/
theorem Ring.begin_of_greatest (h : r.Greatest i) : r.begin.get i = (r.get i).cut ∧ r.begin.newest = some i := by
  obtain ⟨j, ⟨free, _⟩, begin, _⟩ := r.exists_begin
  rw [newest_cut, newest_of_greatest h.1 h.2] at free
  have slot : r.begin.get i = (r.get i).cut := by
    rw [begin, get_set, if_neg (fun e : i = j => free (congrArg some e)), get_cut]
  refine ⟨slot, newest_of_greatest ?_ (fun k hk => ?_)⟩
  · rw [slot, RingSlot.age_cut]
    exact h.1
  · rw [slot, RingSlot.age_cut, begin, get_set]
    split
    · exact h.1
    · rw [get_cut, RingSlot.age_cut]
      exact h.2 k hk

theorem Ring.begin_rest (r : Ring) : r.begin.inUse = r.inUse ∧ r.begin.frozen = r.frozen := by
  obtain ⟨j, _, begin, _⟩ := r.exists_begin
  rw [begin]
  exact r.cut.set_rest j .writing

/-! ### The row SOURCE_FRAME_COMPLETE -/

theorem sourceFrameComplete_of {s : State} {f : Format} (running : s.running = true) (hf : s.format = some f) (p : Port)
    (pic : Picture) : sourceFrameComplete p pic s = if ringWritten (s.src p).state then
      (if f.matchesRaster pic.w pic.h then s.modSrc p (fun x => { x with ring := x.ring.finish pic })
      else s.modSrc p (fun x => { x with ring := x.ring.cut })) else s := by
  rw [sourceFrameComplete, running, hf]

/-- Settles O48: a complete frame by its raster and the source's state, a beginning one by the slots that are free, a
freeze and a resume by the slot that completed last. -/
theorem sourceFrameIsWritten : Obligations.SourceFrameIsWritten := by
  refine ⟨fun s f p pic running hf => ⟨fun written => ⟨fun w h => ⟨?_, fun i => Ring.finish_newest (pic := pic)⟩,
    fun other => ?_⟩, fun unwritten => ?_⟩, ?_, fun r => ⟨Ring.freeze_of_none, fun i n pic slot older => ?_, rfl,
      (Ring.begin_rest _).2, (Ring.begin_rest _).1⟩⟩
  · show Host.Outcome.next (sourceFrameComplete p pic s) = _
    rw [sourceFrameComplete_of running hf, if_pos (show ringWritten (s.src p).state = true from decide_eq_true written),
      if_pos (by simp [Format.matchesRaster, w, h])]
  · show Host.Outcome.next (sourceFrameComplete p pic s) = _
    rw [sourceFrameComplete_of running hf, if_pos (show ringWritten (s.src p).state = true from decide_eq_true written), if_neg]
    simpa [Format.matchesRaster, imp_iff_not_or] using other
  · show Host.Outcome.next (sourceFrameComplete p pic s) = _
    rw [sourceFrameComplete_of running hf, if_neg]
    rcases unwritten with h | h | h | h <;> simp [ringWritten, h]
  · rintro r cut t free rfl rfl rfl
    have same : (⟨if r.a = .writing then .empty else r.a, if r.b = .writing then .empty else r.b,
        if r.c = .writing then .empty else r.c, r.inUse, r.frozen⟩ : Ring) = r.cut := by
      have slot (v : RingSlot) : (if v = .writing then .empty else v) = v.cut := by cases v <;> rfl
      rw [slot, slot, slot]
      rfl
    rw [same]
    obtain ⟨i, free, begin, empty, oldest⟩ := r.exists_begin
    refine ⟨i, free, begin, ?_, fun j hj => ?_, empty, fun none j m n p q hj hi hq => ?_⟩
    · rw [begin]
      exact r.writingSlot_set i
    · rw [begin, Ring.get_set, if_neg hj]
    · have ages := oldest none j hj
      rw [hi, hq] at ages
      exact Nat.le_of_succ_le_succ ages
  · have greatest := Ring.greatest_of_complete slot older
    obtain ⟨resumed, newest⟩ := Ring.begin_of_greatest (r := { r with frozen := none }) (i := i) (by
      cases i <;> exact greatest)
    have slot' : ({ r with frozen := none } : Ring).get i = .complete n pic := by cases i <;> exact slot
    refine ⟨?_, fun j hj => ?_, ?_, ?_, Ring.freeze_newest greatest, ?_, newest⟩
    · rw [Ring.get_freeze greatest, if_pos rfl, slot]
    · rw [Ring.get_freeze greatest, if_neg hj]
    · rw [Ring.freeze_of_greatest greatest]
    · rw [Ring.freeze_of_greatest greatest]
    · rw [slot'] at resumed
      exact resumed

end Sys2Proof.Machine
end

section
/-! PROOFS. The placement search: sizes, positions, what a candidate needs to fit, and which candidate is the result
(Chapter 5). -/

namespace Sys2Proof.Machine

variable {f : Format} {crop : Rect} {b : Block} {zones : List Zone} {held : Option Rect} {r : Rect} {hardOnly : Bool}

/-! ### Sizes (R77, R78) -/

theorem derivedWidth_zero (cw ch : Nat) : derivedWidth cw ch 0 = 0 := by
  rcases Nat.eq_zero_or_pos ch with rfl | pos
  · simp [derivedWidth]
  · rw [derivedWidth, Nat.zero_mul, Nat.zero_add, Nat.div_eq_of_lt (by omega)]

/-- What the downward search for a height finds. -/
theorem widestFit_greatest (cw ch sw k : Nat) : widestFit cw ch sw k % 2 = 0 ∧ widestFit cw ch sw k ≤ 2 * k ∧
    derivedWidth cw ch (widestFit cw ch sw k) ≤ sw ∧
    ∀ h, h % 2 = 0 → h ≤ 2 * k → derivedWidth cw ch h ≤ sw → h ≤ widestFit cw ch sw k := by
  induction k with
  | zero => exact ⟨rfl, Nat.le_refl 0, by rw [widestFit, derivedWidth_zero]; exact Nat.zero_le _, fun _ _ h _ => h⟩
  | succ k ih =>
    unfold widestFit
    split
    next narrow => exact ⟨Nat.mul_mod_right 2 _, Nat.le_refl _, narrow, fun _ _ h _ => h⟩
    next wide =>
      obtain ⟨even, low, narrow, greatest⟩ := ih
      refine ⟨even, by omega, narrow, fun h hEven hLow hNarrow => greatest h hEven ?_ hNarrow⟩
      have ne : h ≠ 2 * (k + 1) := fun e => wide (e ▸ hNarrow)
      omega

theorem heightMax_greatest (f : Format) (cw ch : Nat) : heightMax f cw ch % 2 = 0 ∧ heightMax f cw ch ≤ ch ∧
    heightMax f cw ch ≤ f.safe.h ∧ derivedWidth cw ch (heightMax f cw ch) ≤ f.safe.w ∧
    ∀ h, h % 2 = 0 → h ≤ ch → h ≤ f.safe.h → derivedWidth cw ch h ≤ f.safe.w → h ≤ heightMax f cw ch := by
  obtain ⟨even, low, narrow, greatest⟩ := widestFit_greatest cw ch f.safe.w (min ch f.safe.h / 2)
  exact ⟨even, by unfold heightMax; omega, by unfold heightMax; omega, narrow,
    fun h hEven hCrop hSafe hNarrow => greatest h hEven (by omega) hNarrow⟩

theorem admissible_iff (f : Format) (cw ch h : Nat) :
    admissible f cw ch h = true ↔ h % 2 = 0 ∧ heightMin ch ≤ h ∧ h ≤ heightMax f cw ch := by
  have even : evenFloor h = h ↔ h % 2 = 0 := by
    unfold evenFloor
    omega
  simp [admissible, even, and_assoc]

/-! ### What fits (R82, R97) -/

/-- A rectangle lies in the safe area and covers no ACTIVE zone, or none that is HARD. -/
def Fits (f : Format) (zones : List Zone) (hardOnly : Bool) (r : Rect) : Prop :=
  r.within f.safe = true ∧ ∀ z ∈ zones, z.isActive = true → (hardOnly = true → z.cls = .hard) → r.overlaps z.rect = false

theorem clearOf_iff : clearOf zones hardOnly r = true ↔
    ∀ z ∈ zones, z.isActive = true → (hardOnly = true → z.cls = .hard) → r.overlaps z.rect = false := by
  have barred (q : Rect) (k : ZoneClass) : (hardOnly && decide (k = .soft) || !r.overlaps q) = true ↔
      ((hardOnly = true → k = .hard) → r.overlaps q = false) := by
    cases hardOnly <;> cases k <;> simp
  unfold clearOf
  rw [List.all_eq_true]
  constructor
  · intro h z hz active
    obtain ⟨i, hi⟩ := List.getElem?_of_mem hz
    exact (barred _ _).mp (h (i, z.rect, z.cls) (mem_activeView.mpr ⟨z, hi, active, rfl⟩))
  · intro h v hv
    obtain ⟨z, hz, active, view⟩ := mem_activeView.mp hv
    rw [view]
    exact (barred _ _).mpr (h z (List.mem_of_getElem? hz) active)

theorem fits_iff : fits f zones hardOnly r = true ↔ Fits f zones hardOnly r := by
  rw [fits, Bool.and_eq_true, clearOf_iff]
  exact Iff.rfl

/-- What fits among all zones fits among the HARD ones. -/
theorem Fits.hard (h : Fits f zones false r) : Fits f zones hardOnly r :=
  ⟨h.1, fun z hz active _ => h.2 z hz active nofun⟩

/-! ### The result (R83, R84) -/

section
variable (f crop b zones held)

/-- The first candidate that fits among all zones is the result. -/
theorem resolve_of_free {x : Candidate} (place : placeable f crop.w crop.h = true)
    (h : (candidates f crop b).find? (fun c => fits f zones false c.rect) = some x) :
    resolve f crop b zones held = ⟨passAOutcome x, some x.rect, some (candidateAt f crop b 0 true b.anchor).rect⟩ := by
  rw [resolve, if_pos place]
  dsimp only
  rw [h]

/-- Where none does, the first that fits among the HARD ones is. -/
theorem resolve_of_soft {x : Candidate} (place : placeable f crop.w crop.h = true)
    (none : (candidates f crop b).find? (fun c => fits f zones false c.rect) = none)
    (h : (candidates f crop b).find? (fun c => fits f zones true c.rect) = some x) :
    resolve f crop b zones held = ⟨.softCovered, some x.rect, some (candidateAt f crop b 0 true b.anchor).rect⟩ := by
  rw [resolve, if_pos place]
  dsimp only
  rw [none]
  dsimp only
  rw [h]

/-- Where none does either, or the crop is unplaceable, the held rectangle stays or the inset is forced out. -/
theorem resolve_of_none (h : placeable f crop.w crop.h = true →
      ∀ x ∈ candidates f crop b, fits f zones true x.rect = false) : resolve f crop b zones held =
    holdOrForce f crop zones held (if placeable f crop.w crop.h then some (candidateAt f crop b 0 true b.anchor).rect
      else none) := by
  rw [resolve]
  split
  next place =>
    have hard : (candidates f crop b).find? (fun c => fits f zones true c.rect) = none :=
      List.find?_eq_none.mpr (fun x hx => by simp [h place x hx])
    have free : (candidates f crop b).find? (fun c => fits f zones false c.rect) = none :=
      List.find?_eq_none.mpr (fun x hx fit => by
        have := fits_iff.mpr (Fits.hard (hardOnly := true) (fits_iff.mp fit))
        rw [h place x hx] at this
        cases this)
    dsimp only
    rw [free]
    dsimp only
    rw [hard]
  next => rfl

end

/-- The rectangle a resolution gives: one that fits among all zones, among the HARD ones as SOFT_COVERED, or the held one
as HELD_PLACE. -/
theorem resolve_rect (h : (resolve f crop b zones held).rect = some r) : Fits f zones false r ∨
    Fits f zones true r ∧ ((resolve f crop b zones held).outcome = .softCovered ∨
      (resolve f crop b zones held).outcome = .heldPlace) := by
  have kept {q : Option Rect} (h : (holdOrForce f crop zones held q).rect = some r) :
      Fits f zones true r ∧ (holdOrForce f crop zones held q).outcome = .heldPlace := by
    unfold holdOrForce at h ⊢
    cases held with
    | none => cases h
    | some x =>
      dsimp only at h ⊢
      split at h
      next stay =>
        cases h
        rw [if_pos stay]
        rw [mayHold, Bool.and_eq_true, Bool.and_eq_true] at stay
        exact ⟨fits_iff.mp stay.1.1, rfl⟩
      next => cases h
  cases place : placeable f crop.w crop.h with
  | false =>
    rw [resolve_of_none f crop b zones held (by simp [place])] at h ⊢
    exact .inr ((kept h).imp_right .inr)
  | true =>
    cases free : (candidates f crop b).find? (fun c => fits f zones false c.rect) with
    | some x =>
      rw [resolve_of_free f crop b zones held place free] at h
      cases h
      exact .inl (fits_iff.mp (List.find?_some (p := fun c : Candidate => fits f zones false c.rect) free))
    | none =>
      cases hard : (candidates f crop b).find? (fun c => fits f zones true c.rect) with
      | some x =>
        rw [resolve_of_soft f crop b zones held place free hard] at h ⊢
        cases h
        exact .inr ⟨fits_iff.mp (List.find?_some (p := fun c : Candidate => fits f zones true c.rect) hard), .inl rfl⟩
      | none =>
        have nowhere : ∀ x ∈ candidates f crop b, fits f zones true x.rect = false := by
          simpa using List.find?_eq_none.mp hard
        rw [resolve_of_none f crop b zones held (fun _ => nowhere)] at h ⊢
        exact .inr ((kept h).imp_right .inr)

theorem mayHold_iff : mayHold f crop zones r = true ↔ Fits f zones true r ∧ r.h % 2 = 0 ∧ heightMin crop.h ≤ r.h ∧
    r.h ≤ heightMax f crop.w crop.h ∧ r.w = derivedWidth crop.w crop.h r.h := by
  simp [mayHold, fits_iff, admissible_iff, and_assoc]

/-! ### The candidates in their order -/

/-- A candidate from its size level, the place of its anchor and its rectangle. -/
def Candidate.ofPlace (x : Nat × Nat × Rect) : Candidate := ⟨x.1, decide (x.2.1 = 0), x.2.2⟩

theorem levelCandidates_eq (f : Format) (crop : Rect) (b : Block) (k : Nat) (box : Nat → Anchor → Rect)
    (hbox : ∀ a first, (candidateAt f crop b k first a).rect = box k a) : levelCandidates f crop b k =
      ((b.anchor :: b.fallbacks).zipIdx.map (fun p => (k, p.2, box k p.1))).map Candidate.ofPlace := by
  have one (a : Anchor) (first : Bool) : candidateAt f crop b k first a = ⟨k, first, box k a⟩ := by
    rw [← hbox a first]
    rfl
  have rest (l : List Anchor) (n : Nat) : l.map (candidateAt f crop b k false)
      = ((l.zipIdx (n + 1)).map (fun p => (k, p.2, box k p.1))).map Candidate.ofPlace := by
    induction l generalizing n with
    | nil => rfl
    | cons a l ih =>
      rw [List.zipIdx_cons, List.map_cons, List.map_cons, List.map_cons, ← ih, one]
      rfl
  rw [levelCandidates, List.zipIdx_cons, List.map_cons, List.map_cons, rest b.fallbacks 0, one]
  rfl

/-- The first element of a list that passes a test. -/
theorem find?_of_first {α : Type} {p : α → Bool} {before after : List α} {x : α} (none : ∀ y ∈ before, p y = false)
    (h : p x = true) : (before ++ x :: after).find? p = some x := by
  rw [List.find?_append, List.find?_eq_none.mpr (fun y hy => by simp [none y hy]), Option.none_or,
    List.find?_cons_of_pos h]

theorem candidates_eq (f : Format) (crop : Rect) (b : Block) (box : Nat → Anchor → Rect)
    (hbox : ∀ k a first, (candidateAt f crop b k first a).rect = box k a) : candidates f crop b =
      ([0, 1, 2, 3, 4].flatMap (fun k => (b.anchor :: b.fallbacks).zipIdx.map (fun p => (k, p.2, box k p.1)))).map
        Candidate.ofPlace := by
  have level (k : Nat) := levelCandidates_eq f crop b k box (hbox k)
  rw [candidates, level, level, level, level, level]
  simp only [List.flatMap_cons, List.flatMap_nil, List.append_nil, List.map_append, List.append_assoc]

/-- The search by the places of the candidates: the first that fits among all zones, else the first that fits among the
HARD ones. -/
theorem resolve_of_places {l before after : List (Nat × Nat × Rect)} {x : Nat × Nat × Rect}
    (place : placeable f crop.w crop.h = true) (hl : candidates f crop b = l.map Candidate.ofPlace)
    (split : l = before ++ x :: after) :
    ((∀ y ∈ before, ¬Fits f zones false y.2.2) → Fits f zones false x.2.2 →
      (resolve f crop b zones held).rect = some x.2.2 ∧ (resolve f crop b zones held).outcome =
        if x.1 = 0 then (if x.2.1 = 0 then .asRequested else .moved) else .shrunk) ∧
    ((∀ y ∈ l, ¬Fits f zones false y.2.2) → (∀ y ∈ before, ¬Fits f zones true y.2.2) → Fits f zones true x.2.2 →
      (resolve f crop b zones held).rect = some x.2.2 ∧ (resolve f crop b zones held).outcome = .softCovered) := by
  have first (hardOnly : Bool) (none : ∀ y ∈ before, ¬Fits f zones hardOnly y.2.2) (h : Fits f zones hardOnly x.2.2) :
      (candidates f crop b).find? (fun c => fits f zones hardOnly c.rect) = some (Candidate.ofPlace x) := by
    rw [hl, split, List.map_append, List.map_cons]
    refine find?_of_first (fun y hy => ?_) (fits_iff.mpr h)
    obtain ⟨z, hz, rfl⟩ := List.mem_map.mp hy
    exact Bool.eq_false_iff.mpr (fun fit => none z hz (fits_iff.mp fit))
  constructor
  · intro none h
    rw [resolve_of_free f crop b zones held place (first false none h)]
    exact ⟨rfl, by simp [passAOutcome, Candidate.ofPlace]⟩
  · intro nowhere none h
    have free : (candidates f crop b).find? (fun c => fits f zones false c.rect) = Option.none := by
      rw [hl, List.find?_eq_none]
      intro y hy fit
      obtain ⟨z, hz, rfl⟩ := List.mem_map.mp hy
      exact nowhere z hz (fits_iff.mp fit)
    rw [resolve_of_soft f crop b zones held place free (first true none h)]
    exact ⟨rfl, rfl⟩

theorem holdOrForce_some {q : Option Rect} (h : held = some r) (stay : mayHold f crop zones r = true) :
    holdOrForce f crop zones held q = ⟨.heldPlace, some r, q⟩ := by
  subst h
  exact if_pos stay

theorem holdOrForce_none {q : Option Rect} (h : ∀ r, held = some r → mayHold f crop zones r = false) :
    holdOrForce f crop zones held q = ⟨.forcedOut, none, q⟩ := by
  cases held with
  | none => rfl
  | some r => exact if_neg (by simp [h r rfl])

theorem resolve_requested : (resolve f crop b zones held).requested =
    if placeable f crop.w crop.h then some (candidateAt f crop b 0 true b.anchor).rect else none := by
  have kept (q : Option Rect) : (holdOrForce f crop zones held q).requested = q := by
    unfold holdOrForce
    split
    · split <;> rfl
    · rfl
  unfold resolve
  split
  · dsimp only
    split
    · rfl
    · split
      · rfl
      · exact kept _
  · exact kept _

/-- Settles O57: the search takes the first candidate that fits, by its place in the order of sizes and anchors. -/
theorem resolutionFitsOrForcesOut : Obligations.ResolutionFitsOrForcesOut := by
  refine ⟨fun f crop b zones held => ⟨resolve_forcedOut_iff f crop b zones held, fun r h => ?_, fun r h soft hold => ?_,
    fun place fit => ?_⟩, ?_, fun f => by cases f <;> decide, fun _ _ _ => rfl, heightMax_greatest, ?_⟩
  · have hard : Fits f zones true r := (resolve_rect h).elim Fits.hard And.left
    exact ⟨hard.1, fun z hz active cls => hard.2 z hz active (fun _ => cls)⟩
  · have free : Fits f zones false r := (resolve_rect h).resolve_right (fun ⟨_, o⟩ => o.elim soft hold)
    exact fun z hz active => free.2 z hz active nofun
  · have found : (candidates f crop b).find? (fun c => fits f zones false c.rect)
        = some (candidateAt f crop b 0 true b.anchor) := by
      unfold candidates levelCandidates
      exact List.find?_cons_of_pos fit
    exact resolve_of_free f crop b zones held place found
  · rintro f crop b zones held lo hi asked box l ok stays res rfl rfl rfl rfl rfl rfl rfl rfl
    have listed := candidates_eq f crop b _ (fun _ _ _ => rfl)
    have place : placeable f crop.w crop.h = true ↔ 2 * ((crop.h + 15) / 16) ≤ heightMax f crop.w crop.h :=
      decide_eq_true_iff
    refine ⟨?_, fun small before x after split => resolve_of_places (place.mpr small) listed split, fun nowhere => ?_⟩
    · rw [resolve_requested]
      simp only [place]
      congr 2
    · have none : placeable f crop.w crop.h = true → ∀ x ∈ candidates f crop b, fits f zones true x.rect = false := by
        intro small x hx
        rw [listed] at hx
        obtain ⟨z, hz, rfl⟩ := List.mem_map.mp hx
        exact Bool.eq_false_iff.mpr (fun fit => nowhere (place.mp small) z hz (fits_iff.mp fit))
      rw [resolve_of_none f crop b zones held none]
      refine ⟨fun r ⟨hold, stay⟩ => ?_, fun away => ?_⟩
      · rw [holdOrForce_some hold (mayHold_iff.mpr stay)]
        exact ⟨rfl, rfl⟩
      · rw [holdOrForce_none (fun r hold => Bool.eq_false_iff.mpr (fun stay => away r ⟨hold, mayHold_iff.mp stay⟩))]
        exact ⟨rfl, rfl⟩
  · rintro f b w h left mid right top centre bottom fx fy rfl rfl rfl rfl rfl rfl rfl rfl
    exact ⟨rfl, rfl, rfl, rfl, rfl, rfl, rfl, rfl, rfl, rfl⟩

end Sys2Proof.Machine
end

section
/-! PROOFS. The reference checker and the programme inputs, event by event (Chapter 1). -/

namespace Sys2Proof.Machine

variable {s : State} {f : Format} {c : Chan} {dt : Nat} {order : List Chan}

/-! ### The house formats (R1) -/

/-- The table of R1 and the intervals in window. -/
theorem format_table (f : Format) :
    (f.code, f.width, f.height, f.rate, f.base) = (match f with
      | .f1 => (1, 1920, 1080, 25, 25) | .f2 => (2, 1920, 1080, 30, 30) | .f3 => (3, 1920, 1080, 50, 25)
      | .f4 => (4, 1920, 1080, 60, 30) | .f5 => (5, 1280, 720, 50, 25) | .f6 => (6, 1280, 720, 60, 30)) ∧
    (f.period, f.tolerance) = (match f with
      | .f1 => (1080000, 5400) | .f2 => (900900, 4504) | .f3 => (540000, 2700)
      | .f4 => (450450, 2252) | .f5 => (540000, 2700) | .f6 => (450450, 2252)) := by
  cases f <;> exact ⟨rfl, rfl⟩

theorem inWindow_iff (f : Format) (n : Nat) :
    f.inWindow n = true ↔ f.period - f.tolerance ≤ n ∧ n ≤ f.period + f.tolerance := by
  have small : f.tolerance ≤ f.period := Nat.div_le_self _ _
  unfold Format.inWindow absDiff
  rw [decide_eq_true_iff]
  omega

/-! ### Pulses (R5, R6) -/

theorem exec_refPulse : exec (.refPulse dt order) s = .next (refPulse order (s.elapse dt)) := rfl

theorem refPulse_idle (running : s.running = true) (hf : s.format = some f) (idle : s.ref.state = .idle) :
    refPulse order s = s := by
  rw [refPulse, running, hf]
  exact if_pos idle

theorem refPulse_first (running : s.running = true) (hf : s.format = some f) (watching : s.ref.state ≠ .idle)
    (first : s.ref.pulseSeen = false) :
    refPulse order s = { s with ref := { s.ref with lastPulse := s.now, pulseSeen := true } } := by
  rw [refPulse, running, hf]
  dsimp only
  rw [if_neg watching, if_neg (by simp [first])]

/-- A later pulse ends an interval. -/
theorem refPulse_judged (running : s.running = true) (hf : s.format = some f) (watching : s.ref.state ≠ .idle)
    (seen : s.ref.pulseSeen = true) : refPulse order s = judgePulse f order { s with
      ref := ({ s.ref with lastPulse := s.now } : Reference).count (f.inWindow (s.now - s.ref.lastPulse)) } := by
  have same : ({ s.ref with lastPulse := s.now, pulseSeen := true } : Reference) = { s.ref with lastPulse := s.now } := by
    rw [← seen]
  unfold refPulse
  rw [running]
  split
  next g _ hg =>
    obtain rfl : f = g := Option.some.inj (hf.symm.trans hg)
    dsimp only
    rw [if_neg watching, if_pos seen, same]
  next no => exact absurd hf (no f rfl)

theorem count_good (r : Reference) : r.count true = { r with inRun := min 8 (r.inRun + 1), outRun := 0 } := rfl

theorem count_bad (r : Reference) : r.count false = { r with inRun := 0, outRun := min 3 (r.outRun + 1) } := rfl

section
variable (running : s.running = true) (hf : s.format = some f) (seen : s.ref.pulseSeen = true)
include running hf seen

/-- A pulse in window, short of the eighth, counts in ACQUIRING and FREE. -/
theorem refPulse_counts_in (state : s.ref.state = .acquiring ∨ s.ref.state = .free)
    (good : f.inWindow (s.now - s.ref.lastPulse) = true) (few : s.ref.inRun < 7) : refPulse order s =
      { s with ref := { s.ref with lastPulse := s.now, inRun := s.ref.inRun + 1, outRun := 0 } } := by
  have short : min 8 (s.ref.inRun + 1) = s.ref.inRun + 1 := by omega
  have ne : s.ref.inRun ≠ 7 := by omega
  rw [refPulse_judged running hf (by rcases state with h | h <;> simp [h]) seen, good, count_good, short]
  unfold judgePulse
  rcases state with h | h <;> simp [h, ne]

/-- One out of window, short of the third, counts in ACQUIRING. -/
theorem refPulse_counts_out (state : s.ref.state = .acquiring)
    (bad : f.inWindow (s.now - s.ref.lastPulse) = false) (few : s.ref.outRun < 2) : refPulse order s =
      { s with ref := { s.ref with lastPulse := s.now, inRun := 0, outRun := s.ref.outRun + 1 } } := by
  have short : min 3 (s.ref.outRun + 1) = s.ref.outRun + 1 := by omega
  have ne : s.ref.outRun ≠ 2 := by omega
  rw [refPulse_judged running hf (by simp [state]) seen, bad, count_bad, short]
  unfold judgePulse
  simp [state, ne]

theorem refPulse_counts_out_free (state : s.ref.state = .free) (bad : f.inWindow (s.now - s.ref.lastPulse) = false) :
    refPulse order s =
      { s with ref := { s.ref with lastPulse := s.now, inRun := 0, outRun := min 3 (s.ref.outRun + 1) } } := by
  rw [refPulse_judged running hf (by simp [state]) seen, bad, count_bad]
  unfold judgePulse
  simp [state]

/-- The third out of window in ACQUIRING or LOCKED loses the reference (R6). -/
theorem refPulse_loses (state : s.ref.state = .acquiring ∨ s.ref.state = .locked)
    (bad : f.inWindow (s.now - s.ref.lastPulse) = false) (third : 2 ≤ s.ref.outRun) : refPulse order s =
      raiseCard .refLoss { s with ref := { s.ref with
        lastPulse := s.now, state := .free, inRun := 0, outRun := 0, selfRun := false } } := by
  have full : min 3 (s.ref.outRun + 1) = 3 := by omega
  rw [refPulse_judged running hf (by rcases state with h | h <;> simp [h]) seen, bad, count_bad, full]
  unfold judgePulse
  rcases state with h | h <;> simp [h, loseReference]

end

theorem pulseFrame_ref (f : Format) (order : List Chan) (s : State) : (pulseFrame f order s).ref = { s.ref with
    selfRun := false
    lastFrame := if s.ref.lastFrame + f.period - f.tolerance ≤ s.now then s.now else s.ref.lastFrame } := by
  unfold pulseFrame
  dsimp only
  split
  · exact frameStart_ref order
  · rfl

/-! ### Silence (R5, R6) -/

theorem exec_refSilence : exec .refSilence s = .next (refSilence s) := rfl

theorem refSilence_loses (running : s.running = true) (hf : s.format = some f)
    (state : s.ref.state = .acquiring ∨ s.ref.state = .locked) : refSilence s =
      raiseCard .refLoss { s with
        now := max s.now (s.ref.lastPulse + 2 * f.period)
        ref := { s.ref with state := .free, inRun := 0, outRun := 0, selfRun := false } } := by
  unfold refSilence
  rcases state with h | h <;> simp [running, hf, h, State.reach, loseReference]

theorem refSilence_free (running : s.running = true) (hf : s.format = some f) (state : s.ref.state = .free) :
    refSilence s = { s with now := max s.now (s.ref.lastPulse + 2 * f.period), ref := { s.ref with inRun := 0 } } := by
  unfold refSilence
  simp [running, hf, state, State.reach]

/-- Settles O34: the table by its rows, each pulse by the checker's state and its interval, silence by the state. -/
theorem referenceIntervalsCounted : Obligations.ReferenceIntervalsCounted := by
  refine ⟨fun f => ⟨(format_table f).1, (format_table f).2, fun n lo hi h => ?_⟩,
    fun s dt order running unset => ⟨?_, ?_, ?_, ?_⟩,
    fun s f dt order running hf => ⟨fun watching first => ?_, fun seen state => ⟨fun good few => ?_, fun bad few => ?_⟩,
      fun seen state => ⟨fun good few => ?_, fun bad => ?_⟩, ?_, fun seen state bad third => ?_, fun idle => ?_,
      fun state => ?_, fun state => ?_⟩⟩
  · rw [inWindow_iff]
    cases f <;> (obtain ⟨rfl, rfl⟩ := Prod.mk.inj h; exact Iff.rfl)
  · rw [exec_refPulse, refPulse]
    simp [State.elapse, unset]
  · rw [exec_refSilence, refSilence]
    simp [unset]
  · show Host.Outcome.next (freeRunFrame order s) = _
    simp [freeRunFrame, unset]
  · show Host.Outcome.next (latePulseFrame order s) = _
    simp [latePulseFrame, unset]
  · exact congrArg _ (refPulse_first (s := s.elapse dt) running hf watching first)
  · exact congrArg _ (refPulse_counts_in (s := s.elapse dt) running hf seen (.inl state) good few)
  · exact congrArg _ (refPulse_counts_out (s := s.elapse dt) running hf seen state bad few)
  · exact congrArg _ (refPulse_counts_in (s := s.elapse dt) running hf seen (.inr state) good few)
  · exact congrArg _ (refPulse_counts_out_free (s := s.elapse dt) running hf seen state bad)
  · rintro seen state inW r window within rfl
    rw [exec_refPulse, refPulse_locked order running hf seen window (.inr ⟨state, within⟩)]
    refine ⟨_, rfl, ?_⟩
    rw [pulseFrame_ref]
    simp [state]
  · exact congrArg _ (refPulse_loses (s := s.elapse dt) running hf seen state bad third)
  · exact congrArg _ (refPulse_idle (s := s.elapse dt) running hf idle)
  · rw [exec_refSilence, refSilence_loses running hf state]
  · rw [exec_refSilence, refSilence_free running hf state]

/-! ### Programme frame starts (R7, R12, R13) -/

theorem hearsInputs_of_running (running : s.running = true) : s.hearsInputs = true := by
  rw [State.running, Bool.and_eq_true, Option.isNone_iff_eq_none] at running
  simp [State.hearsInputs, running.1, running.2]

theorem modChan_modChan (s : State) (c : Chan) (g h : Channel → Channel) :
    (s.modChan c g).modChan c h = s.modChan c (fun x => h (g x)) := by
  unfold State.modChan
  dsimp only
  rw [PerChan.set_set, PerChan.get_set, if_pos rfl]

theorem pgmFrameStart_first (running : s.running = true) (first : (s.chan c).pgmStart = none) (w h : Half) :
    pgmFrameStart c w h s = s.modChan c (fun x => { x with pgmStart := some s.now }) := by
  unfold pgmFrameStart
  rw [if_pos (hearsInputs_of_running running), first]
  split <;> simp_all

/-- A later programme frame start ends an interval. -/
theorem pgmFrameStart_judged (running : s.running = true) (hf : s.format = some f) {last : Nat}
    (start : (s.chan c).pgmStart = some last) (w h : Half) : pgmFrameStart c w h s =
      if pgmIntervalGood f (s.now - last) w h then
        s.modChan c (fun x => goodInterval { x with pgmStart := some s.now })
      else badInterval c (s.modChan c (fun x => { x with pgmStart := some s.now })) := by
  unfold pgmFrameStart
  rw [if_pos (hearsInputs_of_running running), start, running]
  dsimp only
  rw [judgePgm, modChan_format, hf]
  dsimp only
  rw [modChan_modChan]

theorem pgmIntervalGood_iff {n : Nat} {w h : Half} : pgmIntervalGood f n w h = true ↔
    f.inWindow n = true ∧ w.toNat = f.width ∧ h.toNat = f.height := by
  simp [pgmIntervalGood, Format.matchesRaster]

theorem badInterval_of_ne (h : (s.chan c).pgm ≠ .present) : badInterval c s =
    s.modChan c (fun x => { x with pgmGood := 0, pgmBad := min 3 (x.pgmBad + 1) }) := by
  unfold badInterval
  dsimp only
  rw [modChan_chan_same, if_neg h]

theorem badInterval_short (h : (s.chan c).pgm = .present) (few : (s.chan c).pgmBad < 2) : badInterval c s =
    s.modChan c (fun x => { x with pgmGood := 0, pgmBad := x.pgmBad + 1, writing := true }) := by
  have short : min 3 ((s.chan c).pgmBad + 1) = (s.chan c).pgmBad + 1 := by omega
  unfold badInterval
  dsimp only
  rw [modChan_chan_same, if_pos h]
  dsimp only
  rw [short, if_neg (by omega), modChan_modChan]
  refine modChan_congr ?_
  dsimp only
  rw [short]

theorem badInterval_third (h : (s.chan c).pgm = .present) (third : 2 ≤ (s.chan c).pgmBad) : badInterval c s =
    losePgm c s := by
  have full : min 3 ((s.chan c).pgmBad + 1) = 3 := by omega
  unfold badInterval
  dsimp only
  rw [modChan_chan_same, if_pos h]
  dsimp only
  rw [if_pos full, losePgm, losePgm, modChan_modChan]

theorem goodInterval_present {ch : Channel} (h : ch.pgm = .present) : goodInterval ch = { ch with
    pgmGood := min 8 (ch.pgmGood + 1), pgmBad := 0, writing := true } := by
  simp [goodInterval, h]

theorem goodInterval_short {ch : Channel} (h : ch.pgm ≠ .present) (few : ch.pgmGood < 7) : goodInterval ch = { ch with
    pgmGood := ch.pgmGood + 1, pgmBad := 0 } := by
  have short : min 8 (ch.pgmGood + 1) = ch.pgmGood + 1 := by omega
  have ne : ch.pgmGood ≠ 7 := by omega
  unfold goodInterval
  cases pgm : ch.pgm with
  | present => exact absurd pgm h
  | _ => simp [short, ne]

theorem goodInterval_eighth {ch : Channel} (full : 7 ≤ ch.pgmGood) :
    (ch.pgm = .waiting → goodInterval ch = { ch with pgmGood := 8, pgmBad := 0, pgm := .present, writing := true }) ∧
    (ch.pgm = .lost → goodInterval ch = { ch with
      pgmGood := 8, pgmBad := 0, pgm := .present, store := [], delay := 0, slew := 0, writing := true }) := by
  have eight : min 8 (ch.pgmGood + 1) = 8 := by omega
  constructor
  · intro waiting
    simp [goodInterval, waiting, eight]
  · intro lost
    simp [goodInterval, lost, eight, returnPgm]

/-! ### Frames and silence (R8, R12) -/

theorem storeFrame_eq (word : Option TcWord) (pic : Picture) (ch : Channel) : storeFrame word pic ch = { ch with
    store := (if ch.store.length = 21 then ch.store.drop 1 else ch.store) ++ [⟨ch.serial, word, pic⟩]
    serial := ch.serial + 1, writing := false } := by
  have length : (ch.store ++ [(⟨ch.serial, word, pic⟩ : PgmFrame)]).length = 22 ↔ ch.store.length = 21 := by simp
  unfold storeFrame
  dsimp only
  simp only [length]
  by_cases full : ch.store.length = 21
  · rw [if_pos full, if_pos full, List.drop_append_of_le_length (by omega)]
  · rw [if_neg full, if_neg full]

theorem pgmFrameComplete_of (running : s.running = true) (hf : s.format = some f) (word : Option TcWord)
    (pic : Picture) : pgmFrameComplete c word pic s =
      if (s.chan c).pgm = .present ∧ (s.chan c).writing = true then
        if f.matchesRaster pic.w pic.h then s.modChan c (storeFrame word pic)
        else s.modChan c (fun ch => { ch with writing := false })
      else s := by
  rw [pgmFrameComplete, running, hf]

theorem pgmSilence_of (running : s.running = true) (hf : s.format = some f) {last : Nat}
    (start : (s.chan c).pgmStart = some last) : pgmSilence c s =
      if (s.chan c).pgm = .present then losePgm c { s with now := max s.now (last + 2 * f.period) }
      else State.modChan { s with now := max s.now (last + 2 * f.period) } c (fun x => { x with pgmGood := 0 }) := by
  unfold pgmSilence
  rw [running, start]
  split
  next g l _ hg hl =>
    obtain rfl : f = g := Option.some.inj (hf.symm.trans hg)
    obtain rfl : last = l := Option.some.inj hl
    rfl
  next no => exact (no f last rfl hf rfl).elim

/-- Settles O45: an interval by its judgement and the checker's state, a complete frame by its raster, silence by the
state. -/
theorem programmeInputJudged : Obligations.ProgrammeInputJudged := by
  refine ⟨fun s f c dt w h running hf => ⟨fun first => ?_, fun last start => ⟨fun good => ?_, fun bad => ?_⟩⟩,
    fun s f c word pic running hf => ⟨fun pgm writing hw hh => ?_, fun pgm writing other => ?_, fun idle => ?_,
      fun last start => ⟨fun pgm => ?_, fun pgm => ?_⟩⟩⟩
  · have row : exec (.pgmFrameStart c dt w h) s = .next (pgmFrameStart c w h (s.elapse dt)) := rfl
    rw [row, pgmFrameStart_first (s := s.elapse dt) running first]
    rfl
  · have row : exec (.pgmFrameStart c dt w h) s = .next (State.modChan { s with now := s.now + dt } c
        (fun x => goodInterval { x with pgmStart := some (s.now + dt) })) :=
      congrArg _ ((pgmFrameStart_judged (s := s.elapse dt) running hf start w h).trans
        (if_pos (pgmIntervalGood_iff.mpr good)))
    rw [row]
    refine ⟨fun pgm => ?_, fun pgm few => ?_, fun pgm full => ?_, fun pgm full => ?_⟩
    · exact congrArg _ (modChan_congr (goodInterval_present (ch := { s.chan c with pgmStart := some (s.now + dt) }) pgm))
    · exact congrArg _ (modChan_congr (goodInterval_short (ch := { s.chan c with pgmStart := some (s.now + dt) }) pgm few))
    · exact congrArg _ (modChan_congr ((goodInterval_eighth (ch := { s.chan c with pgmStart := some (s.now + dt) }) full).1 pgm))
    · exact congrArg _ (modChan_congr ((goodInterval_eighth (ch := { s.chan c with pgmStart := some (s.now + dt) }) full).2 pgm))
  · have row : exec (.pgmFrameStart c dt w h) s = .next (badInterval c (State.modChan { s with now := s.now + dt } c
        (fun x => { x with pgmStart := some (s.now + dt) }))) :=
      congrArg _ ((pgmFrameStart_judged (s := s.elapse dt) running hf start w h).trans
        (if_neg (fun good => bad (pgmIntervalGood_iff.mp good))))
    have chan : ((State.modChan { s with now := s.now + dt } c (fun x => { x with
        pgmStart := some (s.now + dt) })).chan c) = { s.chan c with pgmStart := some (s.now + dt) } :=
      modChan_chan_same ..
    rw [row]
    refine ⟨fun pgm few => ?_, fun pgm third => ?_, fun pgm => ?_⟩
    · rw [badInterval_short (by rw [chan]; exact pgm) (by rw [chan]; exact few), modChan_modChan]
    · rw [badInterval_third (by rw [chan]; exact pgm) (by rw [chan]; exact third), losePgm, modChan_modChan]
    · rw [badInterval_of_ne (by rw [chan]; exact pgm), modChan_modChan]
  · show Host.Outcome.next (pgmFrameComplete c word pic s) = _
    rw [pgmFrameComplete_of running hf, if_pos ⟨pgm, writing⟩, if_pos (by simp [Format.matchesRaster, hw, hh])]
    exact congrArg _ (modChan_congr (storeFrame_eq word pic _))
  · show Host.Outcome.next (pgmFrameComplete c word pic s) = _
    rw [pgmFrameComplete_of running hf, if_pos ⟨pgm, writing⟩, if_neg]
    simpa [Format.matchesRaster, imp_iff_not_or] using other
  · show Host.Outcome.next (pgmFrameComplete c word pic s) = _
    rw [pgmFrameComplete_of running hf, if_neg]
    rintro ⟨pgm, writing⟩
    rcases idle with h | h
    · exact h pgm
    · rw [h] at writing
      cases writing
  · show Host.Outcome.next (pgmSilence c s) = _
    rw [pgmSilence_of running hf start, if_pos pgm]
    rfl
  · show Host.Outcome.next (pgmSilence c s) = _
    rw [pgmSilence_of running hf start, if_neg pgm]

end Sys2Proof.Machine
end

section
/-! PROOFS. Resets and power, and the fields of a zone (R14, R38, R98, R99, R196). -/

namespace Sys2Proof.Machine

variable {s : State} {f : Format}

/-! ### Resets and power (R14, R196) -/

theorem relaysToBypass_chan (s : State) (c : Chan) :
    (relaysToBypass s).chan c = { s.chan c with relay := .bypass } := by
  unfold relaysToBypass State.chan
  rw [PerChan.get_map]

theorem forgetInputs_chan (s : State) (c : Chan) : (forgetInputs s).chan c = { s.chan c with pgmStart := none } := by
  unfold forgetInputs State.chan
  rw [PerChan.get_map]

theorem forgetInputs_src (s : State) (p : Port) :
    (forgetInputs s).src p = { s.src p with lastStart := none, measuring := false } := by
  unfold forgetInputs State.src
  rw [PerPort.get_map]

theorem powerOn_chan (s : State) (c : Chan) :
    (powerOn s).chan c = { s.chan c with relay := .bypass, pgmStart := none } :=
  (relaysToBypass_chan _ c).trans (by rw [forgetInputs_chan]; rfl)

theorem powerOn_src (s : State) (p : Port) :
    (powerOn s).src p = { s.src p with lastStart := none, measuring := false } :=
  forgetInputs_src _ p

theorem assertPin_eq (s : State) : assertPin s =
    if s.power then beginReset .pin { s with pin := true } else { s with pin := true } := rfl

theorem releasePin_late (pin : s.pin = true) (reset : s.resetting ≠ none) (due : s.resetDue ≤ s.now) :
    releasePin s = { s with pin := false, resetDue := s.now + 540000 } :=
  if_pos ⟨pin, Option.isSome_iff_ne_none.mpr reset, due⟩

theorem releasePin_else (h : s.pin = false ∨ s.resetting = none ∨ s.now < s.resetDue) :
    releasePin s = { s with pin := false } := by
  refine if_neg ?_
  rintro ⟨pin, reset, due⟩
  rcases h with h | h | h
  · rw [h] at pin
    cases pin
  · rw [h] at reset
    cases reset
  · omega

theorem resetComplete_waits (h : s.pin = true ∨ s.power = false ∨ s.resetting = none) : resetComplete s = s := by
  unfold resetComplete
  rcases h with h | h | h
  · split
    · exact if_neg (by simp [h])
    · rfl
  · split
    · exact if_neg (by simp [h])
    · rfl
  · rw [h]

theorem resetComplete_of {k : ResetCause} (reset : s.resetting = some k) (power : s.power = true)
    (pin : s.pin = false) : resetComplete s = finishReset k (s.reach s.resetDue) := by
  rw [resetComplete, reset]
  exact if_pos (by simp [power, pin])

theorem finishReset_chan (k : ResetCause) (s : State) (c : Chan) :
    (finishReset k s).chan c = Channel.reset (s.chan c).pgmStart := by
  unfold finishReset State.chan
  rw [PerChan.get_map]

theorem finishReset_src (k : ResetCause) (s : State) (p : Port) :
    (finishReset k s).src p = resetSource s.now (s.src p) := by
  unfold finishReset State.src
  rw [PerPort.get_map]

/-- Settles O32: each event in closed form; a completed reset block by block. -/
theorem resetsBeginAndComplete : Obligations.ResetsBeginAndComplete := by
  refine ⟨fun s => ⟨⟨powerOn s, rfl, rfl, rfl, rfl, powerOn_chan s, powerOn_src s, rfl⟩, fun power => ?_, fun power => ?_,
    rfl, fun pin reset due => congrArg _ (releasePin_late pin reset due), fun h => congrArg _ (releasePin_else h)⟩,
    fun s h => congrArg _ (resetComplete_waits h), fun s k reset power pin => ?_⟩
  · show Host.Outcome.next (assertPin s) = _
    rw [assertPin_eq, if_pos power]
    rfl
  · show Host.Outcome.next (assertPin s) = _
    rw [assertPin_eq, if_neg (by simp [power])]
  · refine ⟨finishReset k (s.reach s.resetDue), congrArg _ (resetComplete_of reset power pin), rfl, rfl, rfl, rfl, rfl, rfl,
      rfl, rfl, rfl, rfl, fun c => finishReset_chan k _ c, fun p => ?_⟩
    rw [finishReset_src, resetSource]
    rw [show (s.reach s.resetDue).src p = s.src p from rfl]
    cases (s.src p).lastStart <;> rfl

/-! ### The fields of a zone (R98, R99) -/

theorem rectInRaster_iff (f : Format) (m : ZoneMsg) : rectInRaster f m = true ↔ 0 < m.w.toNat ∧ 0 < m.h.toNat ∧
    m.x.toNat + m.w.toNat ≤ f.width ∧ m.y.toNat + m.h.toNat ≤ f.height := by
  simp [rectInRaster, and_assoc]

theorem zoneClassOf_code {b : Byte} {cls : ZoneClass} (h : cls.code = b.toNat) : zoneClassOf b = some cls := by
  rw [zoneClassOf, ← h]
  cases cls <;> rfl

theorem zoneClassOf_none {b : Byte} (h : 1 < b.toNat) : zoneClassOf b = none := by
  unfold zoneClassOf
  split
  · omega
  · omega
  · rfl

theorem zoneExpiryOf_absent {m : ZoneMsg} (h : m.expPresent.toNat = 0) : zoneExpiryOf f m = some none := by
  rw [zoneExpiryOf, h]
  rfl

theorem zoneExpiryOf_present {m : ZoneMsg} (h : m.expPresent.toNat = 1) : zoneExpiryOf f m =
    if m.activity.toNat = 1 ∧ hostLabelOk f m.expiry = true then some (some (datedOf f m.expiry)) else none := by
  rw [zoneExpiryOf, h]
  simp

theorem zoneExpiryOf_wrong {m : ZoneMsg} (h : 1 < m.expPresent.toNat) : zoneExpiryOf f m = none := by
  unfold zoneExpiryOf
  split
  · omega
  · omega
  · rfl

theorem zoneAfter_define (op : Byte) (h : op.toNat = 1) (m : ZoneMsg) (old : Zone) :
    zoneAfter f op m old = definedZone f m old := by
  rw [zoneAfter, h]
  rfl

theorem definedZone_of_outside {m : ZoneMsg} (h : rectInRaster f m = false) (old : Zone) :
    definedZone f m old = none := by
  rw [definedZone, h]
  rfl

section
variable {m : ZoneMsg} {cls : ZoneClass} {e : Option Dated} (inside : rectInRaster f m = true)
  (class_ : zoneClassOf m.cls = some cls) (expiry : zoneExpiryOf f m = some e) (old : Zone)
include inside class_ expiry

theorem definedZone_keeps (act : m.activity.toNat = 0) : definedZone f m old =
    some ⟨true, ⟨m.x.toNat, m.y.toNat, m.w.toNat, m.h.toNat⟩, cls, old.active, old.expiry⟩ := by
  rw [definedZone, inside, class_, expiry, act]
  rfl

theorem definedZone_activates (act : m.activity.toNat = 1) : definedZone f m old =
    some ⟨true, ⟨m.x.toNat, m.y.toNat, m.w.toNat, m.h.toNat⟩, cls, true, e⟩ := by
  rw [definedZone, inside, class_, expiry, act]
  rfl

theorem definedZone_deactivates (act : m.activity.toNat = 2) : definedZone f m old =
    some ⟨true, ⟨m.x.toNat, m.y.toNat, m.w.toNat, m.h.toNat⟩, cls, false, none⟩ := by
  rw [definedZone, inside, class_, expiry, act]
  rfl

end

theorem hostLabelOk_iff (f : Format) (x : HostLabel) : hostLabelOk f x = true ↔ x.h.toNat < 24 ∧ x.m.toNat < 60 ∧
    x.s.toNat < 60 ∧ x.ff.toNat < f.base ∧ x.pair.toNat ≤ 1 ∧ x.next.toNat ≤ 1 := by
  simp [hostLabelOk, timeValid, and_assoc]

/-- A DEFINE with a wrong class, expiry or activity is refused. -/
theorem definedZone_none {m : ZoneMsg} (h : zoneClassOf m.cls = none ∨ zoneExpiryOf f m = none ∨ 2 < m.activity.toNat)
    (old : Zone) : definedZone f m old = none := by
  cases inside : rectInRaster f m with
  | false => exact definedZone_of_outside inside old
  | true =>
    rw [definedZone, inside]
    rcases h with h | h | h
    · rw [h]
      rfl
    · rw [h]
      cases zoneClassOf m.cls <;> rfl
    · rw [if_neg (by simp)]
      split
      · omega
      · omega
      · omega
      · rfl

/-- Settles O27: the entry by class, expiry and activity of a rectangle inside the raster, and none for each wrong
field. -/
theorem zoneEntryByActivity : Obligations.ZoneEntryByActivity := by
  have define (f : Format) (m : ZoneMsg) (old : Zone) : zoneAfter f 1 m old = definedZone f m old :=
    zoneAfter_define 1 rfl m old
  refine ⟨fun f m old cls code w h x y => ?_, fun f m old => ⟨fun wrong => ?_, fun op high => ?_⟩⟩
  · have inside : rectInRaster f m = true := (rectInRaster_iff f m).mpr ⟨w, h, x, y⟩
    have class_ := zoneClassOf_code code
    rw [define]
    refine ⟨fun act exp => ?_, fun act exp => ?_, fun act exp ok => ?_, fun act exp => ?_, fun act exp => ?_, rfl⟩
    · exact definedZone_keeps inside class_ (zoneExpiryOf_absent exp) old act
    · exact definedZone_activates inside class_ (zoneExpiryOf_absent exp) old act
    · exact definedZone_activates inside class_ ((zoneExpiryOf_present exp).trans (if_pos ⟨act, ok⟩)) old act
    · exact definedZone_deactivates inside class_ (zoneExpiryOf_absent exp) old act
    · exact definedZone_none (.inr (.inl (by rw [zoneExpiryOf_present exp, if_neg (fun h => act h.1)]))) old
  · rw [define]
    cases inside : rectInRaster f m with
    | false => exact definedZone_of_outside inside old
    | true =>
      rw [rectInRaster_iff] at inside
      refine definedZone_none ?_ old
      rcases wrong with h | h | h | h | h | h | h | ⟨exp, act⟩ | ⟨exp, label⟩
      · omega
      · omega
      · omega
      · omega
      · exact .inl (zoneClassOf_none h)
      · exact .inr (.inr h)
      · exact .inr (.inl (zoneExpiryOf_wrong h))
      · exact .inr (.inl (by rw [zoneExpiryOf_present exp, if_neg (fun h => act h.1)]))
      · refine .inr (.inl ?_)
        rw [zoneExpiryOf_present exp, if_neg]
        rintro ⟨_, ok⟩
        rw [hostLabelOk_iff] at ok
        omega
  · unfold zoneAfter
    split
    · omega
    · omega
    · rfl

end Sys2Proof.Machine
end

section
/-! PROOFS. A cue record's judgement, and the action its part spells (R141, R142, R174, R175). -/

namespace Sys2Proof.Machine

variable {f : Format} {l : List Byte} {i : Nat}

/-! ### The record (R141) -/

section
variable {ch : Channel} {r : CueRec} {a : Action}

theorem judgeCue_tag (h : r.tag = 0) : judgeCue f ch r = .error .badField := if_pos h

theorem judgeCue_label (tag : r.tag ≠ 0) (h : hostLabelOk f r.label = false) :
    judgeCue f ch r = .error .badField := by
  rw [judgeCue, if_neg tag, h]
  rfl

theorem judgeCue_part {e : ResultCode} (tag : r.tag ≠ 0) (label : hostLabelOk f r.label = true)
    (h : actionOf f r.part = .error e) : judgeCue f ch r = .error e := by
  rw [judgeCue, if_neg tag, label, h]
  rfl

/-- A record whose tag, label and part are good, by the list and the label of the channel. -/
theorem judgeCue_action (tag : r.tag ≠ 0) (label : hostLabelOk f r.label = true) (h : actionOf f r.part = .ok a) :
    judgeCue f ch r = if ch.cues.any (fun q => decide (q.tag = r.tag.toNat)) then .error .dupTag
      else if tooLate f ch.label (datedOf f r.label) then .error .tooLate
      else if 64 ≤ ch.cues.length then .error .listFull
      else .ok a := by
  rw [judgeCue, if_neg tag, label, h]
  rfl

theorem any_tag_iff (cues : List Cue) (n : Nat) :
    cues.any (fun q => decide (q.tag = n)) = true ↔ ∃ q ∈ cues, q.tag = n := by
  simp

theorem tooLate_iff (label : Nat) (d : Dated) :
    tooLate f label d = true ↔ d.next = false ∧ d.label + f.rate ≤ label := by
  simp [tooLate]

end

/-! ### Anchors and blocks (R174) -/

/-- The anchors in the order of their codes. -/
def anchorTable : List Anchor :=
  [.topLeft, .topCentre, .topRight, .middleLeft, .centre, .middleRight, .bottomLeft, .bottomCentre, .bottomRight, .free]

theorem anchorOf_none {n : Nat} (h : 9 < n) : anchorOf n = none := by
  unfold anchorOf
  split
  case h_11 => rfl
  all_goals omega

theorem anchorOf_eq (n : Nat) : anchorOf n = anchorTable[n]? := by
  rcases Nat.lt_or_ge 9 n with high | low
  · rw [anchorOf_none high]
    exact (List.getElem?_eq_none high).symm
  · interval_cases n <;> rfl

theorem namedAnchorOf_none {n : Nat} (h : 8 < n) : namedAnchorOf n = none := by
  unfold namedAnchorOf
  split
  · rfl
  · exact anchorOf_none (by omega)

theorem namedAnchorOf_of_le {n : Nat} (h : n ≤ 8) : namedAnchorOf n = anchorTable[n]? := by
  rw [namedAnchorOf, if_neg (by omega), anchorOf_eq]

theorem fallbacksAt_none (k : Nat) (h : ∃ j, j < k ∧ 8 < (byteAt l (i + j)).toNat) : fallbacksAt l i k = none := by
  induction k generalizing i with
  | zero =>
    obtain ⟨_, none, _⟩ := h
    cases none
  | succ k ih =>
    obtain ⟨j, less, high⟩ := h
    unfold fallbacksAt
    cases j with
    | zero =>
      rw [namedAnchorOf_none (n := (byteAt l i).toNat) high]
    | succ j =>
      rw [ih ⟨j, Nat.lt_of_succ_lt_succ less, by rwa [Nat.add_right_comm, Nat.add_assoc]⟩]
      cases namedAnchorOf (byteAt l i).toNat <;> rfl

theorem fallbacksAt_some (back : List Anchor)
    (h : ∀ j, j < back.length → (byteAt l (i + j)).toNat ≤ 8 ∧ back[j]? = anchorTable[(byteAt l (i + j)).toNat]?) :
    fallbacksAt l i back.length = some back := by
  induction back generalizing i with
  | nil => rfl
  | cons a back ih =>
    obtain ⟨(low : (byteAt l i).toNat ≤ 8), (first : some a = anchorTable[(byteAt l i).toNat]?)⟩ := h 0 (Nat.succ_pos _)
    have rest : fallbacksAt l (i + 1) back.length = some back := by
      refine ih (fun j less => ?_)
      have next := h (j + 1) (Nat.succ_lt_succ less)
      rwa [List.getElem?_cons_succ, ← Nat.add_assoc, Nat.add_right_comm] at next
    rw [List.length_cons, fallbacksAt, namedAnchorOf_of_le low, ← first, rest]

theorem blockAt_none (h : 9 < (byteAt l i).toNat ∨ 1 < (byteAt l (i + 1)).toNat ∨ 3 < (byteAt l (i + 8)).toNat ∨
    ∃ j, j < (byteAt l (i + 8)).toNat ∧ 8 < (byteAt l (i + 9 + j)).toNat) : blockAt l i = none := by
  unfold blockAt
  split
  · rfl
  next small =>
    simp only [Bool.or_eq_true, decide_eq_true_eq, not_or, Nat.not_lt] at small
    rcases h with h | h | h | h
    · rw [anchorOf_none h]
    · omega
    · omega
    · rw [fallbacksAt_none _ h]
      cases anchorOf (byteAt l i).toNat <;> rfl

theorem blockAt_some {a : Anchor} {back : List Anchor} (anchor : anchorTable[(byteAt l i).toNat]? = some a)
    (kind : (byteAt l (i + 1)).toNat ≤ 1) (few : (byteAt l (i + 8)).toNat ≤ 3)
    (fallbacks : fallbacksAt l (i + 9) (byteAt l (i + 8)).toNat = some back) : blockAt l i =
      some ⟨a, if (byteAt l (i + 1)).toNat = 1 then none else some (evenFloor (halfAt l (i + 2)).toNat),
        (halfAt l (i + 4)).toNat, (halfAt l (i + 6)).toNat, back⟩ := by
  rw [blockAt, if_neg (by simp; omega), anchorOf_eq, anchor, fallbacks]

/-! ### The parts of an action (R175) -/

theorem glideAtPart_absent (h : (byteAt l i).toNat = 0) : glideAtPart l i = some none := by
  rw [glideAtPart, h]
  rfl

theorem glideAtPart_present (h : (byteAt l i).toNat = 1) :
    glideAtPart l i = some (some (min 250 (byteAt l (i + 1)).toNat)) := by
  rw [glideAtPart, h]
  rfl

theorem glideAtPart_wrong (h : 1 < (byteAt l i).toNat) : glideAtPart l i = none := by
  unfold glideAtPart
  split
  · omega
  · omega
  · rfl

section
variable {k : Option Port → Action}

theorem optionalSource_absent (h : (byteAt l i).toNat = 0) : optionalSource l i k = .ok (k none) := if_pos h

theorem optionalSource_wrong (h : (byteAt l i).toNat ≠ 0) (high : 5 < (byteAt l (i + 1)).toNat) :
    optionalSource l i k = .error .noSuch := by
  rw [optionalSource, if_neg h, portOf_none high]

theorem optionalSource_port {p : Port} (h : (byteAt l i).toNat ≠ 0) (port : portIdx p = (byteAt l (i + 1)).toNat) :
    optionalSource l i k = if (byteAt l i).toNat = 1 then .ok (k (some p)) else .error .badField := by
  rw [optionalSource, if_neg h, portOf_idx port]

end

theorem placeAction_wrong {k : Block → Option Nat → Action} (h : blockAt l 1 = none ∨ glideAtPart l 13 = none) :
    placeAction l k = .error .badField := by
  unfold placeAction
  rcases h with h | h
  · rw [h]
  · rw [h]
    cases blockAt l 1 <;> rfl

theorem placeAction_some {k : Block → Option Nat → Action} {b : Block} {g : Option Nat} (block : blockAt l 1 = some b)
    (glide : glideAtPart l 13 = some g) : placeAction l k = .ok (k b g) := by
  rw [placeAction, block, glide]

section
variable (index : (byteAt l 1).toNat ≤ 11)
include index

theorem zoneAction_off (active : (byteAt l 2).toNat = 0) (expiry : (byteAt l 3).toNat = 0) :
    zoneAction f l = .ok (.zone (byteAt l 1).toNat false none) := by
  rw [zoneAction, active, expiry]
  exact if_neg (Nat.not_lt.mpr index)

theorem zoneAction_on (active : (byteAt l 2).toNat = 1) (expiry : (byteAt l 3).toNat = 0) :
    zoneAction f l = .ok (.zone (byteAt l 1).toNat true none) := by
  rw [zoneAction, active, expiry]
  exact if_neg (Nat.not_lt.mpr index)

theorem zoneAction_until (active : (byteAt l 2).toNat = 1) (expiry : (byteAt l 3).toNat = 1) : zoneAction f l =
    if hostLabelOk f (hostLabelAt l 4) then .ok (.zone (byteAt l 1).toNat true (some (datedOf f (hostLabelAt l 4))))
    else .error .badField := by
  rw [zoneAction, active, expiry]
  exact if_neg (Nat.not_lt.mpr index)

theorem zoneAction_wrong (h : (byteAt l 2).toNat = 0 ∧ (byteAt l 3).toNat = 1 ∨ 1 < (byteAt l 2).toNat ∨
    1 < (byteAt l 3).toNat) : zoneAction f l = .error .badField := by
  unfold zoneAction
  dsimp only
  rw [if_neg (Nat.not_lt.mpr index)]
  split
  · omega
  · omega
  · omega
  · rfl

end

/-- A dated label by its fields (R21, R22). -/
theorem datedOf_label (f : Format) (x : HostLabel) : (datedOf f x).label =
    ((x.h.toNat * 60 + x.m.toNat) * 60 + x.s.toNat) * f.rate + x.ff.toNat * (f.rate / f.base)
      + (if f.rate / f.base = 2 ∧ x.pair.toNat = 1 then 1 else 0) := by
  unfold datedOf labelOfTime
  simp only [Bool.and_eq_true, decide_eq_true_eq]

theorem datedOf_eq {x : HostLabel} {d : Dated} (pair : x.pair.toNat ≤ 1)
    (next : x.next.toNat = if d.next then 1 else 0)
    (label : d.label = ((x.h.toNat * 60 + x.m.toNat) * 60 + x.s.toNat) * f.rate + x.ff.toNat * (f.rate / f.base)
      + (if f.rate / f.base = 2 then x.pair.toNat else 0)) : datedOf f x = d := by
  have number : (datedOf f x).label = d.label := by
    rw [datedOf_label, label]
    congr 1
    split <;> split <;> omega
  have mark : (datedOf f x).next = d.next := by
    show decide (x.next.toNat = 1) = d.next
    rw [next]
    cases d.next <;> rfl
  cases d
  exact congrArg₂ Dated.mk number mark

/-! ### The action by its code -/

section
variable (f : Format) (l : List Byte)

theorem actionOf_unknown (h : (byteAt l 0).toNat = 0 ∨ 9 < (byteAt l 0).toNat) :
    actionOf f l = .error .badField := by
  unfold actionOf
  split
  case h_10 => rfl
  all_goals omega

theorem actionOf_optional {k : Option Port → Action} (h : (byteAt l 0).toNat = 1 ∧
      k = (fun p => .showInset p (min 250 (byteAt l 3).toNat)) ∨ (byteAt l 0).toNat = 9 ∧ k = .standby) :
    actionOf f l = optionalSource l 1 k := by
  rcases h with ⟨code, rfl⟩ | ⟨code, rfl⟩ <;> (rw [actionOf, code]; rfl)

theorem actionOf_hide (h : (byteAt l 0).toNat = 2) : actionOf f l = .ok (.hide (min 250 (byteAt l 1).toNat)) := by
  rw [actionOf, h]
  rfl

theorem actionOf_handover (h : (byteAt l 0).toNat = 3) :
    (5 < (byteAt l 1).toNat → actionOf f l = .error .noSuch) ∧
    ∀ p, portIdx p = (byteAt l 1).toNat → actionOf f l = .ok (.handover p (min 250 (byteAt l 2).toNat)) := by
  constructor
  · intro high
    simp [actionOf, h, portOf_none high]
  · intro p port
    simp [actionOf, h, portOf_idx port, cap250]

theorem actionOf_place {k : Block → Option Nat → Action} (h : (byteAt l 0).toNat = 4 ∧ k = .place ∨
    (byteAt l 0).toNat = 5 ∧ k = .push) : actionOf f l = placeAction l k := by
  rcases h with ⟨code, rfl⟩ | ⟨code, rfl⟩ <;> (rw [actionOf, code]; rfl)

theorem actionOf_pop (h : (byteAt l 0).toNat = 6) :
    ((byteAt l 1).toNat = 0 → actionOf f l = .ok (.pop none)) ∧
    ((byteAt l 1).toNat = 1 → actionOf f l = .ok (.pop (some (min 250 (byteAt l 2).toNat)))) ∧
    (1 < (byteAt l 1).toNat → actionOf f l = .error .badField) := by
  refine ⟨fun glide => ?_, fun glide => ?_, fun glide => ?_⟩
  · simp [actionOf, h, glideAtPart_absent glide]
  · simp [actionOf, h, glideAtPart_present glide]
  · simp [actionOf, h, glideAtPart_wrong glide]

theorem actionOf_zone (h : (byteAt l 0).toNat = 7) : actionOf f l = zoneAction f l := by
  rw [actionOf, h]
  rfl

theorem actionOf_mark (h : (byteAt l 0).toNat = 8) : actionOf f l = .ok (.mark (byteAt l 1).toNat) := by
  rw [actionOf, h]
  rfl

end

theorem numberAt_two (h : i + 2 ≤ l.length) :
    numberAt l i 2 = (byteAt l i).toNat * 256 + (byteAt l (i + 1)).toNat := by
  rw [numberAt, byteAt, byteAt, List.getD_eq_getElem?_getD, List.getD_eq_getElem?_getD,
    List.drop_eq_getElem_cons (by omega), List.drop_eq_getElem_cons (by omega),
    List.getElem?_eq_getElem (by omega), List.getElem?_eq_getElem (by omega)]
  simp only [List.take_succ_cons, List.take_zero, List.foldl_cons, List.foldl_nil, Option.getD_some,
    Nat.zero_mul, Nat.zero_add]

theorem halfAt_toNat (h : i + 2 ≤ l.length) : (halfAt l i).toNat = numberAt l i 2 := by
  have high := (byteAt l i).isLt
  have low := (byteAt l (i + 1)).isLt
  rw [numberAt_two h, halfAt, BitVec.toNat_ofNat, Nat.mod_eq_of_lt (by omega)]

/-- Settles O29: the record by its tests, the part by its code and then by each of its fields. -/
theorem cueJudgedInOrder : Obligations.CueJudgedInOrder := by
  refine ⟨fun f ch r => ⟨judgeCue_tag, judgeCue_label, fun tag label => ⟨fun e => judgeCue_part tag label,
    fun a action => ?_⟩⟩, fun e => by cases e <;> rfl, ?_, ?_⟩
  · rw [judgeCue_action tag label action]
    refine ⟨fun twin => if_pos ((any_tag_iff _ _).mpr twin), fun fresh => ?_⟩
    rw [if_neg (fun twin => by
      obtain ⟨q, hq, e⟩ := (any_tag_iff _ _).mp twin
      exact fresh q hq e)]
    refine ⟨fun next low => if_pos ((tooLate_iff _ _).mpr ⟨next, low⟩), fun ahead => ?_⟩
    rw [if_neg (fun late => by
      obtain ⟨next, low⟩ := (tooLate_iff _ _).mp late
      rcases ahead with h | h
      · rw [next] at h
        cases h
      · omega)]
    exact ⟨fun full => if_pos full, fun room => if_neg (Nat.not_le.mpr room)⟩
  · rintro f x d rfl
    exact ⟨hostLabelOk_iff f x, datedOf_label f x, decide_eq_true_iff⟩
  · rintro f l b anchors length rfl rfl
    simp only [numberAt_one]
    refine ⟨actionOf_unknown f l, ?_, actionOf_hide f l, actionOf_handover f l, ?_, actionOf_pop f l, ?_,
      actionOf_mark f l⟩
    · intro act code
      rw [actionOf_optional f l code]
      refine ⟨optionalSource_absent, optionalSource_wrong, fun p port => ⟨fun present => ?_, fun wrong => ?_⟩⟩
      · rw [optionalSource_port (by omega) port, if_pos present]
      · rw [optionalSource_port (by omega) port, if_neg (by omega)]
    · intro act code
      rw [actionOf_place f l code]
      refine ⟨fun wrong => placeAction_wrong ?_, ?_⟩
      · rcases wrong with h | h | h | h | h
        · exact .inl (blockAt_none (.inl h))
        · exact .inl (blockAt_none (.inr (.inl h)))
        · exact .inl (blockAt_none (.inr (.inr (.inl h))))
        · exact .inl (blockAt_none (.inr (.inr (.inr h))))
        · exact .inr (glideAtPart_wrong h)
      · intro a h back g anchor height few count fallbacks glide
        have glide : glideAtPart l 13 = some g := by
          rcases glide with ⟨absent, rfl⟩ | ⟨present, rfl⟩
          · exact glideAtPart_absent absent
          · exact glideAtPart_present present
        have back_ : fallbacksAt l 10 (byteAt l 9).toNat = some back := by
          rw [← count]
          exact fallbacksAt_some back (fun j less => fallbacks j (count ▸ less))
        have kind : (byteAt l 2).toNat ≤ 1 := by omega
        have stored : (if (byteAt l 2).toNat = 1 then none else some (evenFloor (halfAt l 3).toNat)) = h := by
          rcases height with ⟨given, rfl⟩ | ⟨default_, rfl⟩
          · rw [if_neg (by omega), halfAt_toNat (by omega)]
            rfl
          · rw [if_pos default_]
        rw [placeAction_some (blockAt_some anchor kind few back_) glide]
        rw [stored, halfAt_toNat (by omega), halfAt_toNat (by omega)]
    · intro code
      rw [actionOf_zone f l code]
      refine ⟨fun high => if_pos high, fun index => ⟨zoneAction_off index, zoneAction_on index, zoneAction_wrong index,
        fun active expiry => ?_⟩⟩
      have fields : hostLabelAt l 4 = ⟨byteAt l 4, byteAt l 5, byteAt l 6, byteAt l 7, byteAt l 8, byteAt l 9⟩ := rfl
      rw [zoneAction_until index active expiry, fields]
      refine ⟨fun wrong => if_neg (fun ok => ?_), fun d h m s ff pair next label => ?_⟩
      · rw [hostLabelOk_iff] at ok
        dsimp only at ok
        omega
      · have mark : (byteAt l 9).toNat ≤ 1 := by
          rw [next]
          split <;> omega
        have dated := datedOf_eq (f := f) (d := d)
          (x := ⟨byteAt l 4, byteAt l 5, byteAt l 6, byteAt l 7, byteAt l 8, byteAt l 9⟩) pair next label
        rw [if_pos ((hostLabelOk_iff _ _).mpr ⟨h, m, s, ff, pair, mark⟩), dated]

end Sys2Proof.Machine
end

section
/-! PROOFS. Reverted cues, the mode change of a frame start, and CH_MODE (R15 to R18, R132, R138, R150, R181). -/

namespace Sys2Proof.Machine

variable {s : State} {c : Chan}

/-! ### The spare after a claimant leaves -/

theorem leave_hasIt_of_not {sp : Spare} (h : sp.hasIt c = false) (d : Chan) (k : Claimant) :
    (sp.leave d k).hasIt c = false := by
  unfold Spare.leave
  cases sp with
  | free => rfl
  | held e l =>
    dsimp only
    split
    · split
      · rfl
      · exact h
    · exact h

theorem dropAnswer_rest (d : Chan) (k : Claimant) (a : SpareAns) (s : State) :
    { dropAnswer d k a s with spare := s.spare } = s := by
  unfold dropAnswer
  split <;> rfl

theorem dropAnswer_hasIt_of_not (h : s.spare.hasIt c = false) (d : Chan) (k : Claimant) (a : SpareAns) :
    (dropAnswer d k a s).spare.hasIt c = false := by
  unfold dropAnswer
  split
  · exact leave_hasIt_of_not h d k
  · exact h

/-! ### Reverted cues (R150) -/

/-- A cue that has reverted to PENDING. -/
def Cue.reverted (q : Cue) : Cue := { q with prepared := false, late := false, claim := .notAsked }

theorem revertCue_rest (s : State) (q : Cue) :
    { revertCue c s q with channels := s.channels, spare := s.spare } = s := by
  unfold revertCue
  exact (congrArg (fun t : State => { t with channels := s.channels }) (dropAnswer_rest c (.cue q.tag) q.claim s) :)

theorem revertCue_chan (s : State) (q : Cue) : (revertCue c s q).chan c = { s.chan c with
    cues := (s.chan c).cues.map (fun x => if x.tag = q.tag then x.reverted else x) } := by
  unfold revertCue
  rw [modChan_chan_same, dropAnswer_chan]
  rfl

theorem foldl_revertCue_chan (l : List Cue) (s : State) : (l.foldl (revertCue c) s).chan c = { s.chan c with
    cues := (s.chan c).cues.map (fun x => if x.tag ∈ l.map Cue.tag then x.reverted else x) } := by
  induction l generalizing s with
  | nil => simp
  | cons q l ih =>
    rw [List.foldl_cons, ih, revertCue_chan, List.map_map]
    refine congrArg (fun l => ({ s.chan c with cues := l } : Channel)) (List.map_congr_left (fun x _ => ?_))
    have tag : x.reverted.tag = x.tag := rfl
    have twice : x.reverted.reverted = x.reverted := rfl
    by_cases one : x.tag = q.tag
    · simp [one, tag, twice]
    · simp [one]

theorem foldl_revertCue_rest (l : List Cue) (s : State) :
    { l.foldl (revertCue c) s with channels := s.channels, spare := s.spare } = s := by
  induction l generalizing s with
  | nil => rfl
  | cons q l ih =>
    exact (congrArg (fun t : State => { t with channels := s.channels, spare := s.spare }) (ih (revertCue c s q))).trans
      (revertCue_rest s q)

theorem revertCues_rest (c : Chan) (s : State) :
    { revertCues c s with channels := s.channels, spare := s.spare } = s := foldl_revertCue_rest _ s

theorem revertCues_src (p : Port) : (revertCues c s).src p = s.src p :=
  (congrArg (fun t => t.src p) (revertCues_rest c s) :)

theorem revertCues_notices : (revertCues c s).notices = s.notices := (congrArg State.notices (revertCues_rest c s) :)

theorem revertCues_link : (revertCues c s).link = s.link := (congrArg State.link (revertCues_rest c s) :)

/-- Every cue whose tag a PREPARED one carries reverts. -/
theorem revertCues_chan (c : Chan) (s : State) : (revertCues c s).chan c = { s.chan c with
    cues := (s.chan c).cues.map (fun x => if x.tag ∈ preparedTags (s.chan c).cues then x.reverted else x) } :=
  foldl_revertCue_chan _ s

theorem mem_preparedTags {l : List Cue} {n : Nat} : n ∈ preparedTags l ↔ ∃ q ∈ l, q.prepared = true ∧ q.tag = n := by
  simp [preparedTags, and_assoc]

theorem preparedTags_ne_nil {l : List Cue} : preparedTags l ≠ [] ↔ ∃ q ∈ l, q.prepared = true := by
  simp [preparedTags]

theorem revertCues_tags (c : Chan) (s : State) :
    ((revertCues c s).chan c).cues.map Cue.tag = (s.chan c).cues.map Cue.tag := by
  rw [revertCues_chan, List.map_map]
  refine List.map_congr_left (fun x _ => ?_)
  simp only [Function.comp_apply]
  split <;> rfl

theorem revertCues_unprepared (c : Chan) (s : State) : ∀ q ∈ ((revertCues c s).chan c).cues, q.prepared = false := by
  rw [revertCues_chan]
  intro q hq
  obtain ⟨x, hx, rfl⟩ := List.mem_map.mp hq
  split
  · rfl
  next other => exact Bool.eq_false_iff.mpr (fun prepared => other (mem_preparedTags.mpr ⟨x, hx, prepared, rfl⟩))

/-- With distinct tags exactly the PREPARED cues revert. -/
theorem revertCues_of_nodup (law : (s.chan c).ListOk) : (revertCues c s).chan c = { s.chan c with
    cues := (s.chan c).cues.map (fun x => if x.prepared then x.reverted else x) } := by
  rw [revertCues_chan]
  refine congrArg (fun l => ({ s.chan c with cues := l } : Channel)) (List.map_congr_left (fun x hx => ?_))
  have same : x.tag ∈ preparedTags (s.chan c).cues ↔ x.prepared = true := by
    rw [mem_preparedTags]
    refine ⟨fun ⟨q, hq, prepared, tag⟩ => ?_, fun prepared => ⟨x, hx, prepared, rfl⟩⟩
    have : q = x := List.inj_on_of_nodup_map law.tags hq hx tag
    exact this ▸ prepared
  simp only [same]

/-- Without a PREPARED cue nothing reverts. -/
theorem revertCues_of_none (h : ∀ q ∈ (s.chan c).cues, q.prepared = false) : revertCues c s = s := by
  unfold revertCues
  rw [List.filter_eq_nil_iff.mpr (fun q hq => by simp [h q hq])]
  rfl

theorem foldl_hasIt_of_not {α : Type} {g : State → α → State}
    (keep : ∀ t a, t.spare.hasIt c = false → (g t a).spare.hasIt c = false) (l : List α) (h : s.spare.hasIt c = false) :
    (l.foldl g s).spare.hasIt c = false := by
  induction l generalizing s with
  | nil => exact h
  | cons a l ih => exact ih (keep s a h)

theorem revertCues_hasIt_of_not (h : s.spare.hasIt c = false) : (revertCues c s).spare.hasIt c = false :=
  foldl_hasIt_of_not (g := revertCue c) (fun t q ht => dropAnswer_hasIt_of_not (s := t) ht c (.cue q.tag) q.claim) _ h

theorem discardWaiting_hasIt_of_not (h : s.spare.hasIt c = false) : (discardWaiting c s).spare.hasIt c = false :=
  foldl_hasIt_of_not (g := fun t (w : Waiting) => dropAnswer c (.take w.id) w.claim t)
    (fun t w ht => dropAnswer_hasIt_of_not (s := t) ht c (.take w.id) w.claim) (s.chan c).waiting h

theorem discardWaiting_rest (c : Chan) (s : State) :
    { discardWaiting c s with channels := s.channels, spare := s.spare } = s := by
  have fold (l : List Waiting) (t : State) :
      { l.foldl (fun t w => dropAnswer c (.take w.id) w.claim t) t with spare := t.spare } = t := by
    induction l generalizing t with
    | nil => rfl
    | cons w l ih =>
      exact (congrArg (fun u : State => { u with spare := t.spare }) (ih (dropAnswer c (.take w.id) w.claim t))).trans
        (dropAnswer_rest c (.take w.id) w.claim t)
  unfold discardWaiting
  exact (congrArg (fun u : State => { u with channels := s.channels }) (fold (s.chan c).waiting s) :)

theorem discardWaiting_src (p : Port) : (discardWaiting c s).src p = s.src p :=
  (congrArg (fun t => t.src p) (discardWaiting_rest c s) :)

/-! ### The mode change of a frame start (R15 to R18) -/

theorem takePending_of_ne {m : Mode} (h : (s.chan c).mode ≠ m) : takePending c m s =
    (match m with
    | .bypass => (enterBypass c (s.modChan c (fun ch => { ch with pendingMode := none })), false)
    | .thru => (enterThru c (s.modChan c (fun ch => { ch with pendingMode := none })), false)
    | .auto => (enterAuto c (s.modChan c (fun ch => { ch with pendingMode := none })), true)) := by
  unfold takePending
  dsimp only
  rw [modChan_chan_same, if_neg h]
  cases m <;> rfl

theorem enterBypass_chan (c : Chan) (s : State) (law : (s.chan c).ListOk) : (enterBypass c s).chan c = { (s.chan c).hide with
    cues := (s.chan c).cues.map (fun x => if x.prepared then x.reverted else x)
    mode := .bypass, relay := .bypass, delay := 0, slew := 0, deferred := none, heldBack := false } := by
  have dropped : (dropInset c s).chan c = (s.chan c).hide := by
    rw [dropInset_eq]
    exact modChan_chan_same ..
  have list : ((dropInset c s).chan c).ListOk := by
    rw [dropped]
    exact ⟨law.order, law.tags⟩
  unfold enterBypass
  rw [modChan_chan_same, revertCues_of_nodup list, dropped]
  rfl

theorem enterThru_chan (c : Chan) (s : State) (law : (s.chan c).ListOk) : (enterThru c s).chan c = { leaveBypass (s.chan c) with
    cues := (s.chan c).cues.map (fun x => if x.prepared then x.reverted else x)
    mode := .thru, deferred := none, heldBack := false } := by
  unfold enterThru
  rw [modChan_chan_same, revertCues_of_nodup law]
  unfold leaveBypass
  dsimp only
  split <;> rfl

theorem enterThru_src (p : Port) : (enterThru c s).src p = s.src p := revertCues_src p

theorem enterThru_notices : (enterThru c s).notices = s.notices := revertCues_notices

theorem modeChange_of_pending {m : Mode} (h : (s.chan c).pendingMode = some m) : modeChange c s =
    if ((takePending c m s).1.chan c).mode = .bypass then
      (discardWaiting c (takePending c m s).1, (takePending c m s).2) else takePending c m s := by
  rw [modeChange, h]

theorem modeChange_of_none (h : (s.chan c).pendingMode = none) : modeChange c s =
    if ((takeDeferred c s).chan c).mode = .bypass then (discardWaiting c (takeDeferred c s), false)
    else (takeDeferred c s, false) := by
  rw [modeChange, h]

theorem takeDeferred_of_empty (h : (s.chan c).deferred = some []) :
    takeDeferred c s = raiseChan c .modeDone (enterThru c s) := if_pos h

theorem takeDeferred_of_ne (h : (s.chan c).deferred ≠ some []) : takeDeferred c s = s := if_neg h

theorem leaveBypass_of_bypass {ch : Channel} (h : ch.mode = .bypass) :
    leaveBypass ch = { ch with relay := .processed, slew := 0 } := if_pos h

theorem leaveBypass_of_ne {ch : Channel} (h : ch.mode ≠ .bypass) : leaveBypass ch = ch := if_neg h

/-- A pending BYPASS takes effect. -/
theorem modeChange_bypass (pending : (s.chan c).pendingMode = some .bypass) (mode : (s.chan c).mode ≠ .bypass) :
    modeChange c s =
      (discardWaiting c (enterBypass c (s.modChan c (fun ch => { ch with pendingMode := none }))), false) := by
  rw [modeChange_of_pending pending, takePending_of_ne mode]
  refine if_pos ?_
  dsimp only
  unfold enterBypass
  rw [modChan_chan_same]

/-- A pending THRU takes effect. -/
theorem modeChange_thru (pending : (s.chan c).pendingMode = some .thru) (mode : (s.chan c).mode ≠ .thru) :
    modeChange c s = (enterThru c (s.modChan c (fun ch => { ch with pendingMode := none })), false) := by
  rw [modeChange_of_pending pending, takePending_of_ne mode]
  refine if_neg ?_
  dsimp only
  unfold enterThru
  rw [modChan_chan_same]
  exact nofun

/-- A pending AUTO takes effect. -/
theorem modeChange_auto (pending : (s.chan c).pendingMode = some .auto) (mode : (s.chan c).mode ≠ .auto) :
    modeChange c s = (enterAuto c (s.modChan c (fun ch => { ch with pendingMode := none })), true) := by
  rw [modeChange_of_pending pending, takePending_of_ne mode]
  refine if_neg ?_
  dsimp only
  unfold enterAuto
  rw [modChan_chan_same]
  exact nofun

/-- A deferred THRU with nothing left to wait for takes effect. -/
theorem modeChange_deferred (pending : (s.chan c).pendingMode = none) (h : (s.chan c).deferred = some []) :
    modeChange c s = (raiseChan c .modeDone (enterThru c s), false) := by
  rw [modeChange_of_none pending, takeDeferred_of_empty h]
  refine if_neg ?_
  rw [raiseChan_chan]
  unfold enterThru
  rw [modChan_chan_same]
  exact nofun

/-- Settles O36: each change through the channel it leaves. -/
theorem modeChangesAtTheFrameStart : Obligations.ModeChangesAtTheFrameStart := by
  rintro s c r back law rfl rfl
  refine ⟨fun pending mode => ?_, fun pending mode => ?_, fun pending mode => ?_, fun pending mode => ?_,
    fun pending mode => ⟨fun empty => ?_, fun other => ?_⟩⟩
  · have list : ((s.modChan c (fun ch => { ch with pendingMode := none })).chan c).ListOk := by
      rw [modChan_chan_same]
      exact ⟨(law.list c).order, (law.list c).tags⟩
    have left : ∀ p, ((discardWaiting c (enterBypass c (s.modChan c (fun ch => { ch with pendingMode := none })))).src p).owner
        ≠ some c := by
      intro p
      have src : (enterBypass c (s.modChan c (fun ch => { ch with pendingMode := none }))).src p
          = (letGoAll c (s.modChan c (fun ch => { ch with pendingMode := none }))).src p := by
        unfold enterBypass
        rw [modChan_src, revertCues_src, dropInset_eq]
        rfl
      rw [discardWaiting_src, src, letGoAll_src]
      exact letGone_owner (law.source p).owner
    have spare : (discardWaiting c (enterBypass c (s.modChan c (fun ch => { ch with pendingMode := none })))).spare.hasIt c
        = false := by
      refine discardWaiting_hasIt_of_not (revertCues_hasIt_of_not ?_)
      rw [dropInset_eq]
      exact leaveAll_hasIt _ _
    rw [modeChange_bypass pending mode]
    dsimp only
    rw [discardWaiting_chan, enterBypass_chan _ _ list, modChan_chan_same]
    exact ⟨rfl, rfl, rfl, rfl, rfl, rfl, rfl, rfl, rfl, rfl, rfl, rfl, rfl, rfl, rfl, left, spare, rfl⟩
  · have list : ((s.modChan c (fun ch => { ch with pendingMode := none })).chan c).ListOk := by
      rw [modChan_chan_same]
      exact ⟨(law.list c).order, (law.list c).tags⟩
    rw [modeChange_thru pending mode]
    dsimp only
    rw [enterThru_chan _ _ list, modChan_chan_same]
    refine ⟨rfl, ?_, ?_, ?_, rfl, rfl, rfl, ?_, ?_, ?_, fun p => enterThru_src p, enterThru_notices, rfl⟩
    all_goals
      unfold leaveBypass
      dsimp only
      split <;> rfl
  · rw [modeChange_auto pending (by rw [mode]; exact nofun), enterAuto, modChan_modChan]
    refine congrArg (·, true) (modChan_congr ?_)
    rw [leaveBypass_of_bypass (ch := { s.chan c with pendingMode := none }) mode]
  · rw [modeChange_auto pending (by rw [mode]; exact nofun), enterAuto, modChan_modChan]
    refine congrArg (·, true) (modChan_congr ?_)
    rw [leaveBypass_of_ne (ch := { s.chan c with pendingMode := none }) (by dsimp only; rw [mode]; exact nofun)]
  · have stays : leaveBypass (s.chan c) = s.chan c := leaveBypass_of_ne (by rw [mode]; exact nofun)
    rw [modeChange_deferred pending empty]
    dsimp only
    rw [raiseChan_chan, enterThru_chan _ _ (law.list c), stays]
    refine ⟨rfl, rfl, rfl, rfl, ?_, rfl, rfl, fun p => enterThru_src p, rfl, fun none => ?_⟩
    · unfold raiseChan
      rw [enterThru_notices]
    · rw [enterThru, revertCues_of_none none]
      exact congrArg (raiseChan c .modeDone) (modChan_congr (by dsimp only; rw [stays]))
  · rw [modeChange_of_none pending, takeDeferred_of_ne other, if_neg (by rw [mode]; exact nofun)]

/-! ### CH_MODE (R15, R18, R181) -/

theorem modeOf_code {b : Byte} {m : Mode} (h : m.code = b.toNat) : modeOf b = some m := by
  rw [modeOf, ← h]
  cases m <;> rfl

theorem modeOf_none {b : Byte} (h : 2 < b.toNat) : modeOf b = none := by
  unfold modeOf
  split
  case h_4 => rfl
  all_goals omega

theorem exists_modeOf {b : Byte} (h : b.toNat ≤ 2) : ∃ m : Mode, m.code = b.toNat := by
  rcases Nat.lt_or_ge b.toNat 1 with zero | pos
  · exact ⟨.bypass, by show 0 = _; omega⟩
  · rcases Nat.lt_or_ge b.toNat 2 with one | two
    · exact ⟨.thru, by show 1 = _; omega⟩
    · exact ⟨.auto, by show 2 = _; omega⟩

theorem ofNat_modeCode {b : Byte} {m : Mode} (h : m.code = b.toNat) : BitVec.ofNat 8 m.code = b := by
  rw [h, BitVec.ofNat_toNat, BitVec.setWidth_eq]

theorem actChMode_eq {ch mode : Byte} {m : Mode} (hc : chanIdx c = ch.toNat) (hm : m.code = mode.toNat)
    (allowed : m = .bypass ∨ s.format ≠ none) : actChMode ch mode s =
      ((requestMode c m s).1, (requestMode c m s).2, modeFields ((requestMode c m s).1.chan c)) := by
  rw [actChMode, withChan_of_idx hc, modeOf_code hm]
  refine if_neg ?_
  rintro ⟨ne, unset⟩
  exact allowed.elim ne (· unset)

theorem requestMode_of_deferred {m : Mode} (h : (s.chan c).deferred ≠ none) :
    requestMode c m s = modeWhileDeferred c m s := if_pos (Option.isSome_iff_ne_none.mpr h)

theorem requestMode_same {m : Mode} (h : (s.chan c).deferred = none)
    (same : m = (s.chan c).pendingMode.getD (s.chan c).mode) : requestMode c m s = (s, .ok) := by
  rw [requestMode, if_neg (by simp [h])]
  exact if_pos same

theorem requestMode_other {m : Mode} (h : (s.chan c).deferred = none)
    (other : m ≠ (s.chan c).pendingMode.getD (s.chan c).mode) : requestMode c m s = changeMode c m s := by
  rw [requestMode, if_neg (by simp [h])]
  exact if_neg other

/-- Another mode becomes pending, no change to AUTO being replaced. -/
theorem changeMode_pending {m : Mode} (pending : (s.chan c).pendingMode ≠ some .auto)
    (h : ¬(m = .thru ∧ (s.chan c).mode = .auto ∧ ∃ q ∈ (s.chan c).cues, q.prepared = true)) :
    changeMode c m s = (s.modChan c (fun ch => { ch with pendingMode := some m }), .ok) := by
  unfold changeMode
  rw [if_neg pending]
  exact if_neg (by rwa [preparedTags_ne_nil])

theorem changeMode_deferred (pending : (s.chan c).pendingMode ≠ some .auto) (auto : (s.chan c).mode = .auto)
    (prepared : ∃ q ∈ (s.chan c).cues, q.prepared = true) : changeMode c .thru s =
      (s.modChan c (fun ch => { ch with pendingMode := none, deferred := some (preparedTags ch.cues) }), .deferred) := by
  unfold changeMode
  rw [if_neg pending]
  exact if_pos ⟨rfl, auto, preparedTags_ne_nil.mpr prepared⟩

/-- A mode that replaces a pending AUTO reverts the PREPARED cues first. -/
theorem changeMode_replaces {m : Mode} (pending : (s.chan c).pendingMode = some .auto) :
    changeMode c m s = ((revertCues c s).modChan c (fun ch => { ch with pendingMode := some m }), .ok) := by
  have none : preparedTags ((revertCues c s).chan c).cues = [] := by
    by_contra some
    obtain ⟨q, hq, prepared⟩ := preparedTags_ne_nil.mp some
    rw [revertCues_unprepared c s q hq] at prepared
    cases prepared
  unfold changeMode
  rw [if_pos pending]
  exact if_neg (by rw [none]; simp)

/-- Settles O18: CH_MODE by what is pending and deferred. -/
theorem channelModeJudged : Obligations.ChannelModeJudged := by
  refine ⟨fun s ch mode idle => ⟨fun high => ?_, fun low high => ?_, fun low named unset => ?_,
    fun c m hc hm allowed deferred => ⟨fun same => ?_, fun other pending now => ?_,
      fun other pending thru auto prepared => ?_, fun ne pending => ?_⟩⟩,
    fun s ch mode c tags idle hc format deferred => ⟨fun thru => ?_, fun auto => ?_, fun bypass => ?_⟩⟩
  · exact exec_idle_refused (r := .chMode ch mode) idle rfl (withChan_of_gt high _ _)
  · obtain ⟨c, hc⟩ := exists_chanOf low
    refine exec_idle_refused (r := .chMode ch mode) (code := .badField) idle rfl ((withChan_of_idx hc _ _).trans ?_)
    rw [modeOf_none high]
  · obtain ⟨c, hc⟩ := exists_chanOf low
    obtain ⟨m, hm⟩ := exists_modeOf (b := mode) (by omega)
    have ne : m ≠ .bypass := by
      rintro rfl
      have zero : 0 = mode.toNat := hm
      omega
    refine exec_idle_refused (r := .chMode ch mode) (code := .noFormat) idle rfl ((withChan_of_idx hc _ _).trans ?_)
    rw [modeOf_code hm]
    exact if_pos ⟨ne, unset⟩
  · refine exec_idle (r := .chMode ch mode) (t := s) (code := .ok) (fields := modeFields (s.chan c)) idle rfl
      ((actChMode_eq (s := s.hearing _) hc hm allowed).trans ?_)
    rw [requestMode_same (s := s.hearing _) deferred same]
    rfl
  · refine exec_idle (r := .chMode ch mode) (t := s.modChan c (fun x => { x with pendingMode := some m })) (code := .ok)
      (fields := [BitVec.ofNat 8 (s.chan c).mode.code, mode, 0]) idle rfl ((actChMode_eq (s := s.hearing _) hc hm allowed).trans ?_)
    rw [requestMode_other (s := s.hearing _) deferred other, changeMode_pending (s := s.hearing _) pending now]
    have fields : modeFields { s.chan c with pendingMode := some m } = [BitVec.ofNat 8 (s.chan c).mode.code, mode, 0] := by
      have code := ofNat_modeCode hm
      simp [modeFields, modeByte, be8, flag, deferred, code]
    dsimp only
    rw [modChan_chan_same]
    exact Prod.ext rfl (Prod.ext rfl fields)
  · subst thru
    refine exec_idle (r := .chMode ch mode) (t := s.modChan c (fun x => { x with
      pendingMode := none, deferred := some ((x.cues.filter (fun q => q.prepared)).map Cue.tag) })) (code := .deferred)
      (fields := [2, 0xFF, 1]) idle rfl ((actChMode_eq (s := s.hearing _) hc hm allowed).trans ?_)
    rw [requestMode_other (s := s.hearing _) deferred other, changeMode_deferred (s := s.hearing _) pending auto prepared]
    have fields (l : List Nat) : modeFields { s.chan c with pendingMode := none, deferred := some l } = [2, 0xFF, 1] := by
      simp [modeFields, modeByte, be8, flag, auto, Mode.code]
    dsimp only
    rw [modChan_chan_same]
    exact Prod.ext rfl (Prod.ext rfl (fields _))
  · have other : m ≠ (s.chan c).pendingMode.getD (s.chan c).mode := by
      rw [pending]
      exact ne
    have code := ofNat_modeCode hm
    have answer : act (.chMode ch mode) (s.hearing (.request (.chMode ch mode))) =
        ((revertCues c (s.hearing (.request (.chMode ch mode)))).modChan c (fun x => { x with pendingMode := some m }), .ok,
          [BitVec.ofNat 8 (s.chan c).mode.code, mode, 0]) := by
      refine (actChMode_eq (s := s.hearing _) hc hm allowed).trans ?_
      rw [requestMode_other (s := s.hearing _) deferred other, changeMode_replaces (s := s.hearing _) pending]
      dsimp only
      rw [modChan_chan_same, revertCues_chan]
      have stands : (s.hearing (.request (.chMode ch mode))).chan c = s.chan c := rfl
      simp [modeFields, modeByte, be8, flag, stands, deferred, code]
    refine ⟨_, exec_idle_of_act (r := .chMode ch mode) idle rfl answer, ?_⟩
    have chan : ∀ (u : State) r l, (u.replying r l).chan c = u.chan c := fun _ _ _ => rfl
    have reverted := revertCues_chan c (s.hearing (.request (.chMode ch mode)))
    have tags := revertCues_tags c (s.hearing (.request (.chMode ch mode)))
    have unprepared := revertCues_unprepared c (s.hearing (.request (.chMode ch mode)))
    have link := revertCues_link (c := c) (s := s.hearing (.request (.chMode ch mode)))
    rw [chan, modChan_chan_same]
    refine ⟨rfl, ?_, ?_, tags, unprepared, ?_⟩
    · dsimp only
      rw [reverted]
      exact deferred
    · dsimp only
      rw [reverted]
      rfl
    · show ({ (revertCues c (s.hearing (.request (.chMode ch mode)))).link with slot1 := _ } : Link) = _
      rw [link]
      rfl
  · refine exec_idle (r := .chMode ch mode) (t := s) (code := .deferred) (fields := modeFields (s.chan c)) idle rfl
      ((actChMode_eq (s := s.hearing _) (m := .thru) hc thru.symm (.inr format)).trans ?_)
    rw [requestMode_of_deferred (s := s.hearing _) (by rw [show (s.hearing _).chan c = s.chan c from rfl, deferred]; exact nofun)]
    rfl
  · refine exec_idle (r := .chMode ch mode) (t := s.modChan c (fun x => { x with deferred := none })) (code := .ok)
      (fields := modeFields { s.chan c with deferred := none }) idle rfl
      ((actChMode_eq (s := s.hearing _) (m := .auto) hc auto.symm (.inr format)).trans ?_)
    rw [requestMode_of_deferred (s := s.hearing _) (by rw [show (s.hearing _).chan c = s.chan c from rfl, deferred]; exact nofun)]
    dsimp only [modeWhileDeferred]
    rw [modChan_chan_same]
    rfl
  · refine exec_idle (r := .chMode ch mode) (code := .ok) (fields := [BitVec.ofNat 8 (s.chan c).mode.code, 0, 0])
      (t := s.modChan c (fun x => { x with deferred := none, pendingMode := some .bypass })) idle rfl
      ((actChMode_eq (s := s.hearing _) (m := .bypass) hc bypass.symm (.inl rfl)).trans ?_)
    rw [requestMode_of_deferred (s := s.hearing _) (by rw [show (s.hearing _).chan c = s.chan c from rfl, deferred]; exact nofun)]
    dsimp only [modeWhileDeferred]
    rw [modChan_chan_same]
    rfl

end Sys2Proof.Machine
end

section
/-! PROOFS. Cue requests (sections 8.2 to 8.4): records loaded, and cues removed by tag and by range. -/

namespace Sys2Proof.Machine

variable {s : State} {c : Chan} {f : Format}

/-! ### Removal (R145, R146, R187) -/

/-- With distinct tags a cue is the only one of its tag. -/
theorem filter_tag_eq {cues : List Cue} {q : Cue} (tags : (cues.map Cue.tag).Nodup) (hq : q ∈ cues) :
    cues.filter (fun x => decide (x.tag = q.tag)) = [q] := by
  induction cues with
  | nil => cases hq
  | cons y l ih =>
    rw [List.map_cons, List.nodup_cons] at tags
    obtain ⟨fresh, tags⟩ := tags
    rcases List.mem_cons.mp hq with rfl | hq
    · have others : l.filter (fun x => decide (x.tag = q.tag)) = [] := by
        rw [List.filter_eq_nil_iff]
        intro x hx
        simpa using fun same : x.tag = q.tag => fresh (same ▸ List.mem_map_of_mem hx)
      simp [others]
    · have ne : y.tag ≠ q.tag := fun same => fresh (same ▸ List.mem_map_of_mem hq)
      simp [ne, ih tags hq]

/-- Only PENDING cues are removed. -/
theorem removeCues_of_prepared {pick : Cue → Bool} {ch : Channel}
    (h : ∀ q ∈ ch.cues, pick q = true → q.prepared = true) : removeCues pick ch = ch := by
  have none : ch.cues.filter (fun q => pick q && !q.prepared) = [] := by
    rw [List.filter_eq_nil_iff]
    intro q hq
    simpa using h q hq
  have all : ch.cues.filter (fun q => !(pick q && !q.prepared)) = ch.cues := by
    rw [List.filter_eq_self]
    intro q hq
    cases picked : pick q with
    | false => rfl
    | true => simp [h q hq picked]
  rw [removeCues, none, all]
  simp

theorem filter_tag_and_pending {cues : List Cue} {q : Cue} (tags : (cues.map Cue.tag).Nodup) (hq : q ∈ cues)
    (pending : q.prepared = false) :
    cues.filter (fun x => decide (x.tag = q.tag) && !x.prepared) = [q] := by
  have only := filter_tag_eq tags hq
  rw [show (fun x : Cue => decide (x.tag = q.tag) && !x.prepared)
    = (fun x => !x.prepared && decide (x.tag = q.tag)) from funext fun x => Bool.and_comm _ _,
    ← List.filter_filter, only]
  simp [pending]

/-- A PENDING cue that alone carries its tag leaves the list and is counted. -/
theorem removeCues_of_pending {ch : Channel} {q : Cue} (tags : (ch.cues.map Cue.tag).Nodup) (hq : q ∈ ch.cues)
    (pending : q.prepared = false) : removeCues (fun x => decide (x.tag = q.tag)) ch =
      { ch with cues := ch.cues.filter (fun x => decide (x.tag ≠ q.tag)), removed := ch.removed + 1 } := by
  have left : ch.cues.filter (fun x => !(decide (x.tag = q.tag) && !x.prepared))
      = ch.cues.filter (fun x => decide (x.tag ≠ q.tag)) := by
    refine List.filter_congr fun x hx => ?_
    by_cases same : x.tag = q.tag
    · have : x ∈ ch.cues.filter (fun x => decide (x.tag = q.tag)) := by simp [hx, same]
      rw [filter_tag_eq tags hq, List.mem_singleton] at this
      simp [this, pending]
    · simp [same]
  rw [removeCues, left, filter_tag_and_pending tags hq pending]
  rfl

/-- A change that leaves a channel as it is leaves the card as it is. -/
theorem modChan_of_fixed {g : Channel → Channel} (h : g (s.chan c) = s.chan c) : s.modChan c g = s := by
  have : s.channels.set c (g (s.chan c)) = s.channels := by
    rw [h]
    cases c <;> rfl
  rw [State.modChan]
  exact congrArg (fun v => { s with channels := v }) this

theorem actCueRemove_tag {ch : Byte} {tag : Half} {lo hi : HostLabel} (hc : chanIdx c = ch.toNat) :
    actCueRemove ch 0 tag lo hi s = removeByTag c tag s := by
  rw [actCueRemove, chanOf_idx hc]
  rfl

theorem actCueRemove_range {ch : Byte} {tag : Half} {lo hi : HostLabel} (hc : chanIdx c = ch.toNat) :
    actCueRemove ch 1 tag lo hi s = removeByRange c lo hi s := by
  rw [actCueRemove, chanOf_idx hc]
  rfl

theorem actCueRemove_of_gt {ch form : Byte} {tag : Half} {lo hi : HostLabel} (high : 3 < ch.toNat) :
    actCueRemove ch form tag lo hi s = refuseRemoval .badField s := by
  rw [actCueRemove, chanOf_none high]

theorem removeByTag_of_mem {tag : Half} {q : Cue} (pos : tag ≠ 0) (hq : q ∈ (s.chan c).cues)
    (same : q.tag = tag.toNat) : removeByTag c tag s = removal c (fun x => decide (x.tag = q.tag)) s := by
  rw [removeByTag, if_neg pos, if_pos ((any_tag_iff _ _).mpr ⟨q, hq, same⟩), same]

theorem removal_prepared {q : Cue} (tags : ((s.chan c).cues.map Cue.tag).Nodup) (hq : q ∈ (s.chan c).cues)
    (prepared : q.prepared = true) : removal c (fun x => decide (x.tag = q.tag)) s = (s, .ok, [0, 1]) := by
  have only := filter_tag_eq tags hq
  have stands : removeCues (fun x => decide (x.tag = q.tag)) (s.chan c) = s.chan c := by
    refine removeCues_of_prepared fun x hx picked => ?_
    have : x ∈ (s.chan c).cues.filter (fun x => decide (x.tag = q.tag)) := List.mem_filter.mpr ⟨hx, picked⟩
    rw [only, List.mem_singleton] at this
    rw [this, prepared]
  rw [removal, modChan_of_fixed stands, only]
  simp [prepared, be8, flag]

theorem removal_pending {q : Cue} (tags : ((s.chan c).cues.map Cue.tag).Nodup) (hq : q ∈ (s.chan c).cues)
    (pending : q.prepared = false) : removal c (fun x => decide (x.tag = q.tag)) s =
      (s.modChan c (fun x => { x with cues := x.cues.filter (fun y => decide (y.tag ≠ q.tag)), removed := x.removed + 1 }),
        .ok, [1, 0]) := by
  have left : s.modChan c (removeCues (fun x => decide (x.tag = q.tag))) = s.modChan c (fun x => { x with
      cues := x.cues.filter (fun y => decide (y.tag ≠ q.tag)), removed := x.removed + 1 }) :=
    modChan_congr (removeCues_of_pending tags hq pending)
  rw [removal, filter_tag_eq tags hq, left]
  simp [pending, be8, flag]

theorem removal_range (lo hi : Dated) : removal c (inRange lo hi) s =
    (s.modChan c (fun x => { x with
        cues := x.cues.filter (fun q => q.prepared || !(lo.le q.date && q.date.le hi))
        removed := x.removed + BitVec.ofNat 16 (x.cues.filter (fun q => lo.le q.date && q.date.le hi &&
          !q.prepared)).length }), .ok,
      [BitVec.ofNat 8 ((s.chan c).cues.filter (fun q => lo.le q.date && q.date.le hi && !q.prepared)).length,
       if (s.chan c).cues.any (fun q => lo.le q.date && q.date.le hi && q.prepared) then 0x01 else 0x00]) := by
  have left (q : Cue) : (!(inRange lo hi q && !q.prepared)) = (q.prepared || !(lo.le q.date && q.date.le hi)) := by
    rw [inRange, Bool.not_and, Bool.not_not, Bool.or_comm]
  have counted : ((s.chan c).cues.filter (inRange lo hi)).filter (fun q => !q.prepared)
      = (s.chan c).cues.filter (fun q => lo.le q.date && q.date.le hi && !q.prepared) := by
    rw [List.filter_filter]
    exact congrArg (List.filter · _) (funext fun q => Bool.and_comm _ _)
  unfold removal removeCues
  simp only [left, counted, List.any_filter]
  rfl

theorem removeByRange_refused {lo hi : HostLabel} (hf : s.format = some f)
    (h : hostLabelOk f lo = false ∨ hostLabelOk f hi = false ∨ (datedOf f lo).le (datedOf f hi) = false) :
    removeByRange c lo hi s = refuseRemoval .badField s := by
  unfold removeByRange
  rw [hf]
  dsimp only
  split
  · rfl
  · next ok =>
    rw [if_neg]
    simp_all

theorem removeByRange_eq {lo hi : HostLabel} (hf : s.format = some f) (okLo : hostLabelOk f lo = true)
    (okHi : hostLabelOk f hi = true) (ordered : (datedOf f lo).le (datedOf f hi) = true) :
    removeByRange c lo hi s = removal c (inRange (datedOf f lo) (datedOf f hi)) s := by
  unfold removeByRange
  rw [hf]
  simp [okLo, okHi, ordered]

/-- Settles O31: the answer of each form of CUE_REMOVE, and what a removal keeps. -/
theorem cuesRemovedByTagAndRange : Obligations.CuesRemovedByTagAndRange := by
  refine ⟨fun s ch tag req idle hr => ?_, fun s ch lo hi req idle hr => ?_⟩ <;> subst hr
  · have reply {t : State} {code : ResultCode} {fields : List Byte}
        (h : actCueRemove ch 0 tag labelZero labelZero (s.hearing (.request (.cueRemove ch 0 tag labelZero labelZero)))
          = (t.hearing (.request (.cueRemove ch 0 tag labelZero labelZero)), code, fields)) :
        exec (.cueRemoveByTag ch tag) s
          = .next (t.replying (.cueRemove ch 0 tag labelZero labelZero) (0xC1 :: code.value :: fields)) :=
      exec_idle idle rfl h
    refine ⟨fun high => reply (t := s) (actCueRemove_of_gt high), fun c hc => ⟨fun zero => ?_, fun pos fresh => ?_,
      fun q pos hq same list => ⟨fun prepared => ?_, fun pending => ?_⟩⟩⟩
    · exact reply (t := s) (code := .badField) ((actCueRemove_tag hc).trans (if_pos zero))
    · refine reply (t := s) (code := .noSuch) ((actCueRemove_tag hc).trans ?_)
      rw [removeByTag, if_neg pos, if_neg]
      · rfl
      · rw [any_tag_iff]
        rintro ⟨q, hq, same⟩
        exact fresh q hq same
    · refine reply (t := s) (code := .ok) (fields := [0, 1]) ((actCueRemove_tag hc).trans ?_)
      rw [removeByTag_of_mem (s := s.hearing _) pos hq same]
      exact removal_prepared (s := s.hearing _) list.tags hq prepared
    · refine reply (t := s.modChan c _) (code := .ok) (fields := [1, 0]) ((actCueRemove_tag hc).trans ?_)
      rw [removeByTag_of_mem (s := s.hearing _) pos hq same]
      rw [removal_pending (s := s.hearing _) list.tags hq pending, same]
      rfl
  · have reply {t : State} {code : ResultCode} {fields : List Byte}
        (h : actCueRemove ch 1 0 lo hi (s.hearing (.request (.cueRemove ch 1 0 lo hi)))
          = (t.hearing (.request (.cueRemove ch 1 0 lo hi)), code, fields)) :
        exec (.cueRemoveByRange ch lo hi) s
          = .next (t.replying (.cueRemove ch 1 0 lo hi) (0xC1 :: code.value :: fields)) :=
      exec_idle idle rfl h
    refine ⟨fun high => reply (t := s) (actCueRemove_of_gt high), fun c hc => ⟨fun unset => ?_,
      fun f hf => ⟨fun bad => ?_, fun okLo okHi ordered => ?_⟩⟩⟩
    · refine reply (t := s) (code := .noFormat) ((actCueRemove_range hc).trans ?_)
      unfold removeByRange
      rw [show (s.hearing _).format = none from unset]
      rfl
    · exact reply (t := s) ((actCueRemove_range hc).trans (removeByRange_refused (s := s.hearing _) hf bad))
    · refine reply (t := s.modChan c _) (code := .ok) (fields := [_, _])
        ((actCueRemove_range hc).trans ((removeByRange_eq (s := s.hearing _) hf okLo okHi ordered).trans (removal_range _ _)))

/-! ### Loading (R140 to R144, R187) -/

theorem optionalSource_ne_ok (l : List Byte) (i : Nat) (k : Option Port → Action) :
    optionalSource l i k ≠ .error .ok := by
  unfold optionalSource
  repeat' split
  all_goals simp

theorem placeAction_ne_ok (l : List Byte) (k : Block → Option Nat → Action) : placeAction l k ≠ .error .ok := by
  unfold placeAction
  split <;> simp

theorem zoneAction_ne_ok (f : Format) (l : List Byte) : zoneAction f l ≠ .error .ok := by
  unfold zoneAction
  dsimp only
  split
  · simp
  · repeat' split
    all_goals simp

theorem actionOf_ne_ok (f : Format) (l : List Byte) : actionOf f l ≠ .error .ok := by
  unfold actionOf
  split
  case h_1 => exact optionalSource_ne_ok _ _ _
  case h_4 => exact placeAction_ne_ok _ _
  case h_5 => exact placeAction_ne_ok _ _
  case h_7 => exact zoneAction_ne_ok _ _
  case h_9 => exact optionalSource_ne_ok _ _ _
  case h_3 => split <;> simp
  case h_6 => split <;> simp
  all_goals simp

/-- A refused record has a code of a refusal. -/
theorem judgeCue_ne_ok (f : Format) (ch : Channel) (r : CueRec) : judgeCue f ch r ≠ .error .ok := by
  unfold judgeCue
  have part := actionOf_ne_ok f r.part
  repeat' split
  all_goals simp_all

theorem eq_ok_of_value {e : ResultCode} (h : e.value = 0x00) : e = .ok := by
  cases e <;> first | rfl | exact absurd h (by decide)

/-- The cue that an accepted record enters, asked for with the answer given. -/
def cueOf (f : Format) (r : CueRec) (a : Action) (ch : Channel) (claim : SpareAns) : Cue :=
  let d := datedOf f r.label
  ⟨r.tag.toNat, d, a, acceptPrepared ch d, acceptPrepared ch d && decide (d.label ≤ ch.label), claim, nextSeq ch.cues,
    acceptLostLate ch d⟩

theorem acceptCue_asks {r : CueRec} {a : Action} (prep : acceptPrepared (s.chan c) (datedOf f r.label) = true)
    (asks : a.asksSpare = true) : acceptCue c f r a s = { s.modChan c (fun x => { x with
        cues := insertCue (cueOf f r a (s.chan c) (s.spare.request c (.cue r.tag.toNat)).2) x.cues }) with
      spare := (s.spare.request c (.cue r.tag.toNat)).1 } := by
  have asked : (if acceptPrepared (s.chan c) (datedOf f r.label) then askForCue c r.tag.toNat a s else (s, .notAsked))
      = askSpare c (.cue r.tag.toNat) s := by
    rw [if_pos prep, askForCue, if_pos asks]
  unfold acceptCue
  dsimp only
  rw [asked]
  rfl

theorem acceptCue_asks_not {r : CueRec} {a : Action}
    (h : ¬(acceptPrepared (s.chan c) (datedOf f r.label) = true ∧ a.asksSpare = true)) :
    acceptCue c f r a s = s.modChan c (fun x => { x with cues := insertCue (cueOf f r a (s.chan c) .notAsked) x.cues }) := by
  have quiet : (if acceptPrepared (s.chan c) (datedOf f r.label) then askForCue c r.tag.toNat a s else (s, .notAsked))
      = (s, .notAsked) := by
    unfold askForCue
    repeat' split
    all_goals simp_all
  unfold acceptCue
  dsimp only
  rw [quiet]
  rfl

theorem acceptCue_hearing (r : CueRec) (a : Action) (e : Entry) :
    acceptCue c f r a (s.hearing e) = (acceptCue c f r a s).hearing e := by
  by_cases h : acceptPrepared (s.chan c) (datedOf f r.label) = true ∧ a.asksSpare = true
  · rw [acceptCue_asks h.1 h.2, acceptCue_asks (s := s.hearing e) h.1 h.2]
    rfl
  · rw [acceptCue_asks_not h, acceptCue_asks_not (s := s.hearing e) h]
    rfl

theorem acceptCue_link (r : CueRec) (a : Action) (s : State) : (acceptCue c f r a s).link = s.link := by
  unfold acceptCue askForCue
  dsimp only
  repeat' split
  all_goals rfl

theorem acceptCue_format (r : CueRec) (a : Action) (s : State) : (acceptCue c f r a s).format = s.format := by
  unfold acceptCue askForCue
  dsimp only
  repeat' split
  all_goals rfl

theorem loadCues_error {r : CueRec} {rs : List CueRec} {n : Nat} {e : ResultCode}
    (h : judgeCue f (s.chan c) r = .error e) : loadCues c f (r :: rs) n s = (s, n, e) := by
  rw [loadCues, h]

theorem loadCues_accepted {r : CueRec} {rs : List CueRec} {n : Nat} {a : Action}
    (h : judgeCue f (s.chan c) r = .ok a) :
    loadCues c f (r :: rs) n s = loadCues c f rs (n + 1) (acceptCue c f r a s) := by
  rw [loadCues, h]

theorem loadCues_hearing (l : List CueRec) (n : Nat) (e : Entry) : loadCues c f l n (s.hearing e) =
    ((loadCues c f l n s).1.hearing e, (loadCues c f l n s).2) := by
  induction l generalizing n s with
  | nil => rfl
  | cons r rs ih =>
    have judged : judgeCue f ((s.hearing e).chan c) r = judgeCue f (s.chan c) r := rfl
    cases h : judgeCue f (s.chan c) r with
    | error code => rw [loadCues_error h, loadCues_error (judged.trans h)]
    | ok a => rw [loadCues_accepted h, loadCues_accepted (judged.trans h), acceptCue_hearing, ih]

theorem loadCues_keeps {α : Type} {g : State → α} (keeps : ∀ r a u, g (acceptCue c f r a u) = g u) (l : List CueRec)
    (n : Nat) : g (loadCues c f l n s).1 = g s := by
  induction l generalizing n s with
  | nil => rfl
  | cons r rs ih =>
    cases h : judgeCue f (s.chan c) r with
    | error code => rw [loadCues_error h]
    | ok a => rw [loadCues_accepted h, ih, keeps]

/-- After a load that accepted all of its records the load goes on from what they left. -/
theorem loadCues_append {l rs : List CueRec} {n : Nat} (h : (loadCues c f l n s).2.2 = .ok) :
    loadCues c f (l ++ rs) n s = loadCues c f rs (n + l.length) (loadCues c f l n s).1 := by
  induction l generalizing n s with
  | nil => rfl
  | cons r l ih =>
    cases judged : judgeCue f (s.chan c) r with
    | error code =>
      rw [loadCues_error judged] at h
      exact absurd (judged.trans (congrArg _ h)) (judgeCue_ne_ok f _ r)
    | ok a =>
      rw [loadCues_accepted judged] at h ⊢
      rw [List.cons_append, loadCues_accepted judged, ih h, List.length_cons]
      congr 1
      omega

theorem exec_cueLoad {ch : Byte} {l : List CueRec} (idle : s.LinkIdle) (hf : s.format = some f)
    (hc : chanIdx c = ch.toNat) : exec (.cueLoad ch l) s = .next ((loadCues c f l 0 s).1.replying (.cueLoad ch l)
      [0xC0, (loadCues c f l 0 s).2.2.value, BitVec.ofNat 8 (loadCues c f l 0 s).2.1]) := by
  refine exec_idle (r := .cueLoad ch l) idle rfl ?_
  show actCueLoad ch l (s.hearing _) = _
  unfold actCueLoad
  rw [show (s.hearing _).format = some f from hf, chanOf_idx hc]
  dsimp only
  rw [loadCues_hearing]
  rfl

theorem replying_congr {t u : State} {r r' : Request} {p p' : List Byte} (h : t.replying r p = u.replying r p) :
    t.replying r' p' = u.replying r' p' := congrArg (a₁ := t.replying r p) (a₂ := u.replying r p) (fun x => x.replying r' p') h

theorem eq_of_replying {t u : State} {r : Request} {p q : List Byte} (h : t.replying r p = u.replying r q)
    (slot : t.link.slot1 = u.link.slot1) : t = u ∧ p = q := by
  have same := congrArg (fun x => ({ x with link := { x.link with slot1 := u.link.slot1 } } : State)) h
  have replies : Slot.answering (.request r) 0 p = .answering (.request r) 0 q := congrArg (fun x => x.link.slot1) h
  refine ⟨?_, (Slot.answering.inj replies).2.2⟩
  calc t = { t with link := { t.link with slot1 := t.link.slot1 } } := rfl
    _ = { t with link := { t.link with slot1 := u.link.slot1 } } := by rw [slot]
    _ = u := same

theorem acceptPrepared_iff (ch : Channel) (d : Dated) : acceptPrepared ch d = true ↔
    ch.pendingMode.getD ch.mode = .auto ∧ ch.track ≠ .lost ∧ d.next = false ∧ d.label ≤ ch.label + 2 := by
  show _ ↔ ch.nextMode = .auto ∧ _
  simp [acceptPrepared, and_assoc]

theorem acceptLostLate_iff (ch : Channel) (d : Dated) : acceptLostLate ch d = true ↔
    ch.track = .lost ∧ d.next = false ∧ d.label ≤ ch.label := by
  simp [acceptLostLate, and_assoc]

theorem acceptCue_eq (c : Chan) (f : Format) (r : CueRec) (a : Action) (s : State) :
    ∃ (claim : SpareAns) (sp : Spare), acceptCue c f r a s = { s.modChan c (fun x => { x with
        cues := insertCue (cueOf f r a (s.chan c) claim) x.cues }) with spare := sp } ∧
      (acceptPrepared (s.chan c) (datedOf f r.label) = true → a.asksSpare = true →
        (sp, claim) = s.spare.request c (.cue r.tag.toNat)) ∧
      (¬(acceptPrepared (s.chan c) (datedOf f r.label) = true ∧ a.asksSpare = true) →
        sp = s.spare ∧ claim = .notAsked) := by
  by_cases h : acceptPrepared (s.chan c) (datedOf f r.label) = true ∧ a.asksSpare = true
  · exact ⟨_, _, acceptCue_asks h.1 h.2, fun _ _ => rfl, fun quiet => absurd h quiet⟩
  · exact ⟨.notAsked, s.spare, acceptCue_asks_not h, fun prep asks => absurd ⟨prep, asks⟩ h, fun _ => ⟨rfl, rfl⟩⟩

/-- Settles O28: refusals, one record, and the load record by record. -/
theorem cueLoadAcceptsOrRefuses : Obligations.CueLoadAcceptsOrRefuses := by
  intro s ch r rs idle
  refine ⟨fun unset => ?_, fun f hf => ⟨fun high => ?_, fun c hc => ⟨fun e refused => ?_, fun a ok => ?_,
    fun l u idleU loaded => ?_⟩⟩⟩
  · refine exec_idle (r := .cueLoad ch (r :: rs)) (t := s) (code := .noFormat) idle rfl ?_
    show actCueLoad ch (r :: rs) (s.hearing _) = _
    unfold actCueLoad
    rw [show (s.hearing _).format = none from unset]
    rfl
  · refine exec_idle (r := .cueLoad ch (r :: rs)) (t := s) (code := .badField) idle rfl ?_
    show actCueLoad ch (r :: rs) (s.hearing _) = _
    unfold actCueLoad
    rw [show (s.hearing _).format = some f from hf, chanOf_none high]
    rfl
  · rw [exec_cueLoad idle hf hc, loadCues_error refused]
    rfl
  · obtain ⟨claim, sp, accepted, asks, quiet⟩ := acceptCue_eq c f r a s
    refine ⟨cueOf f r a (s.chan c) claim, sp, ?_, rfl, rfl, rfl, fun x hx => lt_nextSeq hx, acceptPrepared_iff _ _, ?_,
      acceptLostLate_iff _ _, asks, quiet⟩
    · rw [exec_cueLoad idle hf hc, loadCues_accepted ok, accepted]
      rfl
    · simp [cueOf]
  · rw [exec_cueLoad idle hf hc] at loaded
    have slot : (loadCues c f l 0 s).1.link.slot1 = u.link.slot1 := by
      rw [loadCues_keeps (g := State.link) acceptCue_link, idle.slot1, idleU.slot1]
    obtain ⟨left, payload⟩ := eq_of_replying (Host.Outcome.next.inj loaded) slot
    have all : (loadCues c f l 0 s).2.2 = .ok := by
      obtain ⟨-, tail⟩ := List.cons.inj payload
      exact eq_ok_of_value (List.cons.inj tail).1
    refine ⟨fun e refused => ?_, fun a v ok one => ?_⟩
    · rw [exec_cueLoad idle hf hc, loadCues_append all, left, loadCues_error refused, Nat.zero_add]
    · have hfu : u.format = some f := by
        rw [← left, loadCues_keeps (g := State.format) acceptCue_format, hf]
      rw [exec_cueLoad idleU hfu hc, loadCues_accepted ok] at one
      rw [exec_cueLoad idle hf hc, loadCues_append all, left, loadCues_accepted ok, Nat.zero_add]
      exact congrArg _ (replying_congr (Host.Outcome.next.inj one))

end Sys2Proof.Machine
end

section
/-! PROOFS. CH_TAKE (section 10.6): its refusals, the action that joins the waiting list, and the answers of
its last test. -/

namespace Sys2Proof.Machine

variable {s : State} {c : Chan} {f : Format}

/-! ### CH_TAKE judged (R184) -/

theorem actChTake_eq {ch : Byte} {part : List Byte} (hf : s.format = some f) (hc : chanIdx c = ch.toNat) :
    actChTake ch part s = judgeTake f c part s := by
  rw [actChTake, hf]
  exact withChan_of_idx hc _ _

theorem judgeTake_bypass {part : List Byte} (h : (s.chan c).nextMode = .bypass) :
    judgeTake f c part s = refuse .wrongMode s := if_pos h

theorem judgeTake_part {part : List Byte} {e : ResultCode} (ne : (s.chan c).nextMode ≠ .bypass)
    (h : actionOf f part = .error e) : judgeTake f c part s = refuse e s := by
  rw [judgeTake, if_neg ne, h]

theorem judgeTake_refused {part : List Byte} {a : Action} {e : ResultCode} (ne : (s.chan c).nextMode ≠ .bypass)
    (h : actionOf f part = .ok a) (refused : takeRefusal c a s = some e) : judgeTake f c part s = refuse e s := by
  rw [judgeTake, if_neg ne, h]
  dsimp only
  rw [refused]

theorem judgeTake_joins {part : List Byte} {a : Action} (ne : (s.chan c).nextMode ≠ .bypass)
    (h : actionOf f part = .ok a) (passes : takeRefusal c a s = none) :
    judgeTake f c part s = joinWaiting f c part a s := by
  rw [judgeTake, if_neg ne, h]
  dsimp only
  rw [passes]

/-- The answer about the spare, and what becomes of the spare. -/
def takeClaim (c : Chan) (id : Nat) (a : Action) (sp : Spare) : Spare × SpareAns :=
  if a.asksSpare then sp.request c (.take id) else (sp, .notAsked)

theorem askForTake_eq (id : Nat) (a : Action) : askForTake c id a s =
    ({ s with spare := (takeClaim c id a s.spare).1 }, (takeClaim c id a s.spare).2) := by
  unfold askForTake takeClaim
  split <;> rfl

theorem joinWaiting_eq (part : List Byte) (a : Action) : joinWaiting f c part a s =
    ({ s.modChan c (fun x => { x with waiting := x.waiting ++ [⟨(s.chan c).waiting.length, a,
          (takeClaim c (s.chan c).waiting.length a s.spare).2⟩] }) with
        spare := (takeClaim c (s.chan c).waiting.length a s.spare).1 },
      okOr (takeClamped f c part a s),
      [BitVec.ofNat 8 (takeClaim c (s.chan c).waiting.length a s.spare).2.code,
       BitVec.ofNat 8 ((s.chan c).waiting.length + 1), BitVec.ofNat 8 (s.chan c).stack.length]) := by
  rw [joinWaiting]
  dsimp only
  rw [askForTake_eq]
  rfl

theorem okOr_value (b : Bool) : (okOr b).value = if b then 0x01 else 0x00 := by
  cases b <;> rfl

/-- Settles O24: CH_TAKE refused, or its action joining the list. -/
theorem channelTakeJudged : Obligations.ChannelTakeJudged := by
  intro s ch part idle
  have refused {code : ResultCode} (h : actChTake ch part (s.hearing (.request (.chTake ch part)))
      = refuse code (s.hearing (.request (.chTake ch part)))) :
      exec (.chTake ch part) s = .next (s.replying (.chTake ch part) [0xA5, code.value]) :=
    exec_idle_refused (r := .chTake ch part) idle rfl h
  refine ⟨fun unset => refused (code := .noFormat) ?_, fun f hf => ⟨fun high => refused (code := .badField) ?_,
    fun c hc => ⟨fun bypass => refused (code := .wrongMode) ?_, fun ne => ⟨fun e bad => refused ?_,
      fun a ok => ⟨fun e fails => refused ?_, fun passes => ?_⟩⟩⟩⟩⟩
  · rw [actChTake, show (s.hearing _).format = none from unset]
  · rw [actChTake, show (s.hearing _).format = some f from hf]
    exact withChan_of_gt high _ _
  · rw [actChTake_eq (s := s.hearing _) hf hc]
    exact judgeTake_bypass bypass
  · rw [actChTake_eq (s := s.hearing _) hf hc]
    exact judgeTake_part ne bad
  · rw [actChTake_eq (s := s.hearing _) hf hc]
    exact judgeTake_refused ne ok fails
  · have joined : actChTake ch part (s.hearing (.request (.chTake ch part))) = _ :=
      (actChTake_eq (s := s.hearing _) hf hc).trans ((judgeTake_joins (s := s.hearing _) ne ok passes).trans (joinWaiting_eq part a))
    refine ⟨(okOr (takeClamped f c part a s)).value, (takeClaim c (s.chan c).waiting.length a s.spare).2,
      (takeClaim c (s.chan c).waiting.length a s.spare).1, ?_, okOr_value _, fun quiet => ?_, fun asks => ?_⟩
    · rw [exec_idle_of_act (r := .chTake ch part) idle rfl joined]
      rfl
    · rw [takeClaim, quiet]
      exact ⟨rfl, rfl⟩
    · rw [takeClaim, asks]
      rfl

/-! ### The last test (R118, R120, R121, R184) -/

theorem takeRefusal_of_none {a : Action} (h : (applyAction c a .notAsked s).2 = none) : takeRefusal c a s = none := by
  rw [takeRefusal, h]

theorem takeRefusal_of_some {a : Action} {e : Reason} (h : (applyAction c a .notAsked s).2 = some e)
    (ne : e ≠ .emptyStack) : takeRefusal c a s = some e.result := by
  rw [takeRefusal, h]
  cases e <;> first | rfl | exact absurd rfl ne

theorem showFromHidden_reason (p : Port) (n : Nat) : (showFromHidden c p n s).2 = checkTake c p s := by
  unfold showFromHidden
  split
  · next h => exact h.symm
  · next h =>
    rw [h]
    dsimp only
    split <;> rfl

theorem showAgain_reason (p : Port) (n : Nat) : (showAgain c p n s).2 = checkTake c p s := by
  unfold showAgain
  split
  · next h => exact h.symm
  · next h =>
    rw [h]
    dsimp only
    split <;> rfl

theorem handOverFrom_reason (p : Port) (n : Nat) (claim : SpareAns) :
    (handOverFrom c p n claim s).2 = checkTake c p s := by
  unfold handOverFrom
  split <;> simp [*]

theorem handOverInCrossfade_reason (p : Port) (n : Nat) (claim : SpareAns) :
    (handOverInCrossfade c p n claim s).2 = checkTake c p s := by
  unfold handOverInCrossfade
  split
  · next h => exact h.symm
  · next h =>
    rw [h]
    dsimp only
    split <;> rfl

theorem handOverForcedOut_reason (p : Port) : (handOverForcedOut c p s).2 = checkTake c p s := by
  unfold handOverForcedOut
  split
  · next h => exact h.symm
  · next h _ => exact h.symm
  · next h _ =>
    rw [h]
    dsimp only
    split <;> rfl

theorem doShow_current {o : OnAir} (hcur : (s.chan c).cur = some o) (h : (s.chan c).inset = .fadingIn ∨
      (s.chan c).inset = .shown ∨ (s.chan c).inset = .crossfade ∨ (s.chan c).inset = .forcedOut) (p : Port) (n : Nat) :
    doShow c (some p) n s = (s, if o.src = p then none else some .wrongState) := by
  unfold doShow
  rcases h with h | h | h | h <;> simp [h, hcur]

theorem doShow_held (h : (s.chan c).inset = .held) (p : Port) (n : Nat) :
    doShow c (some p) n s = (s, some .wrongState) := by
  unfold doShow
  simp [h]

theorem doShow_fadingOut {o : OnAir} (hcur : (s.chan c).cur = some o) (h : (s.chan c).inset = .fadingOut) (p : Port)
    (n : Nat) : doShow c (some p) n s = if o.src = p then showAgain c p n s else (s, some .wrongState) := by
  unfold doShow
  simp [h, hcur]

theorem doHandover_hidden (h : (s.chan c).inset = .hidden) (p : Port) (n : Nat) (claim : SpareAns) :
    doHandover c p n claim s = showFromHidden c p n s := by
  unfold doHandover
  simp only [h]

/-- HANDOVER to the source that is on air, or in CROSSFADE to the outgoing one, has no effect. -/
theorem doHandover_same {o : OnAir} {p : Port} (hcur : (s.chan c).cur = some o) (visible : (s.chan c).inset ≠ .hidden)
    (h : o.src = p ∨ (s.chan c).inset = .crossfade ∧ ∃ u, (s.chan c).out = some u ∧ u.src = p) (n : Nat)
    (claim : SpareAns) : doHandover c p n claim s = (s, none) := by
  unfold doHandover
  rcases h with same | ⟨crossfade, u, hout, same⟩
  · cases inset : (s.chan c).inset <;> simp_all
  · simp [crossfade, hout, same]

/-- HANDOVER to another source asks for it. -/
theorem doHandover_reason {o : OnAir} {p : Port} (hcur : (s.chan c).cur = some o) (ne : o.src ≠ p)
    (out : (s.chan c).inset = .crossfade → ∀ u, (s.chan c).out = some u → u.src ≠ p) (n : Nat) (claim : SpareAns) :
    (doHandover c p n claim s).2 = checkTake c p s := by
  have notCur : decide ((s.chan c).cur.map OnAir.src = some p) = false := by simp [hcur, ne]
  unfold doHandover
  rw [notCur]
  dsimp only
  split
  · exact showFromHidden_reason p n
  · exact handOverFrom_reason p n claim
  · exact handOverFrom_reason p n claim
  · exact handOverFrom_reason p n claim
  · exact handOverFrom_reason p n claim
  · next inset =>
    have notOut : decide ((s.chan c).out.map OnAir.src = some p) = false := by
      simpa using out inset
    rw [notOut]
    exact handOverInCrossfade_reason p n claim
  · exact handOverForcedOut_reason p

theorem takeRefusal_zone (i : Nat) (e : Option Dated) : takeRefusal c (.zone i true e) s =
    if (zoneAt (s.chan c).zones i).defined then none else some .noSuch := by
  by_cases h : (zoneAt (s.chan c).zones i).defined = true
  · rw [if_pos h]
    refine takeRefusal_of_none ?_
    simp [applyAction, doZone, h]
  · rw [if_neg h]
    refine takeRefusal_of_some (e := .noZone) ?_ (by simp)
    simp [applyAction, doZone, h]

theorem takeRefusal_pop (g : Option Nat) : takeRefusal c (.pop g) s = none := by
  have popped : (doPop c g s).2 = none ∨ (doPop c g s).2 = some .emptyStack := by
    unfold doPop
    split
    · exact .inr rfl
    · exact .inl rfl
  rcases popped with h | h
  · exact takeRefusal_of_none h
  · rw [takeRefusal, show (applyAction c (.pop g) .notAsked s).2 = _ from h]

theorem checkTake_ready {p : Port} (h : (s.src p).state = .ready) : checkTake c p s = none := by
  rw [checkTake, takeAnswer, h]

theorem checkTake_away {p : Port} (h : (s.src p).state = .absent ∨ (s.src p).state = .detecting ∨
    (s.src p).state = .rejected) : checkTake c p s = some .sourceNotReady := by
  rw [checkTake, takeAnswer]
  rcases h with h | h | h <;> rw [h]

theorem checkTake_releasing {p : Port} (h : (s.src p).state = .releasing) (own : (s.src p).owner = some c) :
    checkTake c p s = none := by
  rw [checkTake, takeAnswer, h]
  exact if_pos own

theorem checkTake_lost {p : Port} (h : (s.src p).state = .lost) (own : (s.src p).owner = some c) :
    checkTake c p s = some .sourceNotReady := by
  rw [checkTake, takeAnswer, h]
  exact if_pos own

theorem checkTake_busy {p : Port} (h : (s.src p).state = .taken ∨ (s.src p).state = .lost ∨
    (s.src p).state = .releasing) (own : (s.src p).owner ≠ some c) : checkTake c p s = some .sourceBusy := by
  rw [checkTake, takeAnswer]
  rcases h with h | h | h <;> rw [h] <;> exact if_neg own

/-! ### When a passed action is answered OK_CLAMPED (R79, R184) -/

theorem countClamped_iff (l : List Byte) (place : (byteAt l 0).toNat ≠ 4) (push : (byteAt l 0).toNat ≠ 5) :
    countClamped l = true ↔
      (byteAt l 0).toNat = 1 ∧ 250 < (byteAt l 3).toNat ∨ (byteAt l 0).toNat = 2 ∧ 250 < (byteAt l 1).toNat ∨
      (byteAt l 0).toNat = 3 ∧ 250 < (byteAt l 2).toNat ∨
      (byteAt l 0).toNat = 6 ∧ (byteAt l 1).toNat = 1 ∧ 250 < (byteAt l 2).toNat := by
  unfold countClamped
  split <;> simp_all

theorem countClamped_block (l : List Byte) (h : (byteAt l 0).toNat = 4 ∨ (byteAt l 0).toNat = 5) :
    countClamped l = true ↔ (byteAt l 13).toNat = 1 ∧ 250 < (byteAt l 14).toNat := by
  unfold countClamped
  rcases h with h | h <;> simp [h]

theorem oddHeight_iff (l : List Byte) :
    oddHeight l = true ↔ (byteAt l 2).toNat = 0 ∧ (byteAt l 4).toNat % 2 = 1 := by
  have parity : (halfAt l 3).toNat % 2 = (byteAt l 4).toNat % 2 := by
    show _ = (byteAt l (3 + 1)).toNat % 2
    rw [halfAt, BitVec.toNat_ofNat]
    omega
  simp [oddHeight, parity]

theorem takeClamped_block {part : List Byte} {a : Action} {b : Block} {g : Option Nat}
    (h : a = .place b g ∨ a = .push b g) (code : (byteAt part 0).toNat = 4 ∨ (byteAt part 0).toNat = 5) :
    takeClamped f c part a s = true ↔
      (byteAt part 13).toNat = 1 ∧ 250 < (byteAt part 14).toNat ∨
      blockClamped f c part b s = true := by
  have : takeClamped f c part a s = (countClamped part || blockClamped f c part b s) := by
    rcases h with rfl | rfl <;> rfl
  rw [this, Bool.or_eq_true, countClamped_block part code]

theorem blockClamped_onAir {part : List Byte} {b : Block} {o : OnAir} (h : (s.chan c).cur = some o) :
    blockClamped f c part b s = true ↔ (byteAt part 2).toNat = 0 ∧ (byteAt part 4).toNat % 2 = 1 ∨
      clampedFor f (cropInForce f s o.src) b = true := by
  rw [blockClamped, h, Bool.or_eq_true, oddHeight_iff]

theorem blockClamped_alone {part : List Byte} {b : Block} (h : (s.chan c).cur = none) :
    blockClamped f c part b s = true ↔ (byteAt part 2).toNat = 0 ∧ (byteAt part 4).toNat % 2 = 1 ∨
      clampedAlone f b = true := by
  rw [blockClamped, h, Bool.or_eq_true, oddHeight_iff]

theorem derivedWidth_mono (cw ch : Nat) {h k : Nat} (le : h ≤ k) : derivedWidth cw ch h ≤ derivedWidth cw ch k :=
  Nat.mul_le_mul_left 2 (Nat.div_le_div_right (Nat.add_le_add_right (Nat.mul_le_mul_right cw le) ch))

theorem requestedHeight_admissible {cw ch : Nat} {b : Block} (low : heightMin ch ≤ blockHeight f b)
    (high : blockHeight f b ≤ heightMax f cw ch) : requestedHeight f cw ch b = blockHeight f b := by
  rw [requestedHeight, clampTo]
  omega

theorem levelHeight_zero {hmin h : Nat} (even : h % 2 = 0) (low : hmin ≤ h) : levelHeight hmin h 0 = h := by
  rw [levelHeight]
  omega

theorem safe_even (f : Format) : f.safe.x % 2 = 0 ∧ f.safe.w % 2 = 0 := by
  cases f <;> decide

/-- Within its limits a coordinate is moved exactly where it stands outside them. -/
theorem freeClamp_eq_iff {lo len size v : Nat} (fitting : size ≤ len) :
    freeClamp lo len size v = v ↔ lo ≤ v ∧ v + size ≤ lo + len := by
  unfold freeClamp
  dsimp only
  split <;> omega

/-- An odd x is moved, or stands outside the limits. -/
theorem freeClamp_even_eq_iff {lo len size v : Nat} (fitting : size ≤ len) (hlo : lo % 2 = 0) (hlen : len % 2 = 0)
    (hsize : size % 2 = 0) :
    freeClamp lo len size (evenFloor v) = v ↔ v % 2 = 0 ∧ lo ≤ v ∧ v + size ≤ lo + len := by
  unfold freeClamp evenFloor
  dsimp only
  split <;> omega

theorem clampedFor_iff {crop : Rect} {b : Block} {h : Nat} (hh : blockHeight f b = h) (even : h % 2 = 0) :
    clampedFor f crop b = true ↔ h < heightMin crop.h ∨ heightMax f crop.w crop.h < h ∨
      b.anchor = .free ∧ (b.fx % 2 = 1 ∨ b.fx < f.safe.x ∨
        f.safe.x + f.safe.w < b.fx + derivedWidth crop.w crop.h h ∨ b.fy < f.safe.y ∨
        f.safe.y + f.safe.h < b.fy + h) := by
  subst hh
  have adm : (!admissible f crop.w crop.h (blockHeight f b)) = true ↔
      blockHeight f b < heightMin crop.h ∨ heightMax f crop.w crop.h < blockHeight f b := by
    rw [Bool.not_eq_true', ← Bool.not_eq_true, admissible_iff]
    omega
  rw [clampedFor, Bool.or_eq_true, adm, or_assoc]
  refine or_congr_right' fun low => or_congr_right' fun high => ?_
  rw [not_lt] at low high
  have width := derivedWidth_mono crop.w crop.h high
  obtain ⟨-, -, hSafe, wSafe, -⟩ := heightMax_greatest f crop.w crop.h
  obtain ⟨xEven, wEven⟩ := safe_even f
  have dEven : derivedWidth crop.w crop.h (blockHeight f b) % 2 = 0 := Nat.mul_mod_right 2 _
  have rect : (candidateAt f crop b 0 true .free).rect =
      ⟨freeClamp f.safe.x f.safe.w (derivedWidth crop.w crop.h (blockHeight f b)) (evenFloor b.fx),
       freeClamp f.safe.y f.safe.h (blockHeight f b) b.fy, derivedWidth crop.w crop.h (blockHeight f b),
       blockHeight f b⟩ := by
    rw [candidateAt]
    dsimp only
    rw [requestedHeight_admissible low high, levelHeight_zero even low]
    rfl
  have hx := freeClamp_even_eq_iff (v := b.fx) (width.trans wSafe) xEven wEven dEven
  have hy := freeClamp_eq_iff (lo := f.safe.y) (v := b.fy) (high.trans hSafe)
  rw [rect]
  simp only [Bool.and_eq_true, Bool.or_eq_true, decide_eq_true_eq, ne_eq, hx, hy]
  refine and_congr_right' ?_
  omega

theorem clampedAlone_iff (b : Block) : clampedAlone f b = true ↔
    b.anchor = .free ∧ (b.fx % 2 = 1 ∨ b.fx < f.safe.x ∨ f.safe.x + f.safe.w ≤ b.fx ∨
      b.fy < f.safe.y ∨ f.safe.y + f.safe.h ≤ b.fy) := by
  have odd : evenFloor b.fx ≠ b.fx ↔ b.fx % 2 = 1 := by
    unfold evenFloor
    omega
  simp [clampedAlone, odd, or_assoc]

/-- Settles O25: the last test of CH_TAKE, action by action, and OK_CLAMPED. -/
theorem takeRefusalsByAction : Obligations.TakeRefusalsByAction := by
  refine ⟨fun s c => ⟨fun n => rfl, fun n => rfl, fun b g => rfl, fun b g => rfl, takeRefusal_pop, fun p => rfl,
    fun i e => takeRefusal_of_none (a := .zone i false e) (by simp [applyAction, doZone]), takeRefusal_zone,
    fun none n => ?_, fun held p n => ?_, fun hidden p n ready => ?_, fun hidden p n detecting => ?_,
    fun o p n hcur => ⟨fun steady => ?_, fun fading => ⟨fun other => ?_, fun same own => ⟨fun st => ?_, fun st => ?_⟩⟩,
      fun visible => ⟨fun same => ?_, fun ne out => ⟨fun ready => ?_, fun away => ?_, fun busy own => ?_⟩⟩⟩⟩,
    fun s f c part a code hcode => ⟨fun plain place push => ?_, fun b g h block codes hh even => ⟨fun o r hcur hr => ?_,
      fun off => ?_⟩⟩⟩
  · refine takeRefusal_of_some (e := .noHome) ?_ (by simp)
    simp [applyAction, doShow, none]
  · refine takeRefusal_of_some (e := .wrongState) ?_ (by simp)
    rw [applyAction, doShow_held held]
  · refine ⟨takeRefusal_of_none ?_, takeRefusal_of_none ?_⟩
    · rw [applyAction, doShow_hidden hidden, showFromHidden_reason, checkTake_ready ready]
    · rw [applyAction, doHandover_hidden hidden, showFromHidden_reason, checkTake_ready ready]
  · have away := checkTake_away (c := c) (.inr (.inl detecting))
    refine ⟨takeRefusal_of_some (e := .sourceNotReady) ?_ (by simp), takeRefusal_of_some (e := .sourceNotReady) ?_ (by simp)⟩
    · rw [applyAction, doShow_hidden hidden, showFromHidden_reason, away]
    · rw [applyAction, doHandover_hidden hidden, showFromHidden_reason, away]
  · by_cases same : o.src = p
    · rw [if_pos same]
      refine takeRefusal_of_none ?_
      rw [applyAction, doShow_current hcur steady, if_pos same]
    · rw [if_neg same]
      refine takeRefusal_of_some (e := .wrongState) ?_ (by simp)
      rw [applyAction, doShow_current hcur steady, if_neg same]
  · refine takeRefusal_of_some (e := .wrongState) ?_ (by simp)
    rw [applyAction, doShow_fadingOut hcur fading, if_neg other]
  · refine takeRefusal_of_none ?_
    rw [applyAction, doShow_fadingOut hcur fading, if_pos same, showAgain_reason, checkTake_releasing st own]
  · refine takeRefusal_of_some (e := .sourceNotReady) ?_ (by simp)
    rw [applyAction, doShow_fadingOut hcur fading, if_pos same, showAgain_reason, checkTake_lost st own]
  · refine takeRefusal_of_none ?_
    rw [applyAction, doHandover_same hcur visible same]
  · refine takeRefusal_of_none ?_
    rw [applyAction, doHandover_reason hcur ne out, checkTake_ready ready]
  · refine takeRefusal_of_some (e := .sourceNotReady) ?_ (by simp)
    rw [applyAction, doHandover_reason hcur ne out, checkTake_away away]
  · refine takeRefusal_of_some (e := .sourceBusy) ?_ (by simp)
    rw [applyAction, doHandover_reason hcur ne out, checkTake_busy busy own]
  · subst hcode
    have counts : takeClamped f c part a s = countClamped part := by
      cases a <;> first | exact Bool.or_false _ | exact absurd rfl (plain _ _).1 | exact absurd rfl (plain _ _).2
    rw [counts, countClamped_iff part place push]
  · subst hr hcode
    rw [takeClamped_block block codes, blockClamped_onAir hcur, clampedFor_iff hh.symm even]
    rfl
  · subst hcode
    rw [takeClamped_block block codes, blockClamped_alone off, clampedAlone_iff]

end Sys2Proof.Machine
end

section
/-! PROOFS. How an inset leaves the air: sources let go, fade-outs, the action HIDE (section 7.4) and the end of a
fade (section 7.3). -/

namespace Sys2Proof.Machine

variable {s t : State} {c d : Chan} {p q : Port} {f : Format} {o u : OnAir}

/-! ### Sources released and let go (R48, R49) -/

theorem modSrc_congr {g h : Source → Source} (e : g (s.src p) = h (s.src p)) : s.modSrc p g = s.modSrc p h := by
  unfold State.modSrc
  rw [show s.sources.get p = s.src p from rfl, e]

/-- A let-go by the owner changes the state of its source. -/
theorem letGo_of_owned (own : (s.src p).owner = some c)
    (st : (s.src p).state = .taken ∨ (s.src p).state = .releasing ∨ (s.src p).state = .lost) :
    letGo c p s = raiseCard .sourceChange (s.modSrc p (fun x => x.letGone c (s.hasSignal p))) := by
  rw [letGo_eq, changeSource_of_ne]
  rcases st with st | st | st
  · simp [letGone_of_taken own (.inl st), st]
  · simp [letGone_of_taken own (.inr st), st]
  · rw [letGone_of_lost own st, st]
    dsimp only
    split <;> simp

/-- A source let go from TAKEN or RELEASING. -/
def Source.freed (x : Source) : Source :=
  { x with state := .ready, owner := none, cropReport := false, ring := { x.ring with inUse := none } }

/-- A source let go from LOST. -/
def Source.dropped (signal : Bool) (x : Source) : Source :=
  { x with
    state := if signal then .detecting else .absent, owner := none, cropReport := false, ring := Ring.empty
    inRun := 0, outRun := 0, goodRun := 0, badRun := 0, rasterMark := false }

theorem letGone_freed {x : Source} {b : Bool} (own : x.owner = some c) (h : x.state = .taken ∨ x.state = .releasing) :
    x.letGone c b = x.freed := letGone_of_taken own h

theorem letGone_dropped {x : Source} {b : Bool} (own : x.owner = some c) (h : x.state = .lost) :
    x.letGone c b = x.dropped b := letGone_of_lost own h

theorem letGo_modChan (g : Channel → Channel) :
    letGo c p (s.modChan d g) = (letGo c p s).modChan d g := by
  rw [letGo_eq, letGo_eq]
  unfold changeSource
  dsimp only
  split <;> (split <;> first | rfl | contradiction)

theorem beginRelease_of_taken (st : (s.src p).state = .taken) (own : (s.src p).owner = some c) :
    beginRelease c p s = raiseCard .sourceChange (s.modSrc p (fun x => { x with state := .releasing })) := by
  rw [beginRelease, if_pos ⟨st, own⟩, changeSource_of_ne]
  rw [st]
  simp

theorem beginRelease_of_not (h : (s.src p).state ≠ .taken ∨ (s.src p).owner ≠ some c) : beginRelease c p s = s :=
  if_neg (by tauto)

@[simp] theorem beginRelease_chan (c d : Chan) (p : Port) (s : State) : (beginRelease c p s).chan d = s.chan d := by
  unfold beginRelease
  split
  · exact changeSource_chan _ _
  · rfl
@[simp] theorem beginRelease_spare (c : Chan) (p : Port) (s : State) : (beginRelease c p s).spare = s.spare := by
  unfold beginRelease
  split
  · exact changeSource_spare _ _
  · rfl

theorem releaseCurrent_of_some (cur : (s.chan c).cur = some o) : releaseCurrent c s = beginRelease c o.src s := by
  rw [releaseCurrent, cur]

theorem dropClaim_modChan (k : Claimant) (g : Channel → Channel) :
    (dropClaim c k s).modChan d g = dropClaim c k (s.modChan d g) := rfl

/-! ### Fading out, and HIDDEN (R112, R116, R119) -/

theorem fadeOut_of_pos {n : Nat} (cur : (s.chan c).cur = some o) (pos : 0 < n) : fadeOut c n s =
    s.modChan c (fun ch => { ch with
      inset := .fadingOut, exitMark := true, paused := none, cur := some { o with fade := some ⟨o.level, 0, n, 0⟩ } }) := by
  rw [fadeOut, if_neg (by omega)]
  refine modChan_congr ?_
  rw [cur, Option.map_some, fadeTo_of_pos o 0 pos]

theorem fadeOut_zero (c : Chan) (s : State) : fadeOut c 0 s = letGoAndHide c s := if_pos rfl

theorem letGoAndHide_of_some (cur : (s.chan c).cur = some o) :
    letGoAndHide c s = (letGo c o.src s).modChan c Channel.hide := by
  rw [letGoAndHide, cur]

theorem doHide_of_onAir {n : Nat} (h : (s.chan c).inset = .fadingIn ∨ (s.chan c).inset = .shown) :
    doHide c n s = fadeOut c n (releaseCurrent c s) := by
  rw [doHide]
  rcases h with h | h <;> rw [h]

theorem doHide_of_fadingOut {n : Nat} (h : (s.chan c).inset = .fadingOut) : doHide c n s = fadeOut c n s := by
  rw [doHide, h]

theorem doHide_of_held {n : Nat} (h : (s.chan c).inset = .held) :
    doHide c n s = fadeOut c n (s.modChan c (fun ch => { ch with holdCount := 0 })) := by
  rw [doHide, h]

theorem doHide_of_crossfade {n : Nat} (h : (s.chan c).inset = .crossfade) :
    doHide c n s = fadeOut c n (releaseCurrent c (endCrossfade c s)) := by
  rw [doHide, h]

theorem doHide_of_forcedOut {n : Nat} (h : (s.chan c).inset = .forcedOut) : doHide c n s = letGoAndHide c s := by
  rw [doHide, h]

/-- What becomes of the current source, let go at once: a begin-release before it makes no difference. -/
theorem doHide_cut {n : Nat} (cur : (s.chan c).cur = some o) (own : (s.src o.src).owner = some c)
    (h : (s.chan c).inset = .forcedOut ∨ (s.chan c).inset ≠ .hidden ∧ (s.chan c).inset ≠ .crossfade ∧ n = 0) :
    ((doHide c n s).chan c = (s.chan c).hide) ∧
      (doHide c n s).src o.src = (s.src o.src).letGone c (s.hasSignal o.src) := by
  have left (w : State) (chan : w.chan c = s.chan c)
      (src : (w.src o.src).letGone c (w.hasSignal o.src) = (s.src o.src).letGone c (s.hasSignal o.src)) :
      ((letGoAndHide c w).chan c = (s.chan c).hide) ∧
        (letGoAndHide c w).src o.src = (s.src o.src).letGone c (s.hasSignal o.src) := by
    rw [letGoAndHide_of_some (by rw [chan]; exact cur), modChan_chan_same, letGo_chan, modChan_src, letGo_src_same, src,
      chan]
    exact ⟨rfl, rfl⟩
  have released : ((letGoAndHide c (releaseCurrent c s)).chan c = (s.chan c).hide) ∧
      (letGoAndHide c (releaseCurrent c s)).src o.src = (s.src o.src).letGone c (s.hasSignal o.src) := by
    rw [releaseCurrent_of_some cur]
    by_cases st : (s.src o.src).state = .taken
    · refine left _ (beginRelease_chan c c _ s) ?_
      have src : (beginRelease c o.src s).src o.src = { s.src o.src with state := .releasing } := by
        rw [beginRelease_of_taken st own, raiseCard_src, modSrc_src_same]
      rw [src, letGone_of_taken (x := { s.src o.src with state := .releasing }) own (.inr rfl),
        letGone_of_taken own (.inl st)]
    · rw [beginRelease_of_not (.inl st)]
      exact left s rfl rfl
  rcases h with h | ⟨visible, whole, rfl⟩
  · rw [doHide_of_forcedOut h]
    exact left s rfl rfl
  · cases inset : (s.chan c).inset with
    | hidden => exact absurd inset visible
    | crossfade => exact absurd inset whole
    | fadingIn => rwa [doHide_of_onAir (.inl inset), fadeOut_zero]
    | shown => rwa [doHide_of_onAir (.inr inset), fadeOut_zero]
    | fadingOut =>
      rw [doHide_of_fadingOut inset, fadeOut_zero]
      exact left s rfl rfl
    | held =>
      rw [doHide_of_held inset, fadeOut_zero, letGoAndHide_of_some (by rw [modChan_chan_same]; exact cur), letGo_modChan,
        modChan_modChan, modChan_chan_same, letGo_chan, modChan_src, letGo_src_same]
      exact ⟨rfl, rfl⟩
    | forcedOut =>
      rw [doHide_of_forcedOut inset]
      exact left s rfl rfl

/-- Settles O51: HIDE by inset state. -/
theorem hideActsByInset : Obligations.HideActsByInset := by
  rintro s t c o n rfl
  refine ⟨fun hidden => ?_, fun cur own => ⟨fun steady taken pos => ?_, fun fading pos => ?_, fun held pos => ?_,
    fun u crossfade out ne ownU stU taken => ?_, fun ends => ?_⟩⟩
  · rw [doHide, hidden]
  · rw [doHide_of_onAir steady, releaseCurrent_of_some cur, beginRelease_of_taken taken own]
    exact fadeOut_of_pos (s := raiseCard _ _) cur pos
  · rw [doHide_of_fadingOut fading, fadeOut_of_pos cur pos]
    exact modChan_congr (by rw [← fading])
  · rw [doHide_of_held held, fadeOut_of_pos (o := o) (by rw [modChan_chan_same]; exact cur) pos, modChan_modChan]
  · have srcU : (endCrossfade c s).src u.src = (s.src u.src).letGone c (s.hasSignal u.src) := by
      rw [endCrossfade_src out, letGo_src_same]
    have srcO : (endCrossfade c s).src o.src = s.src o.src := by
      rw [endCrossfade_src out, letGo_src_ne c ne.symm]
    have chanV : (releaseCurrent c (endCrossfade c s)).chan c = { s.chan c with out := none, outRect := none } := by
      rw [releaseCurrent_of_some (by rw [endCrossfade_chan]; exact cur), beginRelease_chan, endCrossfade_chan]
    have srcV (q : Port) : (releaseCurrent c (endCrossfade c s)).src q =
        if q = o.src then { s.src o.src with state := .releasing } else (endCrossfade c s).src q := by
      rw [releaseCurrent_of_some (by rw [endCrossfade_chan]; exact cur),
        beginRelease_of_taken (by rw [srcO]; exact taken) (by rw [srcO]; exact own), raiseCard_src, modSrc_src, srcO]
    have spareV : (releaseCurrent c (endCrossfade c s)).spare = s.spare.leave c .crossfade := by
      rw [releaseCurrent_of_some (by rw [endCrossfade_chan]; exact cur), beginRelease_spare, endCrossfade_spare]
    have curV : ((releaseCurrent c (endCrossfade c s)).chan c).cur = some o := by rw [chanV]; exact cur
    have srcT : (doHide c n s).src u.src = (s.src u.src).letGone c (s.hasSignal u.src) := by
      rw [doHide_of_crossfade crossfade]
      rcases Nat.eq_zero_or_pos n with rfl | pos
      · rw [fadeOut_zero, letGoAndHide_of_some curV, modChan_src, letGo_src_ne c ne, srcV, if_neg ne, srcU]
      · rw [fadeOut_of_pos curV pos, modChan_src, srcV, if_neg ne, srcU]
    refine ⟨fun st => ?_, fun st => ?_, ?_, fun pos => ?_, fun zero => ?_⟩
    · rw [srcT, letGone_of_taken ownU (.inr st)]
    · rw [srcT, letGone_of_lost ownU st]
    · rw [doHide_of_crossfade crossfade]
      rcases Nat.eq_zero_or_pos n with rfl | pos
      · rw [fadeOut_zero, letGoAndHide_of_some curV, modChan_spare, letGo_spare, spareV]
      · rw [fadeOut_of_pos curV pos, modChan_spare, spareV]
    · rw [doHide_of_crossfade crossfade, fadeOut_of_pos curV pos, modChan_src, srcV, if_pos rfl, modChan_chan_same, chanV]
      exact ⟨rfl, rfl⟩
    · have gone : ((s.src o.src).state = .taken ∨ (s.src o.src).state = .releasing) := .inl taken
      subst zero
      rw [doHide_of_crossfade crossfade, fadeOut_zero, letGoAndHide_of_some curV, modChan_src, letGo_src_same,
        modChan_chan_same, letGo_chan, srcV, if_pos rfl, letGone_of_taken (by exact own) (.inr rfl), chanV]
      exact ⟨rfl, rfl, rfl⟩
  · obtain ⟨chan, src⟩ := doHide_cut cur own ends
    refine ⟨chan, fun st => ?_, fun st => ?_⟩
    · rw [src, letGone_of_taken own st]
    · rw [src, letGone_of_lost own st]
      exact ⟨rfl, rfl, rfl⟩

/-! ### The end of a fade (R114, R116, R125) -/

theorem fadeEndsNext_of {fd : Fade} (held : (s.chan c).inset ≠ .held) (cur : (s.chan c).cur = some o)
    (fade : o.fade = some fd) (last : fd.count ≤ fd.step + 1) : fadeEndsNext (s.chan c) = true := by
  simp [fadeEndsNext, held, cur, fade, last]

/-- A channel whose current fade takes its last step. -/
def Channel.fadeEnded (o : OnAir) (target : Nat) (ch : Channel) : Channel :=
  { ch with cur := some { o with level := target, fade := none }, out := ch.out.map OnAir.stepFade }

theorem stepFades_ends {fd : Fade} (held : (s.chan c).inset ≠ .held) (cur : (s.chan c).cur = some o)
    (fade : o.fade = some fd) (last : fd.count ≤ fd.step + 1) :
    stepFades c s = settleFade c (s.modChan c (Channel.fadeEnded o fd.target)) := by
  have runs : fadeRuns (s.chan c) = true := by simp [fadeRuns, held, cur, fade]
  have step : o.stepFade = { o with level := fd.target, fade := none } := by
    rw [OnAir.stepFade, fade]
    exact if_pos last
  have stepped : s.modChan c (fun ch => { ch with cur := ch.cur.map OnAir.stepFade, out := ch.out.map OnAir.stepFade })
      = s.modChan c (Channel.fadeEnded o fd.target) :=
    modChan_congr (by rw [cur, Option.map_some, step]; rfl)
  have ended : fadeRuns ((s.modChan c (Channel.fadeEnded o fd.target)).chan c) = false := by
    rw [modChan_chan_same]
    simp [fadeRuns, Channel.fadeEnded]
  rw [stepFades, if_pos runs]
  dsimp only
  rw [stepped, ended]
  rfl

theorem exec_fadeEnd {fd : Fade} (running : s.running = true) (hf : s.format = some f)
    (held : (s.chan c).inset ≠ .held) (cur : (s.chan c).cur = some o) (fade : o.fade = some fd)
    (last : fd.count ≤ fd.step + 1) :
    exec (.fadeEnd c) s = .next (settleFade c (s.modChan c (Channel.fadeEnded o fd.target))) := by
  show Host.Outcome.next (fadeEndEvent c s) = _
  rw [fadeEndEvent, whenRunning_of running hf, if_pos (fadeEndsNext_of held cur fade last),
    stepFades_ends held cur fade last]

/-- A fade that ends in HIDDEN: the source goes, and the inset is HIDDEN. -/
theorem letGoAndHide_fadeEnded (own : (s.src o.src).owner = some c) (st : (s.src o.src).state = .taken ∨
      (s.src o.src).state = .releasing ∨ (s.src o.src).state = .lost) (level : Nat) :
    letGoAndHide c (s.modChan c (Channel.fadeEnded o level)) =
      raiseCard .sourceChange ((s.modSrc o.src (fun x => x.letGone c (s.hasSignal o.src))).modChan c Channel.hide) := by
  rw [letGoAndHide_of_some (by rw [modChan_chan_same]; rfl), letGo_modChan, modChan_modChan]
  dsimp only
  rw [letGo_of_owned own st]
  rfl

theorem settleFade_of_fadingIn (h : (s.chan c).inset = .fadingIn) :
    settleFade c s = s.modChan c (fun ch => { ch with inset := .shown }) := by
  rw [settleFade, h]

theorem settleFade_of_fadingOut (h : (s.chan c).inset = .fadingOut) : settleFade c s = letGoAndHide c s := by
  rw [settleFade, h]

theorem settleFade_of_crossfade (h : (s.chan c).inset = .crossfade) :
    settleFade c s = (endCrossfade c s).modChan c (fun ch => { ch with inset := .shown }) := by
  rw [settleFade, h]

theorem settleFade_of_forcedOut (h : (s.chan c).inset = .forcedOut) : settleFade c s = endForcedFade c s := by
  rw [settleFade, h]

theorem currentIs_of_some {st : SrcState} (cur : (s.chan c).cur = some o) :
    currentIs c st s = decide ((s.src o.src).state = st) := by
  rw [currentIs, cur]

/-- The fade's end in FADING_OUT, and in FORCED_OUT with the exit mark or a LOST source. -/
theorem settleFade_hides (level : Nat) (h : (s.chan c).inset = .fadingOut ∨
      (s.chan c).inset = .forcedOut ∧ ((s.chan c).exitMark = true ∨ (s.src o.src).state = .lost)) :
    settleFade c (s.modChan c (Channel.fadeEnded o level)) = letGoAndHide c (s.modChan c (Channel.fadeEnded o level)) := by
  rcases h with h | ⟨h, goes⟩
  · exact settleFade_of_fadingOut (by rw [modChan_chan_same]; exact h)
  · rw [settleFade_of_forcedOut (by rw [modChan_chan_same]; exact h), endForcedFade, if_pos]
    rw [currentIs_of_some (o := { o with level := level, fade := none }) (by rw [modChan_chan_same]; rfl),
      modChan_chan_same, modChan_src]
    simpa [Channel.fadeEnded] using goes

theorem settleFade_stays (level : Nat) (h : (s.chan c).inset = .forcedOut) (exit : (s.chan c).exitMark = false)
    (st : (s.src o.src).state ≠ .lost) :
    settleFade c (s.modChan c (Channel.fadeEnded o level)) = s.modChan c (Channel.fadeEnded o level) := by
  rw [settleFade_of_forcedOut (by rw [modChan_chan_same]; exact h), endForcedFade, if_neg]
  rw [currentIs_of_some (o := { o with level := level, fade := none }) (by rw [modChan_chan_same]; rfl),
    modChan_chan_same, modChan_src]
  simp [Channel.fadeEnded, exit, st]

/-- Settles O44: the end of a fade by inset state. -/
theorem fadeEndsByInset : Obligations.FadeEndsByInset := by
  intro s f c o fd running hf cur fade last
  have row (held : (s.chan c).inset ≠ .held) := exec_fadeEnd running hf held cur fade last
  refine ⟨fun inset out => ?_, fun inset own st => ?_, fun inset own st => ?_, fun inset w out own y hy => ?_,
    fun inset out exit st => ?_⟩
  · rw [row (by simp [inset]), settleFade_of_fadingIn (by rw [modChan_chan_same]; exact inset), modChan_modChan]
    refine congrArg _ (modChan_congr ?_)
    simp [Channel.fadeEnded, out]
  · have goes : (s.chan c).inset = .fadingOut ∨ (s.chan c).inset = .forcedOut ∧
        ((s.chan c).exitMark = true ∨ (s.src o.src).state = .lost) := inset.imp_right (And.imp_right .inl)
    rw [row (by rcases inset with h | ⟨h, -⟩ <;> simp [h]), settleFade_hides _ goes,
      letGoAndHide_fadeEnded own (.inr (.inl st)), modSrc_congr (h := Source.freed) (letGone_freed own (.inr st))]
    rfl
  · have goes : (s.chan c).inset = .fadingOut ∨ (s.chan c).inset = .forcedOut ∧
        ((s.chan c).exitMark = true ∨ (s.src o.src).state = .lost) := inset.imp_right fun h => ⟨h, .inr st⟩
    rw [row (by rcases inset with h | h <;> simp [h]), settleFade_hides _ goes,
      letGoAndHide_fadeEnded own (.inr (.inr st)), modSrc_congr (h := Source.dropped (s.hasSignal o.src)) (letGone_dropped own st)]
    rfl
  · have gone : (s.src w.src).letGone c (s.hasSignal w.src) = y := by
      rcases hy with ⟨st, rfl⟩ | ⟨st, rfl⟩
      · exact letGone_of_taken own (.inr st)
      · exact letGone_of_lost own st
    have st : (s.src w.src).state = .taken ∨ (s.src w.src).state = .releasing ∨ (s.src w.src).state = .lost :=
      .inr (hy.imp And.left And.left)
    have src : w.stepFade.src = w.src := by
      unfold OnAir.stepFade
      split
      · rfl
      · dsimp only
        split <;> rfl
    rw [row (by simp [inset]), settleFade_of_crossfade (by rw [modChan_chan_same]; exact inset),
      endCrossfade_of_some (u := w.stepFade) (by rw [modChan_chan_same]; simp [Channel.fadeEnded, out]), src,
      letGo_modChan, letGo_of_owned own st, modSrc_congr (h := fun _ => y) gone, modChan_modChan, dropClaim_modChan, modChan_modChan]
    rfl
  · rw [row (by simp [inset]), settleFade_stays _ inset exit (by simp [st])]
    refine congrArg _ (modChan_congr ?_)
    simp [Channel.fadeEnded, out]

end Sys2Proof.Machine
end

section
/-! PROOFS. Four parts of a frame start as rows of their own: the flywheel, the due expiries, a glide's end and a
hold's expiry (sections 2.2, 5.7, 6.3 and 7.6). -/

namespace Sys2Proof.Machine

variable {s t : State} {c d : Chan} {p q : Port} {f : Format} {o u : OnAir}

/-! ### Due expiries (R101, R102) -/

/-- A zone after the check at an output label. -/
def Zone.checkedAt (n : Nat) (z : Zone) : Zone := if z.dueBy (fun l => decide (l ≤ n)) then z.expire else z

theorem checkedAt_of_none {z : Zone} (n : Nat) (h : z.expiry = none) : z.checkedAt n = z := by
  simp [Zone.checkedAt, Zone.dueBy, h]

theorem checkedAt_of_some {z : Zone} (n : Nat) {e : Dated} (h : z.expiry = some e) : z.checkedAt n =
    if e.next = false ∧ e.label ≤ n then { z with active := false, expiry := none } else z := by
  simp [Zone.checkedAt, Zone.dueBy, Zone.expire, h]

theorem exec_zoneExpiry (running : s.running = true) (hf : s.format = some f) (track : (s.chan c).track ≠ .lost) :
    exec (.zoneExpiry c) s
      = .next (changeZones c ((s.chan c).zones.map (Zone.checkedAt (s.chan c).label)) s).1 := by
  show Host.Outcome.next (zoneExpiryEvent c s) = _
  rw [zoneExpiryEvent, whenRunning_of running hf, if_neg track]
  rfl

theorem changeZones_same {l : List Zone} (h : activeView l = activeView (s.chan c).zones) :
    changeZones c l s = (s.modChan c (fun x => { x with zones := l }), none) := if_pos h

theorem changeZones_changed {l : List Zone} (h : activeView l ≠ activeView (s.chan c).zones) :
    changeZones c l s = resolveVisible c (s.chan c).defaultGlide (s.modChan c (fun x => { x with zones := l })) := by
  refine (if_neg h).trans ?_
  rw [modChan_chan_same]

theorem changeZones_hidden {l : List Zone} (h : (s.chan c).inset = .hidden) :
    (changeZones c l s).1 = s.modChan c (fun x => { x with zones := l }) := by
  by_cases same : activeView l = activeView (s.chan c).zones
  · rw [changeZones_same same]
  · rw [changeZones_changed same, resolveVisible_hidden (by rw [modChan_chan_same]; exact h)]

theorem changeZones_zones (c : Chan) (l : List Zone) (s : State) : ((changeZones c l s).1.chan c).zones = l :=
  congrArg (fun v => v.2.2.1) (changeZones_asked (c := c) (s := s) l)

/-! ### The end of a glide, and the expiry of a hold (R91, R127, R129) -/

theorem raiseChan_modChan (k : ChanKind) (g : Channel → Channel) :
    (raiseChan c k s).modChan d g = raiseChan c k (s.modChan d g) := rfl

theorem shownRect_eq {v : Shown} (hf : s.format = some f) (shown : (s.chan c).shown = some v) : shownRect c s =
    (s.chan c).cur.map (fun o => ⟨v.x, v.y,
      derivedWidth (cropRect f (s.src o.src).cropForce).w (cropRect f (s.src o.src).cropForce).h v.h, v.h⟩) := by
  rw [shownRect, hf, shown]
  cases (s.chan c).cur <;> rfl

theorem exec_glideEnd {g : Glide} (running : s.running = true) (hf : s.format = some f)
    (glide : (s.chan c).glide = some g) (last : g.count ≤ g.step + 1) :
    exec (.glideEnd c) s = .next (display c (s.modChan c (fun x => { x with shown := some g.target, glide := none }))) := by
  have ends : glideEndsNext (s.chan c) = true := by simp [glideEndsNext, glide, last]
  have stepped : s.modChan c Channel.stepGlide = s.modChan c (fun x => { x with shown := some g.target, glide := none }) :=
    modChan_congr (by rw [Channel.stepGlide, glide]; exact if_pos last)
  show Host.Outcome.next (glideEndEvent c s) = _
  rw [glideEndEvent, whenRunning_of running hf, if_pos ends, stepped]

/-- The first step of the fade of an expired hold. -/
theorem expired_stepFade (o : OnAir) : (o.fadeTo 0 12).stepFade =
    { o with level := o.level - o.level / 12, fade := some ⟨o.level, 0, 12, 1⟩ } := by
  have level : moveBetween o.level 0 1 12 = o.level - o.level / 12 := by
    unfold moveBetween
    split <;> omega
  rw [fadeTo_of_pos o 0 (by decide : 0 < 12)]
  show ({ o with level := moveBetween o.level 0 1 12, fade := _ } : OnAir) = _
  rw [level]

theorem stepFades_expireHold (cur : (s.chan c).cur = some o) (out : (s.chan c).out = none) :
    stepFades c (expireHold c s) = raiseChan c .holdExpired (s.modChan c (fun x => { x with
      inset := .fadingOut, paused := none, exitMark := true
      cur := some { o with level := o.level - o.level / 12, fade := some ⟨o.level, 0, 12, 1⟩ } })) := by
  have runs : fadeRuns ((expireHold c s).chan c) = true := by
    rw [expireHold, raiseChan_chan, modChan_chan_same]
    simp [fadeRuns, cur, fadeTo_of_pos]
  have stepped : (expireHold c s).modChan c (fun ch => { ch with
      cur := ch.cur.map OnAir.stepFade, out := ch.out.map OnAir.stepFade }) =
      raiseChan c .holdExpired (s.modChan c (fun x => { x with
        inset := .fadingOut, paused := none, exitMark := true
        cur := some { o with level := o.level - o.level / 12, fade := some ⟨o.level, 0, 12, 1⟩ } })) := by
    rw [expireHold, raiseChan_modChan, modChan_modChan]
    refine congrArg (raiseChan c .holdExpired) (modChan_congr ?_)
    simp [cur, out, expired_stepFade]
  rw [stepFades, if_pos runs]
  dsimp only
  rw [stepped]
  refine if_pos ?_
  rw [raiseChan_chan, modChan_chan_same]
  rfl

theorem exec_holdExpired (running : s.running = true) (hf : s.format = some f) (held : (s.chan c).inset = .held)
    (due : (s.chan c).holdTime ≤ (s.chan c).holdCount + 1) :
    exec (.holdExpired c) s
      = .next (stepFades c (expireHold c (s.modChan c (fun x => { x with holdCount := x.holdCount + 1 })))) := by
  show Host.Outcome.next (holdExpiredEvent c s) = _
  rw [holdExpiredEvent, whenRunning_of running hf, if_pos ⟨held, due⟩, stepHold, if_pos held]
  refine congrArg _ (if_pos ?_)
  rw [modChan_chan_same]
  exact due

theorem exec_tcLost (running : s.running = true) (hf : s.format = some f) (track : (s.chan c).track = .flywheel)
    (run : f.rate ≤ (s.chan c).flywheel + 1) (none : (s.chan c).sel.validWord = none) :
    exec (.tcLost c) s = .next (trackerStep f c s).1 := by
  show Host.Outcome.next (tcLostEvent c s) = _
  rw [tcLostEvent, whenRunning_of running hf, if_pos ⟨track, run, none⟩]

/-- Settles O43: the four rows. -/
theorem flywheelExpiryGlideAndHoldRows : Obligations.FlywheelExpiryGlideAndHoldRows := by
  refine ⟨fun s f c n running hf track run none hn => ?_, fun s f c running hf track => ?_,
    fun s f c running hf => ⟨fun g glide last => ?_, fun o held cur out due => ?_⟩⟩
  · subst hn
    rw [exec_tcLost running hf track run none, trackerStep_lost none track run]
    rfl
  · have row := exec_zoneExpiry running hf track
    have checked {l : List Zone} (h : l = (s.chan c).zones.map (Zone.checkedAt (s.chan c).label)) :
        exec (.zoneExpiry c) s = .next (changeZones c l s).1 := by rw [h, row]
    refine ⟨fun l hl => ?_, ⟨_, row, ?_⟩, fun hidden => ?_⟩
    · replace hl : l = (s.chan c).zones.map (Zone.checkedAt (s.chan c).label) := by
        refine hl.trans (List.map_congr_left fun z _ => ?_)
        split
        next e he => exact (checkedAt_of_some _ he).symm
        next he => exact (checkedAt_of_none _ he).symm
      rw [checked hl]
      exact ⟨fun same => by rw [changeZones_same same], fun changed => by rw [changeZones_changed changed]⟩
    · rw [changeZones_zones]
      refine List.map_congr_left fun z _ => ?_
      split
      next e he => exact checkedAt_of_some _ he
      next he => exact checkedAt_of_none _ he
    · rw [row, changeZones_hidden hidden]
      refine congrArg _ (modChan_congr (congrArg (fun l => ({ s.chan c with zones := l } : Channel))
        (List.map_congr_left fun z _ => ?_)))
      split
      next e he => exact checkedAt_of_some _ he
      next he => exact checkedAt_of_none _ he
  · rw [exec_glideEnd running hf glide last]
    rw [display, shownRect_eq (s := s.modChan c _) (v := g.target) hf (by rw [modChan_chan_same]), modChan_chan_same,
      modChan_modChan]
    rfl
  · rw [exec_holdExpired running hf held due,
      stepFades_expireHold (o := o) (by rw [modChan_chan_same]; exact cur) (by rw [modChan_chan_same]; exact out),
      modChan_modChan]

end Sys2Proof.Machine
end

section
/-! PROOFS. SHOW (section 7.4): the rules of a granted take, of a resolution that is stored for it, and the action by
inset state. -/

namespace Sys2Proof.Machine

variable {s t : State} {c d : Chan} {p q : Port} {f : Format} {o u : OnAir} {res : Resolution}

/-! ### A granted take (R46) -/

@[simp] theorem grantTake_chan (c d : Chan) (p : Port) (s : State) : (grantTake c p s).chan d = s.chan d :=
  changeSource_chan _ _
@[simp] theorem grantTake_format (c : Chan) (p : Port) (s : State) : (grantTake c p s).format = s.format :=
  changeSource_format _ _
@[simp] theorem grantTake_now (c : Chan) (p : Port) (s : State) : (grantTake c p s).now = s.now :=
  changeSource_now _ _
@[simp] theorem grantTake_spare (c : Chan) (p : Port) (s : State) : (grantTake c p s).spare = s.spare :=
  changeSource_spare _ _
@[simp] theorem grantTake_hasChan (c d : Chan) (p : Port) (k : ChanKind) (s : State) :
    (grantTake c p s).notices.raw.hasChan d k = s.notices.raw.hasChan d k := changeSource_hasChan _ _ _ _

theorem grantTake_src_same (c : Chan) (p : Port) (s : State) :
    (grantTake c p s).src p = { s.src p with state := .taken, owner := some c } := by
  rw [grantTake_src, if_pos rfl]

theorem grantTake_src_ne (c : Chan) (h : q ≠ p) (s : State) : (grantTake c p s).src q = s.src q := by
  rw [grantTake_src, if_neg h]

theorem grantTake_cropForce (c : Chan) (p q : Port) (s : State) :
    ((grantTake c p s).src q).cropForce = (s.src q).cropForce := by
  rw [grantTake_src]
  split
  next h => rw [h]
  next => rfl

theorem grantTake_hasSignal (c : Chan) (p q : Port) (s : State) : (grantTake c p s).hasSignal q = s.hasSignal q := by
  refine hasSignal_congr ?_ (grantTake_now c p s) (grantTake_format c p s)
  rw [grantTake_src]
  split
  next h => rw [h]
  next => rfl

theorem grantTake_sourceChange (h : (s.src p).state ≠ .taken) :
    (grantTake c p s).notices.raw.hasCard .sourceChange = true := by
  rw [grantTake, changeSource_of_ne (by exact h.symm), raiseCard_hasCard]
  simp

/-! ### A resolution -/

theorem resolutionFor_congr (crop : (t.src p).cropForce = (s.src p).cropForce)
    (block : (t.chan c).requested = (s.chan c).requested) (zones : (t.chan c).zones = (s.chan c).zones)
    (held : (t.chan c).resolved = (s.chan c).resolved) : resolutionFor f c p t = resolutionFor f c p s := by
  rw [resolutionFor, crop, block, zones, held]
  rfl

/-- A rectangle was found: the inset stands at it with no glide. -/
theorem showDirect_of_some {ch : Channel} {r : Rect} (h : ch.resolved = some r) :
    ch.showDirect = { ch with shown := some ⟨r.x, r.y, r.h⟩, glide := none } := by
  rw [Channel.showDirect, h]

/-- A rectangle that differs from the shown one, with no glide running, starts a glide. -/
theorem glideToResolved_starts {ch : Channel} {r : Rect} {v : Shown} (h : ch.resolved = some r) (shown : ch.shown = some v)
    (still : ch.glide = none) (ne : v ≠ ⟨r.x, r.y, r.h⟩) (n : Nat) :
    ch.glideToResolved n = { ch with glide := some ⟨v, ⟨r.x, r.y, r.h⟩, n, 0⟩ } := by
  unfold Channel.glideToResolved
  simp [h, shown, still, ne, Channel.startGlide]

theorem glideToResolved_cur (ch : Channel) (n : Nat) : (ch.glideToResolved n).cur = ch.cur := by
  unfold Channel.glideToResolved
  split
  · dsimp only
    split <;> split <;> rfl
  · unfold Channel.showDirect
    split <;> rfl
  · rfl

theorem fadeIn_src (c : Chan) (n : Nat) (q : Port) (s : State) : (fadeIn c n s).src q = s.src q := rfl

/-- A change of a channel that keeps what its resolutions read. -/
def KeepsPlacement (g : Channel → Channel) : Prop :=
  ∀ x, (g x).requested = x.requested ∧ (g x).zones = x.zones ∧ (g x).resolved = x.resolved

/-- The resolution for a source just taken, run in a state in which the channel has changed otherwise. -/
theorem taken_resolution {g : Channel → Channel} (keeps : KeepsPlacement g) :
    resolutionFor f c p ((grantTake c p s).modChan c g) = resolutionFor f c p s := by
  obtain ⟨block, zones, held⟩ := keeps (s.chan c)
  refine resolutionFor_congr (grantTake_cropForce c p p s) ?_ ?_ ?_
  · rwa [modChan_chan_same, grantTake_chan]
  · rwa [modChan_chan_same, grantTake_chan]
  · rwa [modChan_chan_same, grantTake_chan]

theorem taken_resolved {g : Channel → Channel} (keeps : KeepsPlacement g) (hf : s.format = some f)
    (hres : res = resolutionFor f c p s) :
    (resolveFor c p ((grantTake c p s).modChan c g)).2 = res.outcome ∧
      (resolveFor c p ((grantTake c p s).modChan c g)).1.chan c = (g (s.chan c)).storing res := by
  have format : ((grantTake c p s).modChan c g).format = some f := (grantTake_format c p s).trans hf
  rw [resolveFor_snd format, resolveFor_chan format, taken_resolution keeps, ← hres, modChan_chan_same, grantTake_chan]
  exact ⟨rfl, rfl⟩

theorem taken_src (g : Channel → Channel) (q : Port) :
    (resolveFor c p ((grantTake c p s).modChan c g)).1.src q = (grantTake c p s).src q := by
  rw [resolveFor_src, modChan_src]

theorem taken_sourceChange {g : Channel → Channel} (hf : s.format = some f) (h : (s.src p).state ≠ .taken) :
    (resolveFor c p ((grantTake c p s).modChan c g)).1.notices.raw.hasCard .sourceChange = true := by
  rw [resolveFor_hasCard (s := (grantTake c p s).modChan c g) (f := f) ((grantTake_format c p s).trans hf), modChan_notices]
  exact grantTake_sourceChange h

theorem taken_forcedOut {g : Channel → Channel} (keeps : KeepsPlacement g) (hf : s.format = some f)
    (hres : res = resolutionFor f c p s) (forced : res.outcome = .forcedOut) :
    (resolveFor c p ((grantTake c p s).modChan c g)).1.notices.raw.hasChan c .forcedOut = true := by
  have format : ((grantTake c p s).modChan c g).format = some f := (grantTake_format c p s).trans hf
  rw [resolveFor_hasChan format, taken_resolution keeps, ← hres]
  exact .inr (.inr ⟨rfl, forced⟩)

/-! ### SHOW from HIDDEN (R118) -/

/-- The channel in which a SHOW from HIDDEN resolves: the source home and off air. -/
def Channel.showing (p : Port) (ch : Channel) : Channel :=
  { ch with home := some p, cur := some ⟨p, 0, none⟩, exitMark := false, inset := .forcedOut }

theorem showing_keeps (p : Port) : KeepsPlacement (Channel.showing p) := fun _ => ⟨rfl, rfl, rfl⟩

theorem showFromHidden_granted (free : checkTake c p s = none) (hf : s.format = some f)
    (hres : res = resolutionFor f c p s) (n : Nat) : showFromHidden c p n s =
      (if res.outcome = .forcedOut then (resolveFor c p ((grantTake c p s).modChan c (Channel.showing p))).1
        else fadeIn c n ((resolveFor c p ((grantTake c p s).modChan c (Channel.showing p))).1.modChan c
          Channel.showDirect), none) := by
  obtain ⟨outcome, -⟩ := taken_resolved (showing_keeps p) hf hres
  unfold showFromHidden
  rw [free]
  show (if (resolveFor c p ((grantTake c p s).modChan c (Channel.showing p))).2 = .forcedOut then
    ((resolveFor c p ((grantTake c p s).modChan c (Channel.showing p))).1, none) else (fadeIn c n _, none)) = _
  rw [outcome]
  split <;> rfl

/-! ### SHOW of the source on its way out (R118) -/

/-- The channel in which a SHOW in FADING_OUT resolves. -/
def Channel.staying (ch : Channel) : Channel := { ch with exitMark := false }

theorem staying_keeps : KeepsPlacement Channel.staying := fun _ => ⟨rfl, rfl, rfl⟩

/-- The card in which a SHOW in FADING_OUT has resolved. -/
def shownAgain (c : Chan) (p : Port) (s : State) : State :=
  (resolveFor c p ((grantTake c p s).modChan c Channel.staying)).1

theorem showAgain_granted (free : checkTake c p s = none) (hf : s.format = some f)
    (hres : res = resolutionFor f c p s) (n : Nat) : showAgain c p n s =
      (if res.outcome = .forcedOut then forceOut c (shownAgain c p s)
        else if res.outcome = .heldPlace then fadeIn c n (shownAgain c p s)
        else fadeIn c n ((shownAgain c p s).modChan c (fun ch => ch.glideToResolved ch.defaultGlide)), none) := by
  obtain ⟨outcome, -⟩ := taken_resolved staying_keeps hf hres
  unfold showAgain
  rw [free]
  show (if (resolveFor c p ((grantTake c p s).modChan c Channel.staying)).2 = .forcedOut then
    (forceOut c (shownAgain c p s), none) else (fadeIn c n (if (resolveFor c p ((grantTake c p s).modChan c
      Channel.staying)).2 = .heldPlace then _ else _), none)) = _
  rw [outcome]
  split
  · rfl
  · split <;> rfl

theorem showAgain_refused {e : Reason} (h : checkTake c p s = some e) (n : Nat) : showAgain c p n s = (s, some e) := by
  unfold showAgain
  rw [h]

/-- Settles O50: SHOW by inset state. -/
theorem showActsByInset : Obligations.ShowActsByInset := by
  intro s t f c p n res why hf ht hres
  replace hres : res = resolutionFor f c p s := hres
  have rect : res.outcome = .forcedOut ↔ res.rect = none := by
    rw [hres]
    exact resolve_forcedOut_iff _ _ _ _ _
  refine ⟨fun home => ?_, fun home => ?_, fun hidden k => ?_, fun hidden ready => ?_, fun hidden e refused => ?_,
    fun o cur => ⟨fun steady => ?_, fun off => ?_, fun fading same st own => ?_, fun fading same st own => ?_⟩⟩
  · simp only [doShow, home, Option.none_or, Option.some_or]
  · simp only [doShow, home, Option.none_or]
  · rw [doHandover_hidden hidden, doShow_hidden hidden]
  · obtain ⟨-, stored⟩ := taken_resolved (c := c) (showing_keeps p) hf hres
    have src := fun q => taken_src (s := s) (c := c) (p := p) (Channel.showing p) q
    have change := taken_sourceChange (c := c) (g := Channel.showing p) hf (show (s.src p).state ≠ .taken by simp [ready])
    have notice := taken_forcedOut (c := c) (showing_keeps p) hf hres
    rw [doShow_hidden hidden, showFromHidden_granted (checkTake_ready ready) hf hres, Prod.mk.injEq] at ht
    obtain ⟨ht, hwhy⟩ := ht
    generalize (resolveFor c p ((grantTake c p s).modChan c (Channel.showing p))).1 = w at *
    by_cases forced : res.outcome = .forcedOut
    · rw [if_pos forced] at ht
      subst ht
      refine ⟨hwhy, (src p).trans (grantTake_src_same c p s), fun q ne => (src q).trans (grantTake_src_ne c ne s), change,
        by rw [stored]; rfl, by rw [stored]; rfl, by rw [stored]; rfl, by rw [stored]; rfl,
        fun r fits => absurd forced fits, fun _ => ⟨by rw [stored]; rfl, by rw [stored]; rfl, notice forced⟩⟩
    · rw [if_neg forced] at ht
      obtain ⟨r, hr⟩ := Option.ne_none_iff_exists'.mp (mt rect.mpr forced)
      have chan : t.chan c = { ((s.chan c).showing p).storing res with
          shown := some ⟨r.x, r.y, r.h⟩, glide := none, inset := if n = 0 then .shown else .fadingIn
          cur := some ((⟨p, 0, none⟩ : OnAir).fadeTo 1024 n) } := by
        rw [ht, fadeIn_chan, modChan_chan_same, stored, showDirect_of_some (r := r) hr]
        rfl
      have srcT (q : Port) : t.src q = (grantTake c p s).src q := by rw [ht, fadeIn_src, modChan_src, src]
      have changeT : t.notices.raw.hasCard .sourceChange = true := by rw [ht]; exact change
      rw [chan]
      refine ⟨hwhy, (srcT p).trans (grantTake_src_same c p s), fun q ne => (srcT q).trans (grantTake_src_ne c ne s), changeT,
        rfl, rfl, rfl, rfl, fun r' _ hr' => ?_, fun is => absurd is forced⟩
      obtain rfl : r = r' := Option.some.inj (hr.symm.trans hr')
      refine ⟨rfl, rfl, fun zero => ?_, fun pos => ?_⟩
      · subst zero
        exact ⟨rfl, rfl⟩
      · rw [fadeTo_of_pos _ _ pos, if_neg (by omega)]
        exact ⟨rfl, rfl⟩
  · rw [doShow_hidden hidden, showFromHidden_refused refused, Prod.mk.injEq] at ht
    exact ht
  · rw [doShow_current cur steady, Prod.mk.injEq] at ht
    exact ht
  · have : doShow c (some p) n s = (s, some .wrongState) := by
      rcases off with held | ⟨fading, ne⟩
      · exact doShow_held held p n
      · rw [doShow_fadingOut cur fading, if_neg ne]
    rw [this, Prod.mk.injEq] at ht
    exact ht
  · rw [doShow_fadingOut cur fading, if_pos same, showAgain_refused (checkTake_lost st own), Prod.mk.injEq] at ht
    exact ht
  · obtain ⟨-, stored⟩ := taken_resolved (c := c) staying_keeps hf hres
    have src := taken_src (s := s) (c := c) (p := p) Channel.staying p
    rw [grantTake_src_same] at src
    rw [doShow_fadingOut cur fading, if_pos same, showAgain_granted (checkTake_releasing st own) hf hres, Prod.mk.injEq] at ht
    obtain ⟨ht, hwhy⟩ := ht
    replace stored : (shownAgain c p s).chan c = (s.chan c).staying.storing res := stored
    replace src : (shownAgain c p s).src p = { s.src p with state := .taken } := by
      refine src.trans ?_
      rw [← own]
    by_cases forced : res.outcome = .forcedOut
    · rw [if_pos forced, forceOut_eq] at ht
      have chan : t.chan c = ((s.chan c).staying.storing res).forcedOut := by rw [ht, modChan_chan_same, stored]
      have curT : (((s.chan c).staying.storing res).forcedOut).cur = some { o with fade := some ⟨o.level, 0, 6, 0⟩ } := by
        show (s.chan c).cur.map _ = _
        rw [cur]
        rfl
      rw [chan, ht]
      exact ⟨hwhy, src, rfl, rfl, rfl, fun fits => absurd forced fits, fun fits => absurd forced fits,
        fun r v _ _ _ fits => absurd forced fits, fun _ => ⟨rfl, rfl, curT⟩⟩
    · rw [if_neg forced] at ht
      obtain ⟨moved, chan, srcT, stays, curM, glides⟩ : ∃ moved : Channel,
          t.chan c = { moved with
            inset := if n = 0 then .shown else .fadingIn, cur := moved.cur.map (fun x => x.fadeTo 1024 n) } ∧
          t.src p = (shownAgain c p s).src p ∧ moved.stored = ((s.chan c).staying.storing res).stored ∧
          moved.cur = some o ∧ (res.outcome ≠ .heldPlace →
            moved = ((s.chan c).staying.storing res).glideToResolved (s.chan c).defaultGlide) := by
        by_cases held : res.outcome = .heldPlace
        · rw [if_pos held] at ht
          refine ⟨_, ?_, by rw [ht, fadeIn_src], rfl, cur, fun ne => absurd held ne⟩
          rw [ht, fadeIn_chan, stored]
        · rw [if_neg held] at ht
          refine ⟨_, ?_, by rw [ht, fadeIn_src, modChan_src], glideToResolved_stored _ _,
            (glideToResolved_cur _ _).trans cur, fun _ => rfl⟩
          rw [ht, fadeIn_chan, modChan_chan_same, stored]
          rfl
      simp only [Channel.stored, Prod.mk.injEq] at stays
      obtain ⟨resolved, outcome, -, -, exit⟩ := stays
      rw [chan, curM]
      refine ⟨hwhy, srcT.trans src, exit, resolved, outcome, fun _ zero => ?_, fun _ pos => ?_, fun r v hr shown still _ held ne => ?_,
        fun is => absurd is forced⟩
      · subst zero
        exact ⟨rfl, rfl⟩
      · rw [Option.map_some, fadeTo_of_pos _ _ pos, if_neg (by omega)]
        exact ⟨rfl, rfl⟩
      · rw [glides held, glideToResolved_starts (ch := (s.chan c).staying.storing res) hr shown still ne]
        exact ⟨shown, rfl⟩

end Sys2Proof.Machine
end

section
/-! PROOFS. HANDOVER (section 7.4): a resolution for the source that comes on, and the three ends of a hand-over:
the crossfade, the cut and FORCED_OUT. -/

namespace Sys2Proof.Machine

variable {s t w : State} {c d : Chan} {p q : Port} {f : Format} {o u old : OnAir} {res : Resolution} {n : Nat}
  {claim : SpareAns}

/-! ### The three ends (R120, R124) -/

theorem spareAtHand_iff : spareAtHand c claim s = true ↔
    s.spare.hasIt c = true ∨ claim = .notAsked ∧ s.spare = .free := by
  simp [spareAtHand]

theorem spareAtHand_congr (h : t.spare = s.spare) : spareAtHand c claim t = spareAtHand c claim s := by
  rw [spareAtHand, h]
  rfl

theorem forcedHandover_chan (c : Chan) (p : Port) (old : OnAir) (s : State) : (forcedHandover c p old s).chan c =
    { s.chan c with
      inset := .forcedOut, out := none, outRect := none, cur := some ⟨p, 0, none⟩, glide := none,
      exitMark := false, holdCount := 0, paused := none } := by
  rw [forcedHandover, dropClaim_chan, modChan_chan_same, letGo_chan]

theorem forcedHandover_spare (c : Chan) (p : Port) (old : OnAir) (s : State) :
    (forcedHandover c p old s).spare = s.spare.leave c .crossfade := by
  rw [forcedHandover, dropClaim, modChan_spare, letGo_spare]

theorem forcedHandover_hasChan (c d : Chan) (p : Port) (old : OnAir) (s : State) (k : ChanKind) :
    (forcedHandover c p old s).notices.raw.hasChan d k = s.notices.raw.hasChan d k := by
  rw [forcedHandover, dropClaim_notices, modChan_notices, letGo_hasChan]

theorem beginRelease_hasChan (c d : Chan) (p : Port) (s : State) (k : ChanKind) :
    (beginRelease c p s).notices.raw.hasChan d k = s.notices.raw.hasChan d k := by
  unfold beginRelease
  split
  · exact changeSource_hasChan _ _ _ _
  · rfl

theorem beginCrossfade_chan (c : Chan) (p : Port) (n : Nat) (old : OnAir) (rect : Option Rect) (s : State) :
    (beginCrossfade c p n old rect s).chan c = { s.chan c with
      inset := .crossfade, out := some (old.fadeTo 0 n), outRect := rect,
      cur := some ((⟨p, 0, none⟩ : OnAir).fadeTo 1024 n), exitMark := false, holdCount := 0, paused := none } := by
  unfold beginCrossfade
  dsimp only
  rw [modChan_chan_same, askSpare_chan, beginRelease_chan]

theorem beginCrossfade_src (c : Chan) (p q : Port) (n : Nat) (old : OnAir) (rect : Option Rect) (s : State) :
    (beginCrossfade c p n old rect s).src q = (beginRelease c old.src s).src q := rfl

theorem beginCrossfade_spare (c : Chan) (p : Port) (n : Nat) (old : OnAir) (rect : Option Rect) (s : State) :
    (beginCrossfade c p n old rect s).spare = (s.spare.request c .crossfade).1 := by
  show ((beginRelease c old.src s).spare.request c .crossfade).1 = _
  rw [beginRelease_spare]

theorem cutOver_chan (c : Chan) (p : Port) (n : Nat) (old : OnAir) (s : State) : (cutOver c p n old s).chan c =
    { s.chan c with
      inset := .shown, out := none, outRect := none, cur := some ⟨p, 1024, none⟩,
      exitMark := false, holdCount := 0, paused := none } := by
  unfold cutOver
  dsimp only
  split
  · rw [modChan_chan_same, dropClaim_chan, letGo_chan]
  · rw [raiseChan_chan, modChan_chan_same, dropClaim_chan, letGo_chan]

theorem cutOver_src (c : Chan) (p q : Port) (n : Nat) (old : OnAir) (s : State) :
    (cutOver c p n old s).src q = (letGo c old.src s).src q := by
  unfold cutOver
  dsimp only
  split <;> rfl

theorem cutOver_spare (c : Chan) (p : Port) (n : Nat) (old : OnAir) (s : State) :
    (cutOver c p n old s).spare = s.spare.leave c .crossfade := by
  have left : (cutOver c p n old s).spare = (letGo c old.src s).spare.leave c .crossfade := by
    unfold cutOver
    dsimp only
    split <;> rfl
  rw [left, letGo_spare]

theorem cutOver_degraded (c : Chan) (p : Port) (n : Nat) (old : OnAir) (s : State) :
    (cutOver c p n old s).notices.raw.hasChan c .degraded =
      (s.notices.raw.hasChan c .degraded || decide (0 < n)) := by
  unfold cutOver
  dsimp only
  split
  next zero =>
    rw [modChan_notices, dropClaim_notices, letGo_hasChan]
    simp [zero]
  next pos =>
    rw [raiseChan_hasChan, modChan_notices, dropClaim_notices, letGo_hasChan]
    simp [Nat.pos_of_ne_zero pos]

/-! ### Steps 2 to 7 of R120 -/

/-- The channel in which a hand-over resolves. -/
def Channel.handing (p : Port) (ch : Channel) : Channel := { ch with home := some p, glide := none }

/-- The card in which a hand-over has resolved. -/
def handed (c : Chan) (p : Port) (w : State) : State := (resolveFor c p (w.modChan c (Channel.handing p))).1

theorem handing_resolution : resolutionFor f c p (w.modChan c (Channel.handing p)) = resolutionFor f c p w := by
  refine resolutionFor_congr rfl ?_ ?_ ?_ <;> (rw [modChan_chan_same]; rfl)

theorem handed_chan (hf : w.format = some f) (hres : res = resolutionFor f c p w) :
    (handed c p w).chan c = ((w.chan c).handing p).storing res := by
  rw [handed, resolveFor_chan (s := w.modChan c _) hf, handing_resolution, ← hres, modChan_chan_same]

theorem handed_src (q : Port) : (handed c p w).src q = w.src q := by
  rw [handed, resolveFor_src, modChan_src]

theorem handed_spare : (handed c p w).spare = w.spare := by
  rw [handed, resolveFor_spare, modChan_spare]

theorem handed_hasSignal (q : Port) : (handed c p w).hasSignal q = w.hasSignal q := by
  rw [handed, resolveFor_hasSignal]
  rfl

theorem handed_degraded (hf : w.format = some f) :
    (handed c p w).notices.raw.hasChan c .degraded = w.notices.raw.hasChan c .degraded := by
  rw [Bool.eq_iff_iff, handed, resolveFor_hasChan (s := w.modChan c _) hf]
  simp

theorem handed_forcedOut (hf : w.format = some f) (forced : (resolutionFor f c p w).outcome = .forcedOut) :
    (handed c p w).notices.raw.hasChan c .forcedOut = true := by
  rw [handed, resolveFor_hasChan (s := w.modChan c _) hf, handing_resolution]
  exact .inr (.inr ⟨rfl, forced⟩)

theorem handOver_eq (hf : w.format = some f) (hres : res = resolutionFor f c p w) : handOver c p n claim old w =
    if res.outcome = .forcedOut then forcedHandover c p old (handed c p w)
    else if 0 < n ∧ spareAtHand c claim w = true then
      beginCrossfade c p n old (shownRect c w) ((handed c p w).modChan c Channel.showDirect)
    else cutOver c p n old ((handed c p w).modChan c Channel.showDirect) := by
  have outcome : (resolveFor c p (w.modChan c (Channel.handing p))).2 = res.outcome := by
    rw [resolveFor_snd (s := w.modChan c _) hf, handing_resolution, hres]
  have atHand : spareAtHand c claim ((handed c p w).modChan c Channel.showDirect) = spareAtHand c claim w :=
    spareAtHand_congr handed_spare
  show (if (resolveFor c p (w.modChan c (Channel.handing p))).2 = .forcedOut then forcedHandover c p old (handed c p w)
    else if (decide (0 < n) && spareAtHand c claim ((handed c p w).modChan c Channel.showDirect)) = true then
      beginCrossfade c p n old (shownRect c w) ((handed c p w).modChan c Channel.showDirect)
    else cutOver c p n old ((handed c p w).modChan c Channel.showDirect)) = _
  rw [outcome, atHand]
  simp only [Bool.and_eq_true, decide_eq_true_eq]

/-- What is let go of a state that has resolved is what is let go of the state before. -/
theorem letGo_handed (r q : Port) : (letGo c r (handed c p w)).src q = (letGo c r w).src q := by
  rw [letGo_src, letGo_src, handed_src, handed_src, handed_hasSignal]

theorem beginRelease_src_ne (h : q ≠ p) (s : State) : (beginRelease c p s).src q = s.src q := by
  unfold beginRelease
  split
  · rw [changeSource_src, if_neg h]
  · rfl

theorem beginRelease_src_same (c : Chan) (p : Port) (s : State) : (beginRelease c p s).src p =
    if (s.src p).state = .taken ∧ (s.src p).owner = some c then { s.src p with state := .releasing } else s.src p := by
  unfold beginRelease
  split
  · rw [changeSource_src, if_pos rfl]
  · rfl

theorem beginRelease_src_congr (h : ∀ q, t.src q = s.src q) (r q : Port) :
    (beginRelease c r t).src q = (beginRelease c r s).src q := by
  rcases eq_or_ne q r with rfl | ne
  · rw [beginRelease_src_same, beginRelease_src_same, h]
  · rw [beginRelease_src_ne ne, beginRelease_src_ne ne, h]

section ends
variable (hf : w.format = some f) (hres : res = resolutionFor f c p w)
include hf hres

/-- A hand-over that ends FORCED_OUT (step 4 of R120). -/
theorem handOver_forced (forced : res.outcome = .forcedOut) :
    ((handOver c p n claim old w).chan c = { ((w.chan c).handing p).storing res with
      inset := .forcedOut, out := none, outRect := none, cur := some ⟨p, 0, none⟩, glide := none,
      exitMark := false, holdCount := 0, paused := none }) ∧
    (∀ q, (handOver c p n claim old w).src q = (letGo c old.src w).src q) ∧
    (handOver c p n claim old w).spare = w.spare.leave c .crossfade ∧
    (handOver c p n claim old w).notices.raw.hasChan c .forcedOut = true := by
  rw [handOver_eq hf hres, if_pos forced, forcedHandover_chan, handed_chan hf hres, forcedHandover_spare, handed_spare,
    forcedHandover_hasChan]
  exact ⟨rfl, fun q => letGo_handed old.src q, rfl, handed_forcedOut hf (hres ▸ forced)⟩

/-- A hand-over that crossfades (step 6 of R120). -/
theorem handOver_crossfade {r : Rect} (fits : res.outcome ≠ .forcedOut) (hr : res.rect = some r) (pos : 0 < n)
    (atHand : spareAtHand c claim w = true) :
    ((handOver c p n claim old w).chan c = { ((w.chan c).handing p).storing res with
      shown := some ⟨r.x, r.y, r.h⟩, glide := none
      inset := .crossfade, out := some { old with fade := some ⟨old.level, 0, n, 0⟩ }, outRect := shownRect c w,
      cur := some ⟨p, 0, some ⟨0, 1024, n, 0⟩⟩, exitMark := false, holdCount := 0, paused := none }) ∧
    (∀ q, (handOver c p n claim old w).src q = (beginRelease c old.src w).src q) ∧
    (handOver c p n claim old w).spare = (w.spare.request c .crossfade).1 := by
  rw [handOver_eq hf hres, if_neg fits, if_pos ⟨pos, atHand⟩, beginCrossfade_chan, modChan_chan_same, handed_chan hf hres,
    showDirect_of_some (r := r) hr, fadeTo_of_pos _ _ pos, fadeTo_of_pos _ _ pos, beginCrossfade_spare, modChan_spare,
    handed_spare]
  refine ⟨rfl, fun q => ?_, rfl⟩
  rw [beginCrossfade_src]
  exact beginRelease_src_congr (t := (handed c p w).modChan c _) (fun r => handed_src r) old.src q

/-- A hand-over that cuts (step 7 of R120). -/
theorem handOver_cut {r : Rect} (fits : res.outcome ≠ .forcedOut) (hr : res.rect = some r)
    (cuts : ¬(0 < n ∧ spareAtHand c claim w = true)) :
    ((handOver c p n claim old w).chan c = { ((w.chan c).handing p).storing res with
      shown := some ⟨r.x, r.y, r.h⟩, glide := none
      inset := .shown, out := none, outRect := none, cur := some ⟨p, 1024, none⟩,
      exitMark := false, holdCount := 0, paused := none }) ∧
    (∀ q, (handOver c p n claim old w).src q = (letGo c old.src w).src q) ∧
    (handOver c p n claim old w).spare = w.spare.leave c .crossfade ∧
    (handOver c p n claim old w).notices.raw.hasChan c .degraded =
      (w.notices.raw.hasChan c .degraded || decide (0 < n)) := by
  rw [handOver_eq hf hres, if_neg fits, if_neg cuts, cutOver_chan, modChan_chan_same, handed_chan hf hres,
    showDirect_of_some (r := r) hr, cutOver_spare, modChan_spare, handed_spare, cutOver_degraded, modChan_notices,
    handed_degraded hf]
  refine ⟨rfl, fun q => ?_, rfl, rfl⟩
  rw [cutOver_src, letGo_modChan, modChan_src, letGo_handed]

/-- What every hand-over leaves, however it ends. -/
theorem handOver_always : ∃ t, t = handOver c p n claim old w ∧
    (t.chan c).home = some p ∧ (t.chan c).exitMark = false ∧ (t.chan c).resolved = res.rect ∧
      (t.chan c).outcome = some res.outcome ∧ (t.chan c).holdCount = 0 ∧ (t.chan c).paused = none ∧
      (t.chan c).glide = none ∧ ∀ q, q ≠ old.src → t.src q = w.src q := by
  refine ⟨_, rfl, ?_⟩
  by_cases forced : res.outcome = .forcedOut
  · obtain ⟨chan, src, -⟩ := handOver_forced (n := n) (claim := claim) (old := old) hf hres forced
    rw [chan]
    exact ⟨rfl, rfl, rfl, rfl, rfl, rfl, rfl, fun q ne => by rw [src, letGo_src_ne c ne]⟩
  · obtain ⟨r, hr⟩ : ∃ r, res.rect = some r := by
      rw [hres] at forced ⊢
      exact Option.ne_none_iff_exists'.mp (mt (resolve_forcedOut_iff _ _ _ _ _).mpr forced)
    by_cases fades : 0 < n ∧ spareAtHand c claim w = true
    · obtain ⟨chan, src, -⟩ := handOver_crossfade (old := old) hf hres forced hr fades.1 fades.2
      rw [chan]
      exact ⟨rfl, rfl, rfl, rfl, rfl, rfl, rfl, fun q ne => by rw [src, beginRelease_src_ne ne]⟩
    · obtain ⟨chan, src, -⟩ := handOver_cut (old := old) hf hres forced hr fades
      rw [chan]
      exact ⟨rfl, rfl, rfl, rfl, rfl, rfl, rfl, fun q ne => by rw [src, letGo_src_ne c ne]⟩

end ends

/-! ### The state in which a hand-over starts (R120, R122) -/

/-- The named source has been taken, and what a hand-over reads is as it was. -/
structure TakenFor (c : Chan) (p : Port) (s w : State) : Prop where
  format : w.format = s.format
  resolution : ∀ f, resolutionFor f c p w = resolutionFor f c p s
  spare : w.spare = s.spare
  rect : shownRect c w = shownRect c s
  degraded : w.notices.raw.hasChan c .degraded = s.notices.raw.hasChan c .degraded
  taken : w.src p = { s.src p with state := .taken, owner := some c }

theorem shownRect_congr (format : w.format = s.format) (shown : (w.chan c).shown = (s.chan c).shown)
    (cur : (w.chan c).cur.map OnAir.src = (s.chan c).cur.map OnAir.src)
    (crop : ∀ q, (w.src q).cropForce = (s.src q).cropForce) : shownRect c w = shownRect c s := by
  unfold shownRect
  rw [format, shown]
  cases hf : s.format with
  | none => rfl
  | some f =>
    cases hv : (s.chan c).shown with
    | none => rfl
    | some v =>
      cases ho : (s.chan c).cur with
      | none =>
        rw [ho, Option.map_none, Option.map_eq_none_iff] at cur
        rw [cur]
      | some o =>
        rw [ho, Option.map_some, Option.map_eq_some_iff] at cur
        obtain ⟨o', ho', same⟩ := cur
        rw [ho']
        simp only [cropInForce, same, crop]

theorem TakenFor.grantTake (c : Chan) (p : Port) (s : State) : TakenFor c p s (grantTake c p s) where
  format := grantTake_format c p s
  resolution f := resolutionFor_congr (grantTake_cropForce c p p s) (by rw [grantTake_chan]) (by rw [grantTake_chan])
    (by rw [grantTake_chan])
  spare := grantTake_spare c p s
  rect := shownRect_congr (grantTake_format c p s) (by rw [grantTake_chan]) (by rw [grantTake_chan])
    (fun q => grantTake_cropForce c p q s)
  degraded := grantTake_hasChan c c p .degraded s
  taken := grantTake_src_same c p s

/-- A hand-over without a count, or without the spare, cuts. -/
theorem TakenFor.not_spareAtHand (h : TakenFor c p s w)
    (cuts : n = 0 ∨ s.spare.hasIt c = false ∧ (claim ≠ .notAsked ∨ s.spare ≠ .free)) :
    ¬(0 < n ∧ spareAtHand c claim w = true) := by
  rw [spareAtHand_congr h.spare, spareAtHand_iff]
  rintro ⟨pos, spare⟩
  rcases cuts with rfl | ⟨hasNot, asked⟩
  · exact absurd pos (lt_irrefl 0)
  · rw [hasNot] at spare
    simp only [Bool.false_eq_true, false_or] at spare
    tauto

/-- The card in which a running crossfade's outgoing source has been let go. -/
def outgoingGone (c : Chan) (s : State) : State :=
  match (s.chan c).out with
  | some o => letGo c o.src s
  | none => s

theorem completeForHandover_eq (c : Chan) (s : State) : completeForHandover c s =
    (outgoingGone c s).modChan c (fun ch => { ch with
      inset := .shown, out := none, outRect := none
      cur := ch.cur.map (fun o => { o with level := 1024, fade := none }) }) := by
  unfold completeForHandover outgoingGone
  cases (s.chan c).out <;> rfl

theorem outgoingGone_of_some (h : (s.chan c).out = some u) : outgoingGone c s = letGo c u.src s := by
  rw [outgoingGone, h]

theorem outgoingGone_of_none (h : (s.chan c).out = none) : outgoingGone c s = s := by
  rw [outgoingGone, h]

theorem completeForHandover_chan (c : Chan) (s : State) : (completeForHandover c s).chan c = { s.chan c with
    inset := .shown, out := none, outRect := none
    cur := (s.chan c).cur.map (fun o => { o with level := 1024, fade := none }) } := by
  have chan : (outgoingGone c s).chan c = s.chan c := by
    cases h : (s.chan c).out with
    | none => rw [outgoingGone_of_none h]
    | some u => rw [outgoingGone_of_some h, letGo_chan]
  rw [completeForHandover_eq, modChan_chan_same, chan]

theorem letGo_cropForce (r q : Port) : ((letGo c r s).src q).cropForce = (s.src q).cropForce := by
  rw [letGo_src]
  split
  next h => rw [letGone_cropForce, h]
  next => rfl

theorem TakenFor.letGo (h : TakenFor c p s w) {r : Port} (ne : r ≠ p) : TakenFor c p s (letGo c r w) where
  format := (letGo_format c r w).trans h.format
  resolution f := (resolutionFor_congr (letGo_cropForce r p) (by rw [letGo_chan]) (by rw [letGo_chan])
    (by rw [letGo_chan])).trans (h.resolution f)
  spare := (letGo_spare c r w).trans h.spare
  rect := (shownRect_congr (letGo_format c r w) (by rw [letGo_chan]) (by rw [letGo_chan]) (letGo_cropForce r)).trans h.rect
  degraded := (letGo_hasChan c c r .degraded w).trans h.degraded
  taken := (letGo_src_ne c ne.symm w).trans h.taken

theorem TakenFor.modChan (h : TakenFor c p s w) {g : Channel → Channel} (keeps : KeepsPlacement g)
    (shown : ∀ x, (g x).shown = x.shown) (cur : ∀ x, (g x).cur.map OnAir.src = x.cur.map OnAir.src) :
    TakenFor c p s (w.modChan c g) where
  format := h.format
  resolution f := by
    obtain ⟨block, zones, held⟩ := keeps (w.chan c)
    refine Eq.trans (resolutionFor_congr (s := w) (t := w.modChan c g) rfl ?_ ?_ ?_) (h.resolution f) <;>
      rwa [modChan_chan_same]
  spare := h.spare
  rect := by
    refine Eq.trans (shownRect_congr (w := w.modChan c g) (s := w) rfl ?_ ?_ fun _ => rfl) h.rect
    · rw [modChan_chan_same, shown]
    · rw [modChan_chan_same, cur]
  degraded := h.degraded
  taken := h.taken

/-- A running crossfade completes at once, the named source having been taken (R122). -/
theorem TakenFor.complete (out : ∀ u, (s.chan c).out = some u → u.src ≠ p) :
    TakenFor c p s (completeForHandover c (Machine.grantTake c p s)) := by
  rw [completeForHandover_eq]
  refine TakenFor.modChan ?_ (fun _ => ⟨rfl, rfl, rfl⟩) (fun _ => rfl) (fun x => by simp [Function.comp_def])
  cases ho : (s.chan c).out with
  | none =>
    rw [outgoingGone_of_none (by rw [grantTake_chan]; exact ho)]
    exact TakenFor.grantTake c p s
  | some u =>
    rw [outgoingGone_of_some (by rw [grantTake_chan]; exact ho)]
    exact (TakenFor.grantTake c p s).letGo (out u ho)

/-! ### HANDOVER by inset state (R120, R121) -/

section action
variable (cur : (s.chan c).cur = some old) (ne : old.src ≠ p)
include cur ne

theorem doHandover_refused {e : Reason} (visible : (s.chan c).inset ≠ .hidden)
    (out : (s.chan c).inset = .crossfade → ∀ u, (s.chan c).out = some u → u.src ≠ p)
    (refused : checkTake c p s = some e) : doHandover c p n claim s = (s, some e) := by
  have notCur : decide ((s.chan c).cur.map OnAir.src = some p) = false := by simp [cur, ne]
  have from_ : handOverFrom c p n claim s = (s, some e) := by
    unfold handOverFrom
    rw [refused]
  unfold doHandover
  rw [notCur]
  dsimp only
  split
  next hidden => exact absurd hidden visible
  · exact from_
  · exact from_
  · exact from_
  · exact from_
  next inset =>
    have notOut : decide ((s.chan c).out.map OnAir.src = some p) = false := by simpa using out inset
    rw [notOut]
    show handOverInCrossfade c p n claim s = _
    unfold handOverInCrossfade
    rw [refused]
  · show handOverForcedOut c p s = _
    unfold handOverForcedOut
    rw [refused]

variable (free : checkTake c p s = none)
include free

theorem doHandover_visible (inset : (s.chan c).inset = .fadingIn ∨ (s.chan c).inset = .shown ∨
      (s.chan c).inset = .fadingOut ∨ (s.chan c).inset = .held) :
    doHandover c p n claim s = (handOver c p n claim old (grantTake c p s), none) := by
  have notCur : decide ((s.chan c).cur.map OnAir.src = some p) = false := by simp [cur, ne]
  have from_ : handOverFrom c p n claim s = (handOver c p n claim old (grantTake c p s), none) := by
    unfold handOverFrom
    rw [free, cur]
  unfold doHandover
  rw [notCur]
  rcases inset with h | h | h | h <;> (rw [h]; exact from_)

theorem doHandover_crossfade (inset : (s.chan c).inset = .crossfade)
    (out : ∀ u, (s.chan c).out = some u → u.src ≠ p) : doHandover c p n claim s =
      (handOver c p n claim { old with level := 1024, fade := none } (completeForHandover c (grantTake c p s)), none) := by
  have notCur : decide ((s.chan c).cur.map OnAir.src = some p) = false := by simp [cur, ne]
  have notOut : decide ((s.chan c).out.map OnAir.src = some p) = false := by simpa using out
  have curW : ((completeForHandover c (grantTake c p s)).chan c).cur = some { old with level := 1024, fade := none } := by
    rw [completeForHandover_chan, grantTake_chan, cur]
    rfl
  unfold doHandover
  rw [notCur, notOut, inset]
  show handOverInCrossfade c p n claim s = _
  unfold handOverInCrossfade
  rw [free]
  dsimp only
  rw [curW]

/-- The channel in which a HANDOVER in FORCED_OUT resolves (R121). -/
def Channel.replacing (p : Port) (old : OnAir) (ch : Channel) : Channel :=
  { ch with home := some p, exitMark := false, cur := some { old with src := p } }

/-- The card in which a HANDOVER in FORCED_OUT has resolved. -/
def replaced (c : Chan) (p : Port) (old : OnAir) (s : State) : State :=
  (resolveFor c p ((letGo c old.src (grantTake c p s)).modChan c (Channel.replacing p old))).1

end action

theorem replaced_src (q : Port) : (replaced c p old s).src q = (letGo c old.src (grantTake c p s)).src q := by
  rw [replaced, resolveFor_src, modChan_src]

theorem replaced_spare : (replaced c p old s).spare = s.spare := by
  rw [replaced, resolveFor_spare, modChan_spare, letGo_spare, grantTake_spare]

section replaced
variable (ne : old.src ≠ p) (hf : s.format = some f) (hres : res = resolutionFor f c p s)
include ne hf hres

theorem replacing_resolution : ((letGo c old.src (grantTake c p s)).modChan c (Channel.replacing p old)).format = some f ∧
    res = resolutionFor f c p ((letGo c old.src (grantTake c p s)).modChan c (Channel.replacing p old)) := by
  have base := (TakenFor.grantTake c p s).letGo ne
  refine ⟨base.format.trans hf, ?_⟩
  rw [hres, ← base.resolution f]
  refine (resolutionFor_congr (s := letGo c old.src (grantTake c p s))
    (t := (letGo c old.src (grantTake c p s)).modChan c (Channel.replacing p old)) rfl ?_ ?_ ?_).symm <;>
    (rw [modChan_chan_same]; rfl)

theorem replaced_chan : (replaced c p old s).chan c = ((s.chan c).replacing p old).storing res := by
  obtain ⟨format, same⟩ := replacing_resolution ne hf hres
  rw [replaced, resolveFor_chan format, ← same, modChan_chan_same, letGo_chan, grantTake_chan]

theorem replaced_degraded : (replaced c p old s).notices.raw.hasChan c .degraded
    = s.notices.raw.hasChan c .degraded := by
  obtain ⟨format, same⟩ := replacing_resolution ne hf hres
  rw [Bool.eq_iff_iff, replaced, resolveFor_hasChan format, modChan_notices, letGo_hasChan, grantTake_hasChan]
  simp

theorem replaced_forcedOut (forced : res.outcome = .forcedOut) :
    (replaced c p old s).notices.raw.hasChan c .forcedOut = true := by
  obtain ⟨format, same⟩ := replacing_resolution ne hf hres
  rw [replaced, resolveFor_hasChan format, ← same]
  exact .inr (.inr ⟨rfl, forced⟩)

theorem doHandover_forcedOut (cur : (s.chan c).cur = some old) (free : checkTake c p s = none)
    (inset : (s.chan c).inset = .forcedOut) : doHandover c p n claim s =
      (if res.outcome = .forcedOut then replaced c p old s
        else fadeIn c 6 ((replaced c p old s).modChan c (fun ch => { ch with cur := some ⟨p, 0, none⟩ }.showDirect)),
        none) := by
  obtain ⟨format, same⟩ := replacing_resolution ne hf hres
  have outcome : (resolveFor c p ((letGo c old.src (grantTake c p s)).modChan c (Channel.replacing p old))).2
      = res.outcome := by rw [resolveFor_snd format, ← same]
  have notCur : decide ((s.chan c).cur.map OnAir.src = some p) = false := by simp [cur, ne]
  unfold doHandover
  rw [notCur, inset]
  show handOverForcedOut c p s = _
  unfold handOverForcedOut
  rw [free, cur]
  show (if (resolveFor c p ((letGo c old.src (grantTake c p s)).modChan c (Channel.replacing p old))).2 = .forcedOut then
    (replaced c p old s, none) else (fadeIn c 6 ((replaced c p old s).modChan c
      (fun ch => { ch with cur := some ⟨p, 0, none⟩ }.showDirect)), none)) = _
  rw [outcome]
  split <;> rfl

theorem replaced_onAir {r : Rect} (hr : res.rect = some r) :
    (fadeIn c 6 ((replaced c p old s).modChan c (fun ch => { ch with cur := some ⟨p, 0, none⟩ }.showDirect))).chan c =
      { ((s.chan c).replacing p old).storing res with
        shown := some ⟨r.x, r.y, r.h⟩, glide := none, inset := .fadingIn
        cur := some ⟨p, 0, some ⟨0, 1024, 6, 0⟩⟩ } := by
  rw [fadeIn_chan, modChan_chan_same, replaced_chan ne hf hres, showDirect_of_some (r := r) hr]
  rfl

end replaced

/-- What became of a source that its owner let go. -/
theorem letGone_gone {x y : Source} {b : Bool} (own : x.owner = some c)
    (st : x.state = .taken ∨ x.state = .releasing ∨ x.state = .lost) (hy : y = x.letGone c b) : y.owner = none ∧
      (x.state = .taken ∨ x.state = .releasing → y = { x with
        state := .ready, owner := none, cropReport := false, ring := { x.ring with inUse := none } }) ∧
      (x.state = .lost → y = { x with
        state := if b then .detecting else .absent
        owner := none, cropReport := false, ring := Ring.empty
        inRun := 0, outRun := 0, goodRun := 0, badRun := 0, rasterMark := false }) := by
  have freed := letGone_of_taken (b := b) own
  have dropped := letGone_of_lost (b := b) own
  refine ⟨?_, fun h => hy.trans (freed h), fun h => hy.trans (dropped h)⟩
  rcases st with st | st | st
  · rw [hy, freed (.inl st)]
  · rw [hy, freed (.inr st)]
  · rw [hy, dropped st]

/-- A hand-over outside HIDDEN and FORCED_OUT starts from a state with the named source taken. -/
theorem doHandover_starts (cur : (s.chan c).cur = some old) (ne : old.src ≠ p) (free : checkTake c p s = none)
    (visible : (s.chan c).inset ≠ .hidden) (forced : (s.chan c).inset ≠ .forcedOut)
    (out : (s.chan c).inset = .crossfade → ∀ u, (s.chan c).out = some u → u.src ≠ p) :
    ∃ w x, TakenFor c p s w ∧ x.src = old.src ∧ doHandover c p n claim s = (handOver c p n claim x w, none) := by
  by_cases crossfade : (s.chan c).inset = .crossfade
  · exact ⟨_, { old with level := 1024, fade := none }, TakenFor.complete (out crossfade), rfl,
      doHandover_crossfade cur ne free crossfade (out crossfade)⟩
  · refine ⟨_, old, TakenFor.grantTake c p s, rfl, doHandover_visible cur ne free ?_⟩
    cases h : (s.chan c).inset <;> simp_all

/-- A hand-over that starts from FADING_IN, SHOWN, FADING_OUT, HELD, or from a CROSSFADE that completes. -/
theorem doHandover_from (cur : (s.chan c).cur = some old) (ne : old.src ≠ p) (free : checkTake c p s = none)
    (start : (((s.chan c).inset = .fadingIn ∨ (s.chan c).inset = .shown ∨ (s.chan c).inset = .fadingOut ∨
          (s.chan c).inset = .held) ∧ (s.chan c).out = none ∧ o = old ∨
        (s.chan c).inset = .crossfade ∧ o = { old with level := 1024, fade := none } ∧
          ∃ u, (s.chan c).out = some u ∧ u.src ≠ old.src ∧ u.src ≠ p ∧ (s.src u.src).owner = some c ∧
            ((s.src u.src).state = .releasing ∨ (s.src u.src).state = .lost))) :
    ∃ w, TakenFor c p s w ∧ o.src = old.src ∧ w.src old.src = s.src old.src ∧
      w.hasSignal old.src = s.hasSignal old.src ∧ doHandover c p n claim s = (handOver c p n claim o w, none) ∧
      ∀ u, (s.chan c).inset = .crossfade → (s.chan c).out = some u → u.src ≠ old.src ∧
        w.src u.src = (s.src u.src).letGone c (s.hasSignal u.src) ∧ (s.src u.src).owner = some c ∧
        ((s.src u.src).state = .releasing ∨ (s.src u.src).state = .lost) := by
  rcases start with ⟨inset, out, rfl⟩ | ⟨crossfade, rfl, u, out, neOld, neP, own, st⟩
  · exact ⟨_, TakenFor.grantTake c p s, rfl, grantTake_src_ne c ne s, grantTake_hasSignal c p _ s,
      doHandover_visible cur ne free inset, fun u _ hu => by rw [out] at hu; cases hu⟩
  · have outP : ∀ v, (s.chan c).out = some v → v.src ≠ p := fun v hv => by
      rw [out, Option.some.injEq] at hv
      rwa [← hv]
    have src (q : Port) : (completeForHandover c (grantTake c p s)).src q = (letGo c u.src (grantTake c p s)).src q := by
      rw [completeForHandover_eq, outgoingGone_of_some (by rw [grantTake_chan]; exact out), modChan_src]
    have signal (q : Port) : (completeForHandover c (grantTake c p s)).hasSignal q = s.hasSignal q := by
      rw [completeForHandover_eq, outgoingGone_of_some (by rw [grantTake_chan]; exact out)]
      exact (letGo_hasSignal c u.src q _).trans (grantTake_hasSignal c p q s)
    refine ⟨_, TakenFor.complete outP, rfl, ?_, signal _, doHandover_crossfade cur ne free crossfade outP, fun v _ hv => ?_⟩
    · rw [src, letGo_src_ne c neOld.symm, grantTake_src_ne c ne]
    · rw [out, Option.some.injEq] at hv
      subst hv
      rw [src, letGo_src_same, grantTake_src_ne c neP, grantTake_hasSignal]
      exact ⟨neOld, rfl, own, st⟩

/-- Settles O52: HANDOVER by inset state, and by the three ends of a hand-over. -/
theorem handoverCrossfadesOrCuts : Obligations.HandoverCrossfadesOrCuts := by
  refine ⟨?_, ?_, ?_⟩
  · intro s f c p n claim old hf inset cur ne out ready st own fits
    have free : checkTake c p s = none := checkTake_ready ready
    have taken := TakenFor.grantTake c p s
    have hfw : (grantTake c p s).format = some f := taken.format.trans hf
    have hresw : resolutionFor f c p s = resolutionFor f c p (grantTake c p s) := (taken.resolution f).symm
    have onAir := doHandover_visible (n := n) (claim := claim) cur ne free (.inr (.inl inset))
    obtain ⟨r, hr⟩ : ∃ r, (resolutionFor f c p s).rect = some r :=
      Option.ne_none_iff_exists'.mp (mt (resolve_forcedOut_iff _ _ _ _ _).mpr fits)
    obtain ⟨_, rfl, home, -, resolved, -, -, -, glide, src⟩ :=
      handOver_always (n := n) (claim := claim) (old := old) hfw hresw
    have srcP := (src p ne.symm).trans taken.taken
    have srcOld : (grantTake c p s).src old.src = s.src old.src := grantTake_src_ne c ne s
    refine ⟨_, onAir, home, glide, by rw [srcP], by rw [srcP], resolved, fun pos spare => ?_, fun cuts => ?_⟩
    · obtain ⟨chan, srcs, spareT⟩ := handOver_crossfade (old := old) hfw hresw fits hr pos
        ((spareAtHand_congr taken.spare).trans (spareAtHand_iff.mpr spare))
      rw [chan, srcs, beginRelease_src_same, srcOld, if_pos ⟨st, own⟩, spareT, taken.spare, taken.rect]
      exact ⟨rfl, rfl, rfl, rfl, rfl, rfl⟩
    · obtain ⟨chan, srcs, -, degraded⟩ := handOver_cut (old := old) hfw hresw fits hr (taken.not_spareAtHand cuts)
      rw [chan, srcs, letGo_src_same, srcOld, letGone_of_taken own (.inl st), degraded]
      exact ⟨rfl, rfl, rfl, rfl, rfl, fun pos => by simp [pos]⟩
  · intro s t c p n claim why o ht visible cur
    refine ⟨fun same => ?_, fun e ne out refused => ?_⟩
    · rw [doHandover_same cur visible same, Prod.mk.injEq] at ht
      exact ht
    · rw [doHandover_refused cur ne visible out refused, Prod.mk.injEq] at ht
      exact ht
  · intro s t f c p n claim old res why gone ht hf cur ne ready own hres hgone st
    replace hres : res = resolutionFor f c p s := hres
    have free : checkTake c p s = none := checkTake_ready ready
    have rect : res.outcome ≠ .forcedOut → ∃ r, res.rect = some r := fun fits => by
      rw [hres] at fits ⊢
      exact Option.ne_none_iff_exists'.mp (mt (resolve_forcedOut_iff _ _ _ _ _).mpr fits)
    refine ⟨fun visible out => ?_, fun x start => ?_, fun inset => ?_⟩
    · by_cases forced : (s.chan c).inset = .forcedOut
      · have srcP : (replaced c p old s).src p = { s.src p with state := .taken, owner := some c } := by
          rw [replaced_src, letGo_src_ne c ne.symm, grantTake_src_same]
        rw [doHandover_forcedOut ne hf hres cur free forced, Prod.mk.injEq] at ht
        obtain ⟨ht, rfl⟩ := ht
        by_cases off : res.outcome = .forcedOut
        · rw [if_pos off] at ht
          subst ht
          rw [replaced_chan ne hf hres, srcP]
          exact ⟨rfl, rfl, rfl, rfl, rfl, rfl, fun _ => ⟨replaced_forcedOut ne hf hres off, forced⟩⟩
        · obtain ⟨r, hr⟩ := rect off
          rw [if_neg off] at ht
          subst ht
          rw [replaced_onAir ne hf hres hr]
          exact ⟨rfl, rfl, srcP, rfl, rfl, rfl, fun is => absurd is off⟩
      · obtain ⟨w, x, taken, same, eq⟩ := doHandover_starts (n := n) (claim := claim) cur ne free visible forced out
        rw [eq, Prod.mk.injEq] at ht
        obtain ⟨rfl, rfl⟩ := ht
        have hfw : w.format = some f := taken.format.trans hf
        have hresw : res = resolutionFor f c p w := hres.trans (taken.resolution f).symm
        obtain ⟨_, rfl, home, exit, resolved, outcome, -, -, -, src⟩ :=
          handOver_always (n := n) (claim := claim) (old := x) hfw hresw
        refine ⟨rfl, home, ?_, exit, resolved, outcome, fun off => ?_⟩
        · rw [src p (by rw [same]; exact ne.symm), taken.taken]
        · obtain ⟨chan, -, -, notice⟩ := handOver_forced (n := n) (claim := claim) (old := x) hfw hresw off
          rw [chan]
          exact ⟨notice, rfl⟩
    · obtain ⟨w, taken, same, srcW, signalW, eq, outgoing⟩ := doHandover_from (n := n) (claim := claim) cur ne free start
      rw [eq, Prod.mk.injEq] at ht
      obtain ⟨rfl, -⟩ := ht
      have hfw : w.format = some f := taken.format.trans hf
      have hresw : res = resolutionFor f c p w := hres.trans (taken.resolution f).symm
      have goneOld (left : (handOver c p n claim x w).src old.src = (letGo c x.src w).src old.src) : gone old.src := by
        rw [hgone]
        refine letGone_gone own st (left.trans ?_)
        rw [same, letGo_src_same, srcW, signalW]
      obtain ⟨_, rfl, -, -, -, -, hold, paused, glide, src⟩ :=
        handOver_always (n := n) (claim := claim) (old := x) hfw hresw
      refine ⟨hold, paused, glide, fun u crossfade out => ?_, fun r fits hr => ⟨?_, fun pos spare => ?_, fun cuts => ?_⟩,
        fun off => ?_⟩
      · obtain ⟨neOld, srcU, ownU, stU⟩ := outgoing u crossfade out
        rw [hgone]
        exact letGone_gone ownU (.inr stU) ((src u.src (by rw [same]; exact neOld)).trans srcU)
      · by_cases fades : 0 < n ∧ spareAtHand c claim w = true
        · rw [(handOver_crossfade (old := x) hfw hresw fits hr fades.1 fades.2).1]
        · rw [(handOver_cut (old := x) hfw hresw fits hr fades).1]
      · have atHand : spareAtHand c claim w = true := by
          rw [spareAtHand_congr taken.spare]
          exact spareAtHand_iff.mpr spare
        obtain ⟨chan, srcs, spareT⟩ := handOver_crossfade (old := x) hfw hresw fits hr pos atHand
        have srcOld : (handOver c p n claim x w).src old.src = if (s.src old.src).state = .taken ∧
            (s.src old.src).owner = some c then { s.src old.src with state := .releasing } else s.src old.src := by
          rw [srcs, same, beginRelease_src_same, srcW]
        rw [chan, srcOld, spareT, taken.spare, taken.rect]
        refine ⟨rfl, rfl, rfl, rfl, ?_, ?_, rfl⟩
        · split
          · exact own
          · exact own
        · rcases st with st | st | st <;> simp [st, own]
      · have cut := taken.not_spareAtHand cuts
        obtain ⟨chan, srcs, spareT, degraded⟩ := handOver_cut (old := x) hfw hresw fits hr cut
        rw [chan, spareT, taken.spare, degraded, taken.degraded]
        refine ⟨rfl, rfl, rfl, rfl, goneOld (srcs _), rfl, fun pos => ?_, fun zero => ?_⟩
        · simp [pos]
        · simp [zero]
      · obtain ⟨chan, srcs, spareT, -⟩ := handOver_forced (n := n) (claim := claim) (old := x) hfw hresw off
        rw [chan, spareT, taken.spare]
        exact ⟨rfl, rfl, rfl, goneOld (srcs _), rfl⟩
    · have srcOld : (replaced c p old s).src old.src = (s.src old.src).letGone c (s.hasSignal old.src) := by
        rw [replaced_src, letGo_src_same, grantTake_src_ne c ne, grantTake_hasSignal]
      have goneOld : gone old.src := by
        rw [hgone]
        refine letGone_gone own st (Eq.trans ?_ srcOld)
        rw [doHandover_forcedOut ne hf hres cur free inset, Prod.mk.injEq] at ht
        obtain ⟨rfl, -⟩ := ht
        split <;> rfl
      rw [doHandover_forcedOut ne hf hres cur free inset, Prod.mk.injEq] at ht
      obtain ⟨ht, -⟩ := ht
      by_cases off : res.outcome = .forcedOut
      · rw [if_pos off] at ht
        subst ht
        exact ⟨goneOld, replaced_spare, replaced_degraded ne hf hres, fun r fits => absurd off fits,
          fun _ => by rw [replaced_chan ne hf hres]; rfl⟩
      · rw [if_neg off] at ht
        subst ht
        refine ⟨goneOld, replaced_spare, replaced_degraded ne hf hres, fun r _ hr => ?_, fun is => absurd is off⟩
        rw [replaced_onAir ne hf hres hr]
        exact ⟨rfl, rfl, rfl, rfl⟩

end Sys2Proof.Machine
end

section
/-! PROOFS. The actions of the placement resolver and the zone table, MARK and STANDBY (sections 5.5 to 5.7, 6.2
and 7.4). -/

namespace Sys2Proof.Machine

variable {s t w : State} {c d : Chan} {p q : Port} {f : Format} {o u old : OnAir} {res : Resolution} {n : Nat}

/-! ### A resolution that fits (R85, R90) -/

/-- A resolution that fits on air: the rectangle held stands, and another is the glide's target. -/
theorem resolveVisible_fits (hf : s.format = some f) (hidden : (s.chan c).inset ≠ .hidden)
    (off : (s.chan c).inset ≠ .forcedOut) (cur : (s.chan c).cur = some o) (hres : res = resolutionFor f c o.src s)
    (fits : res.outcome ≠ .forcedOut) (n : Nat) : (resolveVisible c n s).1.chan c =
      if res.outcome = .heldPlace then (s.chan c).storing res else ((s.chan c).storing res).glideToResolved n := by
  have stored := resolveFor_chan hf c o.src
  rw [← hres] at stored
  have onAir : ((resolveFor c o.src s).1.chan c).inset ≠ .forcedOut := by
    rw [stored]
    exact off
  rw [resolveVisible_eq hf hidden cur, ← hres, handOn, if_neg fits]
  by_cases held : res.outcome = .heldPlace
  · rw [if_pos ⟨held, onAir⟩, if_pos held, stored]
  · rw [if_neg (fun h => held h.1), if_neg held, reactFitting_of_ne onAir, modChan_chan_same, stored]

theorem glideToResolved_inset (ch : Channel) (n : Nat) : (ch.glideToResolved n).inset = ch.inset := by
  unfold Channel.glideToResolved
  split
  · dsimp only
    split <;> split <;> rfl
  · unfold Channel.showDirect
    split <;> rfl
  · rfl

/-- A rectangle that is shown already, or that the running glide goes to, changes nothing. -/
theorem glideToResolved_same {ch : Channel} {r : Rect} {v : Shown} (h : ch.resolved = some r) (shown : ch.shown = some v)
    (same : ch.glide = none ∧ v = ⟨r.x, r.y, r.h⟩ ∨ ∃ g, ch.glide = some g ∧ g.target = ⟨r.x, r.y, r.h⟩) (n : Nat) :
    ch.glideToResolved n = ch := by
  unfold Channel.glideToResolved
  rcases same with ⟨still, same⟩ | ⟨g, glide, same⟩
  · simp [h, shown, still, same]
  · simp [h, shown, glide, same]

/-- Another rectangle starts a glide from the shown placement, in place of one that runs. -/
theorem glideToResolved_other {ch : Channel} {r : Rect} {v : Shown} (h : ch.resolved = some r) (shown : ch.shown = some v)
    (other : ch.glide = none ∧ v ≠ ⟨r.x, r.y, r.h⟩ ∨ ∃ g, ch.glide = some g ∧ g.target ≠ ⟨r.x, r.y, r.h⟩) (n : Nat) :
    ch.glideToResolved n = { ch with glide := some ⟨v, ⟨r.x, r.y, r.h⟩, n, 0⟩ } := by
  unfold Channel.glideToResolved
  rcases other with ⟨still, ne⟩ | ⟨g, glide, ne⟩
  · simp [h, shown, still, ne, Channel.startGlide]
  · simp [h, shown, glide, ne, Channel.startGlide]

/-- A resolution clears no notice. -/
theorem resolveVisible_hasChan {k : ChanKind} (h : s.notices.raw.hasChan d k = true) :
    (resolveVisible c n s).1.notices.raw.hasChan d k = true := by
  have stored (p : Port) : (resolveFor c p s).1.notices.raw.hasChan d k = true := by
    cases hf : s.format with
    | none =>
      unfold resolveFor
      rwa [hf]
    | some f =>
      rw [resolveFor_eq hf, raiseFault_hasChan]
      exact .inl h
  unfold resolveVisible
  split
  · exact h
  · split
    · exact h
    next o _ =>
      have taken := handOn_hasChan c d n (resolveFor c o.src s).2 k (resolveFor c o.src s).1
      exact taken.trans (stored o.src)

/-! ### PLACE, PUSH and POP (R87 to R89) -/

theorem doPlace_eq (c : Chan) (b : Block) (g : Option Nat) (s : State) : doPlace c b g s =
    (resolveVisible c (g.getD (s.chan c).defaultGlide) (s.modChan c (fun x => { x with requested := b }))).1 := by
  unfold doPlace
  dsimp only
  rw [modChan_chan_same]

theorem doPlace_asked (c : Chan) (b : Block) (g : Option Nat) (s : State) :
    ((doPlace c b g s).chan c).asked = ({ s.chan c with requested := b } : Channel).asked := by
  rw [doPlace_eq]
  refine (SameAsked.resolveVisible SameAsked.rfl _).trans ?_
  rw [modChan_chan_same]

theorem doPlace_requested (c : Chan) (b : Block) (g : Option Nat) (s : State) :
    ((doPlace c b g s).chan c).requested = b := congrArg (fun v => v.2.2.2.1) (doPlace_asked c b g s)

theorem doPlace_stack (c : Chan) (b : Block) (g : Option Nat) (s : State) :
    ((doPlace c b g s).chan c).stack = (s.chan c).stack := congrArg (fun v => v.2.2.2.2.1) (doPlace_asked c b g s)

theorem doPush_room (h : (s.chan c).stack.length < 4) (b : Block) (g : Option Nat) : doPush c b g s =
    doPlace c b g (s.modChan c (fun x => { x with stack := x.stack ++ [x.requested] })) := by
  have room : decide (4 ≤ (s.chan c).stack.length) = false := by simpa using h
  rw [doPlace_eq, modChan_modChan, modChan_chan_same]
  unfold doPush
  dsimp only
  simp only [room, Bool.false_eq_true, ↓reduceIte, modChan_chan_same]

theorem doPush_full (h : 4 ≤ (s.chan c).stack.length) (b : Block) (g : Option Nat) : doPush c b g s =
    doPlace c b g (raiseChan c .stackSpill (s.modChan c (fun x => { x with
      stack := x.stack.drop 1 ++ [x.requested] }))) := by
  have full : decide (4 ≤ (s.chan c).stack.length) = true := by simpa using h
  rw [doPlace_eq, raiseChan_modChan, modChan_modChan, raiseChan_chan, modChan_chan_same]
  unfold doPush
  dsimp only
  simp only [full, ↓reduceIte, raiseChan_chan, modChan_chan_same]

theorem doPop_empty (h : (s.chan c).stack = []) (g : Option Nat) :
    doPop c g s = (raiseChan c .stackSpill s, some .emptyStack) := by
  rw [doPop, h]
  rfl

theorem doPop_top {l : List Block} {x : Block} (h : (s.chan c).stack = l ++ [x]) (g : Option Nat) :
    doPop c g s = (doPlace c x g (s.modChan c (fun y => { y with stack := l })), none) := by
  have popped : s.modChan c (fun ch => { ch with stack := ch.stack.dropLast, requested := x })
      = s.modChan c (fun ch => { ch with stack := l, requested := x }) :=
    modChan_congr (by rw [h, List.dropLast_concat])
  rw [doPlace_eq, modChan_modChan, modChan_chan_same]
  unfold doPop
  rw [h, List.getLast?_concat]
  dsimp only
  rw [popped, modChan_chan_same]

/-! ### ZONE (R100, R101) -/

theorem doZone_undefined {i : Nat} (h : (zoneAt (s.chan c).zones i).defined = false) (e : Option Dated) :
    doZone c i true e s = (s, some .noZone) := by
  unfold doZone
  dsimp only
  rw [h]
  rfl

theorem doZone_changes {i : Nat} {on : Bool} (h : on = false ∨ (zoneAt (s.chan c).zones i).defined = true)
    (e : Option Dated) : doZone c i on e s = ((changeZones c ((s.chan c).zones.set i { zoneAt (s.chan c).zones i with
      active := on, expiry := if on then e else none }) s).1, none) := by
  unfold doZone
  dsimp only
  cases on with
  | false => rfl
  | true =>
    rw [h.resolve_left (by simp)]
    rfl

/-- Settles O53: each action by what it does. -/
theorem placementZoneMarkerActions : Obligations.PlacementZoneMarkerActions := by
  refine ⟨?_, fun s c b g => ⟨fun room => doPush_room room b g, fun full => doPush_full full b g, ?_, fun room => ?_,
    fun full => ⟨?_, ?_⟩, fun empty => doPop_empty empty g, fun l x stack => ⟨doPop_top stack g, ?_, ?_⟩⟩, ?_,
    fun s c k b g i n p q on e => ⟨rfl, rfl, rfl, rfl, rfl, rfl, rfl, rfl, rfl⟩⟩
  · intro s t c b g ht
    have eq := ht.trans (doPlace_eq c b g s)
    refine ⟨fun hidden => ?_, by rw [ht, doPlace_requested], by rw [ht, doPlace_stack], eq,
      fun f o res hf cur hidden hres => ?_⟩
    · rw [eq, resolveVisible_hidden (by rw [modChan_chan_same]; exact hidden)]
    · have chan : (s.modChan c (fun x => { x with requested := b })).chan c = { s.chan c with requested := b } :=
        modChan_chan_same s c _
      have same : res = resolutionFor f c o.src (s.modChan c (fun x => { x with requested := b })) := by
        rw [hres, resolutionFor, chan]
        rfl
      have handedOn := resolutionIsHandedOn.2.1 (s.modChan c (fun x => { x with requested := b })) t f c o
        (g.getD (s.chan c).defaultGlide) res hf (by rw [chan]; exact hidden) (by rw [chan]; exact cur) same eq
      rw [chan] at handedOn
      obtain ⟨-, resolved, outcome, -, -, -, notices, forced, back⟩ := handedOn
      refine ⟨resolved, outcome, fun r v m off fits hr shown hm => ?_, fun r off clear st fits hr => ?_, fun is => ?_⟩
      · have left := resolveVisible_fits (s := s.modChan c (fun x => { x with requested := b })) hf
          (by rw [chan]; exact hidden) (by rw [chan]; exact off) (by rw [chan]; exact cur) same fits m
        rw [hm, ← eq, ← hm, chan] at left
        rw [left]
        obtain ⟨ch, hch⟩ : ∃ ch, ch = ({ s.chan c with requested := b } : Channel).storing res := ⟨_, rfl⟩
        rw [← hch]
        have rect : ch.resolved = some r := by rw [hch]; exact hr
        have shownC : ch.shown = some v := by rw [hch]; exact shown
        have glideC : ch.glide = (s.chan c).glide := by rw [hch]; rfl
        have curC : ch.cur = some o := by rw [hch]; exact cur
        have insetC : ch.inset = (s.chan c).inset := by rw [hch]; rfl
        rw [← glideC, ← insetC]
        by_cases held : res.outcome = .heldPlace
        · rw [if_pos held]
          exact ⟨rfl, curC, fun ne => absurd held ne, fun _ => ⟨shownC, rfl⟩⟩
        · rw [if_neg held]
          refine ⟨glideToResolved_inset ch m, (glideToResolved_cur ch m).trans curC,
            fun _ => ⟨fun still at_ => ?_, fun g' glide target => ?_, fun other => ?_⟩, fun is => absurd is held⟩
          · rw [glideToResolved_same rect shownC (.inl ⟨still, at_⟩)]
            exact ⟨shownC, still⟩
          · rw [glideToResolved_same rect shownC (.inr ⟨g', glide, target⟩)]
            exact ⟨shownC, glide⟩
          · rw [glideToResolved_other rect shownC other]
            exact ⟨shownC, rfl⟩
      · exact (back r fits hr off).1 clear st
      · obtain ⟨inset, -, -, -, fades, -⟩ := forced is
        refine ⟨(notices _).mpr (.inr (.inr ⟨rfl, is⟩)), inset, fun off => ?_⟩
        obtain ⟨fade, glide, -⟩ := fades off
        exact ⟨fade, glide⟩
  · rcases Nat.lt_or_ge (s.chan c).stack.length 4 with room | full
    · rw [doPush_room room, doPlace_requested]
    · rw [doPush_full full, doPlace_requested]
  · rw [doPush_room room, doPlace_stack, modChan_chan_same]
  · rw [doPush_full full, doPlace_stack, raiseChan_chan, modChan_chan_same]
  · rw [doPush_full full, doPlace_eq]
    refine resolveVisible_hasChan ?_
    rw [raiseChan_modChan, raiseChan_hasChan]
    simp
  · rw [doPop_top stack, doPlace_stack, modChan_chan_same]
  · rw [doPop_top stack, doPlace_requested]
  · intro s t c i on e why l ht hl
    refine ⟨?_, fun good => ?_⟩
    · rintro rfl undefined
      rw [doZone_undefined undefined, Prod.mk.injEq] at ht
      exact ht
    · rw [doZone_changes good, ← hl, Prod.mk.injEq] at ht
      obtain ⟨rfl, rfl⟩ := ht
      refine ⟨rfl, changeZones_zones c l s, fun same => ?_, fun changed => by rw [changeZones_changed changed],
        fun f o res hf cur hidden changed hres => ?_⟩
      · rcases same with hidden | same
        · exact changeZones_hidden hidden
        · rw [changeZones_same same]
      · have chan : (s.modChan c (fun x => { x with zones := l })).chan c = { s.chan c with zones := l } :=
          modChan_chan_same s c _
        have handedOn := resolutionIsHandedOn.2.1 (s.modChan c (fun x => { x with zones := l }))
          (changeZones c l s).1 f c o (s.chan c).defaultGlide res hf (by rw [chan]; exact hidden)
          (by rw [chan]; exact cur) (by rw [chan]; exact hres) (by rw [changeZones_changed changed])
        exact ⟨handedOn.2.1, handedOn.2.2.1⟩

end Sys2Proof.Machine
end

section
/-! PROOFS. Source ports (sections 3.2 and 3.3): a port frame start by the state of its source, and what the owner of
a source that is back makes of it (section 7.6). -/

namespace Sys2Proof.Machine

variable {s t w : State} {c d : Chan} {p q : Port} {f : Format} {o u old : OnAir} {n : Nat}

/-! ### Changes of one source, one after another -/

theorem modSrc_modSrc (s : State) (p : Port) (g h : Source → Source) :
    (s.modSrc p g).modSrc p h = s.modSrc p (fun x => h (g x)) := by
  unfold State.modSrc
  cases p <;> rfl

theorem changeSource_modSrc {g h : Source → Source} (ne : (h (g (s.src p))).state ≠ (g (s.src p)).state) :
    changeSource p h (s.modSrc p g) = raiseCard .sourceChange (s.modSrc p (fun x => h (g x))) := by
  rw [changeSource_of_ne (by rwa [modSrc_src_same]), modSrc_modSrc]

/-! ### An interval judged by the state of its source (R41 to R43, R50, R51) -/

theorem loseOwned_of_owner (own : (s.src p).owner = some c) (g : Source → Source) : loseOwned p g s =
    reportLoss c p (changeSource p (fun x => { g x with state := .lost, ring := x.ring.freeze }) s) := by
  rw [loseOwned, own]

theorem regain_of_owner (own : (s.src p).owner = some c) : regain p s =
    reportReturn c p (changeSource p (fun x => { x with state := .taken, ring := x.ring.resume }) s) := by
  rw [regain, own]

section judged
variable {y : Source}

/-- The card with a source as an interval leaves it. -/
def withSource (p : Port) (y : Source) (s : State) : State := s.modSrc p (fun _ => y)

theorem withSource_src : (withSource p y s).src p = y := by
  rw [withSource, modSrc_src_same]

theorem withSource_modSrc (g : Source → Source) : (withSource p y s).modSrc p g = withSource p (g y) s :=
  modSrc_modSrc s p _ g

theorem withSource_changes {g : Source → Source} (ne : (g y).state ≠ y.state) :
    changeSource p g (withSource p y s) = raiseCard .sourceChange (withSource p (g y) s) := by
  rw [changeSource_of_ne (by rwa [withSource_src]), withSource_modSrc]

theorem judgeDetecting_counts (inRun : y.inRun ≠ 8) (outRun : y.outRun ≠ 8) :
    judgeDetecting p (withSource p y s) = withSource p y s := by
  unfold judgeDetecting
  rw [withSource_src]
  simp [inRun, outRun]

theorem judgeDetecting_ready (st : y.state = .detecting) (inRun : y.inRun = 8) (mark : y.rasterMark = false) :
    judgeDetecting p (withSource p y s)
      = raiseCard .sourceChange (withSource p { y with state := .ready, ring := y.ring.begin } s) := by
  unfold judgeDetecting
  rw [withSource_src]
  dsimp only
  rw [if_pos ⟨inRun, mark⟩, withSource_changes (by simp [st]), ringBegin]
  exact congrArg (raiseCard .sourceChange) (withSource_modSrc (p := p) (fun x => { x with ring := x.ring.begin }))

theorem judgeDetecting_rejected (st : y.state = .detecting) (h : y.inRun = 8 ∧ y.rasterMark = true ∨ y.outRun = 8)
    (one : y.inRun = 8 → y.outRun ≠ 8) :
    judgeDetecting p (withSource p y s) = raiseCard .sourceChange (withSource p { y with state := .rejected } s) := by
  have wrong : ¬(y.inRun = 8 ∧ y.rasterMark = false) := by
    rintro ⟨inRun, mark⟩
    rcases h with ⟨-, set⟩ | outRun
    · rw [mark] at set
      cases set
    · exact one inRun outRun
  unfold judgeDetecting
  rw [withSource_src]
  dsimp only
  rw [if_neg wrong, if_pos (h.imp And.left id), withSource_changes (by simp [st])]

theorem judgeSource_counts (h : y.state = .detecting ∧ y.inRun ≠ 8 ∧ y.outRun ≠ 8 ∨ y.state = .rejected ∨
    y.state = .lost ∧ y.goodRun ≠ 8) : judgeSource p (withSource p y s) = withSource p y s := by
  unfold judgeSource
  rw [withSource_src]
  dsimp only
  rcases h with ⟨st, inRun, outRun⟩ | st | ⟨st, few⟩ <;> rw [st]
  · exact judgeDetecting_counts inRun outRun
  · exact if_neg few

theorem judgeSource_detecting (st : y.state = .detecting) :
    judgeSource p (withSource p y s) = judgeDetecting p (withSource p y s) := by
  unfold judgeSource
  rw [withSource_src]
  dsimp only
  rw [st]

theorem judgeSource_begins (st : y.state = .ready ∨ y.state = .taken ∨ y.state = .releasing) (few : y.badRun ≠ 3) :
    judgeSource p (withSource p y s) = withSource p { y with ring := y.ring.begin } s := by
  have begun : ringBegin p (withSource p y s) = withSource p { y with ring := y.ring.begin } s := withSource_modSrc _
  rw [← begun]
  unfold judgeSource
  rw [withSource_src]
  dsimp only
  rcases st with st | st | st <;> (rw [st]; exact if_neg few)

theorem judgeSource_readyLost (st : y.state = .ready) (bad : y.badRun = 3) : judgeSource p (withSource p y s) =
    raiseCard .sourceChange (withSource p (y.unqualified .absent) s) := by
  unfold judgeSource
  rw [withSource_src]
  dsimp only
  rw [st]
  exact (if_pos bad).trans (withSource_changes (by simp [st, Source.unqualified]))

theorem judgeSource_ownedLost (st : y.state = .taken ∨ y.state = .releasing) (bad : y.badRun = 3)
    (own : y.owner = some c) : judgeSource p (withSource p y s) =
      reportLoss c p (raiseCard .sourceChange (withSource p { y with state := .lost, ring := y.ring.freeze } s)) := by
  have lost : loseOwned p id (withSource p y s) =
      reportLoss c p (raiseCard .sourceChange (withSource p { y with state := .lost, ring := y.ring.freeze } s)) := by
    rw [loseOwned_of_owner (by rw [withSource_src]; exact own), withSource_changes]
    · rfl
    · rcases st with st | st <;> simp [st]
  rw [← lost]
  unfold judgeSource
  rw [withSource_src]
  dsimp only
  rcases st with st | st <;> (rw [st]; exact if_pos bad)

theorem judgeSource_returns (st : y.state = .lost) (good : y.goodRun = 8) (own : y.owner = some c) :
    judgeSource p (withSource p y s) =
      reportReturn c p (raiseCard .sourceChange (withSource p { y with state := .taken, ring := y.ring.resume } s)) := by
  have back : regain p (withSource p y s) =
      reportReturn c p (raiseCard .sourceChange (withSource p { y with state := .taken, ring := y.ring.resume } s)) := by
    rw [regain_of_owner (by rw [withSource_src]; exact own), withSource_changes (by simp [st])]
  rw [← back]
  unfold judgeSource
  rw [withSource_src]
  dsimp only
  rw [st]
  exact if_pos good

end judged

/-! ### A port frame start (R39, R40) -/

section frame
variable {W H : Half} (running : s.running = true)
include running

theorem portFrameStart_absent (st : (s.src p).state = .absent) : portFrameStart p W H s =
    raiseCard .sourceChange (s.modSrc p (fun x => (noteRaster (s.hasSignal p) W H
      { x with lastStart := some s.now, measuring := true }).unqualified .detecting)) := by
  unfold portFrameStart
  rw [if_pos (hearsInputs_of_running running), if_pos running, if_pos st, modSrc_modSrc, changeSource_modSrc]
  simp [Source.unqualified, noteRaster, st]

theorem portFrameStart_starts (st : (s.src p).state ≠ .absent) (first : (s.src p).measuring = false) :
    portFrameStart p W H s = s.modSrc p (fun x => noteRaster (s.hasSignal p) W H
      { x with lastStart := some s.now, measuring := true }) := by
  unfold portFrameStart
  rw [if_pos (hearsInputs_of_running running), if_pos running, if_neg st, first, modSrc_modSrc]

theorem portFrameStart_ends {last : Nat} (st : (s.src p).state ≠ .absent) (measuring : (s.src p).measuring = true)
    (start : (s.src p).lastStart = some last) : portFrameStart p W H s =
      portInterval p (s.now - last) W H (s.modSrc p (fun x => { x with lastStart := some s.now, measuring := true })) := by
  unfold portFrameStart
  rw [if_pos (hearsInputs_of_running running), if_pos running, if_neg st, measuring, start]

end frame

/-- A source as the frame start that ends an interval stores it (R39). -/
def Source.measured (now interval : Nat) (W H : Half) (x : Source) : Source :=
  { x with lastStart := some now, measuring := true, lastInterval := storedInterval interval, lastW := W, lastH := H }

theorem portInterval_unset {W H : Half} (m k : Nat) (unset : s.format = none) :
    portInterval p m W H (s.modSrc p (fun x => { x with lastStart := some k, measuring := true })) =
      withSource p ((s.src p).measured k m W H) s := by
  unfold portInterval
  rw [modSrc_modSrc]
  dsimp only
  rw [modSrc_format, unset]
  rfl

theorem portInterval_judged {W H : Half} (m k : Nat) (hf : s.format = some f) :
    portInterval p m W H (s.modSrc p (fun x => { x with lastStart := some k, measuring := true })) =
      judgeSource p (withSource p (countRuns f m W H ((s.src p).measured k m W H)) s) := by
  unfold portInterval
  rw [modSrc_modSrc]
  dsimp only
  rw [modSrc_format, hf]
  dsimp only
  rw [modSrc_modSrc]
  rfl

/-- Settles O46: the port frame start by the source's state, and the owner told of a return. -/
theorem portFrameStartJudged : Obligations.PortFrameStartJudged := by
  refine ⟨?_, ?_⟩
  · rintro s s' p dt W H run hs'
    have running : s'.running = true := by rw [hs']; exact run
    have src : s'.src p = s.src p := by rw [hs']; rfl
    have row : exec (.portFrameStart p dt W H) s = .next (portFrameStart p W H s') := by rw [hs']; rfl
    rw [row]
    refine ⟨fun st => ?_, fun st first => ?_, fun last x measuring start short hx => ?_⟩
    · rw [portFrameStart_absent running (by rw [src]; exact st)]
      rfl
    · rw [portFrameStart_starts running (by rw [src]; exact st) (by rw [src]; exact first)]
      rfl
    · have same : (s.src p).measured s'.now (s'.now - last) W H = x := by
        rw [Source.measured, storedInterval, if_pos short, hx, ← measuring]
      refine ⟨fun unset st => ?_, ?_⟩
      · rw [portFrameStart_ends running (by rw [src]; exact st) (by rw [src]; exact measuring) (by rw [src]; exact start),
          portInterval_unset _ _ (by rw [hs']; exact unset), src, same]
        rfl
      · intro f inW good y hf hinW hgood hy
        have ends (st : (s.src p).state ≠ .absent) : portFrameStart p W H s' = judgeSource p (withSource p y s') := by
          rw [portFrameStart_ends running (by rw [src]; exact st) (by rw [src]; exact measuring) (by rw [src]; exact start),
            portInterval_judged _ _ (by rw [hs']; exact hf), src, same, hy]
          have raster : (f.inWindow (s'.now - last) && f.matchesRaster W.toNat H.toNat) = good := by
            rw [Bool.eq_iff_iff, hgood, hinW]
            simp [Format.matchesRaster]
          rw [countRuns, raster, ← hinW]
        have state : y.state = (s.src p).state := by rw [hy, hx]
        have owner : y.owner = (s.src p).owner := by rw [hy, hx]
        refine ⟨fun h => ?_, fun st inRun mark => ?_, fun st h => ?_, fun st few => ?_, fun st bad => ?_,
          fun c own => ⟨fun st bad => ?_, fun st back => ?_⟩⟩
        · have st : (s.src p).state ≠ .absent := by
            rcases h with ⟨st, -⟩ | st | ⟨st, -⟩ <;> simp [st]
          rw [ends st, judgeSource_counts (by rw [state]; exact h)]
          rfl
        · rw [ends (by simp [st]), judgeSource_detecting (by rw [state]; exact st),
            judgeDetecting_ready (by rw [state]; exact st) inRun mark]
          rfl
        · have one : y.inRun = 8 → y.outRun ≠ 8 := by
            rw [hy]
            dsimp only
            split <;> simp
          rw [ends (by simp [st]), judgeSource_detecting (by rw [state]; exact st),
            judgeDetecting_rejected (by rw [state]; exact st) h one]
          rfl
        · have present : (s.src p).state ≠ .absent := by
            rcases st with st | st | st <;> simp [st]
          rw [ends present, judgeSource_begins (by rw [state]; exact st) few]
          rfl
        · rw [ends (by simp [st]), judgeSource_readyLost (by rw [state]; exact st) bad]
          rfl
        · have present : (s.src p).state ≠ .absent := by
            rcases st with st | st <;> simp [st]
          rw [ends present, judgeSource_ownedLost (by rw [state]; exact st) bad (owner.trans own)]
          rfl
        · rw [ends (by simp [st]), judgeSource_returns (by rw [state]; exact st) back (owner.trans own)]
          rfl
  · intro s c p o cur
    refine ⟨fun same held k paused => ?_, fun h st own => ?_, fun same off clear => ?_⟩
    · have cur' : (s.chan c).cur.map OnAir.src = some p := by rw [cur, Option.map_some, same]
      rw [reportReturn, if_pos cur', held]
      refine modChan_congr ?_
      rw [resumeHeld, paused]
      cases k <;> rfl
    · rw [← beginRelease_of_taken st own]
      rcases h with ⟨same, fading | ⟨off, exit⟩⟩ | ⟨ne, u, out, same⟩
      · have cur' : (s.chan c).cur.map OnAir.src = some p := by rw [cur, Option.map_some, same]
        rw [reportReturn, if_pos cur', fading]
      · have cur' : (s.chan c).cur.map OnAir.src = some p := by rw [cur, Option.map_some, same]
        rw [reportReturn, if_pos cur', off]
        exact if_pos exit
      · have cur' : (s.chan c).cur.map OnAir.src ≠ some p := by simpa [cur] using ne
        rw [reportReturn, if_neg cur', if_pos (by rw [out, Option.map_some, same])]
    · have cur' : (s.chan c).cur.map OnAir.src = some p := by rw [cur, Option.map_some, same]
      rw [reportReturn, if_pos cur', off]
      exact if_neg (by simp [clear])

end Sys2Proof.Machine
end

section
/-! PROOFS. A silent port, and what the owner of a lost source makes of the loss (sections 3.3 and 7.6). -/

namespace Sys2Proof.Machine

variable {s t w : State} {c d : Chan} {p q : Port} {f : Format} {o u old : OnAir} {n : Nat} {res : Resolution}

/-! ### A silent port (R39, R41 to R43, R50, R51) -/

theorem exec_portSilence {last : Nat} (running : s.running = true) (start : (s.src p).lastStart = some last) :
    exec (.portSilence p) s = .next (fallSilent p { s with now := max s.now (last + s.silenceLimit) }) := by
  show Host.Outcome.next (portSilence p s) = _
  rw [portSilence, running, start]
  rfl

theorem fallSilent_unowned (st : (s.src p).state = .detecting ∨ (s.src p).state = .rejected ∨ (s.src p).state = .ready) :
    fallSilent p s = raiseCard .sourceChange (s.modSrc p (Source.unqualified .absent)) := by
  have changes : changeSource p (Source.unqualified .absent) s
      = raiseCard .sourceChange (s.modSrc p (Source.unqualified .absent)) :=
    changeSource_of_ne (by rcases st with st | st | st <;> simp [st, Source.unqualified])
  rw [← changes, fallSilent]
  rcases st with st | st | st <;> rw [st]

theorem fallSilent_gone (st : (s.src p).state = .absent ∨ (s.src p).state = .lost) :
    fallSilent p s = s.modSrc p Source.zeroed := by
  rw [fallSilent]
  rcases st with st | st <;> rw [st]

theorem fallSilent_owned (own : (s.src p).owner = some c)
    (st : (s.src p).state = .taken ∨ (s.src p).state = .releasing) : fallSilent p s =
      reportLoss c p (raiseCard .sourceChange (s.modSrc p (fun x => { x.zeroed with
        state := .lost, ring := x.ring.freeze }))) := by
  have lost : loseOwned p Source.zeroed s = reportLoss c p (raiseCard .sourceChange (s.modSrc p (fun x => { x.zeroed with
      state := .lost, ring := x.ring.freeze }))) := by
    rw [loseOwned_of_owner own, changeSource_of_ne]
    rcases st with st | st <;> simp [st]
  rw [← lost, fallSilent]
  rcases st with st | st <;> rw [st]

/-! ### The owner told of a loss (R126, R127, R129 to R131) -/

/-- A hold begins, and at a hold time of 0 ends at once. -/
theorem enterHold_pos (k : Paused) (pos : 0 < (s.chan c).holdTime) : enterHold c k s =
    s.modChan c (fun ch => { ch with inset := .held, paused := some k, holdCount := 0 }) := by
  unfold enterHold
  dsimp only
  rw [modChan_chan_same, if_neg (by exact (Nat.pos_iff_ne_zero.mp pos))]

theorem enterHold_zero (k : Paused) (zero : (s.chan c).holdTime = 0) : enterHold c k s =
    raiseChan c .holdExpired (s.modChan c (fun ch => { ch with
      inset := .fadingOut, paused := none, exitMark := true, holdCount := 0
      cur := ch.cur.map (fun o => o.fadeTo 0 12) })) := by
  unfold enterHold
  dsimp only
  rw [modChan_chan_same, if_pos (by exact zero), expireHold, modChan_modChan]

theorem enterHold_src (k : Paused) (q : Port) : (enterHold c k s).src q = s.src q := by
  unfold enterHold
  dsimp only
  split <;> rfl

theorem enterHold_spare (k : Paused) : (enterHold c k s).spare = s.spare := by
  unfold enterHold
  dsimp only
  split <;> rfl

theorem enterHold_displayed (k : Paused) : ((enterHold c k s).chan c).displayed = (s.chan c).displayed := by
  rcases Nat.eq_zero_or_pos (s.chan c).holdTime with zero | pos
  · rw [enterHold_zero k zero, raiseChan_chan, modChan_chan_same]
  · rw [enterHold_pos k pos, modChan_chan_same]

theorem enterHold_hasChan (k : Paused) {j : ChanKind} (h : s.notices.raw.hasChan d j = true) :
    (enterHold c k s).notices.raw.hasChan d j = true := by
  rcases Nat.eq_zero_or_pos (s.chan c).holdTime with zero | pos
  · rw [enterHold_zero k zero, raiseChan_hasChan, modChan_notices, h]
    rfl
  · rw [enterHold_pos k pos, modChan_notices, h]

section report
variable (s) (c) (p)

/-- The loss on air, by what can be taken in its place. -/
theorem lossOnAir_holds {k : Paused} (none_ : ∀ q, (s.chan c).standby = some q → checkTake c q s ≠ none) :
    lossOnAir c p k s = enterHold c k s := by
  unfold lossOnAir
  split
  · rfl
  next q standby =>
    cases h : checkTake c q s with
    | none => exact absurd h (none_ q standby)
    | some e => rfl

theorem lossOnAir_cuts {k : Paused} {q : Port} (standby : (s.chan c).standby = some q) (free : checkTake c q s = none) :
    lossOnAir c p k s = cutToStandby c p q s := by
  unfold lossOnAir
  rw [standby]
  dsimp only
  rw [free]

end report

section current
variable (cur : (s.chan c).cur = some o) (same : o.src = p)
include cur same

theorem reportLoss_goesOn (h : (s.chan c).inset = .fadingOut ∨ (s.chan c).inset = .held ∨
    (s.chan c).inset = .forcedOut ∧ o.fade ≠ none) : reportLoss c p s = raiseChan c .sourceLost s := by
  have here : (s.chan c).cur.map OnAir.src = some p := by rw [cur, Option.map_some, same]
  unfold reportLoss
  refine (if_pos here).trans ?_
  dsimp only [raiseChan_chan]
  rcases h with h | h | ⟨h, fades⟩
  · rw [h]
  · rw [h]
  · rw [h]
    show lossForcedOut c (raiseChan c .sourceLost s) = _
    rw [lossForcedOut, raiseChan_chan, cur]
    exact if_neg (by simpa using fades)

theorem reportLoss_onAir {k : Paused} (h : (s.chan c).inset = .fadingIn ∧ k = .fadingIn ∨
    (s.chan c).inset = .shown ∧ k = .shown) : reportLoss c p s = lossOnAir c p k (raiseChan c .sourceLost s) := by
  have here : (s.chan c).cur.map OnAir.src = some p := by rw [cur, Option.map_some, same]
  unfold reportLoss
  refine (if_pos here).trans ?_
  dsimp only [raiseChan_chan]
  rcases h with ⟨h, rfl⟩ | ⟨h, rfl⟩ <;> rw [h]

theorem reportLoss_incoming (h : (s.chan c).inset = .crossfade) :
    reportLoss c p s = lossIncoming c (raiseChan c .sourceLost s) := by
  have here : (s.chan c).cur.map OnAir.src = some p := by rw [cur, Option.map_some, same]
  unfold reportLoss
  refine (if_pos here).trans ?_
  dsimp only [raiseChan_chan]
  rw [h]

theorem reportLoss_offAir (h : (s.chan c).inset = .forcedOut) (ended : o.fade = none) :
    reportLoss c p s = letGoAndHide c (raiseChan c .sourceLost s) := by
  have here : (s.chan c).cur.map OnAir.src = some p := by rw [cur, Option.map_some, same]
  unfold reportLoss
  refine (if_pos here).trans ?_
  dsimp only [raiseChan_chan]
  rw [h]
  show lossForcedOut c (raiseChan c .sourceLost s) = _
  rw [lossForcedOut, raiseChan_chan, cur]
  exact if_pos (by simp [ended])

end current

theorem reportLoss_outgoing (cur : (s.chan c).cur = some o) (ne : o.src ≠ p) (out : (s.chan c).out = some u)
    (same : u.src = p) : reportLoss c p s = lossOutgoing c (raiseChan c .sourceLost s) := by
  have notHere : (s.chan c).cur.map OnAir.src ≠ some p := by simpa [cur] using ne
  unfold reportLoss
  exact (if_neg notHere).trans (if_pos (by rw [raiseChan_chan, out, Option.map_some, same]))

/-! ### The cut to the standby source (R126) -/

/-- The channel in which a cut to its standby source resolves. -/
def Channel.cutting (q : Port) (ch : Channel) : Channel :=
  { ch with cur := ch.cur.map (fun o => { o with src := q }), standby := none, home := some q }

/-- The card in which a cut to the standby source has resolved. -/
def cutResolved (c : Chan) (p q : Port) (s : State) : State :=
  (resolveFor c q ((letGo c p (grantTake c q s)).modChan c (Channel.cutting q))).1

theorem cutResolved_src (r : Port) : (cutResolved c p q s).src r = (letGo c p (grantTake c q s)).src r := by
  rw [cutResolved, resolveFor_src, modChan_src]

section cut
variable (ne : p ≠ q) (hf : s.format = some f) (hres : res = resolutionFor f c q s)
include ne hf hres

theorem cutting_resolution :
    ((letGo c p (grantTake c q s)).modChan c (Channel.cutting q)).format = some f ∧
      res = resolutionFor f c q ((letGo c p (grantTake c q s)).modChan c (Channel.cutting q)) := by
  have base := (TakenFor.grantTake c q s).letGo ne
  refine ⟨base.format.trans hf, ?_⟩
  rw [hres, ← base.resolution f]
  refine (resolutionFor_congr (s := letGo c p (grantTake c q s))
    (t := (letGo c p (grantTake c q s)).modChan c (Channel.cutting q)) rfl ?_ ?_ ?_).symm <;>
    (rw [modChan_chan_same]; rfl)

theorem cutResolved_chan : (cutResolved c p q s).chan c = ((s.chan c).cutting q).storing res := by
  obtain ⟨format, same⟩ := cutting_resolution ne hf hres
  rw [cutResolved, resolveFor_chan format, ← same, modChan_chan_same, letGo_chan, grantTake_chan]

theorem cutResolved_hasChan (k : ChanKind) : (cutResolved c p q s).notices.raw.hasChan c k = true ↔
    s.notices.raw.hasChan c k = true ∨ k = .placeFault ∧ res.outcome ≠ .asRequested ∧ (s.chan c).fault = none ∨
      k = .forcedOut ∧ res.outcome = .forcedOut := by
  obtain ⟨format, same⟩ := cutting_resolution ne hf hres
  rw [cutResolved, resolveFor_hasChan format, ← same, modChan_notices, letGo_hasChan, grantTake_hasChan,
    modChan_chan_same, letGo_chan, grantTake_chan]
  rfl

theorem cutToStandby_eq : cutToStandby c p q s =
    if res.outcome = .forcedOut then reactForcedOut c (cutResolved c p q s)
    else (cutResolved c p q s).modChan c Channel.showDirect := by
  obtain ⟨format, same⟩ := cutting_resolution ne hf hres
  have outcome : (resolveFor c q ((letGo c p (grantTake c q s)).modChan c (Channel.cutting q))).2 = res.outcome := by
    rw [resolveFor_snd format, ← same]
  show (if (resolveFor c q ((letGo c p (grantTake c q s)).modChan c (Channel.cutting q))).2 = .forcedOut then
    reactForcedOut c (cutResolved c p q s) else (cutResolved c p q s).modChan c Channel.showDirect) = _
  rw [outcome]

end cut

/-! ### What CH_READ shows after a loss (R95) -/

theorem resolveFor_displayed (c : Chan) (p : Port) (s : State) :
    ((resolveFor c p s).1.chan c).displayed = (s.chan c).displayed := by
  cases hf : s.format with
  | none =>
    unfold resolveFor
    rw [hf]
  | some f =>
    rw [resolveFor_chan hf]
    rfl

theorem displayed_of_stored {a b : Channel} (h : a.stored = b.stored) : a.displayed = b.displayed :=
  congrArg (fun v => v.2.2.2.1) h

theorem cutToStandby_displayed (c : Chan) (p q : Port) (s : State) :
    ((cutToStandby c p q s).chan c).displayed = (s.chan c).displayed := by
  have resolved : ((cutResolved c p q s).chan c).displayed = (s.chan c).displayed := by
    rw [cutResolved, resolveFor_displayed, modChan_chan_same, letGo_chan, grantTake_chan]
    rfl
  unfold cutToStandby
  dsimp only
  split
  · exact (displayed_of_stored (reactForcedOut_stored c _)).trans resolved
  · rw [modChan_chan_same]
    exact (displayed_of_stored (showDirect_stored _)).trans resolved

theorem letGoAndHide_hidden (c : Chan) (s : State) :
    ((letGoAndHide c s).chan c).inset = .hidden ∧ ((letGoAndHide c s).chan c).displayed = none := by
  unfold letGoAndHide
  split <;> (rw [modChan_chan_same]; exact ⟨rfl, rfl⟩)

/-- The shown placement stands after a loss, or is none in HIDDEN. -/
theorem reportLoss_displayed (c : Chan) (p : Port) (s : State) :
    ((reportLoss c p s).chan c).displayed = (s.chan c).displayed ∨
      ((reportLoss c p s).chan c).inset = .hidden ∧ ((reportLoss c p s).chan c).displayed = none := by
  have onAir (k : Paused) (r : State) : ((lossOnAir c p k r).chan c).displayed = (r.chan c).displayed := by
    unfold lossOnAir
    split
    · exact enterHold_displayed k
    · split
      · exact cutToStandby_displayed c p _ r
      · exact enterHold_displayed k
  unfold reportLoss
  dsimp only
  split
  · split
    · exact .inl rfl
    · exact .inl (onAir _ _)
    · exact .inl (onAir _ _)
    · exact .inl rfl
    · left
      rw [lossIncoming, enterHold_displayed, dropClaim_chan, completeForHandover_chan]
      rfl
    · exact .inl rfl
    · unfold lossForcedOut
      split
      · split
        · exact .inr (letGoAndHide_hidden c _)
        · exact .inl rfl
      · exact .inl rfl
  · split
    · left
      rw [lossOutgoing, modChan_chan_same, endCrossfade_chan]
      rfl
    · exact .inl rfl

section complete
variable (out : (s.chan c).out = some u)
include out

theorem completeForHandover_src (q : Port) : (completeForHandover c s).src q = (letGo c u.src s).src q := by
  rw [completeForHandover_eq, outgoingGone_of_some out, modChan_src]

theorem completeForHandover_spare : (completeForHandover c s).spare = s.spare := by
  rw [completeForHandover_eq, outgoingGone_of_some out, modChan_spare, letGo_spare]

theorem completeForHandover_hasChan (k : ChanKind) :
    (completeForHandover c s).notices.raw.hasChan d k = s.notices.raw.hasChan d k := by
  rw [completeForHandover_eq, outgoingGone_of_some out, modChan_notices, letGo_hasChan]

end complete

/-- Settles O47: the silent port by its source's state, the owner's part by its inset state. -/
theorem silentPortLosesItsSource : Obligations.SilentPortLosesItsSource := by
  refine ⟨?_, ?_⟩
  · intro s p last limit m running start hlimit hm
    have limitEq : limit = s.silenceLimit := by
      rw [hlimit, State.silenceLimit]
      cases s.format <;> rfl
    have row : exec (.portSilence p) s = .next (fallSilent p { s with now := m }) := by
      rw [exec_portSilence running start, hm, limitEq]
    rw [row]
    clear row
    obtain ⟨v, hv⟩ : ∃ v : State, v = { s with now := m } := ⟨_, rfl⟩
    have src : v.src p = s.src p := by rw [hv]; rfl
    have chan (c : Chan) : v.chan c = s.chan c := by rw [hv]; rfl
    rw [← hv]
    refine ⟨fun st => ?_, fun st => ?_, fun c t own ht => ?_⟩
    · rw [fallSilent_unowned (by rw [src]; exact st)]
      rfl
    · rw [fallSilent_gone (by rw [src]; exact st)]
      rfl
    · have lost (st : (s.src p).state = .taken ∨ (s.src p).state = .releasing) : fallSilent p v = reportLoss c p t := by
        rw [fallSilent_owned (by rw [src]; exact own) (by rw [src]; exact st), ht]
        rfl
      have chanT : t.chan c = s.chan c := by rw [ht]; exact chan c
      refine ⟨fun st => congrArg _ (lost st), fun o cur same => ⟨fun st inset => ?_, fun st inset standby pos => ?_⟩⟩
      · rw [lost (.inr st), reportLoss_goesOn (by rw [chanT]; exact cur) same (by rw [chanT]; exact .inl inset)]
      · rw [lost (.inl st), reportLoss_onAir (by rw [chanT]; exact cur) same (k := .shown)
          (by rw [chanT]; exact .inr ⟨inset, rfl⟩), lossOnAir_holds _ c p (fun q hq => ?_), enterHold_pos]
        · rw [raiseChan_chan, chanT]
          exact pos
        · rw [raiseChan_chan, chanT, standby] at hq
          cases hq
  · intro s t c p o ht cur
    subst ht
    have raised : (raiseChan c .sourceLost s).notices.raw.hasChan c .sourceLost = true := by
      rw [raiseChan_hasChan]
      simp
    refine ⟨reportLoss_displayed c p s, fun same going => reportLoss_goesOn cur same going, fun k same inset none_ => ?_,
      fun q f res same inset standby ready lost own hf hres => ?_, fun u inset out ne own st which => ?_,
      fun same inset ended lost own => ?_⟩
    · rw [reportLoss_onAir cur same inset, lossOnAir_holds (raiseChan c .sourceLost s) c p none_]
      refine ⟨fun pos => enterHold_pos k pos, fun zero => ?_⟩
      rw [enterHold_zero (s := raiseChan c .sourceLost s) k zero]
      refine congrArg _ (modChan_congr ?_)
      rw [raiseChan_chan, cur]
      rfl
    · obtain ⟨k, steady⟩ : ∃ k : Paused, (s.chan c).inset = .fadingIn ∧ k = .fadingIn ∨ (s.chan c).inset = .shown ∧ k = .shown :=
        inset.elim (fun h => ⟨.fadingIn, .inl ⟨h, rfl⟩⟩) (fun h => ⟨.shown, .inr ⟨h, rfl⟩⟩)
      have ne : p ≠ q := by
        rintro rfl
        rw [ready] at lost
        cases lost
      rw [reportLoss_onAir cur same steady, lossOnAir_cuts (raiseChan c .sourceLost s) c p standby (checkTake_ready ready)]
      generalize hr : raiseChan c .sourceLost s = r at raised
      have hfr : r.format = some f := by rw [← hr]; exact hf
      have hresr : res = resolutionFor f c q r := by rw [← hr]; exact hres
      have chanR : r.chan c = s.chan c := by rw [← hr]; rfl
      have srcR (i : Port) : r.src i = s.src i := by rw [← hr]; rfl
      have signal : r.hasSignal p = s.hasSignal p := by rw [← hr]; rfl
      have chan := cutResolved_chan ne hfr hresr
      have notices := cutResolved_hasChan ne hfr hresr
      have srcQ : (cutResolved c p q r).src q = { s.src q with state := .taken, owner := some c } := by
        rw [cutResolved_src, letGo_src_ne c ne.symm, grantTake_src_same, srcR]
      have srcP : (cutResolved c p q r).src p = (s.src p).dropped (s.hasSignal p) := by
        rw [cutResolved_src, letGo_src_same, grantTake_src_ne c ne, grantTake_hasSignal, srcR, signal,
          letGone_dropped own lost]
      rw [chanR] at chan
      rw [cutToStandby_eq ne hfr hresr]
      by_cases off : res.outcome = .forcedOut
      · have insetC : ((cutResolved c p q r).chan c).inset = (s.chan c).inset := by rw [chan]; rfl
        rw [if_pos off, reactForcedOut_of_visible (by rw [insetC]; rcases inset with h | h <;> simp [h])
          (by rw [insetC]; rcases inset with h | h <;> simp [h]) (by rw [insetC]; rcases inset with h | h <;> simp [h]),
          modChan_chan_same, modChan_src, modChan_src, modChan_notices, chan, srcQ, srcP]
        refine ⟨rfl, rfl, rfl, rfl, (notices _).mpr (.inl raised), rfl, rfl, rfl, fun r fits => absurd off fits,
          fun _ => ⟨rfl, ?_, (notices _).mpr (.inr (.inr ⟨rfl, off⟩))⟩⟩
        show ((s.chan c).cur.map _).map _ = _
        rw [cur]
        rfl
      · obtain ⟨rc, hrc⟩ : ∃ rc, res.rect = some rc := by
          rw [hres] at off ⊢
          exact Option.ne_none_iff_exists'.mp (mt (resolve_forcedOut_iff _ _ _ _ _).mpr off)
        rw [if_neg off, modChan_chan_same, modChan_src, modChan_src, modChan_notices, chan, srcQ, srcP,
          showDirect_of_some (r := rc) hrc]
        refine ⟨rfl, rfl, rfl, rfl, (notices _).mpr (.inl raised), rfl, rfl, rfl, fun r' _ hr' => ?_,
          fun is => absurd is off⟩
        obtain rfl : rc = r' := Option.some.inj (hrc.symm.trans hr')
        refine ⟨rfl, ?_, rfl, rfl⟩
        show (s.chan c).cur.map _ = _
        rw [cur]
        rfl
    · have gone := letGone_gone (y := (s.src u.src).letGone c (s.hasSignal u.src)) own (.inr st) rfl
      rcases which with same | same
      · have chanW : (dropClaim c .crossfade (completeForHandover c (raiseChan c .sourceLost s))).chan c =
            { s.chan c with
              inset := .shown, out := none, outRect := none, cur := some { o with level := 1024, fade := none } } := by
          rw [dropClaim_chan, completeForHandover_chan, raiseChan_chan, cur]
          rfl
        have outR : ((raiseChan c .sourceLost s).chan c).out = some u := out
        have noticeW : (dropClaim c .crossfade (completeForHandover c (raiseChan c .sourceLost s))).notices.raw.hasChan
            c .sourceLost = true := by
          rw [dropClaim_notices, completeForHandover_hasChan outR, raised]
        have srcT : (lossIncoming c (raiseChan c .sourceLost s)).src u.src
            = (s.src u.src).letGone c (s.hasSignal u.src) := by
          rw [lossIncoming, enterHold_src, dropClaim_src, completeForHandover_src outR, letGo_src_same]
          rfl
        have spareT : (lossIncoming c (raiseChan c .sourceLost s)).spare = s.spare.leave c .crossfade := by
          rw [lossIncoming, enterHold_spare, dropClaim, completeForHandover_spare outR]
          rfl
        have ended : ((lossIncoming c (raiseChan c .sourceLost s)).chan c).out = none ∧
            ((lossIncoming c (raiseChan c .sourceLost s)).chan c).outRect = none := by
          rw [lossIncoming]
          rcases Nat.eq_zero_or_pos ((dropClaim c .crossfade (completeForHandover c
            (raiseChan c .sourceLost s))).chan c).holdTime with zero | pos
          · rw [enterHold_zero _ zero, raiseChan_chan, modChan_chan_same, chanW]
            exact ⟨rfl, rfl⟩
          · rw [enterHold_pos _ pos, modChan_chan_same, chanW]
            exact ⟨rfl, rfl⟩
        rw [reportLoss_incoming cur same inset, srcT, spareT]
        refine ⟨ended.1, ended.2, rfl, gone.1, enterHold_hasChan _ noticeW, gone.2.1 ∘ .inr, gone.2.2,
          fun is => absurd (is.trans same.symm) ne, fun _ pos => ?_, fun _ zero => ?_⟩
        · rw [lossIncoming, enterHold_pos _ (by rw [chanW]; exact pos), modChan_chan_same, chanW]
          exact ⟨rfl, rfl, rfl, rfl⟩
        · rw [lossIncoming, enterHold_zero _ (by rw [chanW]; exact zero), raiseChan_chan, modChan_chan_same, chanW]
          refine ⟨rfl, rfl, rfl, ?_⟩
          rw [raiseChan_hasChan]
          simp
      · have notHere : o.src ≠ p := fun is => ne (same.trans is.symm)
        have outR : ((raiseChan c .sourceLost s).chan c).out = some u := out
        rw [reportLoss_outgoing cur notHere out same, lossOutgoing, modChan_chan_same, endCrossfade_chan, modChan_src,
          endCrossfade_src outR, letGo_src_same, modChan_spare, endCrossfade_spare, modChan_notices, endCrossfade_hasChan]
        exact ⟨rfl, rfl, rfl, gone.1, raised, gone.2.1 ∘ .inr, gone.2.2, fun _ => ⟨rfl, cur⟩,
          fun is => absurd is notHere, fun is => absurd is notHere⟩
    · rw [reportLoss_offAir cur same inset ended, letGoAndHide_of_some (by rw [raiseChan_chan]; exact cur),
        modChan_chan_same, letGo_chan, modChan_src, same, letGo_src_same, modChan_notices, letGo_hasChan, raised]
      refine ⟨rfl, ?_, ?_, rfl⟩
      · exact congrArg Source.owner (letGone_dropped own lost)
      · exact congrArg Source.state (letGone_dropped own lost)

end Sys2Proof.Machine
end

section
/-! PROOFS. The scaler pool and what becomes of one cue: it fires, is missed, becomes PREPARED or reverts
(Sections 7.8, 8.5 to 8.7). -/

namespace Sys2Proof.Machine

variable {c d : Chan} {s t : State} {k : Claimant} {l : List Claimant}

/-! ### The scaler pool (R134, R135) -/

theorem request_own : (Spare.held c l).request c k = (.held c (l.erase k ++ [k]), .granted) := if_pos rfl

theorem mem_erase_append (x : Claimant) : x ∈ l.erase k ++ [k] ↔ x ∈ l ∨ x = k := by
  by_cases h : x = k
  · simp [h]
  · simp [h, List.mem_erase_of_ne h]

theorem nodup_erase_append (nodup : l.Nodup) : (l.erase k ++ [k]).Nodup := by
  refine List.Nodup.append (nodup.erase k) (List.nodup_singleton k) ?_
  rintro x mem one
  exact (List.Nodup.mem_erase_iff nodup).mp mem |>.1 (List.mem_singleton.mp one)

theorem leave_own_last (last : l.erase k = []) : (Spare.held c l).leave c k = .free := by
  simp [Spare.leave, last]

theorem leave_own_more (more : l.erase k ≠ []) : (Spare.held c l).leave c k = .held c (l.erase k) := by
  unfold Spare.leave
  simp only [↓reduceIte]

/-- The pool's answers, for a channel that has the spare, one that does not, and nobody having it. -/
theorem spare_pool (other : d ≠ c) (nodup : l.Nodup) :
    Spare.free.request c k = (.held c [k], .granted) ∧
    (∃ m, (Spare.held c l).request c k = (.held c m, .granted) ∧ m.Nodup ∧ ∀ x, x ∈ m ↔ x ∈ l ∨ x = k) ∧
    (Spare.held d l).request c k = (.held d l, .refused) ∧
    Spare.free.leave c k = .free ∧ (Spare.held d l).leave c k = .held d l ∧
    ((∀ x ∈ l, x = k) → (Spare.held c l).leave c k = .free) ∧
    ((∃ x ∈ l, x ≠ k) → ∃ m, (Spare.held c l).leave c k = .held c m ∧ m.Nodup ∧ ∀ x, x ∈ m ↔ x ∈ l ∧ x ≠ k) ∧
    Spare.free.leaveAll c = .free ∧ (Spare.held c l).leaveAll c = .free ∧
    (Spare.held d l).leaveAll c = .held d l ∧ Spare.free.hasIt c = false ∧ (Spare.held c l).hasIt c = true ∧
    (Spare.held d l).hasIt c = false ∧ Spare.free.inUse = false ∧
    ((Spare.held c l).inUse = true ↔ .crossfade ∈ l) := by
  have left : ∀ x, x ∈ l.erase k ↔ x ∈ l ∧ x ≠ k := fun x =>
    (List.Nodup.mem_erase_iff nodup).trans and_comm
  refine ⟨rfl, ⟨_, request_own, nodup_erase_append nodup, mem_erase_append⟩, if_neg other, rfl, if_neg other,
    ?_, ?_, rfl, if_pos rfl, if_neg other, rfl, decide_eq_true rfl, decide_eq_false other, rfl,
    List.contains_iff_mem⟩
  · intro only
    exact leave_own_last (List.eq_nil_iff_forall_not_mem.mpr
      (fun x mem => ((left x).mp mem).2 (only x ((left x).mp mem).1)))
  · rintro ⟨x, mem, ne⟩
    exact ⟨_, leave_own_more (List.ne_nil_of_mem ((left x).mpr ⟨mem, ne⟩)), nodup.erase k, left⟩

theorem dropAnswer_eq (c : Chan) (k : Claimant) (a : SpareAns) (s : State) : dropAnswer c k a s =
    { s with spare := if a = .granted then s.spare.leave c k else s.spare } := by
  unfold dropAnswer
  split <;> rfl

/-! ### Firing and missing (R152 to R157) -/

/-- A fired cue's action works on the channel that the cue has left. -/
def fireResult (c : Chan) (s : State) (q : Cue) : State × Option Reason :=
  applyAction c q.action q.claim (s.modChan c (leaveList q.tag))

theorem fireResult_dispatcher (s : State) (q : Cue) :
    ((fireResult c s q).1.chan c).dispatcher = (leaveList q.tag (s.chan c)).dispatcher := by
  unfold fireResult
  rw [applyAction_dispatcher, modChan_chan_same]

theorem fireResult_label (s : State) (q : Cue) : ((fireResult c s q).1.chan c).label = (s.chan c).label := by
  have path := ((Keeps.rfl (c := c) (s := s.modChan c (leaveList q.tag))).applyAction q.action q.claim).path
  rw [modChan_chan_same] at path
  exact (congrArg (fun p => p.2.2.2.1) path :)

theorem fireCue_done {q : Cue} (done : (fireResult c s q).2 = none) :
    fireCue c s q = { (fireResult c s q).1.modChan c (fun x => { x with fired := (s.chan c).fired + 1 }) with
      spare := if q.claim = .granted then (fireResult c s q).1.spare.leave c (.cue q.tag)
        else (fireResult c s q).1.spare } := by
  have count : ((fireResult c s q).1.chan c).fired = (s.chan c).fired :=
    (congrArg (fun d => d.2.1.1) (fireResult_dispatcher s q) :)
  unfold fireCue countFired
  dsimp only
  rw [show applyAction c q.action q.claim (s.modChan c (leaveList q.tag)) = fireResult c s q from rfl, done,
    dropAnswer_eq]
  rw [← count]
  exact modChan_congr rfl

theorem fireCue_failed {q : Cue} {r : Reason} (failed : (fireResult c s q).2 = some r) :
    fireCue c s q = raiseChan c .cueFailed { (fireResult c s q).1.modChan c (fun x => { x with
        failed := (s.chan c).failed + 1, lastFailure := some ⟨q.tag, r, q.action, (s.chan c).label⟩ }) with
      spare := if q.claim = .granted then (fireResult c s q).1.spare.leave c (.cue q.tag)
        else (fireResult c s q).1.spare } := by
  have count : ((fireResult c s q).1.chan c).failed = (s.chan c).failed :=
    (congrArg (fun d => d.2.1.2.1) (fireResult_dispatcher s q) :)
  unfold fireCue countFired writeFailure
  dsimp only
  rw [show applyAction c q.action q.claim (s.modChan c (leaveList q.tag)) = fireResult c s q from rfl, failed,
    dropAnswer_eq]
  rw [← count, ← fireResult_label s q]
  dsimp only
  rw [modChan_modChan]
  exact congrArg _ (modChan_congr rfl)

theorem fireCue_chan_done {q : Cue} (done : (fireResult c s q).2 = none) :
    (fireCue c s q).chan c = { (fireResult c s q).1.chan c with fired := (s.chan c).fired + 1 } := by
  rw [fireCue_done done]
  exact modChan_chan_same (fireResult c s q).1 c (fun x => { x with fired := (s.chan c).fired + 1 })

theorem fireCue_chan_failed {q : Cue} {r : Reason} (failed : (fireResult c s q).2 = some r) :
    (fireCue c s q).chan c = { (fireResult c s q).1.chan c with
      failed := (s.chan c).failed + 1
      lastFailure := some ⟨q.tag, r, q.action, (s.chan c).label⟩ } := by
  rw [fireCue_failed failed]
  exact modChan_chan_same (fireResult c s q).1 c (fun x => { x with
    failed := (s.chan c).failed + 1, lastFailure := some ⟨q.tag, r, q.action, (s.chan c).label⟩ })

/-- What a fired cue leaves of the dispatcher: the cue is out of both lists, and one of the counters of
fired and failed cues is one higher. -/
theorem fireCue_dispatcher (s : State) (q : Cue) :
    ((fireCue c s q).chan c).deferred
      = (s.chan c).deferred.map (fun l => l.filter (fun n => decide (n ≠ q.tag))) ∧
    ((fireCue c s q).chan c).missed = (s.chan c).missed ∧
    ((fireCue c s q).chan c).removed = (s.chan c).removed ∧
    ((fireCue c s q).chan c).waiting = (s.chan c).waiting ∧
    ((fireCue c s q).chan c).heldBack = (s.chan c).heldBack ∧
    ((fireCue c s q).chan c).fired + ((fireCue c s q).chan c).failed
      = (s.chan c).fired + (s.chan c).failed + 1 := by
  have kept := fireResult_dispatcher (c := c) s q
  simp only [Channel.dispatcher, leaveList, Prod.mk.injEq] at kept
  obtain ⟨⟨-, deferred, held, waiting⟩, ⟨fired, failed, missed, removed⟩, -⟩ := kept
  cases h : (fireResult c s q).2 with
  | none =>
    rw [fireCue_chan_done h]
    refine ⟨deferred, missed, removed, waiting, held, ?_⟩
    dsimp only
    rw [failed, add_right_comm]
  | some r =>
    rw [fireCue_chan_failed h]
    refine ⟨deferred, missed, removed, waiting, held, ?_⟩
    dsimp only
    rw [fired, BitVec.add_assoc]

theorem fireCue_path (s : State) (q : Cue) : ((fireCue c s q).chan c).path = (s.chan c).path :=
  ((Keeps.rfl (c := c) (s := s)).fireCue q).path

theorem missCue_eq (c : Chan) (s : State) (q : Cue) : missCue c s q =
    raiseChan c .cueMissed { (s.modChan c (leaveList q.tag)).modChan c (fun x => { x with
      missed := (s.chan c).missed + 1 }) with
      spare := if q.claim = .granted then s.spare.leave c (.cue q.tag) else s.spare } := by
  have count : ((s.modChan c (leaveList q.tag)).chan c).missed = (s.chan c).missed :=
    (congrArg Channel.missed (modChan_chan_same s c (leaveList q.tag))).trans rfl
  unfold missCue
  rw [dropAnswer_eq, ← count]
  exact congrArg (fun t : State => raiseChan c .cueMissed { t with
    spare := if q.claim = .granted then s.spare.leave c (.cue q.tag) else s.spare }) (modChan_congr rfl)

/-! ### Preparing and reverting (R144, R148, R150) -/

theorem askForCue_eq (c : Chan) (tag : Nat) (a : Action) (s : State) : askForCue c tag a s =
    ({ s with spare := (if a.asksSpare then s.spare.request c (.cue tag) else (s.spare, .notAsked)).1 },
      (if a.asksSpare then s.spare.request c (.cue tag) else (s.spare, .notAsked)).2) := by
  unfold askForCue askSpare
  split <;> rfl

theorem asksSpare_handover {p : Port} {n : Nat} : (Action.handover p n).asksSpare = decide (0 < n) := rfl

/-- Only a HANDOVER with a count asks. -/
theorem asksSpare_false {a : Action} (h : (∀ p n, a ≠ .handover p n) ∨ ∃ p, a = .handover p 0) :
    a.asksSpare = false := by
  rcases h with never | ⟨p, rfl⟩
  · cases a with
    | handover p n => exact absurd rfl (never p n)
    | _ => rfl
  · rfl

theorem prepareCue_eq (c : Chan) (s : State) (q : Cue) : prepareCue c s q =
    { s.modChan c (setCue q.tag (fun y => { y with prepared := true, late := false, claim :=
        (if q.action.asksSpare then s.spare.request c (.cue q.tag) else (s.spare, .notAsked)).2 })) with
      spare := (if q.action.asksSpare then s.spare.request c (.cue q.tag) else (s.spare, .notAsked)).1 } := by
  unfold prepareCue
  rw [askForCue_eq]
  rfl

theorem revertCue_eq (c : Chan) (s : State) (q : Cue) : revertCue c s q =
    { s.modChan c (setCue q.tag (fun y => { y with prepared := false, late := false, claim := .notAsked })) with
      spare := if q.claim = .granted then s.spare.leave c (.cue q.tag) else s.spare } := by
  unfold revertCue
  rw [dropAnswer_eq]
  rfl

/-- Settles O39, by the fate of the cue: each is the model's operation written out, and what an action does to
its channel's dispatcher is `applyAction_dispatcher`. -/
theorem cueFiresIsMissedPreparedOrReverts : Obligations.CueFiresIsMissedPreparedOrReverts := by
  refine ⟨fun c d k l other nodup => spare_pool other nodup, ?_⟩
  rintro s t left c q rfl
  refine ⟨?_, fun h => h.trans (missCue_eq c s q), ?_, fun h => h.trans (revertCue_eq c s q)⟩
  · rintro rfl
    obtain ⟨deferred, missed, removed, waiting, -, -⟩ := fireCue_dispatcher (c := c) s q
    have path := fireCue_path (c := c) s q
    exact ⟨_, _, rfl, fireCue_done, fun r => fireCue_failed, fireCue_cues q, deferred, missed, removed,
      congrArg (fun p => p.1.1) path, congrArg (fun p => p.2.2.2.1) path, waiting,
      fun d ne => (Keeps.rfl.fireCue q).chan_ne ne⟩
  · rintro rfl
    refine ⟨_, _, fun never => ?_, fun p n asks pos => ?_, prepareCue_eq c s q⟩
    · rw [asksSpare_false never]
      exact ⟨rfl, rfl⟩
    · rw [asks, asksSpare_handover, decide_eq_true pos]
      rfl

end Sys2Proof.Machine
end

section
/-! PROOFS. What the operations of dispatch make of a channel's cue list and of its counters (Section 8.5): which
cues leave and are counted, and what stands. -/

namespace Sys2Proof.Machine

variable {c : Chan} {s t : State}

/-! ### The list after a midnight (R33, R139) -/

/-- What neither the next-day mark nor the entry sequence decides about a cue comes through a midnight. -/
theorem insertCleared_map {α : Type} (g : Cue → α)
    (hg : ∀ (q : Cue) (n : Nat), g { q with date := { q.date with next := false }, seq := n } = g q)
    (day l : List Cue) : ((insertCleared day l).map g).Perm ((day ++ l).map g) := by
  induction l generalizing day with
  | nil => simp [insertCleared]
  | cons q qs ih =>
    refine (ih _).trans ?_
    simp only [List.map_append, List.map_cons]
    refine (((insertCue_perm _ day).map g).append_right _).trans ?_
    rw [List.map_cons, hg]
    exact List.perm_middle.symm

theorem clearCueMarks_map {α : Type} (g : Cue → α)
    (hg : ∀ (q : Cue) (n : Nat), g { q with date := { q.date with next := false }, seq := n } = g q)
    (l : List Cue) : ((clearCueMarks l).map g).Perm (l.map g) := by
  refine (insertCleared_map g hg _ _).trans (List.Perm.map _ ?_)
  exact List.perm_append_comm.trans (List.filter_append_perm (fun q => q.date.next) l)

theorem mem_insertCleared_of_day {q : Cue} {day : List Cue} (l : List Cue) (h : q ∈ day) :
    q ∈ insertCleared day l := by
  induction l generalizing day with
  | nil => exact h
  | cons x xs ih => exact ih ((insertCue_perm _ day).mem_iff.mpr (List.mem_cons_of_mem _ h))

/-- A same-day cue comes through a midnight as it is. -/
theorem mem_clearCueMarks {q : Cue} {l : List Cue} (h : q ∈ l) (sameDay : q.date.next = false) :
    q ∈ clearCueMarks l :=
  mem_insertCleared_of_day _ (List.mem_filter.mpr ⟨h, by simp [sameDay]⟩)

/-! ### Cues that leave -/

/-- The cues of a list but for those whose tag is among the given ones. -/
def without (tags : List Nat) (l : List Cue) : List Cue := l.filter (fun x => !tags.contains x.tag)

theorem mem_without {tags : List Nat} {l : List Cue} {q : Cue} : q ∈ without tags l ↔ q ∈ l ∧ q.tag ∉ tags := by
  simp [without]

/-- In a list of distinct tags the cues picked leave and no other. -/
theorem without_picked {l : List Cue} (nodup : (l.map Cue.tag).Nodup) (p : Cue → Bool) :
    without ((l.filter p).map Cue.tag) l = l.filter (fun q => !p q) := by
  refine List.filter_congr (fun q hq => ?_)
  have only : q.tag ∈ (l.filter p).map Cue.tag ↔ p q = true := by
    refine ⟨fun mem => ?_, fun picked => List.mem_map_of_mem (List.mem_filter.mpr ⟨hq, picked⟩)⟩
    obtain ⟨y, hy, same⟩ := List.mem_map.mp mem
    obtain ⟨mem, picked⟩ := List.mem_filter.mp hy
    exact List.inj_on_of_nodup_map nodup mem hq same ▸ picked
  by_cases picked : p q = true
  · simp [picked, only.mpr picked]
  · simp only [Bool.not_eq_true] at picked
    simp [picked, only]

/-- Of a channel's dispatcher, what the cues that leave a list do not touch. -/
def Channel.standing (ch : Channel) : Mode × List Waiting × Bool × BitVec 16 :=
  (ch.mode, ch.waiting, ch.heldBack, ch.removed)

/-- From `s` to `t` the cues of the given tags left channel `c`'s list, `n` of them counted fired or failed and
`m` missed. -/
structure CuesLeave (c : Chan) (tags : List Nat) (n m : Nat) (s t : State) : Prop where
  cues : (t.chan c).cues = without tags (s.chan c).cues
  handled : (t.chan c).fired + (t.chan c).failed = (s.chan c).fired + (s.chan c).failed + BitVec.ofNat 16 n
  missed : (t.chan c).missed = (s.chan c).missed + BitVec.ofNat 16 m
  standing : (t.chan c).standing = (s.chan c).standing

theorem CuesLeave.refl : CuesLeave c [] 0 0 s s where
  cues := (List.filter_eq_self.mpr (fun _ _ => rfl)).symm
  handled := (add_zero _).symm
  missed := (add_zero _).symm
  standing := rfl

theorem CuesLeave.trans {tags tags' : List Nat} {n n' m m' : Nat} {u : State} (h : CuesLeave c tags n m s t)
    (k : CuesLeave c tags' n' m' t u) : CuesLeave c (tags ++ tags') (n + n') (m + m') s u where
  cues := by
    rw [k.cues, h.cues, without, without, without, List.filter_filter]
    refine List.filter_congr (fun q _ => ?_)
    simp [Bool.and_comm]
  handled := by rw [k.handled, h.handled, BitVec.ofNat_add, add_assoc]
  missed := by rw [k.missed, h.missed, BitVec.ofNat_add, add_assoc]
  standing := k.standing.trans h.standing

theorem leaveList_cues (q : Cue) (ch : Channel) : (leaveList q.tag ch).cues = without [q.tag] ch.cues := by
  refine List.filter_congr (fun x _ => ?_)
  simp [eq_comm]

/-- A cue that fires leaves and is counted fired or failed (R152, R157). -/
theorem fireCue_leaves (s : State) (q : Cue) : CuesLeave c [q.tag] 1 0 s (fireCue c s q) := by
  obtain ⟨-, missed, removed, waiting, held, handled⟩ := fireCue_dispatcher (c := c) s q
  exact {
    cues := (fireCue_cues q).trans (leaveList_cues q _)
    handled := handled
    missed := missed.trans (add_zero _).symm
    standing := by
      have mode : ((fireCue c s q).chan c).mode = (s.chan c).mode :=
        congrArg (fun p => p.1.1) (fireCue_path (c := c) s q)
      rw [Channel.standing, mode, waiting, held, removed]
      rfl }

theorem missCue_chan (q : Cue) :
    (missCue c s q).chan c = { leaveList q.tag (s.chan c) with missed := (s.chan c).missed + 1 } := by
  rw [missCue, raiseChan_chan, dropAnswer_chan, modChan_chan_same, modChan_chan_same]
  rfl

/-- A cue that is missed leaves and is counted missed (R156). -/
theorem missCue_leaves (s : State) (q : Cue) : CuesLeave c [q.tag] 0 1 s (missCue c s q) := by
  constructor
  all_goals rw [missCue_chan]
  · exact leaveList_cues q _
  · exact (add_zero _).symm
  · rfl
  · rfl

theorem foldl_fireCue_leaves (l : List Cue) (s : State) :
    CuesLeave c (l.map Cue.tag) l.length 0 s (l.foldl (fireCue c) s) := by
  induction l generalizing s with
  | nil => exact .refl
  | cons q l ih =>
    rw [List.length_cons, Nat.add_comm]
    exact (fireCue_leaves s q).trans (ih _)

theorem foldl_missCue_leaves (l : List Cue) (s : State) :
    CuesLeave c (l.map Cue.tag) 0 l.length s (l.foldl (missCue c) s) := by
  induction l generalizing s with
  | nil => exact .refl
  | cons q l ih =>
    rw [List.length_cons, Nat.add_comm]
    exact (missCue_leaves s q).trans (ih _)

theorem fireAll_leaves (due : Cue → Bool) (s : State) :
    CuesLeave c (((s.chan c).cues.filter due).map Cue.tag) ((s.chan c).cues.filter due).length 0 s (fireAll c due s) :=
  foldl_fireCue_leaves _ s

theorem missAll_leaves (p : Cue → Bool) (s : State) :
    CuesLeave c (((s.chan c).cues.filter p).map Cue.tag) 0 ((s.chan c).cues.filter p).length s (missAll c p s) :=
  foldl_missCue_leaves _ s

/-- No cue that was picked is left. -/
theorem picked_gone {l : List Cue} {p : Cue → Bool} {q : Cue} (h : q ∈ without ((l.filter p).map Cue.tag) l) :
    p q = false := by
  obtain ⟨mem, out⟩ := mem_without.mp h
  by_contra picked
  exact out (List.mem_map_of_mem (List.mem_filter.mpr ⟨mem, by simpa using picked⟩))

/-! ### Preparing (R148) -/

theorem prepareCue_chan (q : Cue) : ∃ a, (prepareCue c s q).chan c
    = setCue q.tag (fun x => { x with prepared := true, late := false, claim := a }) (s.chan c) := by
  refine ⟨(askForCue c q.tag q.action s).2, ?_⟩
  rw [prepareCue, modChan_chan_same, askForCue_chan]

/-- Cues that are prepared: the channel but for the list stands, and each cue is as it was or PREPARED without
late mark. -/
structure Prepares (c : Chan) (tags : List Nat) (s t : State) : Prop where
  rest : { t.chan c with cues := (s.chan c).cues } = s.chan c
  tags_eq : (t.chan c).cues.map Cue.tag = (s.chan c).cues.map Cue.tag
  cue : ∀ q ∈ (t.chan c).cues, ∃ x ∈ (s.chan c).cues, q = x ∧ x.tag ∉ tags ∨
    ∃ a, q = { x with prepared := true, late := false, claim := a }

theorem prepareCue_prepares (s : State) (q : Cue) : Prepares c [q.tag] s (prepareCue c s q) := by
  obtain ⟨a, chan⟩ := prepareCue_chan (c := c) (s := s) q
  constructor
  all_goals rw [chan]
  · rfl
  · simp only [setCue, List.map_map]
    refine List.map_congr_left (fun x _ => ?_)
    simp only [Function.comp_apply]
    split <;> rfl
  · intro x hx
    obtain ⟨y, hy, rfl⟩ := List.mem_map.mp hx
    refine ⟨y, hy, ?_⟩
    by_cases same : y.tag = q.tag
    · exact .inr ⟨a, if_pos same⟩
    · exact .inl ⟨if_neg same, by simpa using same⟩

theorem Prepares.trans {tags tags' : List Nat} {u : State} (h : Prepares c tags s t) (k : Prepares c tags' t u) :
    Prepares c (tags ++ tags') s u where
  rest := (congrArg (fun ch : Channel => { ch with cues := (s.chan c).cues }) k.rest).trans h.rest
  tags_eq := k.tags_eq.trans h.tags_eq
  cue := by
    intro q hq
    obtain ⟨y, hy, late⟩ := k.cue q hq
    obtain ⟨x, hx, early⟩ := h.cue y hy
    refine ⟨x, hx, ?_⟩
    rcases late with ⟨rfl, out'⟩ | ⟨a, rfl⟩ <;> rcases early with ⟨rfl, out⟩ | ⟨b, rfl⟩
    · exact .inl ⟨rfl, by simp [out, out']⟩
    · exact .inr ⟨b, rfl⟩
    · exact .inr ⟨a, rfl⟩
    · exact .inr ⟨a, rfl⟩

theorem foldl_prepareCue_prepares (l : List Cue) (s : State) :
    Prepares c (l.map Cue.tag) s (l.foldl (prepareCue c) s) := by
  induction l generalizing s with
  | nil => exact ⟨rfl, rfl, fun q hq => ⟨q, hq, .inl ⟨rfl, List.not_mem_nil⟩⟩⟩
  | cons q l ih => exact (prepareCue_prepares s q).trans (ih _)

theorem prepareAll_prepares (n : Nat) (s : State) :
    Prepares c (((s.chan c).cues.filter (toPrepare n)).map Cue.tag) s (prepareAll c n s) :=
  foldl_prepareCue_prepares _ s

/-! ### The account of a dispatch -/

/-- The cues of a channel, those in its list and those that its counters counted out of it. -/
def Channel.tally (ch : Channel) : BitVec 16 := ch.fired + ch.failed + ch.missed + BitVec.ofNat 16 ch.cues.length

/-- From `s` to `t` dispatch of channel `c` lost and made no cue. -/
structure Accounted (c : Chan) (s t : State) : Prop where
  mode : (t.chan c).mode = (s.chan c).mode
  waiting : (t.chan c).waiting = (s.chan c).waiting
  removed : (t.chan c).removed = (s.chan c).removed
  released : (s.chan c).heldBack = false → (t.chan c).heldBack = false
  old : ∀ q ∈ (t.chan c).cues, ∃ y ∈ (s.chan c).cues,
    y.tag = q.tag ∧ y.date.label = q.date.label ∧ y.action = q.action
  nodup : ((s.chan c).cues.map Cue.tag).Nodup → ((t.chan c).cues.map Cue.tag).Nodup
  tally : ((s.chan c).cues.map Cue.tag).Nodup → (t.chan c).tally = (s.chan c).tally

theorem Accounted.refl : Accounted c s s :=
  ⟨rfl, rfl, rfl, id, fun q hq => ⟨q, hq, rfl, rfl, rfl⟩, id, fun _ => rfl⟩

theorem Accounted.trans {u : State} (h : Accounted c s t) (k : Accounted c t u) : Accounted c s u where
  mode := k.mode.trans h.mode
  waiting := k.waiting.trans h.waiting
  removed := k.removed.trans h.removed
  released := k.released ∘ h.released
  old q hq := by
    obtain ⟨y, hy, tag, label, action⟩ := k.old q hq
    obtain ⟨x, hx, tag', label', action'⟩ := h.old y hy
    exact ⟨x, hx, tag'.trans tag, label'.trans label, action'.trans action⟩
  nodup := k.nodup ∘ h.nodup
  tally hn := (k.tally (h.nodup hn)).trans (h.tally hn)

/-- The cues that leave a list are as many as are counted. -/
theorem CuesLeave.accounted {p : Cue → Bool} {n m : Nat}
    (h : CuesLeave c (((s.chan c).cues.filter p).map Cue.tag) n m s t) (all : n + m = ((s.chan c).cues.filter p).length) :
    Accounted c s t where
  mode := (congrArg Prod.fst h.standing :)
  waiting := (congrArg (fun x => x.2.1) h.standing :)
  removed := (congrArg (fun x => x.2.2.2) h.standing :)
  released held := ((congrArg (fun x => x.2.2.1) h.standing).trans held :)
  old q hq := ⟨q, (mem_without.mp (h.cues ▸ hq)).1, rfl, rfl, rfl⟩
  nodup hn := by
    rw [h.cues]
    exact hn.sublist (List.filter_sublist.map Cue.tag)
  tally hn := by
    have count := List.length_eq_length_filter_add (l := (s.chan c).cues) p
    rw [Channel.tally, Channel.tally, h.handled, h.missed, h.cues, without_picked hn, count, ← all,
      BitVec.ofNat_add, BitVec.ofNat_add]
    ac_rfl

theorem fireAll_accounted (due : Cue → Bool) (s : State) : Accounted c s (fireAll c due s) :=
  (fireAll_leaves due s).accounted (Nat.add_zero _)

theorem missAll_accounted (p : Cue → Bool) (s : State) : Accounted c s (missAll c p s) :=
  (missAll_leaves p s).accounted (Nat.zero_add _)

/-- A change that leaves the counters and of the cues their number, tags, labels and actions. -/
theorem Accounted.of_relisted (standing : (t.chan c).standing = (s.chan c).standing)
    (counters : (t.chan c).dispatcher.2.1 = (s.chan c).dispatcher.2.1)
    (cues : ((t.chan c).cues.map (fun q => (q.tag, q.date.label, q.action))).Perm
      ((s.chan c).cues.map (fun q => (q.tag, q.date.label, q.action)))) : Accounted c s t where
  mode := (congrArg Prod.fst standing :)
  waiting := (congrArg (fun x => x.2.1) standing :)
  removed := (congrArg (fun x => x.2.2.2) standing :)
  released held := ((congrArg (fun x => x.2.2.1) standing).trans held :)
  old q hq := by
    obtain ⟨y, hy, same⟩ := List.mem_map.mp (cues.mem_iff.mp (List.mem_map_of_mem hq))
    simp only [Prod.mk.injEq] at same
    exact ⟨y, hy, same⟩
  nodup hn := by
    have := cues.map Prod.fst
    simp only [List.map_map, Function.comp_def] at this
    exact this.nodup_iff.mpr hn
  tally _ := by
    have len := cues.length_eq
    simp only [List.length_map] at len
    simp only [Channel.dispatcher, Prod.mk.injEq] at counters
    obtain ⟨fired, failed, missed, -⟩ := counters
    rw [Channel.tally, Channel.tally, fired, failed, missed, len]

theorem expireZones_dispatcher (due : Nat → Bool) :
    ((expireZones c due s).chan c).dispatcher = (s.chan c).dispatcher :=
  (congrArg Prod.fst (expireZones_asked due)).trans rfl

theorem expireZones_standing (due : Nat → Bool) :
    ((expireZones c due s).chan c).standing = (s.chan c).standing := by
  have kept := expireZones_dispatcher (c := c) (s := s) due
  simp only [Channel.dispatcher, Prod.mk.injEq] at kept
  obtain ⟨⟨-, -, held, waiting⟩, ⟨-, -, -, removed⟩, -⟩ := kept
  have mode : ((expireZones c due s).chan c).mode = (s.chan c).mode :=
    congrArg (fun p => p.1.1) (Keeps.rfl.expireZones due).path
  rw [Channel.standing, mode, waiting, held, removed]
  rfl

theorem expireZones_accounted (due : Nat → Bool) (s : State) : Accounted c s (expireZones c due s) :=
  .of_relisted (expireZones_standing due) (congrArg (fun d => d.2.1) (expireZones_dispatcher due))
    (expireZones_cues (c := c) (s := s) due ▸ .refl _)

theorem clearMarks_accounted (s : State) : Accounted c s (clearMarks c s) := by
  refine .of_relisted ?_ ?_ ?_ <;> rw [clearMarks_chan]
  · rfl
  · rfl
  · exact clearCueMarks_map (fun q => (q.tag, q.date.label, q.action)) (fun _ _ => rfl) _

theorem endDay_accounted (s : State) : Accounted c s (endDay c s) :=
  (expireZones_accounted _ s).trans (clearMarks_accounted _)

theorem Prepares.accounted {tags : List Nat} (h : Prepares c tags s t) : Accounted c s t where
  mode := (congrArg Channel.mode h.rest :)
  waiting := (congrArg Channel.waiting h.rest :)
  removed := (congrArg Channel.removed h.rest :)
  released held := ((congrArg Channel.heldBack h.rest).trans held :)
  old q hq := by
    obtain ⟨x, hx, ⟨rfl, -⟩ | ⟨a, rfl⟩⟩ := h.cue q hq
    · exact ⟨q, hx, rfl, rfl, rfl⟩
    · exact ⟨x, hx, rfl, rfl, rfl⟩
  nodup hn := h.tags_eq ▸ hn
  tally _ := by
    have len := congrArg List.length h.tags_eq
    simp only [List.length_map] at len
    have fired := (congrArg Channel.fired h.rest :)
    have failed := (congrArg Channel.failed h.rest :)
    have missed := (congrArg Channel.missed h.rest :)
    dsimp only at fired failed missed
    rw [Channel.tally, Channel.tally, fired, failed, missed, len]

theorem endLost_cues (k : Track) (s : State) : ((endLost c k s).chan c).cues
    = if k.passedFrom.isSome then (s.chan c).cues.map (fun q => { q with lostLate := false }) else (s.chan c).cues := by
  unfold endLost
  split
  · rw [modChan_chan_same]
  · rfl

theorem endLost_rest (k : Track) (s : State) : { (endLost c k s).chan c with cues := (s.chan c).cues } = s.chan c := by
  unfold endLost
  split
  · rw [modChan_chan_same]
  · rfl

theorem endLost_accounted (k : Track) (s : State) : Accounted c s (endLost c k s) := by
  refine .of_relisted ?_ ?_ ?_
  · exact (congrArg Channel.standing (endLost_rest (c := c) k s) :)
  · exact (congrArg (fun ch => ch.dispatcher.2.1) (endLost_rest (c := c) k s) :)
  · rw [endLost_cues]
    split
    · rw [List.map_map]
      exact .refl _
    · exact .refl _

end Sys2Proof.Machine
end

section
/-! PROOFS. Dispatch at a frame start in AUTO (Section 8.5): its steps one after another, the account of the cues
that left, and what the list left holds. -/

namespace Sys2Proof.Machine

variable {f : Format} {c : Chan} {s t : State} {k : Track} {n : Nat}

/-! ### The steps of R36 -/

theorem inAuto_pos (auto : (s.chan c).mode = .auto) (op : State → State) : inAuto c op s = op s := if_pos auto

theorem Accounted.inAuto {op : State → State} (h : Accounted c s (op s)) : Accounted c s (inAuto c op s) := by
  unfold Machine.inAuto
  split
  · exact h
  · exact .refl

theorem owedMidnight_accounted (held : Bool) (s : State) : Accounted c s (owedMidnight c held s) := by
  have missed : Accounted c s (if held then inAuto c (missAll c (missedCue (fun _ => true))) s else s) := by
    split
    · exact (missAll_accounted _ s).inAuto
    · exact .refl
  exact ((missed.trans (expireZones_accounted _ _)).trans (fireAll_accounted _ _).inAuto).trans (endDay_accounted _)

/-- The cues that step 2 misses and fires, before the held-back mark is cleared. -/
def entryCues (f : Format) (c : Chan) (n : Nat) (s : State) : State :=
  fireAll c (dueCue (fun l => decide (l ≤ n)))
    (missAll c (missedCue (fun l => decide (l + f.rate ≤ n))) (expireZones c (fun l => decide (l ≤ n)) s))

theorem entryRule_chan (s : State) :
    (entryRule f c n s).chan c = { (entryCues f c n s).chan c with heldBack := false } := modChan_chan_same ..

theorem entryCues_accounted (s : State) : Accounted c s (entryCues f c n s) :=
  ((expireZones_accounted _ s).trans (missAll_accounted _ _)).trans (fireAll_accounted _ _)

theorem entryRule_accounted (s : State) : Accounted c s (entryRule f c n s) := by
  have cues := entryCues_accounted (f := f) (c := c) (n := n) s
  constructor
  all_goals rw [entryRule_chan]
  · exact cues.mode
  · exact cues.waiting
  · exact cues.removed
  · exact fun _ => rfl
  · exact cues.old
  · exact cues.nodup
  · exact cues.tally

theorem jumpMisses_accounted (k : Track) (s : State) : Accounted c s (jumpMisses c k s) := by
  unfold jumpMisses
  split
  · exact (missAll_accounted _ s).inAuto
  · exact .refl

theorem midnightStep_accounted (k : Track) (s : State) : Accounted c s (midnightStep c k s) := by
  unfold midnightStep
  split
  · exact .refl
  · exact endDay_accounted s
  · exact ((expireZones_accounted _ s).trans (fireAll_accounted _ _).inAuto).trans (endDay_accounted _)

theorem dueItems_accounted (k : Track) (entry : Bool) (passed : List Nat) (s : State) :
    Accounted c s (dueItems c k entry passed s) :=
  (expireZones_accounted _ s).trans (fireAll_accounted _ _).inAuto

/-- The card after step 1 of R36. -/
def afterOwed (c : Chan) (k : Track) (s : State) : State :=
  if k.owed then owedMidnight c (s.chan c).heldBack s else s

/-- An entry into AUTO at this frame start, or one held back. -/
def entryDue (c : Chan) (entered : Bool) (s : State) : Bool := entered || (s.chan c).heldBack

/-- The card after step 2 of R36. -/
def afterEntry (f : Format) (c : Chan) (entered : Bool) (k : Track) (s : State) : State :=
  if entryDue c entered s then entryRule f c k.label (afterOwed c k s) else afterOwed c k s

/-- The card after step 4 of R36. -/
def afterMidnight (f : Format) (c : Chan) (entered : Bool) (k : Track) (s : State) : State :=
  midnightStep c k (jumpMisses c k (afterEntry f c entered k s))

/-- The card after step 5 of R36. -/
def afterDue (f : Format) (c : Chan) (entered : Bool) (k : Track) (s : State) : State :=
  dueItems c k (entryDue c entered s) (passedTags c k (afterEntry f c entered k s)) (afterMidnight f c entered k s)

/-- The steps are those of the model. -/
theorem dispatchSteps_eq (entered : Bool) : dispatchSteps f c entered k s =
    inAuto c (prepareAll c k.label) (endLost c k (afterDue f c entered k s)) := rfl

theorem afterOwed_accounted (k : Track) (s : State) : Accounted c s (afterOwed c k s) := by
  unfold afterOwed
  split
  · exact owedMidnight_accounted _ s
  · exact .refl

theorem afterEntry_accounted (entered : Bool) : Accounted c s (afterEntry f c entered k s) := by
  unfold afterEntry
  split
  · exact (afterOwed_accounted k s).trans (entryRule_accounted _)
  · exact afterOwed_accounted k s

theorem afterMidnight_accounted (entered : Bool) :
    Accounted c (afterEntry f c entered k s) (afterMidnight f c entered k s) :=
  (jumpMisses_accounted k _).trans (midnightStep_accounted k _)

theorem afterDue_accounted (entered : Bool) :
    Accounted c (afterEntry f c entered k s) (afterDue f c entered k s) :=
  (afterMidnight_accounted entered).trans (dueItems_accounted ..)

theorem afterDue_dispatchSteps (entered : Bool) :
    Accounted c (afterDue f c entered k s) (dispatchSteps f c entered k s) :=
  (endLost_accounted k _).trans (prepareAll_prepares _ _).accounted.inAuto

/-- Dispatch loses no cue and makes none. -/
theorem dispatchSteps_accounted (entered : Bool) : Accounted c s (dispatchSteps f c entered k s) :=
  ((afterEntry_accounted entered).trans (afterDue_accounted entered)).trans (afterDue_dispatchSteps entered)

/-- The entry rule ends its own wait (R19). -/
theorem afterEntry_released (entered : Bool) : ((afterEntry f c entered k s).chan c).heldBack = false := by
  unfold afterEntry
  by_cases entry : entryDue c entered s = true
  · rw [if_pos entry, entryRule_chan]
  · rw [if_neg entry]
    exact (afterOwed_accounted k s).released (by simp [entryDue] at entry; exact entry.2)

theorem dispatchSteps_released (entered : Bool) : ((dispatchSteps f c entered k s).chan c).heldBack = false :=
  ((afterDue_accounted entered).trans (afterDue_dispatchSteps entered)).released (afterEntry_released entered)

/-! ### What is left after the due items -/

/-- No same-day cue of a channel is at or below a label, nor has the late mark. -/
def NoneDue (c : Chan) (n : Nat) (t : State) : Prop :=
  ∀ q ∈ (t.chan c).cues, q.date.next = false → n < q.date.label ∧ q.late = false

theorem fireAll_gone {due : Cue → Bool} {q : Cue} (h : q ∈ ((fireAll c due s).chan c).cues) : due q = false := by
  rw [(fireAll_leaves due s).cues] at h
  exact picked_gone h

theorem noneDue_fireAll {due : Cue → Bool} (h : ∀ q, dueCue (fun l => decide (l ≤ n)) q = true → due q = true)
    (s : State) : NoneDue c n (fireAll c due s) := by
  intro q hq sameDay
  have spared : ¬ dueCue (fun l => decide (l ≤ n)) q = true := fun due_q => by
    have := fireAll_gone hq
    rw [h q due_q] at this
    cases this
  simpa [dueCue, sameDay] using spared

theorem NoneDue.of_relisted (h : NoneDue c n s)
    (e : ∀ q ∈ (t.chan c).cues, ∃ x ∈ (s.chan c).cues, x.date = q.date ∧ x.late = q.late) : NoneDue c n t := by
  intro q hq sameDay
  obtain ⟨x, hx, date, late⟩ := e q hq
  rw [← date, ← late]
  exact h x hx (date ▸ sameDay)

theorem NoneDue.endLost (h : NoneDue c n s) (k : Track) : NoneDue c n (endLost c k s) := by
  refine h.of_relisted (fun q hq => ?_)
  rw [endLost_cues] at hq
  split at hq
  · obtain ⟨x, hx, rfl⟩ := List.mem_map.mp hq
    exact ⟨x, hx, rfl, rfl⟩
  · exact ⟨q, hq, rfl, rfl⟩

/-- After the preparation the same-day cues within the horizon are PREPARED (R148). -/
theorem prepareAll_horizon (h : NoneDue c n s) : ∀ q ∈ ((prepareAll c n s).chan c).cues, q.date.next = false →
    n < q.date.label ∧ q.late = false ∧ (q.date.label ≤ n + 2 → q.prepared = true) := by
  intro q hq sameDay
  obtain ⟨x, hx, ⟨rfl, pending⟩ | ⟨a, rfl⟩⟩ := (prepareAll_prepares n s).cue q hq
  · obtain ⟨ahead, onTime⟩ := h q hx sameDay
    refine ⟨ahead, onTime, fun near => ?_⟩
    by_contra unprepared
    rw [Bool.not_eq_true] at unprepared
    refine pending (List.mem_map_of_mem (List.mem_filter.mpr ⟨hx, ?_⟩))
    simp [toPrepare, unprepared, sameDay, near]
  · exact ⟨(h x hx sameDay).1, rfl, fun _ => rfl⟩

section InAuto
variable (auto : (s.chan c).mode = .auto)
include auto

theorem afterEntry_auto (entered : Bool) : ((afterEntry f c entered k s).chan c).mode = .auto :=
  (afterEntry_accounted entered).mode.trans auto

theorem afterMidnight_auto (entered : Bool) : ((afterMidnight f c entered k s).chan c).mode = .auto :=
  (afterMidnight_accounted entered).mode.trans (afterEntry_auto auto entered)

theorem dueItems_auto (entry : Bool) (passed : List Nat) : dueItems c k entry passed s =
    fireAll c (fun q => dueCue (fun l => decide (l ≤ k.label)) q || passed.contains q.tag)
      (expireZones c (dueExpiry k entry) s) :=
  inAuto_pos ((expireZones_accounted _ s).mode.trans auto) _

theorem dispatchSteps_auto (entered : Bool) : dispatchSteps f c entered k s =
    prepareAll c k.label (endLost c k (afterDue f c entered k s)) :=
  inAuto_pos ((((afterEntry_accounted entered).trans (afterDue_accounted entered)).trans
    (endLost_accounted k _)).mode.trans auto) _

theorem dispatchSteps_horizon (entered : Bool) :
    ∀ q ∈ ((dispatchSteps f c entered k s).chan c).cues, q.date.next = false →
      k.label < q.date.label ∧ q.late = false ∧ (q.date.label ≤ k.label + 2 → q.prepared = true) := by
  have due : NoneDue c k.label (afterDue f c entered k s) := by
    rw [afterDue, dueItems_auto (afterMidnight_auto auto entered)]
    exact noneDue_fireAll (fun q d => by simp [d]) _
  rw [dispatchSteps_auto auto]
  exact prepareAll_horizon (due.endLost k)

end InAuto

/-! ### The cues passed in a LOST (R36) -/

/-- A cue is in the list as it was, or no cue bears its tag. -/
def StandsOrGone (c : Chan) (q : Cue) (t : State) : Prop := q ∈ (t.chan c).cues ∨ q.tag ∉ (t.chan c).cues.map Cue.tag

theorem CuesLeave.standsOrGone {tags : List Nat} {n m : Nat} {q : Cue} (h : CuesLeave c tags n m s t)
    (stands : StandsOrGone c q s) : StandsOrGone c q t := by
  unfold StandsOrGone
  rw [h.cues]
  by_cases taken : q.tag ∈ tags
  · refine .inr (fun mem => ?_)
    obtain ⟨x, hx, same⟩ := List.mem_map.mp mem
    exact (mem_without.mp hx).2 (same ▸ taken)
  · exact stands.imp (fun mem => mem_without.mpr ⟨mem, taken⟩)
      (fun gone mem => gone ((List.filter_sublist.map Cue.tag).subset mem))

theorem StandsOrGone.of_cues {q : Cue} (stands : StandsOrGone c q s) (same : (t.chan c).cues = (s.chan c).cues) :
    StandsOrGone c q t := by
  unfold StandsOrGone
  rwa [same]

theorem StandsOrGone.inAuto {q : Cue} {op : State → State} (stands : StandsOrGone c q s)
    (h : StandsOrGone c q (op s)) : StandsOrGone c q (inAuto c op s) := by
  unfold Machine.inAuto
  split
  · exact h
  · exact stands

theorem StandsOrGone.endDay {q : Cue} (stands : StandsOrGone c q s) (sameDay : q.date.next = false) :
    StandsOrGone c q (endDay c s) := by
  unfold StandsOrGone
  rw [endDay_cues]
  exact stands.imp (mem_clearCueMarks · sameDay) (fun gone mem => gone ((clearCueMarks_tags _).mem_iff.mp mem))

theorem StandsOrGone.owedMidnight {q : Cue} (stands : StandsOrGone c q s) (sameDay : q.date.next = false)
    (held : Bool) : StandsOrGone c q (owedMidnight c held s) := by
  have missed : StandsOrGone c q (if held then Machine.inAuto c (missAll c (missedCue (fun _ => true))) s else s) := by
    split
    · exact stands.inAuto ((missAll_leaves _ s).standsOrGone stands)
    · exact stands
  have expired := missed.of_cues (expireZones_cues (c := c) (fun _ => true))
  exact (expired.inAuto ((fireAll_leaves _ _).standsOrGone expired)).endDay sameDay

theorem StandsOrGone.afterEntry {q : Cue} (stands : StandsOrGone c q s) (sameDay : q.date.next = false)
    (entered : Bool) : StandsOrGone c q (afterEntry f c entered k s) := by
  have owed : StandsOrGone c q (afterOwed c k s) := by
    unfold afterOwed
    split
    · exact stands.owedMidnight sameDay _
    · exact stands
  unfold Machine.afterEntry
  split
  · have expired := owed.of_cues (expireZones_cues (c := c) (fun l => decide (l ≤ k.label)))
    have missed := (missAll_leaves (missedCue (fun l => decide (l + f.rate ≤ k.label))) _).standsOrGone expired
    have fired := (fireAll_leaves (dueCue (fun l => decide (l ≤ k.label))) _).standsOrGone missed
    refine fired.of_cues ?_
    rw [entryRule_chan]
    rfl
  · exact owed

/-- No cue of a tag comes back. -/
theorem Accounted.gone {x : Nat} (h : Accounted c s t) (gone : x ∉ (s.chan c).cues.map Cue.tag) :
    x ∉ (t.chan c).cues.map Cue.tag := by
  intro mem
  obtain ⟨q, hq, rfl⟩ := List.mem_map.mp mem
  obtain ⟨y, hy, same, -⟩ := h.old q hq
  exact gone (same ▸ List.mem_map_of_mem hy)

theorem passedCue_of {a : Nat} {q : Cue} (from_ : k.passedFrom = some a) (sameDay : q.date.next = false)
    (below : q.date.label ≤ k.prev) (passed : a ≤ q.date.label ∨ q.lostLate = true) : k.passedCue q = true := by
  rcases passed with after | late
  · simp [Track.passedCue, Track.passed, from_, sameDay, below, after]
  · simp [Track.passedCue, from_, sameDay, below, late]

/-- A cue passed in the LOST that ends, or accepted in its late window, leaves (R36, R143). -/
theorem dispatchSteps_passed (auto : (s.chan c).mode = .auto) (entered : Bool) {q : Cue} (hq : q ∈ (s.chan c).cues)
    (sameDay : q.date.next = false) (passed : k.passedCue q = true) :
    q.tag ∉ ((dispatchSteps f c entered k s).chan c).cues.map Cue.tag := by
  refine (afterDue_dispatchSteps entered).gone ?_
  rcases StandsOrGone.afterEntry (f := f) (k := k) (.inl hq) sameDay entered with stands | gone
  · intro mem
    obtain ⟨x, hx, same⟩ := List.mem_map.mp mem
    rw [afterDue, dueItems_auto (afterMidnight_auto auto entered)] at hx
    have spared := fireAll_gone hx
    have named : q.tag ∈ passedTags c k (afterEntry f c entered k s) :=
      List.mem_map_of_mem (List.mem_filter.mpr ⟨stands, passed⟩)
    simp [same, named] at spared
  · exact (afterDue_accounted entered).gone gone

/-! ### The missed counter (R19, R31, R156) -/

theorem missAll_missed (p : Cue → Bool) (s : State) : ((missAll c p s).chan c).missed
    = (s.chan c).missed + BitVec.ofNat 16 ((s.chan c).cues.filter p).length := (missAll_leaves p s).missed

theorem fireAll_missed (due : Cue → Bool) (s : State) : ((fireAll c due s).chan c).missed = (s.chan c).missed :=
  (fireAll_leaves due s).missed.trans (add_zero _)

theorem expireZones_missed (due : Nat → Bool) : ((expireZones c due s).chan c).missed = (s.chan c).missed :=
  (congrArg (fun d => d.2.1.2.2.1) (expireZones_dispatcher due) :)

theorem endDay_missed (s : State) : ((endDay c s).chan c).missed = (s.chan c).missed := by
  rw [endDay, clearMarks_chan]
  exact expireZones_missed _

theorem inAuto_missed {op : State → State} (h : ((op s).chan c).missed = (s.chan c).missed) :
    ((inAuto c op s).chan c).missed = (s.chan c).missed := by
  unfold inAuto
  split
  · exact h
  · rfl

theorem midnightStep_missed (k : Track) (s : State) : ((midnightStep c k s).chan c).missed = (s.chan c).missed := by
  unfold midnightStep
  split
  · rfl
  · exact endDay_missed s
  · rw [endDay_missed, inAuto_missed (fireAll_missed _ _), expireZones_missed]

theorem dueItems_missed (entry : Bool) (passed : List Nat) (s : State) :
    ((dueItems c k entry passed s).chan c).missed = (s.chan c).missed := by
  rw [dueItems, inAuto_missed (fireAll_missed _ _), expireZones_missed]

theorem endLost_missed (s : State) : ((endLost c k s).chan c).missed = (s.chan c).missed :=
  (congrArg Channel.missed (endLost_rest (c := c) k s) :)

theorem prepareAll_missed (s : State) : ((prepareAll c n s).chan c).missed = (s.chan c).missed :=
  (congrArg Channel.missed (prepareAll_prepares (c := c) n s).rest :)

/-- Only an owed midnight, the entry rule and a jump miss cues. -/
theorem dispatchSteps_missed (entered : Bool) : ((dispatchSteps f c entered k s).chan c).missed
    = ((jumpMisses c k (afterEntry f c entered k s)).chan c).missed := by
  rw [dispatchSteps_eq, inAuto_missed (prepareAll_missed _), endLost_missed, afterDue, dueItems_missed,
    afterMidnight, midnightStep_missed]

/-- A jump misses none where no cue is left at or below the label. -/
theorem jumpMisses_missed_of_noneDue (due : NoneDue c k.label s) :
    ((jumpMisses c k s).chan c).missed = (s.chan c).missed := by
  have none : (s.chan c).cues.filter (missedCue (fun l => decide (k.prev < l) && decide (l < k.label))) = [] := by
    refine List.filter_eq_nil_iff.mpr (fun q hq missed => ?_)
    simp only [missedCue, Bool.and_eq_true, Bool.not_eq_true', decide_eq_true_eq] at missed
    obtain ⟨⟨sameDay, -, below⟩, -⟩ := missed
    have := (due q hq sameDay).1
    omega
  unfold jumpMisses
  split
  · refine inAuto_missed ?_
    rw [missAll_missed, none]
    exact add_zero _
  · rfl

theorem jumpMisses_missed (auto : (s.chan c).mode = .auto) : ((jumpMisses c k s).chan c).missed
    = (s.chan c).missed + BitVec.ofNat 16 ((s.chan c).cues.filter (fun q => !q.date.next && !q.late &&
        decide (k.finding = .jumpForward ∧ k.prev < q.date.label ∧ q.date.label < k.label))).length := by
  unfold jumpMisses
  by_cases jump : k.finding = .jumpForward
  · rw [if_pos jump, inAuto_pos auto, missAll_missed]
    congr 4
    funext q
    simp only [missedCue, jump, true_and, Bool.decide_and]
    ac_rfl
  · rw [if_neg jump]
    simp [jump]

theorem noneDue_entryRule (s : State) : NoneDue c n (entryRule f c n s) := by
  refine (noneDue_fireAll (fun _ due => due) _ : NoneDue c n (entryCues f c n s)).of_relisted (fun q hq => ?_)
  rw [entryRule_chan] at hq
  exact ⟨q, hq, rfl, rfl⟩

theorem entryRule_missed (s : State) : ((entryRule f c n s).chan c).missed = (s.chan c).missed
    + BitVec.ofNat 16 ((s.chan c).cues.filter (missedCue (fun l => decide (l + f.rate ≤ n)))).length := by
  rw [entryRule_chan]
  refine (fireAll_missed _ _).trans ?_
  rw [missAll_missed, expireZones_missed, expireZones_cues]

/-- After an entry rule the jump misses no more. -/
theorem dispatchSteps_missed_entry {entered : Bool} (entry : entryDue c entered s = true) :
    ((dispatchSteps f c entered k s).chan c).missed = ((afterOwed c k s).chan c).missed + BitVec.ofNat 16
      (((afterOwed c k s).chan c).cues.filter (missedCue (fun l => decide (l + f.rate ≤ k.label)))).length := by
  rw [dispatchSteps_missed, afterEntry, if_pos entry, jumpMisses_missed_of_noneDue (noneDue_entryRule _),
    entryRule_missed]

theorem dispatchSteps_missed_unowed (auto : (s.chan c).mode = .auto) (entered : Bool) (unowed : k.owed = false) :
    ((dispatchSteps f c entered k s).chan c).missed = (s.chan c).missed + BitVec.ofNat 16
      ((s.chan c).cues.filter (fun q => !q.date.next && !q.late &&
        (if entered = true ∨ (s.chan c).heldBack = true then decide (q.date.label + f.rate ≤ k.label)
         else decide (k.finding = .jumpForward ∧ k.prev < q.date.label ∧ q.date.label < k.label)))).length := by
  have owed : afterOwed c k s = s := if_neg (by simp [unowed])
  by_cases entry : entered = true ∨ (s.chan c).heldBack = true
  · simp only [if_pos entry]
    rw [dispatchSteps_missed_entry (by simpa [entryDue] using entry), owed]
    congr 4
    funext q
    simp only [missedCue]
    ac_rfl
  · simp only [if_neg entry]
    rw [dispatchSteps_missed, afterEntry, if_neg (by simpa [entryDue] using entry), owed, jumpMisses_missed auto]

/-! ### An owed midnight with the entry rule held back (R35, log entry 11) -/

section Held
variable (auto : (s.chan c).mode = .auto)
include auto

/-- The card once the cues that an owed midnight finds held back are MISSED. -/
theorem owedMidnight_held : owedMidnight c true s = endDay c (fireAll c (dueCue (fun _ => false))
    (expireZones c (fun _ => true) (missAll c (missedCue (fun _ => true)) s))) := by
  unfold owedMidnight
  dsimp only
  rw [if_pos rfl, inAuto_pos auto]
  have mode := ((missAll_accounted (c := c) (missedCue (fun _ => true)) s).trans
    (expireZones_accounted (fun _ => true) _)).mode.trans auto
  rw [inAuto_pos mode]
  rfl

theorem owedMidnight_held_missed : ((owedMidnight c true s).chan c).missed = (s.chan c).missed
    + BitVec.ofNat 16 ((s.chan c).cues.filter (missedCue (fun _ => true))).length := by
  rw [owedMidnight_held auto, endDay_missed, fireAll_missed, expireZones_missed, missAll_missed]

/-- The next-day cues alone are left, as cues of the day. -/
theorem owedMidnight_held_cues (nodup : ((s.chan c).cues.map Cue.tag).Nodup) : ((owedMidnight c true s).chan c).cues
    = clearCueMarks ((s.chan c).cues.filter (fun q => q.date.next)) := by
  have missed : ((missAll c (missedCue (fun _ => true)) s).chan c).cues
      = (s.chan c).cues.filter (fun q => !missedCue (fun _ => true) q) :=
    (missAll_leaves _ s).cues.trans (without_picked nodup _)
  rw [owedMidnight_held auto, endDay_cues, (fireAll_leaves _ _).cues, expireZones_cues, without_picked
    ((missAll_accounted _ s).nodup nodup), missed, List.filter_filter]
  congr 2
  funext q
  cases day : q.date.next <;> cases late : q.late <;> simp [missedCue, dueCue, day, late]

end Held

/-- The marks of the next-day cues cleared, as many are missed as were. -/
theorem clearCueMarks_missed (test : Nat → Bool) (l : List Cue) :
    ((clearCueMarks (l.filter (fun q => q.date.next))).filter (missedCue test)).length
      = (l.filter (fun q => q.date.next && (test q.date.label && !q.late))).length := by
  have same := (clearCueMarks_map (fun q => (q.date.label, q.late)) (fun _ _ => rfl)
    (l.filter (fun q => q.date.next))).countP_eq (fun p => test p.1 && !p.2)
  rw [List.countP_map, List.countP_map, List.countP_filter] at same
  rw [← List.countP_eq_length_filter, ← List.countP_eq_length_filter]
  refine Eq.trans ?_ (same.trans ?_)
  · refine List.countP_congr (fun q hq => ?_)
    simp [missedCue, clearCueMarks_unmarked _ q hq]
  · exact List.countP_congr (fun q _ => by simp [and_comm])

theorem dispatchSteps_missed_held (auto : (s.chan c).mode = .auto) (nodup : ((s.chan c).cues.map Cue.tag).Nodup)
    (owed : k.owed = true) (held : (s.chan c).heldBack = true) :
    ((dispatchSteps f c false k s).chan c).missed = (s.chan c).missed + BitVec.ofNat 16
      ((s.chan c).cues.filter (fun q =>
        !q.late && (!q.date.next || decide (q.date.label + f.rate ≤ k.label)))).length := by
  have day : afterOwed c k s = owedMidnight c true s := by rw [afterOwed, if_pos owed, held]
  have split := List.length_eq_length_filter_add (l := (s.chan c).cues.filter (fun q =>
    !q.late && (!q.date.next || decide (q.date.label + f.rate ≤ k.label)))) (fun q => !q.date.next)
  rw [List.filter_filter, List.filter_filter] at split
  rw [dispatchSteps_missed_entry (by simp [entryDue, held]), day, owedMidnight_held_missed auto,
    owedMidnight_held_cues auto nodup, clearCueMarks_missed, split, add_assoc, ← BitVec.ofNat_add]
  congr 5 <;> funext q <;> cases mark : q.date.next <;> cases late : q.late <;> simp [missedCue, mark, late]

/-! ### An ordinary frame start, and the statement -/

theorem passedTags_of_none (passed : k.passedFrom = none) (s : State) : passedTags c k s = [] := by
  have never : k.passedCue = fun _ => false := by
    funext q
    simp [Track.passedCue, Track.passed, passed]
  simp [passedTags, never]

/-- With nothing entered, owed, passed or jumped, the due expiries, the due cues and the preparation are all. -/
theorem dispatchSteps_ordinary (auto : (s.chan c).mode = .auto) (free : (s.chan c).heldBack = false)
    (unowed : k.owed = false) (day : k.midnight = .none) (moved : k.finding ≠ .jumpForward)
    (passed : k.passedFrom = none) : dispatchSteps f c false k s = prepareAll c k.label
      (fireAll c (fun q => !q.date.next && (decide (q.date.label ≤ k.label) || q.late))
        (expireZones c (fun l => decide (l ≤ k.label)) s)) := by
  have entry : entryDue c false s = false := free
  have stepped : afterMidnight f c false k s = s := by
    rw [afterMidnight, midnightStep, day, jumpMisses, if_neg moved, afterEntry, if_neg (by simp [entry]), afterOwed,
      if_neg (by simp [unowed])]
  have expiries : dueExpiry k false = fun l => decide (l ≤ k.label) := by
    funext l
    simp [dueExpiry]
  rw [dispatchSteps_auto auto, afterDue, passedTags_of_none passed, stepped, entry, dueItems_auto auto, expiries,
    endLost, if_neg (by simp [passed])]
  congr 2
  funext q
  simp [dueCue]

/-- Settles O40, following the steps of R36: every operation accounts for the cues it takes (`Accounted`), the due
items leave none due, and the counted misses are those of steps 1 to 3. -/
theorem dispatchInAuto : Obligations.DispatchInAuto := by
  rintro f c entered k s t rfl
  refine ⟨?_, ?_, fun tracked auto => ?_⟩
  · rintro lost rfl
    rw [dispatch, if_pos lost]
    rfl
  · rintro lost rfl
    rw [dispatch, if_pos lost]
    rfl
  · have steps : dispatch f c entered k s = dispatchSteps f c entered k s := if_neg (by simp [tracked])
    rw [steps]
    have kept := dispatchSteps_accounted (f := f) (c := c) (k := k) (s := s) entered
    refine ⟨kept.mode.trans auto, dispatchSteps_released entered, kept.removed, dispatchSteps_horizon auto entered,
      kept.old, ?_, fun list => kept.tally list.tags, fun _ => dispatchSteps_missed_unowed auto entered, ?_, ?_⟩
    · exact fun a ended q hq sameDay below passed =>
        dispatchSteps_passed auto entered hq sameDay (passedCue_of ended sameDay below passed)
    · rintro list owed rfl held
      exact dispatchSteps_missed_held auto list.tags owed held
    · rintro rfl free unowed day moved passed
      exact ⟨_, rfl, dispatchSteps_ordinary auto free unowed day moved passed⟩

end Sys2Proof.Machine
end

section
/-! PROOFS. The waiting CH_TAKE actions of a frame start (Section 7.8). -/

namespace Sys2Proof.Machine

variable {f : Format} {c : Chan} {s t : State} {w : Waiting}

/-! ### One waiting action (R135, R160) -/

theorem applyAction_label (a : Action) (k : SpareAns) : ((applyAction c a k s).1.chan c).label = (s.chan c).label :=
  (congrArg (fun p => p.2.2.2.1) (Keeps.rfl.applyAction a k).path :)

theorem applyTake_done (done : (applyAction c w.action w.claim s).2 = none) : applyTake c s w =
    { (applyAction c w.action w.claim s).1 with
      spare := if w.claim = .granted then (applyAction c w.action w.claim s).1.spare.leave c (.take w.id)
        else (applyAction c w.action w.claim s).1.spare } := by
  unfold applyTake
  dsimp only
  rw [done, dropAnswer_eq]

theorem applyTake_failed {r : Reason} (failed : (applyAction c w.action w.claim s).2 = some r) :
    applyTake c s w = raiseChan c .cueFailed { (applyAction c w.action w.claim s).1.modChan c (fun x => { x with
        lastFailure := some ⟨0, r, w.action, (s.chan c).label⟩ }) with
      spare := if w.claim = .granted then (applyAction c w.action w.claim s).1.spare.leave c (.take w.id)
        else (applyAction c w.action w.claim s).1.spare } := by
  unfold applyTake writeFailure
  dsimp only
  rw [failed, dropAnswer_eq, ← applyAction_label (c := c) (s := s) w.action w.claim]
  dsimp only
  exact congrArg (raiseChan c .cueFailed) (modChan_congr rfl)

/-- A waiting action leaves the dispatcher alone but for the last failure. -/
theorem applyTake_dispatcher (s : State) (w : Waiting) : ∃ r, ((applyTake c s w).chan c).dispatcher
    = ({ s.chan c with lastFailure := r } : Channel).dispatcher := by
  have kept := applyAction_dispatcher (c := c) (s := s) w.action w.claim
  cases failed : (applyAction c w.action w.claim s).2 with
  | none =>
    rw [applyTake_done failed]
    exact ⟨_, kept⟩
  | some r =>
    rw [applyTake_failed failed]
    refine ⟨some ⟨0, r, w.action, (s.chan c).label⟩, ?_⟩
    refine (congrArg Channel.dispatcher (modChan_chan_same (applyAction c w.action w.claim s).1 c (fun x => { x with
      lastFailure := some ⟨0, r, w.action, (s.chan c).label⟩ }))).trans ?_
    exact (congrArg (fun d => (d.1, d.2.1, some (⟨0, r, w.action, (s.chan c).label⟩ : Failure))) kept :)

/-- A MARK writes the last marker (R158). -/
theorem applyTake_mark (id n : Nat) (ans : SpareAns) (s : State) : (applyTake c s ⟨id, .mark n, ans⟩).chan c
    = { s.chan c with lastMarker := some ⟨n, (s.chan c).label⟩ } := by
  refine (dropAnswer_chan (s := doMark c n s) c (.take id) ans c).trans ?_
  rw [doMark, raiseChan_chan, modChan_chan_same]

/-! ### The waiting list through a frame start -/

/-- The mode of a channel and its waiting actions. -/
def Channel.queue (ch : Channel) : Mode × List Waiting := (ch.mode, ch.waiting)

theorem slewStep_queue (ch : Channel) : (slewStep ch).queue = ch.queue := by
  unfold slewStep
  split
  · rfl
  · split
    · rfl
    · split <;> rfl

theorem selectOutput_queue (f : Format) (ch : Channel) : (selectOutput f ch).queue = ch.queue := by
  unfold selectOutput
  split <;> rfl

theorem tracked_queue (f : Format) (ch : Channel) : (ch.tracked f).queue = ch.queue := by
  unfold Channel.tracked
  split <;> rfl

theorem leaveBypass_waiting (ch : Channel) : (leaveBypass ch).waiting = ch.waiting := by
  unfold leaveBypass
  split <;> rfl

theorem enterThru_waiting : ((enterThru c s).chan c).waiting = (s.chan c).waiting := by
  rw [enterThru, modChan_chan_same, revertCues_chan]
  exact leaveBypass_waiting _

theorem enterAuto_waiting : ((enterAuto c s).chan c).waiting = (s.chan c).waiting := by
  rw [enterAuto, modChan_chan_same]
  exact leaveBypass_waiting _

theorem takePending_waiting (m : Mode) (mode : ((takePending c m s).1.chan c).mode ≠ .bypass) :
    ((takePending c m s).1.chan c).waiting = (s.chan c).waiting := by
  have pending : ((s.modChan c (fun ch => { ch with pendingMode := none })).chan c).waiting = (s.chan c).waiting := by
    rw [modChan_chan_same]
  unfold takePending at mode ⊢
  dsimp only at mode ⊢
  split
  · exact pending
  · next other =>
    rw [if_neg other] at mode
    cases m with
    | bypass =>
      refine absurd ?_ mode
      show ((enterBypass c _).chan c).mode = _
      rw [enterBypass, modChan_chan_same]
    | thru => exact enterThru_waiting.trans pending
    | auto => exact enterAuto_waiting.trans pending

theorem takeDeferred_waiting : ((takeDeferred c s).chan c).waiting = (s.chan c).waiting := by
  unfold takeDeferred
  split
  · rw [raiseChan_chan]
    exact enterThru_waiting
  · rfl

theorem discardWaiting_mode : ((discardWaiting c s).chan c).mode = (s.chan c).mode := by rw [discardWaiting_chan]

/-- The mode change discards the waiting actions in BYPASS and keeps them in the other modes (R185). -/
theorem modeChange_waiting (s : State) : ((modeChange c s).1.chan c).waiting =
    if ((modeChange c s).1.chan c).mode = .bypass then [] else (s.chan c).waiting := by
  cases pending : (s.chan c).pendingMode with
  | some m =>
    rw [modeChange_of_pending pending]
    by_cases mode : ((takePending c m s).1.chan c).mode = .bypass
    · rw [if_pos mode, discardWaiting_mode, if_pos mode, discardWaiting_chan]
    · rw [if_neg mode, if_neg mode, takePending_waiting m mode]
  | none =>
    rw [modeChange_of_none pending]
    by_cases mode : ((takeDeferred c s).chan c).mode = .bypass
    · rw [if_pos mode, discardWaiting_mode, if_pos mode, discardWaiting_chan]
    · rw [if_neg mode, if_neg mode, takeDeferred_waiting]

theorem SameAsked.reportCrop (h : SameAsked c s t) (p : Port) : SameAsked c s (reportCrop c t p) := by
  unfold Machine.reportCrop
  dsimp only
  split
  · split
    · exact (show SameAsked c s (t.modSrc p _) from h).resolveVisible _
    · exact h
  · exact h

theorem SameAsked.reportCrops (h : SameAsked c s t) : SameAsked c s (reportCrops c t) :=
  List.foldlRecOn _ _ h (fun _ hb p _ => hb.reportCrop p)

theorem reportCrops_queue (s : State) : ((reportCrops c s).chan c).queue = (s.chan c).queue := by
  have waiting : ((reportCrops c s).chan c).waiting = (s.chan c).waiting :=
    congrArg (fun d => d.1.2.2.2) SameAsked.rfl.reportCrops.dispatcher
  have mode : ((reportCrops c s).chan c).mode = (s.chan c).mode := congrArg (fun p => p.1.1) Keeps.rfl.reportCrops.path
  rw [Channel.queue, mode, waiting]
  rfl

theorem dispatch_queue (entered : Bool) (k : Track) (s : State) :
    ((dispatch f c entered k s).chan c).queue = (s.chan c).queue := by
  unfold dispatch
  split
  · split
    · rw [modChan_chan_same]
      rfl
    · rfl
  · have kept := dispatchSteps_accounted (f := f) (c := c) (k := k) (s := s) entered
    rw [Channel.queue, kept.mode, kept.waiting]
    rfl

/-- The card after the dispatch of a channel's frame start. -/
def afterDispatch (f : Format) (c : Chan) (s : State) : State :=
  dispatch f c (modeChange c s).2 (trackerStep f c (beforeTracker f c s)).2
    (reportCrops c (trackerStep f c (beforeTracker f c s)).1)

/-- What follows the dispatch: the waiting actions outside BYPASS, the engine, the hand-over, the re-arm marks. -/
theorem chanFrameStart_afterDispatch (f : Format) (s : State) (c : Chan) : chanFrameStart f s c =
    rearmChannel c (present f c (stepEngine c (if ((afterDispatch f c s).chan c).mode = .bypass
      then afterDispatch f c s else applyTakes c (afterDispatch f c s)))) := rfl

theorem afterDispatch_queue (s : State) :
    ((afterDispatch f c s).chan c).queue = ((modeChange c s).1.chan c).queue := by
  rw [afterDispatch, dispatch_queue, reportCrops_queue, trackerStep_chan, tracked_queue, beforeTracker,
    modChan_chan_same, selectOutput_queue, slewStep_queue]

theorem markInUse_chan (used : List Port) (s : State) : (markInUse c used s).chan c = s.chan c := by
  unfold markInUse
  refine List.foldlRecOn (motive := fun t : State => t.chan c = s.chan c) _ _ rfl (fun t ht p _ => ?_)
  split
  · exact ht
  · exact ht

/-- What the hand-over leaves of its channel. -/
theorem present_chan (f : Format) (s : State) : (present f c s).chan c = { s.chan c with
    keyIn := ⟨(s.chan c).sel.frame.map PgmFrame.pic, (presentedList c s).filterMap (presentOne f s)⟩
    displayed := shownRect c s } := by
  unfold present
  rw [modChan_chan_same, markInUse_chan]

/-- After the waiting actions, engine, hand-over and re-arm marks keep what actions alone change. -/
theorem rearm_present_asked (s : State) :
    ((rearmChannel c (present f c (stepEngine c s))).chan c).asked = (s.chan c).asked := by
  rw [rearmChannel_chan, present_chan]
  exact SameAsked.rfl.stepEngine

theorem rearm_present_label (s : State) :
    ((rearmChannel c (present f c (stepEngine c s))).chan c).label = (s.chan c).label :=
  (congrArg (fun p => p.2.2.2.1) (((Keeps.rfl.stepEngine).present f).rearmChannel c).path :)

theorem applyTakes_waiting (s : State) : ((applyTakes c s).chan c).waiting = [] := by
  rw [applyTakes, modChan_chan_same]

theorem applyTakes_mark {l : List Waiting} {id n : Nat} {ans : SpareAns}
    (last : (s.chan c).waiting = l ++ [⟨id, .mark n, ans⟩]) :
    ((applyTakes c s).chan c).lastMarker = some ⟨n, ((applyTakes c s).chan c).label⟩ := by
  rw [applyTakes, modChan_chan_same, last, List.foldl_append, List.foldl_cons, List.foldl_nil, applyTake_mark]

theorem chanFrameStart_asked (f : Format) (s : State) (c : Chan) : ((chanFrameStart f s c).chan c).asked =
    ((if ((afterDispatch f c s).chan c).mode = .bypass then afterDispatch f c s
      else applyTakes c (afterDispatch f c s)).chan c).asked := rearm_present_asked _

theorem chanFrameStart_waiting (f : Format) (s : State) (c : Chan) :
    ((chanFrameStart f s c).chan c).waiting = [] := by
  refine (congrArg (fun a => a.1.1.2.2.2) (chanFrameStart_asked f s c)).trans ?_
  have queue := afterDispatch_queue (f := f) (c := c) s
  simp only [Channel.queue, Prod.mk.injEq] at queue
  obtain ⟨mode, waiting⟩ := queue
  by_cases bypass : ((afterDispatch f c s).chan c).mode = .bypass
  · rw [if_pos bypass]
    refine waiting.trans ?_
    rw [modeChange_waiting, if_pos (mode ▸ bypass)]
  · rw [if_neg bypass]
    exact applyTakes_waiting _

theorem chanFrameStart_mode (f : Format) (s : State) (c : Chan) :
    ((chanFrameStart f s c).chan c).mode = ((afterDispatch f c s).chan c).mode := by
  have path := (((Keeps.rfl (c := c) (s := if ((afterDispatch f c s).chan c).mode = .bypass then afterDispatch f c s
    else applyTakes c (afterDispatch f c s))).stepEngine.present f).rearmChannel c).path
  refine (congrArg (fun p => p.1.1) path :).trans ?_
  split
  · rfl
  · exact congrArg (fun p => p.1.1) (Keeps.rfl.applyTakes).path

theorem chanFrameStart_mark {l : List Waiting} {id n : Nat} {ans : SpareAns}
    (last : (s.chan c).waiting = l ++ [⟨id, .mark n, ans⟩]) (mode : ((chanFrameStart f s c).chan c).mode ≠ .bypass) :
    ((chanFrameStart f s c).chan c).lastMarker = some ⟨n, ((chanFrameStart f s c).chan c).label⟩ := by
  rw [chanFrameStart_mode] at mode
  have queue := afterDispatch_queue (f := f) (c := c) s
  simp only [Channel.queue, Prod.mk.injEq] at queue
  obtain ⟨sameMode, waiting⟩ := queue
  rw [modeChange_waiting, if_neg (sameMode ▸ mode), last] at waiting
  have label : ((chanFrameStart f s c).chan c).label = ((applyTakes c (afterDispatch f c s)).chan c).label := by
    rw [chanFrameStart_afterDispatch, if_neg mode]
    exact rearm_present_label _
  have marker := (congrArg (fun a => a.2.1) (chanFrameStart_asked f s c)).trans
    (congrArg (fun t : State => (t.chan c).lastMarker) (if_neg mode))
  rw [label]
  exact marker.trans (applyTakes_mark waiting)

/-- Settles O42: a waiting action is an action taken whole, the mode change empties the list in BYPASS, and what
comes after the waiting actions keeps list and last marker. -/
theorem waitingTakesApplied : Obligations.WaitingTakesApplied := by
  refine ⟨?_, fun s c => rfl, ?_⟩
  · rintro f s t c rfl
    exact ⟨chanFrameStart_waiting f s c, fun l id n ans last mode => chanFrameStart_mark last mode⟩
  · rintro s t c w rfl
    obtain ⟨r, kept⟩ := applyTake_dispatcher (c := c) s w
    simp only [Channel.dispatcher, Prod.mk.injEq] at kept
    obtain ⟨⟨cues, deferred, -, -⟩, ⟨fired, failed, missed, removed⟩, -⟩ := kept
    have keeps := (Keeps.rfl (c := c) (s := s)).applyTake w
    exact ⟨_, _, rfl, applyTake_done, fun _ => applyTake_failed, cues, deferred, fired, failed, missed, removed,
      congrArg (fun p => p.2.2.2.1) keeps.path, fun d ne => keeps.chan_ne ne⟩

end Sys2Proof.Machine
end

section
/-! PROOFS. ZONE_DEFINE and ZONE_UNDEFINE (Section 6.2): a resolution does not read the link, so it makes of the
card in which the request is heard what it makes of the card before. -/

namespace Sys2Proof.Machine

variable {s : State} {f : Format} {c : Chan} {p : Port} {l : Link} {o : OnAir}

/-! ### Resolutions do not read the link -/

/-- The same card with another link. -/
def State.relink (s : State) (l : Link) : State := { s with link := l }

theorem relink_chan (s : State) (l : Link) (c : Chan) : (s.relink l).chan c = s.chan c := rfl

theorem relink_src (s : State) (l : Link) (p : Port) : (s.relink l).src p = s.src p := rfl

theorem relink_modSrc (g : Source → Source) : (s.relink l).modSrc p g = (s.modSrc p g).relink l := rfl

theorem changeSource_relink (g : Source → Source) :
    changeSource p g (s.relink l) = (changeSource p g s).relink l := by
  unfold changeSource
  dsimp only
  rw [relink_modSrc, relink_src, relink_src]
  split <;> rfl

theorem letGo_relink : letGo c p (s.relink l) = (letGo c p s).relink l := by
  rw [letGo_eq, letGo_eq]
  exact changeSource_relink _

theorem endCrossfade_relink : endCrossfade c (s.relink l) = (endCrossfade c s).relink l := by
  unfold endCrossfade
  rw [relink_chan]
  cases (s.chan c).out with
  | none => rfl
  | some u =>
    dsimp only
    rw [letGo_relink]
    rfl

theorem reactForcedOut_relink : reactForcedOut c (s.relink l) = (reactForcedOut c s).relink l := by
  unfold reactForcedOut
  rw [relink_chan]
  cases (s.chan c).inset with
  | crossfade =>
    dsimp only
    rw [endCrossfade_relink]
    rfl
  | _ => rfl

theorem currentIs_relink (st : SrcState) : currentIs c st (s.relink l) = currentIs c st s := rfl

theorem reactFitting_relink (n : Nat) : reactFitting c n (s.relink l) = (reactFitting c n s).relink l := by
  unfold reactFitting
  rw [currentIs_relink, relink_chan]
  split
  · split <;> rfl
  · rfl

theorem raiseFault_relink (res : Resolution) (b : Bool) :
    raiseFault c res b (s.relink l) = (raiseFault c res b s).relink l := by
  unfold raiseFault
  dsimp only
  split <;> split <;> rfl

theorem resolveFor_relink (hf : s.format = some f) (c : Chan) (p : Port) :
    (resolveFor c p (s.relink l)).1 = (resolveFor c p s).1.relink l := by
  have same : resolutionFor f c p (s.relink l) = resolutionFor f c p s := rfl
  rw [resolveFor_eq hf, resolveFor_eq (s := s.relink l) hf, same]
  exact raiseFault_relink (s := s.modChan c (Channel.storing (resolutionFor f c p s))) _ _

theorem handOn_relink (n : Nat) (outcome : PlaceOutcome) :
    handOn c n outcome (s.relink l) = (handOn c n outcome s).relink l := by
  unfold handOn
  rw [relink_chan, reactForcedOut_relink, reactFitting_relink]
  split
  · rfl
  · split <;> rfl

theorem resolveVisible_relink (hf : s.format = some f) (hidden : (s.chan c).inset ≠ .hidden)
    (cur : (s.chan c).cur = some o) (n : Nat) :
    (resolveVisible c n (s.relink l)).1 = (resolveVisible c n s).1.relink l := by
  rw [resolveVisible_eq hf hidden cur, resolveVisible_eq (s := s.relink l) hf hidden cur]
  exact (congrArg (handOn c n _) (resolveFor_relink hf c o.src)).trans (handOn_relink n _)

/-- On the link that hears a request stands the link that answers it. -/
theorem relink_replying {u : State} (h : u.link = s.link) (r : Request) (e : Entry) (reply : List Byte) :
    (u.relink { s.link with slot1 := .waiting e 0 }).replying r reply = u.replying r reply := by
  unfold State.replying State.relink
  rw [h]

/-! ### The request (R98, R186) -/

theorem resolveVisible_none (cur : (s.chan c).cur = none) (n : Nat) : resolveVisible c n s = (s, none) := by
  unfold resolveVisible
  split
  · rfl
  · rw [cur]

theorem changeZones_quiet {zones : List Zone} (h : (s.chan c).inset = .hidden ∨ (s.chan c).cur = none ∨
    activeView zones = activeView (s.chan c).zones) :
    changeZones c zones s = (s.modChan c (fun x => { x with zones := zones }), none) := by
  by_cases same : activeView zones = activeView (s.chan c).zones
  · exact changeZones_same same
  · rw [changeZones_changed same]
    rcases h with hidden | absent | view
    · exact resolveVisible_hidden (by rw [modChan_chan_same]; exact hidden) _
    · exact resolveVisible_none (by rw [modChan_chan_same]; exact absent) _
    · exact absurd view same

section Request
variable {op : Byte} {m : ZoneMsg} {z : Zone}

theorem actZoneDefine_noFormat (hf : s.format = none) : actZoneDefine op m s = refuse .noFormat s := by
  rw [actZoneDefine, hf]

theorem actZoneDefine_noChannel (hf : s.format = some f) (ch : 3 < m.ch.toNat) :
    actZoneDefine op m s = refuse .badField s := by
  rw [actZoneDefine, hf]
  exact withChan_of_gt ch s _

variable (hf : s.format = some f) (ch : chanIdx c = m.ch.toNat)
include hf ch

theorem actZoneDefine_noZone (zone : 11 < m.zone.toNat) : actZoneDefine op m s = refuse .noSuch s := by
  rw [actZoneDefine, hf]
  exact (withChan_of_idx ch s _).trans (if_pos zone)

theorem actZoneDefine_badField (zone : m.zone.toNat ≤ 11)
    (bad : zoneAfter f op m (zoneAt (s.chan c).zones m.zone.toNat) = none) :
    actZoneDefine op m s = refuse .badField s := by
  rw [actZoneDefine, hf]
  refine (withChan_of_idx ch s _).trans ((if_neg (Nat.not_lt.mpr zone)).trans ?_)
  rw [bad]

theorem actZoneDefine_stored (zone : m.zone.toNat ≤ 11)
    (good : zoneAfter f op m (zoneAt (s.chan c).zones m.zone.toNat) = some z) :
    actZoneDefine op m s = storeZone c m.zone.toNat z s := by
  rw [actZoneDefine, hf]
  refine (withChan_of_idx ch s _).trans ((if_neg (Nat.not_lt.mpr zone)).trans ?_)
  rw [good]

end Request

theorem storeZone_quiet {i : Nat} {z : Zone} (h : (s.chan c).inset = .hidden ∨ (s.chan c).cur = none ∨
    activeView ((s.chan c).zones.set i z) = activeView (s.chan c).zones) :
    storeZone c i z s = (s.modChan c (fun x => { x with zones := x.zones.set i z }), .ok, be8 0) := by
  unfold storeZone
  rw [changeZones_quiet h]
  exact congrArg (fun t => (t, ResultCode.ok, be8 0)) (modChan_congr (s := s)
    (g := fun x => { x with zones := (s.chan c).zones.set i z }) (h := fun x => { x with zones := x.zones.set i z }) rfl)

/-- The resolution that a changed table causes, on the link that stood before the request. -/
theorem storeZone_resolved {i : Nat} {z : Zone} (hf : s.format = some f) (hidden : (s.chan c).inset ≠ .hidden)
    (cur : (s.chan c).cur = some o) (changed : activeView ((s.chan c).zones.set i z) ≠ activeView (s.chan c).zones)
    (e : Entry) : storeZone c i z (s.hearing e) =
      ((resolveVisible c (s.chan c).defaultGlide (s.modChan c (fun x => { x with zones := x.zones.set i z }))).1.relink
        { s.link with slot1 := .waiting e 0 }, .ok,
       be8 (resolve f (cropRect f (s.src o.src).cropForce) (s.chan c).requested ((s.chan c).zones.set i z)
        (s.chan c).resolved).outcome.code) := by
  obtain ⟨w, hw⟩ : ∃ w, w = s.modChan c (fun x => { x with zones := (s.chan c).zones.set i z }) := ⟨_, rfl⟩
  have whidden : (w.chan c).inset ≠ .hidden := by rwa [hw, modChan_chan_same]
  have wcur : (w.chan c).cur = some o := by rwa [hw, modChan_chan_same]
  have res : resolutionFor f c o.src w = resolve f (cropRect f (s.src o.src).cropForce) (s.chan c).requested
      ((s.chan c).zones.set i z) (s.chan c).resolved := by
    rw [hw, resolutionFor, modChan_chan_same]
    rfl
  have table : s.modChan c (fun x => { x with zones := x.zones.set i z }) = w := hw ▸ modChan_congr rfl
  have answer : (resolveVisible c (s.chan c).defaultGlide (w.relink { s.link with slot1 := .waiting e 0 })).2
      = some (resolutionFor f c o.src w).outcome := by
    exact congrArg Prod.snd (resolveVisible_eq (s := w.relink { s.link with slot1 := .waiting e 0 }) (f := f)
      (by rw [hw]; exact hf) whidden wcur _)
  have zones := changeZones_changed (s := s.hearing e) (c := c) (l := (s.chan c).zones.set i z) changed
  have heard : (s.hearing e).modChan c (fun x => { x with zones := (s.chan c).zones.set i z })
      = w.relink { s.link with slot1 := .waiting e 0 } := by
    rw [hw]
    rfl
  rw [heard] at zones
  unfold storeZone
  rw [show ((s.hearing e).chan c).zones = (s.chan c).zones from rfl, zones]
  dsimp only
  rw [show ((s.hearing e).chan c).defaultGlide = (s.chan c).defaultGlide from rfl, answer,
    resolveVisible_relink (by rw [hw]; exact hf) whidden wcur, table, res]
  rfl

theorem zoneRow {i : Instr} {op : Byte} {m : ZoneMsg} (row : i = .zoneDefine m ∧ op = 1 ∨
    ∃ ch zone, i = .zoneUndefine ch zone ∧ op = 0 ∧ m = undefineMsg ch zone) :
    i.asRequest = some (.zoneDefine op m) := by
  rcases row with ⟨rfl, rfl⟩ | ⟨ch, zone, rfl, rfl, rfl⟩ <;> rfl

/-- Settles O26: the table changes as `changeZones` changes it, and the resolution it causes is that of O54. -/
theorem zoneDefineChangesOneEntry : Obligations.ZoneDefineChangesOneEntry := by
  intro s i op m idle row
  replace row := zoneRow row
  refine ⟨fun hf => exec_idle_refused (r := .zoneDefine op m) (code := .noFormat) idle row
    (actZoneDefine_noFormat hf), fun f hf => ⟨fun ch => ?_, fun c ch => ⟨fun zone => ?_, fun zone => ⟨fun bad => ?_,
      fun z good => ⟨fun quiet => ?_, fun o hidden cur changed => ?_⟩⟩⟩⟩⟩
  · exact exec_idle_refused (r := .zoneDefine op m) (code := .badField) idle row (actZoneDefine_noChannel hf ch)
  · exact exec_idle_refused (r := .zoneDefine op m) (code := .noSuch) idle row (actZoneDefine_noZone hf ch zone)
  · exact exec_idle_refused (r := .zoneDefine op m) (code := .badField) idle row
      (actZoneDefine_badField hf ch zone bad)
  · exact exec_idle (r := .zoneDefine op m) (code := .ok) (fields := be8 0)
      (t := s.modChan c (fun x => { x with zones := x.zones.set m.zone.toNat z })) idle row
      ((actZoneDefine_stored (s := s.hearing _) hf ch zone good).trans (storeZone_quiet quiet))
  · have act := (actZoneDefine_stored (s := s.hearing (.request (.zoneDefine op m))) (op := op) hf ch zone good).trans
      (storeZone_resolved hf hidden cur changed _)
    obtain ⟨w, hw⟩ : ∃ w, w = s.modChan c (fun x => { x with zones := x.zones.set m.zone.toNat z }) := ⟨_, rfl⟩
    have chan : w.chan c = { s.chan c with zones := (s.chan c).zones.set m.zone.toNat z } :=
      hw ▸ modChan_chan_same ..
    obtain ⟨u, hu⟩ : ∃ u, u = (resolveVisible c (s.chan c).defaultGlide w).1 := ⟨_, rfl⟩
    obtain ⟨res, hres⟩ : ∃ res, res = resolve f (cropRect f (s.src o.src).cropForce) (s.chan c).requested
      ((s.chan c).zones.set m.zone.toNat z) (s.chan c).resolved := ⟨_, rfl⟩
    rw [← hw, ← hu, ← hres] at act
    have next := exec_idle_of_act idle row act
    have link : u.link = s.link := by
      rw [hu, card_link (Keeps.rfl.resolveVisible _).card, hw]
      rfl
    rw [relink_replying link] at next
    obtain ⟨-, resolved, outcome, displayed, -⟩ := resolutionIsHandedOn.2.1 w u f c o _ res (by rw [hw]; exact hf)
      (by rw [chan]; exact hidden) (by rw [chan]; exact cur) (by rw [chan, hw]; exact hres) hu
    have zones : (u.chan c).zones = (s.chan c).zones.set m.zone.toNat z := by
      have kept := congrArg (fun a => a.2.2.1) (SameAsked.rfl.resolveVisible (c := c) (s := w) (s.chan c).defaultGlide)
      rw [hu]
      exact kept.trans (by rw [chan]; rfl)
    refine ⟨_, u, res, next, by rw [hu, hw], rfl, fun p => rfl, rfl, rfl, hres, zones, resolved, outcome, ?_, ?_⟩
    · exact displayed.trans (by rw [chan])
    · unfold State.replying
      rw [link]
      rfl

end Sys2Proof.Machine
end

section
/-! PROOFS. The end of a frame start (Section 7.8, Chapter 4): the engine's step, and the hand-over to the key and
blend unit with the in-use marks. -/

namespace Sys2Proof.Machine

variable {f : Format} {c : Chan} {s : State} {p : Port} {o u : OnAir} {used : List Port}

/-! ### The in-use marks (R53) -/

/-- A source of the channel as its in-use mark is set: the slot read where it is presented, or none. -/
def Source.marked (c : Chan) (inUse : Bool) (x : Source) : Source :=
  if x.owner = some c then { x with ring := { x.ring with inUse := if inUse then x.ring.newest else none } } else x

theorem markOne_eq (used : List Port) (s : State) (p : Port) :
    (if (s.src p).owner = some c then
      s.modSrc p (fun x => { x with ring := { x.ring with inUse := if used.contains p then x.ring.newest else none } })
    else s) = s.modSrc p (Source.marked c (used.contains p)) := by
  by_cases own : (s.src p).owner = some c
  · rw [if_pos own]
    exact modSrc_congr (if_pos own).symm
  · rw [if_neg own]
    refine Eq.trans ?_ (modSrc_congr (g := id) (if_neg own).symm)
    unfold State.modSrc
    cases p <;> rfl

theorem foldl_marked_src (l : List Port) (nodup : l.Nodup) (s : State) (p : Port) :
    (l.foldl (fun t q => t.modSrc q (Source.marked c (used.contains q))) s).src p =
      if p ∈ l then (s.src p).marked c (used.contains p) else s.src p := by
  induction l generalizing s with
  | nil => rfl
  | cons q l ih =>
    obtain ⟨out, nodup⟩ := List.nodup_cons.mp nodup
    rw [List.foldl_cons, ih nodup]
    by_cases same : p = q
    · subst same
      rw [if_neg out, modSrc_src_same, if_pos (List.mem_cons_self ..)]
    · rw [modSrc_src_ne _ same]
      simp [same]

theorem markInUse_src (used : List Port) (s : State) (p : Port) :
    (markInUse c used s).src p = (s.src p).marked c (used.contains p) := by
  have marks : markInUse c used s = Port.all.foldl (fun t q => t.modSrc q (Source.marked c (used.contains q))) s :=
    congrArg (fun g => Port.all.foldl g s) (funext fun t => funext fun q => markOne_eq used t q)
  rw [marks, foldl_marked_src Port.all (by decide) s p, if_pos (by cases p <;> decide)]

theorem present_src (f : Format) (s : State) (p : Port) : (present f c s).src p =
    (s.src p).marked c (((presentedList c s).map (fun q => q.1.src)).contains p) := by
  rw [present, modChan_src, markInUse_src]

/-! ### The sources presented (R60, R113, R133) -/

theorem presentedList_hidden (h : (s.chan c).inset = .hidden) : presentedList c s = [] := by
  unfold presentedList
  dsimp only
  rw [h]

theorem presentedList_off (h : (s.chan c).inset = .forcedOut) (still : ∀ o, (s.chan c).cur = some o → o.fade = none) :
    presentedList c s = [] := by
  unfold presentedList
  dsimp only
  rw [h]
  refine if_neg ?_
  cases cur : (s.chan c).cur with
  | none => exact nofun
  | some o => simp [still o cur]

/-- One source on the channel's own scaler. -/
theorem presentedList_own (cur : (s.chan c).cur = some o) (h : (s.chan c).inset = .fadingIn ∨
    (s.chan c).inset = .shown ∨ (s.chan c).inset = .fadingOut ∨ (s.chan c).inset = .held ∨
    (s.chan c).inset = .forcedOut ∧ o.fade ≠ none) : presentedList c s = [(o, shownRect c s, chanIdx c)] := by
  unfold presentedList
  dsimp only
  rcases h with h | h | h | h | ⟨h, fade⟩ <;> rw [h, cur]
  exact if_pos (Option.isSome_iff_ne_none.mpr fade)

/-- In a crossfade the outgoing source comes first, and the incoming one is on the spare. -/
theorem presentedList_crossfade (h : (s.chan c).inset = .crossfade) (cur : (s.chan c).cur = some o)
    (out : (s.chan c).out = some u) :
    presentedList c s = [(u, (s.chan c).outRect, chanIdx c), (o, shownRect c s, 4)] := by
  unfold presentedList
  dsimp only
  rw [h, cur, out]
  rfl

theorem shownRect_none (h : (s.chan c).shown = none ∨ (s.chan c).cur = none) : shownRect c s = none := by
  unfold shownRect
  rcases h with h | h <;> rw [h]
  · split <;> simp_all
  · split <;> simp_all

/-! ### The newest slot (section 3.6) -/

theorem Ring.newestPicture_of_greatest {r : Ring} {i : SlotId} {n : Nat} {pic : Picture}
    (slot : r.get i = .complete n pic) (older : ∀ j m q, j ≠ i → r.get j = .complete m q → m < n) :
    r.newest = some i ∧ r.newestPicture = some pic := by
  obtain ⟨pos, least⟩ := Ring.greatest_of_complete slot older
  have newest := Ring.newest_of_greatest pos least
  refine ⟨newest, ?_⟩
  rw [Ring.newestPicture, newest]
  exact congrArg RingSlot.picture slot

theorem Ring.newestPicture_none {r : Ring} (h : ∀ i n pic, r.get i ≠ .complete n pic) :
    r.newest = none ∧ r.newestPicture = none := by
  have newest : r.newest = none := Ring.newest_none fun i => (RingSlot.age_eq_zero_iff _).mpr (h i)
  refine ⟨newest, ?_⟩
  rw [Ring.newestPicture, newest]

/-! ### The card after the hand-over -/

theorem marked_cropForce (inUse : Bool) (x : Source) : (x.marked c inUse).cropForce = x.cropForce := by
  unfold Source.marked
  split <;> rfl

/-- Hand-over and re-arm marks leave the rectangle drawn where it was. -/
theorem shownRect_rearm_present (s : State) : shownRect c (rearmChannel c (present f c s)) = shownRect c s := by
  have keeps := (Keeps.rfl (c := c) (s := s)).present f |>.rearmChannel c
  refine shownRect_congr (card_format keeps.card) ?_ ?_ (fun q => ?_)
  · rw [rearmChannel_chan, present_chan]
  · rw [rearmChannel_chan, present_chan]
  · rw [rearmChannel_src, present_src, marked_cropForce]

/-! ### The engine's step (R92, R114 to R116, R127) -/

/-- What a glide's step makes of the shown placement and the glide, which alone it reads. -/
def Channel.glided (ch : Channel) : Option Shown × Option Glide :=
  match ch.glide with
  | none => (ch.shown, ch.glide)
  | some g =>
    if g.count ≤ g.step + 1 then (some g.target, none)
    else (some (glideAt g (g.step + 1)), some { g with step := g.step + 1 })

theorem stepGlide_eq (ch : Channel) : ch.stepGlide = { ch with shown := ch.glided.1, glide := ch.glided.2 } := by
  cases glide : ch.glide with
  | none =>
    have stays : ch.stepGlide = ch := by rw [Channel.stepGlide, glide]
    have same : ch.glided = (ch.shown, ch.glide) := by
      unfold Channel.glided
      split
      · rfl
      · next g h => exact absurd (glide.symm.trans h) nofun
    rw [stays, same]
  | some g =>
    simp only [Channel.stepGlide, Channel.glided, glide]
    split <;> rfl

section Outside
variable (mode : (s.chan c).mode ≠ .bypass)
include mode

theorem stepEngine_eq : stepEngine c s = stepHold c ((stepFades c s).modChan c Channel.stepGlide) := if_neg mode

/-- Where no hold runs after the fades, the step of the glide is the last part. -/
theorem stepEngine_of_not_held (held : ((stepFades c s).chan c).inset ≠ .held) :
    stepEngine c s = (stepFades c s).modChan c Channel.stepGlide := by
  rw [stepEngine_eq mode]
  refine if_neg ?_
  rw [modChan_chan_same, stepGlide_eq]
  exact held

end Outside

theorem stepFades_of_still (still : fadeRuns (s.chan c) = false) : stepFades c s = s := if_neg (by simp [still])

theorem fadeRuns_of_still (still : ∀ o, (s.chan c).cur = some o → o.fade = none) : fadeRuns (s.chan c) = false := by
  unfold fadeRuns
  cases cur : (s.chan c).cur with
  | none => simp
  | some o => simp [still o cur]

theorem fadeRuns_held (held : (s.chan c).inset = .held) : fadeRuns (s.chan c) = false := by simp [fadeRuns, held]

theorem stepFades_runs {fd : Fade} (held : (s.chan c).inset ≠ .held) (cur : (s.chan c).cur = some o)
    (fade : o.fade = some fd) (more : fd.step + 1 < fd.count) : stepFades c s = s.modChan c (fun x => { x with
      cur := some o.stepFade, out := x.out.map OnAir.stepFade }) := by
  have runs : fadeRuns (s.chan c) = true := by simp [fadeRuns, held, cur, fade]
  have step : o.stepFade.fade = some { fd with step := fd.step + 1 } := by
    rw [OnAir.stepFade, fade]
    exact congrArg OnAir.fade (if_neg (Nat.not_le.mpr more))
  have stepped : s.modChan c (fun x => { x with cur := x.cur.map OnAir.stepFade, out := x.out.map OnAir.stepFade })
      = s.modChan c (fun x => { x with cur := some o.stepFade, out := x.out.map OnAir.stepFade }) :=
    modChan_congr (by rw [cur]; rfl)
  rw [stepFades, if_pos runs]
  dsimp only
  rw [stepped]
  refine if_pos ?_
  rw [modChan_chan_same]
  simp [fadeRuns, held, step]

theorem letGoAndHide_inset : ((letGoAndHide c s).chan c).inset = .hidden := by
  unfold letGoAndHide
  split <;> rw [modChan_chan_same] <;> rfl

/-- The end of a fade leads into no hold. -/
theorem settleFade_not_held (held : (s.chan c).inset ≠ .held) : ((settleFade c s).chan c).inset ≠ .held := by
  cases h : (s.chan c).inset with
  | fadingIn =>
    rw [settleFade_of_fadingIn h, modChan_chan_same]
    exact nofun
  | fadingOut =>
    rw [settleFade_of_fadingOut h, letGoAndHide_inset]
    exact nofun
  | crossfade =>
    rw [settleFade_of_crossfade h, modChan_chan_same]
    exact nofun
  | forcedOut =>
    rw [settleFade_of_forcedOut h, endForcedFade]
    split
    · rw [letGoAndHide_inset]
      exact nofun
    · exact held
  | held => exact absurd h held
  | _ =>
    unfold settleFade
    rw [h]
    exact held

/-- A channel whose hold has expired, the fade-out having taken its first step (R129). -/
def Channel.holdEnded (ch : Channel) : Channel :=
  { ch with
    inset := .fadingOut, paused := none, exitMark := true
    cur := ch.cur.map (fun o => (o.fadeTo 0 12).stepFade)
    out := if ch.cur.isSome then ch.out.map OnAir.stepFade else ch.out }

theorem stepFades_expired (s : State) :
    stepFades c (expireHold c s) = raiseChan c .holdExpired (s.modChan c Channel.holdEnded) := by
  cases cur : (s.chan c).cur with
  | none =>
    have still : fadeRuns ((expireHold c s).chan c) = false := by
      rw [expireHold, raiseChan_chan, modChan_chan_same]
      simp [fadeRuns, cur]
    rw [stepFades_of_still still, expireHold]
    refine congrArg (raiseChan c .holdExpired) (modChan_congr ?_)
    simp [Channel.holdEnded, cur]
  | some o =>
    have onAir : ((expireHold c s).chan c).cur = some (o.fadeTo 0 12) := by
      rw [expireHold, raiseChan_chan, modChan_chan_same, cur]
      rfl
    have inset : ((expireHold c s).chan c).inset ≠ .held := by
      rw [expireHold, raiseChan_chan, modChan_chan_same]
      exact nofun
    have fade : (o.fadeTo 0 12).fade = some ⟨o.level, 0, 12, 0⟩ := rfl
    rw [stepFades_runs inset onAir fade (show 0 + 1 < 12 by decide), expireHold, raiseChan_modChan,
      modChan_modChan]
    refine congrArg (raiseChan c .holdExpired) (modChan_congr ?_)
    simp [Channel.holdEnded, cur]

theorem stepEngine_fading {fd : Fade} (mode : (s.chan c).mode ≠ .bypass) (held : (s.chan c).inset ≠ .held)
    (cur : (s.chan c).cur = some o) (fade : o.fade = some fd) (more : fd.step + 1 < fd.count) :
    stepEngine c s = s.modChan c (fun x => { x.stepGlide with
      cur := some o.stepFade, out := x.out.map OnAir.stepFade }) := by
  have fades := stepFades_runs held cur fade more
  rw [stepEngine_of_not_held mode (by rw [fades, modChan_chan_same]; exact held), fades, modChan_modChan]
  refine modChan_congr ?_
  rw [stepGlide_eq, stepGlide_eq]
  rfl

theorem stepEngine_fadeEnd {fd : Fade} (mode : (s.chan c).mode ≠ .bypass) (held : (s.chan c).inset ≠ .held)
    (cur : (s.chan c).cur = some o) (fade : o.fade = some fd) (last : fd.count ≤ fd.step + 1) :
    stepEngine c s = (settleFade c (s.modChan c (Channel.fadeEnded o fd.target))).modChan c Channel.stepGlide := by
  have fades := stepFades_ends held cur fade last
  rw [stepEngine_of_not_held mode, fades]
  rw [fades]
  exact settleFade_not_held (by rw [modChan_chan_same]; exact held)

/-- The hold and the glide step together. -/
theorem stepHold_glided (held : (s.chan c).inset = .held) : stepHold c (s.modChan c Channel.stepGlide) =
    if (s.chan c).holdTime ≤ (s.chan c).holdCount + 1
    then stepFades c (expireHold c (s.modChan c (fun x => { x.stepGlide with holdCount := x.holdCount + 1 })))
    else s.modChan c (fun x => { x.stepGlide with holdCount := x.holdCount + 1 }) := by
  have stepped : (s.modChan c Channel.stepGlide).modChan c (fun ch => { ch with holdCount := ch.holdCount + 1 })
      = s.modChan c (fun x => { x.stepGlide with holdCount := x.holdCount + 1 }) := by
    rw [modChan_modChan]
    refine modChan_congr ?_
    rw [stepGlide_eq]
  have inset : ((s.modChan c Channel.stepGlide).chan c).inset = .held := by
    rw [modChan_chan_same, stepGlide_eq]
    exact held
  rw [stepHold, if_pos inset]
  dsimp only
  rw [stepped, modChan_chan_same, stepGlide_eq]

section Held
variable (mode : (s.chan c).mode ≠ .bypass) (held : (s.chan c).inset = .held)
include mode held

theorem stepEngine_held : stepEngine c s = stepHold c (s.modChan c Channel.stepGlide) := by
  rw [stepEngine_eq mode, stepFades_of_still (fadeRuns_held held)]

theorem stepEngine_holding (more : (s.chan c).holdCount + 1 < (s.chan c).holdTime) :
    stepEngine c s = s.modChan c (fun x => { x.stepGlide with holdCount := x.holdCount + 1 }) := by
  rw [stepEngine_held mode held, stepHold_glided held, if_neg (Nat.not_le.mpr more)]

theorem stepEngine_holdExpired (due : (s.chan c).holdTime ≤ (s.chan c).holdCount + 1) : stepEngine c s =
    (stepFades c (expireHold c (s.modChan c (fun x => { x with holdCount := x.holdCount + 1 })))).modChan c
      Channel.stepGlide := by
  rw [stepEngine_held mode held, stepHold_glided held, if_pos due, stepFades_expired, stepFades_expired,
    raiseChan_modChan, modChan_modChan, modChan_modChan, modChan_modChan]
  refine congrArg (raiseChan c .holdExpired) (modChan_congr ?_)
  rw [stepGlide_eq, stepGlide_eq]
  rfl

end Held

/-! ### The statement -/

theorem handOver_laidOut (hf : s.format = some f) (look : OnAir → Rect → Nat → Presented)
    (hl : look = fun o r k => ⟨(s.src o.src).ring.newestPicture, cropRect f (s.src o.src).cropForce,
      (s.src o.src).keyOn, (s.src o.src).kb, (s.src o.src).kr, (s.src o.src).tlo, (s.src o.src).rk, r, o.level, k⟩) :
    ∃ used : List Port,
      (present f c s).chan c = { s.chan c with
        keyIn := ((present f c s).chan c).keyIn, displayed := ((present f c s).chan c).displayed } ∧
      ((s.chan c).shown = none ∨ (s.chan c).cur = none → ((present f c s).chan c).displayed = none) ∧
      ((present f c s).chan c).keyIn.pgm = (s.chan c).sel.frame.map PgmFrame.pic ∧
      ((s.chan c).inset = .hidden ∨ (s.chan c).inset = .forcedOut ∧
          (∀ o, (s.chan c).cur = some o → o.fade = none) →
        used = [] ∧ ((present f c s).chan c).keyIn.sources = []) ∧
      (∀ o v r, (s.chan c).cur = some o → (s.chan c).shown = some v →
        r = ⟨v.x, v.y, derivedWidth (cropRect f (s.src o.src).cropForce).w
          (cropRect f (s.src o.src).cropForce).h v.h, v.h⟩ →
        ((present f c s).chan c).displayed = some r ∧
        ((s.chan c).inset = .fadingIn ∨ (s.chan c).inset = .shown ∨ (s.chan c).inset = .fadingOut ∨
            (s.chan c).inset = .held ∨ (s.chan c).inset = .forcedOut ∧ o.fade ≠ none →
          used = [o.src] ∧ ((present f c s).chan c).keyIn.sources = [look o r (chanIdx c)]) ∧
        ∀ u r0, (s.chan c).inset = .crossfade → (s.chan c).out = some u → (s.chan c).outRect = some r0 →
          used = [u.src, o.src] ∧
          ((present f c s).chan c).keyIn.sources = [look u r0 (chanIdx c), look o r 4]) ∧
      ∀ p, ((s.src p).owner ≠ some c → (present f c s).src p = s.src p) ∧
        ((s.src p).owner = some c → (present f c s).src p = { s.src p with ring := { (s.src p).ring with
          inUse := if p ∈ used then (s.src p).ring.newest else none } }) := by
  subst hl
  refine ⟨(presentedList c s).map (fun q => q.1.src), ?_, ?_, ?_, ?_, ?_, fun p => ⟨fun other => ?_, fun own => ?_⟩⟩
  · rw [present_chan]
  · intro off
    rw [present_chan]
    exact shownRect_none off
  · rw [present_chan]
  · intro off
    have none : presentedList c s = [] := off.elim presentedList_hidden fun h => presentedList_off h.1 h.2
    rw [present_chan, none]
    exact ⟨rfl, rfl⟩
  · intro o v r cur shown hr
    have rect : shownRect c s = some r := by
      rw [shownRect_eq hf shown, cur, hr]
      rfl
    rw [present_chan]
    refine ⟨rect, fun own => ?_, fun u r0 crossfade out outRect => ?_⟩
    · rw [presentedList_own cur own, rect]
      exact ⟨rfl, rfl⟩
    · rw [presentedList_crossfade crossfade cur out, rect, outRect]
      exact ⟨rfl, rfl⟩
  · rw [present_src]
    exact if_neg other
  · rw [present_src, Source.marked, if_pos own]
    simp only [List.contains_iff_mem]

/-- Settles O38: the hand-over by inset state, the order of a frame start by the model's own text, and the
engine's step by what runs. -/
theorem keyUnitIsHandedTheSources : Obligations.KeyUnitIsHandedTheSources := by
  refine ⟨?_, fun r => ⟨Ring.newestPicture_none, fun i n pic => Ring.newestPicture_of_greatest⟩, ?_,
    fun s c => ⟨fun bypass => if_pos bypass, fun mode held => ⟨fun still => ?_, fun o fd cur fade =>
      ⟨stepEngine_fading mode held cur fade, fun last running hf => ?_⟩⟩, fun mode held =>
      ⟨stepEngine_holding mode held, fun due running hf => ?_⟩⟩⟩
  · rintro f s t c look hf rfl hl
    exact handOver_laidOut hf look hl
  · rintro f s w u c m k rfl step rfl
    obtain ⟨rfl, rfl⟩ := Prod.mk.inj step
    have order := chanFrameStart_afterDispatch f s c
    refine ⟨order, ?_, ?_⟩
    · rw [order, rearmChannel_chan, present_chan]
    · rw [order, shownRect_rearm_present, rearmChannel_chan, present_chan]
  · have fades := stepFades_of_still (fadeRuns_of_still still)
    rw [stepEngine_of_not_held mode (by rwa [fades]), fades]
  · obtain ⟨f, hf⟩ := Option.ne_none_iff_exists'.mp hf
    exact ⟨_, exec_fadeEnd running hf held cur fade last, stepEngine_fadeEnd mode held cur fade last⟩
  · obtain ⟨f, hf⟩ := Option.ne_none_iff_exists'.mp hf
    exact ⟨_, exec_holdExpired running hf held due, stepEngine_holdExpired mode held due⟩

end Sys2Proof.Machine
end
